-- ==== Sys2Proof/Word.lean ====
section
/-!
DEFINITION. The words, the small closed sets of names and the sorted association lists that the whole model uses.
Bit vectors stand for what the manual treats as bits; counts, sizes and indexes are natural numbers.
-/
namespace Sys2Proof

/-- One 32-bit word of a bundle (R131). -/
abbrev Word := BitVec 32
/-- A scalar register, a generic address, a control register. -/
abbrev Word64 := BitVec 64
/-- One byte of memory. -/
abbrev Byte := BitVec 8
/-- A vector register of 512 bytes (R118), and a packed residue register of 128 f32 residues. -/
abbrev VReg := BitVec 4096
/-- A mask register (R118). -/
abbrev MReg := BitVec 1024
/-- One half of an accumulator: 256 f32 (or i32) elements (R118). -/
abbrev Tile := BitVec 8192
/-- A 128-byte line (R48). -/
abbrev Line := BitVec 1024
/-- A read or write signature (R240). -/
abbrev Sig := BitVec 2048
/-- A fault code (R363). -/
abbrev Code := BitVec 8

/-- A map from natural numbers kept as a list of pairs with strictly rising keys. -/
abbrev NMap (α : Type) := List (Nat × α)

namespace NMap

/-- The entry at a key, or the default that an unlisted key stands for. -/
def get {α : Type} (m : NMap α) (k : Nat) (d : α) : α :=
  match m with
  | [] => d
  | (j, x) :: t => if j = k then x else NMap.get t k d

/-- The entry at a key, if it is listed. -/
def find {α : Type} (m : NMap α) (k : Nat) : Option α :=
  match m with
  | [] => none
  | (j, x) :: t => if j = k then some x else NMap.find t k

/-- Put an entry at its place. -/
def put {α : Type} (m : NMap α) (k : Nat) (x : α) : NMap α :=
  match m with
  | [] => [(k, x)]
  | (j, y) :: t =>
    if k < j then (k, x) :: (j, y) :: t
    else if k = j then (k, x) :: t
    else (j, y) :: NMap.put t k x

/-- Remove the entry at a key. -/
def del {α : Type} (m : NMap α) (k : Nat) : NMap α :=
  match m with
  | [] => []
  | (j, y) :: t => if j = k then t else (j, y) :: NMap.del t k

end NMap

/-- What a store, a load or a far atomic is to the permission check (R34). -/
inductive Access where
  | read | write | fetch
  deriving DecidableEq, Repr

/-- The state of a tile slot (R110, R111, R179). -/
inductive SlotState where
  | empty | fetching | full | error | cancelled
  deriving DecidableEq, Repr

/-- The state of a key ID (R43). -/
inductive KeyState where
  | free | installed | retiring
  deriving DecidableEq, Repr

/-- The power state of PWRSTAT.STATE (R428). -/
inductive PowerState where
  | run | standby | entering
  deriving DecidableEq, Repr

end Sys2Proof
end

