-- ==== Sys2Proof/Machine/Bits.lean ====
section
/-!
DEFINITION. Bit-field, sign-extension, byte-order and counting helpers. Lists of elements run from element 0 upward.
-/
namespace Sys2Proof.Machine

/-- Bits [lo + w - 1 : lo] of a number. -/
def bitsN (x lo w : Nat) : Nat := (x >>> lo) % 2 ^ w

/-- Bits [hi:lo] of a 64-bit word as a number. -/
def fld (x : Word64) (hi lo : Nat) : Nat := bitsN x.toNat lo (hi + 1 - lo)

/-- Bit i of a 64-bit word. -/
def bitAt (x : Word64) (i : Nat) : Bool := x.getLsbD i

/-- Replace bits [hi:lo] of a word. -/
def setFld (x : Word64) (hi lo : Nat) (v : Nat) : Word64 :=
  let w := hi + 1 - lo
  let m : Word64 := BitVec.ofNat 64 ((2 ^ w - 1) <<< lo)
  (x &&& ~~~m) ||| (BitVec.ofNat 64 ((v % 2 ^ w) <<< lo))

/-- The two's-complement value of the low w bits of a number. -/
def signedN (w x : Nat) : Int :=
  let y := x % 2 ^ w
  if w = 0 then 0 else if y < 2 ^ (w - 1) then (y : Int) else (y : Int) - (2 ^ w : Nat)

/-- The low w bits of an integer. -/
def wrapN (w : Nat) (x : Int) : Nat := (x % ((2 ^ w : Nat) : Int)).toNat

/-- Sign-extend to 64 bits. -/
def sext64 {n : Nat} (x : BitVec n) : Word64 := x.signExtend 64

/-- A Boolean as one bit. -/
def bit (b : Bool) : Nat := if b then 1 else 0

/-- Element i of n elements of w bits. -/
def elemN (w : Nat) (x : Nat) (i : Nat) : Nat := (x >>> (i * w)) % 2 ^ w

/-- The elements of a number, n of w bits each, element 0 first. -/
def elemsN (w : Nat) : Nat → Nat → List Nat
  | 0, _ => []
  | n + 1, x => x % 2 ^ w :: elemsN w n (x >>> w)

/-- The number whose elements of w bits are listed, element 0 first. -/
def packN (w : Nat) : List Nat → Nat
  | [] => 0
  | x :: t => (x % 2 ^ w) + (packN w t) <<< w

/-- The bytes of a number, least significant first (R70). -/
def bytesOf (n : Nat) (x : Nat) : List Byte := (elemsN 8 n x).map (BitVec.ofNat 8)

/-- The number held in bytes, least significant first (R70). -/
def ofBytes (l : List Byte) : Nat := packN 8 (l.map BitVec.toNat)

/-- Reverse the order of the bits of a 32-bit value (R93). -/
def reverse32 (x : BitVec 32) : BitVec 32 := x.reverse

/-- The number of one bits among the low n bits. -/
def popN : Nat → Nat → Nat
  | 0, _ => 0
  | n + 1, x => x % 2 + popN n (x / 2)

/-- The index of the lowest one bit among the low n bits, or n. -/
def firstN : Nat → Nat → Nat
  | 0, _ => 0
  | n + 1, x => if x % 2 = 1 then 0 else firstN n (x / 2) + 1

/-- Integer square root by fixed descent over the bits, for a number below 4 ^ k. -/
def isqrtBits : Nat → Nat → Nat → Nat
  | 0, _, r => r
  | k + 1, x, r =>
    let t := r + 2 ^ k
    isqrtBits k x (if t * t ≤ x then t else r)

/-- The integer square root. -/
def isqrt (x : Nat) : Nat := isqrtBits (x.log2 / 2 + 1) x 0

/-- The number of one bits among the first n list places (element masks as lists of Booleans). -/
def maskList (n : Nat) (m : Nat) : List Bool := (elemsN 1 n m).map (· == 1)

/-- `Hash32` (R93): each multiply-and-xor step, modulo 2^32. -/
def hash32 (x seed : BitVec 32) : BitVec 32 :=
  let x := x + seed
  let x := x ^^^ (x * 0x5A3C9E16#32)
  let x := x ^^^ (x * 0xD1B54A32#32)
  let x := x ^^^ (x * 0x94D049BA#32)
  x ^^^ (x * 0x2C1B3C6E#32)

/-- Rotate the 16-bit digest left by 3 and xor a token in (R154). -/
def digestStep (d : BitVec 16) (t : Nat) : BitVec 16 := d.rotateLeft 3 ^^^ BitVec.ofNat 16 t

/-- `Digest` over a list of tokens (R154). -/
def digest (d : BitVec 16) (ts : List Nat) : BitVec 16 := ts.foldl digestStep d

/-- The smallest multiple of m not below x, for m above 0. -/
def roundUp (x m : Nat) : Nat := (x + m - 1) / m * m

/-- One element of a list by a free number: the only one where there is one. -/
def pickOf {α : Type} (l : List α) (n : Nat) : Option α :=
  match l with
  | [] => none
  | [x] => some x
  | x :: y :: t => (x :: y :: t)[n % (t.length + 2)]?

end Sys2Proof.Machine
end

