-- ==== Sys2Proof/Machine/Formats.lean ====
section
/-!
DEFINITION. Number formats, exact values, rounding, block scales, compensated sums and the matrix step sum (spec/04,
R70-R92), and the functions of R200. A value is an exact dyadic number, perhaps with something positive below its last
place (`sticky`), an infinity or NaN. Formats are named by their stored-format codes 1-17 of R66; 18 is f64, 19 i64 and
20 n64.
-/
namespace Sys2Proof.Machine

/-- An exact value (R76): ±(mant + ε) × 2^exp with 0 ≤ ε < 1, ε above 0 exactly when sticky. -/
inductive FVal where
  | nan
  | inf (neg : Bool)
  | fin (neg : Bool) (mant : Nat) (exp : Int) (sticky : Bool)
  deriving DecidableEq, Repr

/-- A format (R70-R72): width; integer or float; signed; exponent and mantissa widths, bias; infinities; the NaN code
(none where the format has no NaN). -/
structure Fmt where
  w : Nat
  int : Bool
  signed : Bool
  ew : Nat
  mw : Nat
  bias : Nat
  hasInf : Bool
  nan : Option Nat
  deriving DecidableEq, Repr

/-- The format of a code (R66, R70, R72, R74). -/
def fmtOf (c : Nat) : Fmt :=
  if c = 1 then ⟨4, true, true, 0, 0, 0, false, none⟩
  else if c = 2 then ⟨4, true, false, 0, 0, 0, false, none⟩
  else if c = 3 then ⟨8, true, true, 0, 0, 0, false, none⟩
  else if c = 4 then ⟨8, true, false, 0, 0, 0, false, none⟩
  else if c = 5 then ⟨16, true, true, 0, 0, 0, false, none⟩
  else if c = 6 then ⟨16, true, false, 0, 0, 0, false, none⟩
  else if c = 7 then ⟨32, true, true, 0, 0, 0, false, none⟩
  else if c = 8 then ⟨32, true, false, 0, 0, 0, false, none⟩
  else if c = 9 then ⟨2, true, true, 0, 0, 0, false, none⟩
  else if c = 10 then ⟨4, false, true, 2, 1, 1, false, none⟩
  else if c = 11 then ⟨6, false, true, 2, 3, 1, false, none⟩
  else if c = 12 then ⟨6, false, true, 3, 2, 3, false, none⟩
  else if c = 13 then ⟨8, false, true, 4, 3, 7, false, some 0x7F⟩
  else if c = 14 then ⟨8, false, true, 5, 2, 15, true, some 0x7E⟩
  else if c = 15 then ⟨16, false, true, 8, 7, 127, true, some 0x7FC0⟩
  else if c = 16 then ⟨16, false, true, 5, 10, 15, true, some 0x7E00⟩
  else if c = 17 then ⟨32, false, true, 8, 23, 127, true, some 0x7FC00000⟩
  else if c = 18 then ⟨64, false, true, 11, 52, 1023, true, some 0x7FF8000000000000⟩
  else if c = 19 then ⟨64, true, true, 0, 0, 0, false, none⟩
  else ⟨64, true, false, 0, 0, 0, false, none⟩

/-- FSTAT flags as one 5-bit value (R78): TC, DZ, IX, OV, NV from bit 4 down. -/
abbrev Flags := BitVec 5
def flNone : Flags := 0
def flNV : Flags := 1
def flOV : Flags := 2
def flIX : Flags := 4
def flDZ : Flags := 8
def flTC : Flags := 16

/-- An integer as an exact value. -/
def FVal.ofInt (x : Int) : FVal := .fin (x < 0) x.natAbs 0 false

/-- A positive zero. -/
def FVal.zero : FVal := .fin false 0 0 false

/-- Whether a value is a zero. -/
def FVal.isZero : FVal → Bool
  | .fin _ 0 _ false => true
  | _ => false

/-- Whether a value is NaN. -/
def FVal.isNan : FVal → Bool
  | .nan => true
  | _ => false

/-- Whether a value is infinite. -/
def FVal.isInf : FVal → Bool
  | .inf _ => true
  | _ => false

/-- The sign of a value. -/
def FVal.sign : FVal → Bool
  | .nan => false
  | .inf n => n
  | .fin n _ _ _ => n

/-- The same value with another sign. -/
def FVal.withSign (v : FVal) (n : Bool) : FVal :=
  match v with
  | .nan => .nan
  | .inf _ => .inf n
  | .fin _ m e st => .fin n m e st

/-- The opposite value. -/
def FVal.neg (v : FVal) : FVal := v.withSign (!v.sign)

/-- The magnitude. -/
def FVal.abs (v : FVal) : FVal := v.withSign false

/-- A value times a power of two. -/
def FVal.scale (v : FVal) (k : Int) : FVal :=
  match v with
  | .fin n m e st => .fin n m (e + k) st
  | v => v

/-- `Decode` (R76), with the flag TC of the t2 code 0b10 (R71). -/
def decodeFmt (c : Nat) (bits : Nat) : FVal × Flags :=
  let f := fmtOf c
  let b := bits % 2 ^ f.w
  if c = 9 then
    (if b = 1 then .ofInt 1 else if b = 3 then .ofInt (-1) else .zero, if b = 2 then flTC else flNone)
  else if f.int then (.ofInt (if f.signed then signedN f.w b else b), flNone)
  else
    let s := b / 2 ^ (f.w - 1) = 1
    let e := b / 2 ^ f.mw % 2 ^ f.ew
    let m := b % 2 ^ f.mw
    let ones := 2 ^ f.ew - 1
    if c = 13 ∧ e = 15 ∧ m = 7 then (.nan, flNone)
    else if f.hasInf ∧ e = ones then (if m = 0 then .inf s else .nan, flNone)
    else if e = 0 then (.fin s m (1 - (f.bias : Int) - f.mw) false, flNone)
    else (.fin s (2 ^ f.mw + m) ((e : Int) - f.bias - f.mw) false, flNone)

/-- The value alone. -/
def decV (c : Nat) (bits : Nat) : FVal := (decodeFmt c bits).1

/-- The exponent of the top binade of a float format (R87). -/
def topBinade (f : Fmt) : Int :=
  if f.hasInf then (2 ^ f.ew - 2 : Int) - f.bias else (2 ^ f.ew - 1 : Int) - f.bias

/-- Max of a format as mantissa and exponent (R70, R72): E4M3 stops one below its last code. -/
def maxMag (c : Nat) : Nat × Int :=
  let f := fmtOf c
  if c = 9 then (1, 0)
  else if f.int then (if f.signed then 2 ^ (f.w - 1) - 1 else 2 ^ f.w - 1, 0)
  else if c = 13 then (14, 5)
  else (2 ^ (f.mw + 1) - 1, topBinade f - f.mw)

/-- The magnitude of Min of a format: for signed integers one more than Max, 0 for unsigned ones (R80). -/
def minMag (c : Nat) : Nat × Int :=
  let f := fmtOf c
  if c = 9 then (1, 0)
  else if f.int then (if f.signed then 2 ^ (f.w - 1) else 0, 0)
  else maxMag c

/-- Compare two exact magnitudes m × 2^e. -/
def magLt (m1 : Nat) (e1 : Int) (m2 : Nat) (e2 : Int) : Bool :=
  if e1 ≤ e2 then m1 < m2 <<< (e2 - e1).toNat else m1 <<< (e1 - e2).toNat < m2

/-- `Encode` of a value that lies on the format's grid (R76). -/
def encodeFmt (c : Nat) (v : FVal) : Nat :=
  let f := fmtOf c
  match v with
  | .nan => f.nan.getD 0
  | .inf n => if f.int then 0 else (bit n * 2 ^ f.ew + (2 ^ f.ew - 1)) * 2 ^ f.mw
  | .fin n m e _ =>
    if f.int then
      let x := if e ≥ 0 then m <<< e.toNat else m >>> (-e).toNat
      wrapN f.w (if n then -(x : Int) else x)
    else if m = 0 then bit n * 2 ^ (f.w - 1)
    else
      let be := (m.log2 : Int) + e
      let emin := 1 - (f.bias : Int)
      let q := (if be < emin then emin else be) - f.mw
      let x := if e ≥ q then m <<< (e - q).toNat else m >>> (q - e).toNat
      let field := if be < emin then x else ((be + f.bias).toNat - 1) * 2 ^ f.mw + x
      bit n * 2 ^ (f.w - 1) + field

/-- Whether rounding a magnitude n + rem/2^k (with sticky) goes to n + 1 in a mode (R79, R82); r are the weave bits. -/
def roundsAway (mode : Nat) (neg : Bool) (n rem k : Nat) (st : Bool) (r : Nat) : Bool :=
  let half := 2 ^ k
  if mode = 1 then false
  else if mode = 2 then neg
  else if mode = 3 then !neg
  else if mode = 4 then half ≤ 2 * rem
  else if mode = 5 then r < rem * 2 ^ 32 / 2 ^ k
  else if mode = 7 then n % 2 = 0
  else if 2 * rem = half then st || n % 2 = 1
  else half < 2 * rem

/-- The result of a rounding: the value on the grid and the flags raised. -/
structure Rounded where
  q : FVal
  fl : Flags
  deriving DecidableEq, Repr

/-- The replacement of R81 for a rounded value beyond the range, by the mode that rounded it. -/
def overflowTo (c mode : Nat) (neg : Bool) : FVal :=
  let f := fmtOf c
  let (mm, me) := if neg then minMag c else maxMag c
  let bound : FVal := .fin (neg && mm != 0) mm me false
  if !f.hasInf then bound
  else if mode = 1 || mode = 7 then bound
  else if mode = 2 then (if neg then .inf true else bound)
  else if mode = 3 then (if neg then bound else .inf false)
  else .inf neg

/-- Round a finite value to the grid of a format (R79-R81): the extended grid, the mode, the overflow replacement and
the sign of a zero. -/
def roundFin (c mode r : Nat) (neg : Bool) (m : Nat) (e : Int) (st : Bool) : Rounded :=
  let f := fmtOf c
  let qe : Int :=
    if f.int then 0
    else
      let be := (m.log2 : Int) + e
      let lo := 1 - (f.bias : Int)
      let hi := topBinade f
      (if m = 0 ∨ be < lo then lo else if hi < be then hi else be) - f.mw
  let k := (qe - e).toNat
  let n := if qe ≤ e then m <<< (e - qe).toNat else m >>> k
  let rem := if qe ≤ e then 0 else m % 2 ^ k
  let exact := rem = 0 && !st
  let n' := if exact then n else if roundsAway mode neg n rem k st r then n + 1 else n
  let fl := if exact then flNone else flIX
  let (mm, me) := if neg then minMag c else maxMag c
  if magLt mm me n' qe then ⟨overflowTo c mode neg, fl ||| flOV⟩
  else ⟨.fin (if f.int && n' = 0 then false else neg) n' qe false, fl⟩

/-- `RoundToFormat` of R80 without its draw and its residue: mode 0b110 is nearest even here, r are the weave bits. -/
def roundV (c mode r : Nat) (v : FVal) : Rounded :=
  let f := fmtOf c
  match v with
  | .nan => if f.nan.isSome then ⟨.nan, flNone⟩ else ⟨.zero, flNV⟩
  | .inf n =>
    if f.hasInf then ⟨.inf n, flNone⟩
    else
      let (mm, me) := if n then minMag c else maxMag c
      ⟨.fin (n && mm != 0) mm me false, flNV⟩
  | .fin n m e st => roundFin c (if mode = 6 then 0 else mode) r n m e st

/-- Round to nearest, ties to even: RN of R90 for any format. -/
def rnV (c : Nat) (v : FVal) : FVal := (roundV c 0 0 v).q

/-- The exact sum of two values (R198): an exact zero is negative where both addends are zeros of negative sign, and otherwise
takes the sign given for it. The sums of R90, for which the manual states no sign of an exact zero, give +0 there (log 54).
`none` where infinities of opposite sign meet. -/
def addV (zneg : Bool) (a b : FVal) : Option FVal :=
  match a, b with
  | .nan, _ => some .nan
  | _, .nan => some .nan
  | .inf x, .inf y => if x = y then some (.inf x) else none
  | .inf x, _ => some (.inf x)
  | _, .inf y => some (.inf y)
  | .fin n1 m1 e1 s1, .fin n2 m2 e2 s2 =>
    let e := if e1 ≤ e2 then e1 else e2
    let x1 : Int := m1 <<< (e1 - e).toNat
    let x2 : Int := m2 <<< (e2 - e).toNat
    let t := (if n1 then -x1 else x1) + (if n2 then -x2 else x2)
    if t = 0 then some (.fin (if n1 && n2 then true else zneg) 0 e (s1 || s2))
    else some (.fin (t < 0) t.natAbs e (s1 || s2))

/-- The exact product; `none` for 0 × ∞. -/
def mulV (a b : FVal) : Option FVal :=
  match a, b with
  | .nan, _ => some .nan
  | _, .nan => some .nan
  | .inf x, y => if y.isZero then none else some (.inf (x != y.sign))
  | x, .inf y => if x.isZero then none else some (.inf (x.sign != y))
  | .fin n1 m1 e1 _, .fin n2 m2 e2 _ => some (.fin (n1 != n2) (m1 * m2) (e1 + e2) false)

/-- a < b on numbers and infinities, −0 equal to +0. -/
def ltV (a b : FVal) : Bool :=
  match a, b with
  | .nan, _ => false
  | _, .nan => false
  | .inf x, .inf y => x && !y
  | .inf x, _ => x
  | _, .inf y => !y
  | .fin n1 m1 e1 _, .fin n2 m2 e2 _ =>
    if m1 = 0 ∧ m2 = 0 then false
    else if m1 = 0 then !n2
    else if m2 = 0 then n1
    else if n1 != n2 then n1
    else if n1 then magLt m2 e2 m1 e1 else magLt m1 e1 m2 e2

/-- a = b on numbers and infinities, −0 equal to +0. -/
def eqV (a b : FVal) : Bool := !a.isNan && !b.isNan && !ltV a b && !ltV b a

/-- `mode 0b110` (R80, R83): add the residue, round to nearest even, keep the new residue, whose own rounding sets its flags
too. A residue of exactly zero is −0 where x is −0 and q the integer 0, and else +0, for which R80 gives no sign (log 54). -/
def roundResidue (c : Nat) (v res : FVal) : Rounded × FVal :=
  match v with
  | .fin _ _ _ _ =>
    let x := ((addV v.sign v res).getD v)
    let x := if x.isZero then x.withSign v.sign else x
    let q := roundV c 0 0 x
    let left := match q.q with
      | .fin _ _ _ _ => roundV 17 0 0 ((addV false x q.q.neg).getD .zero)
      | _ => ⟨.zero, flNone⟩
    (⟨q.q, q.fl ||| left.fl⟩, left.q)
  | v => (roundV c 0 0 v, .zero)

/-- `Sat` (R86) for an integer format: the clamped value and OV. -/
def satI (c : Nat) (x : Int) : Int × Flags :=
  let hi : Int := (maxMag c).1
  let lo : Int := -((minMag c).1 : Int)
  if hi < x then (hi, flOV) else if x < lo then (lo, flOV) else (x, flNone)

/-- RN(a + b) in f32 (R90), NaN where infinities of opposite sign meet, with the flags of that rounding (R80, R81). -/
def rnSum (a b : FVal) : Rounded :=
  match addV false a b with
  | none => ⟨.nan, flNone⟩
  | some x => roundV 17 0 0 x

/-- The value of RN(a + b). -/
def rnAdd (a b : FVal) : FVal := (rnSum a b).q

/-- `TwoSum` (R90) in f32. -/
def twoSum (a b : FVal) : FVal × FVal :=
  let s := rnAdd a b
  match addV false a b, s with
  | some x, .fin _ _ _ _ => (s, (addV false x s.neg).getD .zero)
  | _, _ => (s, .zero)

/-- `CompAdd` (R90). -/
def compAdd (x y : FVal × FVal) : FVal × FVal :=
  let (s, t) := twoSum x.1 y.1
  let e := rnAdd (rnAdd x.2 y.2) t
  (s, if s.isNan then .nan else e)

/-- The flags of the three roundings of a `CompAdd`, for the instructions that set FSTAT (R80, R90, R187). -/
def compAddFlags (x y : FVal × FVal) : Flags :=
  (rnSum x.1 y.1).fl ||| (rnSum x.2 y.2).fl ||| (rnSum (rnAdd x.2 y.2) (twoSum x.1 y.1).2).fl

/-- RN(sum + err), the sum taken exactly; NaN if either half is NaN (R91, R413). -/
def readPair (p : FVal × FVal) : FVal := (addV false p.1 p.2).getD .nan

/-- The term of `StepSum` for one product at the cut 2^u: truncated toward zero, and whether bits were lost. -/
def stepTerm (u : Int) (p : FVal) : Int × Bool :=
  match p with
  | .fin n m e _ =>
    let k := (u - e).toNat
    let x : Nat := if u ≤ e then m <<< (e - u).toNat else m >>> k
    (if n then -(x : Int) else x, u > e && m % 2 ^ k != 0)
  | _ => (0, false)

/-- The largest floor(log2 |p|) over the nonzero products. -/
def stepExp (ps : List FVal) : Option Int :=
  ps.foldl (fun a p => match p with
    | .fin _ m e _ =>
      if m = 0 then a
      else
        let x := (m.log2 : Int) + e
        match a with
        | none => some x
        | some y => some (if y < x then x else y)
    | _ => a) none

/-- `StepSum` (R89). -/
def stepSum (ps : List FVal) : FVal :=
  let pinf := ps.any (· == .inf false)
  let ninf := ps.any (· == .inf true)
  if ps.any (·.isNan) || (pinf && ninf) then .nan
  else if pinf then .inf false
  else if ninf then .inf true
  else match stepExp ps with
    | none => .zero
    | some ex =>
      let u := ex - 64
      let ts := ps.map (stepTerm u)
      let s : Int := ts.foldl (fun (a : Int) t => a + t.1) 0
      let st := ts.any (·.2)
      if s = 0 then .zero
      else
        let be : Int := (s.natAbs.log2 : Int) + u
        let qe : Int := (if be < -126 then -126 else if 127 < be then 127 else be) - 23
        let k := (qe - u).toNat
        let tie := u < qe && s.natAbs % 2 ^ k * 2 = 2 ^ k
        (roundFin 17 (if st && tie then 4 else 0) 0 (s < 0) s.natAbs u false).q

/-- `BlockScale` (R87) over the active values of a block. -/
def blockScale (c : Nat) (vals : List FVal) : Nat :=
  if vals.any (fun v => v.isNan || v.isInf) then 0xFF
  else
    let big := vals.foldl (fun a v => if ltV a v.abs then v.abs else a) FVal.zero
    match big with
    | .fin _ m e _ =>
      if m = 0 then 0x7F
      else
        let emax : Int := if c = 3 then 6 else topBinade (fmtOf c)
        let x : Int := 127 + ((m.log2 : Int) + e) - emax
        let y := roundTrial c m (e + 127 - x)
        let x := if y then x + 1 else x
        if x < 0 then 0 else if 254 < x then 254 else x.toNat
    | _ => 0xFF
where
  /-- Whether `RoundToGrid` of m × 2^e exceeds Max (R87). -/
  roundTrial (c : Nat) (m : Nat) (e : Int) : Bool := (roundFin c 0 0 false m e false).fl &&& flOV != 0

/-- ln 2 × 2^320, truncated. -/
def ln2Fix : Nat := 1480553391661173448385607439722553250922680800745876974795605978609098082859138712941075737848984

/-- Σ y^i / i! for i from 0 in fixed point with 320 fraction bits: the terms still to add. -/
def expSeries : Nat → Nat → Nat → Nat → Nat
  | 0, _, _, _ => 0
  | fuel + 1, y, term, i => term + expSeries fuel y (term * y / 2 ^ 320 / (i + 1)) (i + 1)

/-- 2^a for a finite a (R200): exact for integers, otherwise 300 bits below the leading one and sticky. -/
def exp2V (n : Bool) (m : Nat) (e : Int) : FVal :=
  if m = 0 then .ofInt 1
  else if 14 ≤ (m.log2 : Int) + e then .fin false 1 (if n then -20000 else 20000) (e < 0 && m % 2 ^ (-e).toNat != 0)
  else if e ≥ 0 then .fin false 1 (if n then -((m <<< e.toNat : Nat) : Int) else (m <<< e.toNat : Nat)) false
  else
    let k := (-e).toNat
    let x : Int := if n then -(m : Int) else m
    let ip : Int := x / ((2 ^ k : Nat) : Int)
    let fp : Nat := (x % ((2 ^ k : Nat) : Int)).toNat
    if fp = 0 then .fin false 1 ip false
    else
      let y := (fp * ln2Fix) >>> k
      .fin false (expSeries 90 y (2 ^ 320) 0 >>> 20) (ip - 300) true

/-- Σ z^(2i+1) / (2i+1) in fixed point with 320 fraction bits: the terms still to add. -/
def atanhSeries : Nat → Nat → Nat → Nat → Nat
  | 0, _, _, _ => 0
  | fuel + 1, z2, zp, i => zp / (2 * i + 1) + atanhSeries fuel z2 (zp * z2 / 2 ^ 320) (i + 1)

/-- log2 of a positive finite value (R200): exact for powers of two, otherwise sticky with 300 fraction bits. -/
def log2V (m : Nat) (e : Int) : FVal :=
  let k := m.log2
  let ip : Int := (k : Int) + e
  if m = 2 ^ k then .ofInt ip
  else
    let num := (m - 2 ^ k) * 2 ^ 320
    let z := num / (m + 2 ^ k)
    let ln : Nat := 2 * atanhSeries 120 (z * z / 2 ^ 320) z 0
    let l2 : Nat := ln * 2 ^ 320 / (ln2Fix + 1)
    let t : Int := (ip * ((2 ^ 320 : Nat) : Int) + (l2 : Int)) / ((2 ^ 20 : Nat) : Int)
    if t < 0 then .fin true (-t - 1).toNat (-300) true else .fin false t.toNat (-300) true

/-- 1/a for a nonzero finite a (R200). -/
def rcpV (n : Bool) (m : Nat) (e : Int) : FVal :=
  let p := m.log2 + 200
  .fin n (2 ^ p / m) (-(p : Int) - e) (2 ^ p % m != 0)

/-- 1/√a for a positive finite a (R200). -/
def rsqrtV (m : Nat) (e : Int) : FVal :=
  let odd := e % 2 != 0
  let m : Nat := if odd then 2 * m else m
  let e : Int := if odd then e - 1 else e
  let p := m.log2 + 200
  let q := isqrt (2 ^ (2 * p) / m)
  .fin false q (-(p : Int) - e / 2) (q * q * m != 2 ^ (2 * p))

end Sys2Proof.Machine
end

