-- ==== Sys2Proof/Config.lean ====
section
/-!
DEFINITION. What an implementation fixes and the free values: constants without a body, so that no proof can use a value
of theirs. A counter in the state (`moment`) is read and advanced with each use of a free choice.
-/
namespace Sys2Proof.Config

/-- A free choice: which of several possible happenings comes next, at which moment a free-running read is served,
and the like. The manual leaves it open (R4: a freedom with its bound; the bound is at the place of use). -/
opaque choice : Nat → Nat

/-- What happens in a step that nothing outside names: the number of a kind of happening, and the unit and the part of it
that it concerns. The manual fixes no order among happenings that are possible at one time (R4, R266). -/
opaque event : Nat → Nat × Nat × Nat

/-- Working cycles that pass in one step of the model: timing the manual leaves to the implementation. -/
opaque cycles : Nat → Nat

/-- Nanoseconds of domain time that pass in one step of the model. -/
opaque nanos : Nat → Nat

/-- What a line left in HBM by another key ID decrypts to (R45): it depends on the line's address, its ciphertext (the
writer's key and plaintext) and the reader's key, and on nothing else. -/
opaque decrypt : Nat → BitVec 512 → Line → BitVec 512 → Line

/-- The fresh key the supervisor firmware installs under key ID 0 at the n-th cold reset (R43, R430). -/
opaque freshKey : Nat → BitVec 512

/-- The entry address of the supervisor firmware on a core, in the image that is in effect, the empty list for the one that the package
comes with (R420, R457: the firmware's entry). -/
opaque firmwareEntry : List Byte → Nat → Word64

/-- Where in local HBM the bytes of a firmware image stand after a cold reset (R420, R430): the manual gives no place. -/
opaque firmwarePlace : Nat

/-- Whether the repair maps of an image name a unit of a die as one that a spare replaces (R420, R430): cells and slices by their
numbers. The manual gives no layout of the image. -/
opaque repaired : List Byte → Nat → Bool

/-- The FRU data that the management endpoint serves (R420). -/
opaque fruData : List Byte

/-- Whether the self-test of a unit at the n-th cold reset finds it good (R430): cells and slices by their numbers. -/
opaque selfTest : Nat → Nat → Bool

/-- Whether the host refuses or fails a table read for a PASID at a moment (R33): the moment, the PASID and the address read. -/
opaque hostRefuses : Nat → Nat → Nat → Bool

/-- Whether a walk uses an upper-level entry that its die's walk cache holds (R36): the manual gives no size or replacement
of that cache, so at any moment an entry may or may not still be there. -/
opaque walkCached : Nat → Bool

/-- Whether a host memory access for a PASID at a moment returns an error (R311). -/
opaque hostFails : Nat → Nat → Bool

/-- How many packages the service processor puts into the domain at the n-th cold reset, less one (R13, R430). -/
opaque packages : Nat → Nat

/-- The worst one-way latency D that the service processor measures, in units of 50 ns (R398). -/
opaque latency : Nat → Nat

/-- The base of the HDM window that the host programs at the n-th cold reset, in units of 4 KiB (R32, R400). -/
opaque hdmBase : Nat → Nat

/-- The transaction field and the payload of a flit on a port, by its number there (R392): the manual gives no layout for
messages within a flit. -/
opaque flitBody : Nat → Nat → BitVec 2080

/-- What another package's engine record says at a moment of the operation that a handle names (R108): pending, resolved in a
phase with a code, or no longer there. The manual gives the rule and no message that carries the answer. -/
opaque remoteHandle : Nat → BitVec 64 → Nat × Nat × Nat

/-- Power and temperature as measured at a moment (R428). -/
opaque measured : Nat → BitVec 16 × BitVec 8

/-- A code fetched while its own task has a loop level open over it may be the old bundle or the new one (R282). -/
opaque staleFetch : Nat → Bool

/-- The bank of its pseudo-channel in which a 2 KiB granule of local HBM lies (R383): the manual gives banks and no layout. -/
opaque hbmBank : Nat → Nat

/-- The package that the service processor names as grandmaster at the n-th cold reset, if it names one (R397). -/
opaque grandmaster : Nat → Option Nat

/-- Nanoseconds between timing messages of the grandmaster (R397); the place of use bounds it by 1 ms. -/
opaque timing : Nat

end Sys2Proof.Config
end

