-- ==== Sys2Proof/Syntax.lean ====
section
/-!
DEFINITION. The syntax: one constructor of `Instr` for each row of the opcode table, in the table's
order, those without arguments last. An instruction's constructor carries every bit its encoding leaves to the program; an
event's constructor names the unit it happens at and, where it comes from outside the package, what it brings. No meaning stands here.
-/
namespace Sys2Proof

/-- Format M (R139). `ext` is word 1 of a lone bundle and zero in a paired one. -/
structure MF where
  p : Bool
  x : BitVec 5
  b : BitVec 5
  xw : Bool
  bw : Bool
  f3 : BitVec 3
  off10 : BitVec 10
  ext : BitVec 32
  deriving DecidableEq, Repr

/-- Format T (R139). `ext` is word 1 of a lone bundle and zero in a paired one. -/
structure TF where
  p : Bool
  x : BitVec 5
  y : BitVec 5
  z : BitVec 5
  xw : Bool
  yw : Bool
  zw : Bool
  f7 : BitVec 7
  ext : BitVec 32
  deriving DecidableEq, Repr

/-- Format J (R139): always a lone bundle, `off` is word 1. -/
structure JF where
  x : BitVec 5
  y : BitVec 5
  xw : Bool
  yw : Bool
  c : BitVec 4
  f9 : BitVec 9
  off : BitVec 32
  deriving DecidableEq, Repr

/-- The arithmetic word (R134) without its opcode. -/
structure Arith where
  ty : BitVec 3
  d : BitVec 5
  dk : Bool
  ak : BitVec 2
  a : BitVec 5
  aw : Bool
  bk : BitVec 2
  b : BitVec 5
  bw : Bool
  deriving DecidableEq, Repr

/-- Format B (R139): the fields of `blk`. -/
structure BlkF where
  mrg : Bool
  sig : BitVec 12
  dif : BitVec 12
  dig : BitVec 16
  deriving DecidableEq, Repr

/-- A message of `send` or an error message (R308, R309): destination and source as COREID[25:0], its key ID,
its payload, and for an error message its CODE (0 otherwise). -/
structure Msg where
  dst : BitVec 26
  src : BitVec 26
  kid : Nat
  code : Code
  body : BitVec 512
  deriving DecidableEq, Repr

/-- One part of a window (R258): window, source package and CSN, key ID, the home, the line's address there, and the
stored bits of its 128 bytes as a bit mask and values. -/
structure Part where
  win : Nat
  pkg : Nat
  csn : Nat
  kid : Nat
  home : Nat
  addr : Nat
  mask : Line
  data : Line
  deriving DecidableEq, Repr

/-- A vote on its way to its slot (R354, R358), with the core that cast it and the CSN of its chunk, by which that core knows
the result. -/
structure Vote where
  kid : Nat
  href : Word64
  opr : BitVec 2
  pred : Bool
  pkg : Nat
  core : Nat
  tag : Nat
  deriving DecidableEq, Repr

/-- A hoop join on its way to its slot home (R315, R352): who joins, and the descriptor it read (none when the read met
an addressing fault or a poisoned line). -/
structure Join where
  kid : Nat
  addr : Word64
  desc : Option (BitVec 512)
  deriving DecidableEq, Repr

/-- A hoop drop on its way to its slot home (R357): HREF and the completion counter of its `sys` function. -/
structure Drop where
  pkg : Nat
  href : Word64
  ctr : Word64
  deriving DecidableEq, Repr

/-- The outcome of a far atomic at another package's home (R252, R311): the core, the home's CSN, the old value, and a
nonzero code in the error phase. -/
structure AtomicReply where
  core : Nat
  csn : Nat
  old : Word64
  code : Code
  deriving DecidableEq, Repr

/-- A far atomic that another package sends to its home here (R252). -/
structure RemoteAtomic where
  pkg : Nat
  core : Nat
  kid : Nat
  op : BitVec 3
  a : Word64
  b : Word64
  addr : Nat
  deriving DecidableEq, Repr

/-- A request forwarded from another package (R40): the requester, the core that waits there, its key ID and the name by
which it knows the line (R239), the line's address at the owner, and whether it has been forwarded once already (R42); a
far atomic to be performed there (R252), or nothing for a read; the further far fetch-and-adds to the same place that the switches
have combined with it, in the order of their input ports (R253). -/
structure FwdReq where
  pkg : Nat
  core : Nat
  kid : Nat
  line : Nat
  addr : Nat
  again : Bool
  atomic : Option RemoteAtomic
  tag : Nat := 0
  more : List RemoteAtomic := []
  deriving DecidableEq, Repr

/-- The migration of a page (R42): its job, the package that owns it and the page's address there, the package that it goes
to and its address there, its size; and, as they reach the new owner, its bytes, the lines that carry the poison marker, and
the lines whose ciphertext has been written, by their places, each with its key ID and the key (R44). -/
structure PageMove where
  kid : Nat
  owner : Nat
  base : Nat
  dest : Nat
  frame : Nat
  size : Nat
  data : List Byte
  bad : List Nat
  tags : List (Nat × Nat × BitVec 512)
  deriving DecidableEq, Repr

/-- A retarget request (R42): the job, the page's former owner and its address there, its new owner and its address there,
its size. -/
structure Retarget where
  kid : Nat
  owner : Nat
  base : Nat
  dest : Nat
  frame : Nat
  size : Nat
  deriving DecidableEq, Repr

/-- What the detector of R373 found: the unit of the error record (R424) and the place. -/
structure ErrReport where
  row : Nat
  unit : Nat
  idx : Nat
  core : Nat
  line : Nat
  deriving DecidableEq, Repr

/-- Incoming RDMA data for a queue pair (R405): its place, its bytes and the key under which they have crossed the wire (R403), and
whether it ends a SEND. -/
structure RdmaIn where
  qp : Nat
  addr : Word64
  data : List Byte
  key : BitVec 512
  send : Bool
  last : Bool
  deriving DecidableEq, Repr

/-- A line of another package as its reply brings it (R40, R44): the job's key ID, and the ciphertext, which is the key that it was
written under and the plaintext (log 59), and the tag of the request that it answers (R171, R183). -/
structure CipherLine where
  kid : Nat
  key : BitVec 512
  data : Line
  tag : Nat := 0
  deriving DecidableEq, Repr

/-- A timing message (R397): the port that it comes to, and the grandmaster's time at its arrival. -/
structure TimingMsg where
  port : Nat
  stamp : Nat
  seq : BitVec 16 := 0
  deriving DecidableEq, Repr

/-- The instructions and events of the machine, one constructor for each row of the opcode
table, those without arguments last. -/
inductive Instr where
  | nop (p : Bool)
  | blk (f : BlkF)
  | xlit (f : Bool) (lit : BitVec 24)
  | cut (p : Bool)
  | span (n : BitVec 32)
  | setm (f : TF)
  | setrm (f : TF)
  | setrmMode (f : TF)
  | setrmImm (f : TF)
  | setlc (f : TF)
  | setlcImm (f : TF)
  | jmp (f : JF)
  | jtab (f : JF)
  | bs (f : JF)
  | bm (f : JF)
  | loop (f : JF)
  | lds (f : MF)
  | sts (f : MF)
  | ldv (f : MF)
  | stv (f : MF)
  | ldp (f : MF)
  | stp (f : MF)
  | gath (f : TF)
  | scat (f : TF)
  | ldx (f : MF)
  | ldreq (f : MF)
  | strm (f : MF)
  | strmqLeft (f : TF)
  | strmqPos (f : TF)
  | strmqState (f : TF)
  | strmqRegs (f : TF)
  | strmx (f : TF)
  | cpy (f : MF)
  | tfetch (f : MF)
  | htest (f : TF)
  | hcancel (f : TF)
  | wfence (p : Bool)
  | ldh (f : MF)
  | sth (f : MF)
  | mma (f : TF)
  | mmas (f : TF)
  | mzero (f : TF)
  | mreadF32 (f : TF)
  | mreadBf16 (f : TF)
  | mreadF16 (f : TF)
  | mreadSum (f : TF)
  | mreadErr (f : TF)
  | msave (f : MF)
  | mrest (f : MF)
  | accaddF32 (f : TF)
  | accaddI32 (f : TF)
  | wload (f : MF)
  | wseed (f : TF)
  | wseedH (f : TF)
  | cregRd (f : TF)
  | cregWr (f : TF)
  | seal (f : TF)
  | unseal (f : TF)
  | hoopdrop (f : TF)
  | tlbinv (f : TF)
  | keyset (f : TF)
  | keyret (f : TF)
  | tspawn (f : MF)
  | tspawnc (f : MF)
  | suspend (f : TF)
  | done (p : Bool)
  | evinc (f : MF)
  | rgrab (f : TF)
  | send (f : TF)
  | recv (f : TF)
  | recvPoll (f : TF)
  | fatomAdd (f : MF)
  | fatomMin (f : MF)
  | fatomMax (f : MF)
  | fatomSwap (f : MF)
  | fatomCas (f : MF)
  | fatomAnd (f : MF)
  | fatomOr (f : MF)
  | cbr (f : JF)
  | hoopj (f : TF)
  | hoopqRes (f : TF)
  | hoopqEpoch (f : TF)
  | hoopqArr (f : TF)
  | hoopqState (f : TF)
  | hoopqReply (core : Nat) (value : Word64)
  | shut (p : Bool)
  | shutv (f : TF)
  | trap (f : TF)
  | addI (f : Arith)
  | subI (f : Arith)
  | adds (f : Arith)
  | subs (f : Arith)
  | mulI (f : Arith)
  | mulh (f : Arith)
  | div (f : Arith)
  | rem (f : Arith)
  | and (f : Arith)
  | or (f : Arith)
  | xor (f : Arith)
  | andn (f : Arith)
  | shl (f : Arith)
  | shr (f : Arith)
  | sra (f : Arith)
  | rsh (f : Arith)
  | minI (f : Arith)
  | maxI (f : Arith)
  | absI (f : Arith)
  | negI (f : Arith)
  | clz (f : Arith)
  | popc (f : Arith)
  | madd (f : Arith)
  | ceqI (f : Arith)
  | cneI (f : Arith)
  | cltI (f : Arith)
  | cleI (f : Arith)
  | ceqF (f : Arith)
  | cneF (f : Arith)
  | cltF (f : Arith)
  | cleF (f : Arith)
  | mov (f : Arith)
  | sel (f : Arith)
  | mand (f : Arith)
  | mor (f : Arith)
  | mxor (f : Arith)
  | mnot (f : Arith)
  | mpop (f : Arith)
  | mfirst (f : Arith)
  | addF (f : Arith)
  | subF (f : Arith)
  | mulF (f : Arith)
  | fma (f : Arith)
  | fnma (f : Arith)
  | minF (f : Arith)
  | maxF (f : Arith)
  | absF (f : Arith)
  | negF (f : Arith)
  | exp2 (f : Arith)
  | log2 (f : Arith)
  | rcp (f : Arith)
  | rsqrt (f : Arith)
  | cvti (f : Arith)
  | cvtf (f : Arith)
  | packi (f : Arith)
  | packf (f : Arith)
  | widenI (f : Arith)
  | widenF (f : Arith)
  | perm (f : Arith)
  | slup (f : Arith)
  | sldn (f : Arith)
  | zip (f : Arith)
  | unzip (f : Arith)
  | bcast (f : Arith)
  | comp (f : Arith)
  | rsumI (f : Arith)
  | rsumF (f : Arith)
  | rmaxI (f : Arith)
  | rmaxF (f : Arith)
  | rminI (f : Arith)
  | rminF (f : Arith)
  | scanI (f : Arith)
  | scanF (f : Arith)
  | dot4 (f : Arith)
  | tsel (f : Arith)
  | pmerge (f : Arith)
  | qrnd (f : Arith)
  | vectorArbitration (cell : Nat)
  | vectorOpComplete (core : Nat)
  | matrixOpPerform (cell : Nat)
  | weaveWindowLoad (core : Nat)
  | walkComplete (cluster : Nat) (walk : Nat)
  | forwardedAccess (r : FwdReq)
  | forwardedReply (core : Nat) (line : Nat) (data : CipherLine) (poison : Bool)
  | ldreqReply (core : Nat) (id : Nat)
  | migration (m : PageMove)
  | retargetRequest (r : Retarget)
  | keyRetireComplete (kid : Nat)
  | hostSnoop (hpa : Nat)
  | carveoutInterval (cell : Nat)
  | quadRoleChange (cell : Nat) (quad : Nat)
  | copyStart (cluster : Nat)
  | copyComplete (cluster : Nat) (seq : Nat)
  | tileFetchComplete (core : Nat) (slot : Nat)
  | streamPrefetchArrival (core : Nat) (q : Nat)
  | taskStart (core : Nat)
  | contextSave (core : Nat)
  | contextResume (core : Nat)
  | chunkTargetReached (core : Nat)
  | chunkLimitReached (core : Nat)
  | replayChunkCut (core : Nat)
  | commitRequest (core : Nat)
  | clusterLatchOffer (cluster : Nat)
  | dieLatchOffer (die : Nat)
  | farAtomicReply (r : AtomicReply)
  | remoteAtomicRelease (core : Nat)
  | injectionSend (cell : Nat)
  | messageArrival (m : Msg)
  | hostMemWrite (hpa : Nat) (data : List Byte)
  | hostMemRead (hpa : Nat) (len : Nat)
  | windowPartArrival (p : Part)
  | windowBatchRequest (win : Nat)
  | wfenceResume (core : Nat)
  | hoopJoinArrival (j : Join)
  | voteArrival (v : Vote)
  | hoopRoundTimeout (slot : Nat)
  | hoopdropArrival (d : Drop)
  | voteResultArrival (core : Nat) (tag : Nat) (word : Word64)
  | shutterClose (gang : Nat)
  | shutterReopen (gang : Nat)
  | launchRecord (ring : Nat)
  | taskPlacement (cluster : Nat)
  | spillReturn (cluster : Nat)
  | gangReservationExpiry (cluster : Nat)
  | stealAttempt (cluster : Nat)
  | sliceExpiry (core : Nat)
  | entryUrgent (cluster : Nat) (entry : Nat)
  | faultDelivery (core : Nat)
  | faultHoldExpiry (core : Nat)
  | detectedError (e : ErrReport)
  | cellSeal (ppath : BitVec 15)
  | clusterSwapCopy (die : Nat)
  | laneRetrainDone (port : Nat)
  | flitReceive (port : Nat) (flit : BitVec 2176)
  | repairRequestReceive (port : Nat) (seq : BitVec 16) (round : Nat)
  | repairParityReceive (port : Nat) (seq : BitVec 16) (round : Nat) (parity : BitVec 128) (good : Bool)
  | retransmitRequestReceive (port : Nat) (seq : BitVec 16)
  | timingMessage (m : TimingMsg)
  | launchRingDoorbell (ring : Nat) (tail : BitVec 32)
  | launchRingEnable (ring : Nat) (word : Word64)
  | launchRingErrClear (ring : Nat)
  | rdmaEntryPerform (qp : Nat)
  | rdmaEntryComplete (qp : Nat) (code : BitVec 7)
  | rdmaIncoming (r : RdmaIn)
  | logModeWrite (word : Word64)
  | logptrWrite (word : Word64)
  | pkgnumWrite (n : BitVec 10)
  | winlenWrite (v : Word64)
  | selfTestRequest (word : Word64)
  | firmwareUpdate (image : List Byte)
  | registerWrite (reg : Nat) (word : Word64)
  | loadDataArrival (core : Nat) (id : Nat)
  | streamPushDrain (core : Nat) (q : Nat)
  | tlbInvalidationComplete (job : Nat)
  | backInvalidateSnoopResponse (line : Nat)
  | illegalEncoding (w : BitVec 64)
  | migrationInterval
  | packageLatchGrant
  | combineHoldExpiry
  | clusterSwapResume
  | predictiveCounterCheck
  | clockTimeout
  | logDivClear
  | fbstatOvfClear
  | selfTestStart
  | selfTestComplete
  | standbyRequest
  | standbyEntry
  | runRequest
  | powerCheck
  | coldReset
  | granuleCopyComplete
  deriving DecidableEq, Repr

end Sys2Proof
end

