-- ==== Sys2Proof/Machine/State.lean ====
section
/-!
DEFINITION. The state of one package and of its interface, as plain data, and the machine right after reset. Units are
held in maps from their number (package core index, package cell number, package cluster number, die); an unlisted unit
stands at its reset value. Cores of the die supervisor cells have the numbers 49,152 + 4 × die + core.
-/
namespace Sys2Proof.Machine

/-- One active loop level (R281): first bundle of the body, loop register, body length in bundles. -/
structure LoopLevel where
  start : Word64
  lcr : BitVec 2
  len : Nat
  deriving DecidableEq, Repr

/-- A stream binding (R112): its number on its core, the descriptor as sampled, with its counts resolved; the position in
elements; the registers' worth fetched ahead; the registers' worth of pushes still buffered (R115). -/
structure Stream where
  bid : Nat
  base : Word64
  s0 : BitVec 32
  s1 : BitVec 32
  s2 : BitVec 32
  c0 : Nat
  c1 : Nat
  c2 : Nat
  esz : Nat
  pane : Nat
  write : Bool
  pos : Nat
  ahead : Nat
  buf : Nat
  deriving DecidableEq, Repr

/-- An uncommitted line of a chunk or a pinned line of a tile slot (R59, R60): its name, the set that holds it, whether through the overflow tag
table. -/
structure ULine where
  name : Nat
  set : Nat
  extra : Bool
  deriving DecidableEq, Repr

/-- A tile slot (R110, R111): state, sequence number of its fetch, the chunk that pins it (none once that chunk has
committed), the code of a row that faulted, pinned lines, the tile. -/
structure TileSlot where
  st : SlotState
  seq : Nat
  chunk : Option Nat
  code : Code
  lines : List ULine
  data : VReg
  deriving DecidableEq, Repr

/-- A write to a register that an operation in flight carries. -/
inductive RegWrite where
  | s (i : BitVec 5) (v : Word64)
  | v (i : BitVec 5) (x : VReg)
  | m (i : BitVec 3) (x : MReg)
  | h (i : BitVec 4) (v : Word64)
  deriving DecidableEq, Repr

/-- What an operation in flight waits for (R124, R158, R171, R316, R127): a load's data, an `ldreq` reply, a `recv`
message, a `hoopq` reply; an `ldx` still has sectors to read (R168). -/
inductive FlightKind where
  | load | ldx | ldreq | recv | hoopq
  deriving DecidableEq, Repr

/-- A read in flight: its number, the chunk that issued it, its kind, the writes it will make, the bundle that issued it,
and the address whose poisoned line its reply carries, if any (R171). An `ldx` keeps the pieces it has still to read
(place, byte key, length) and the bytes it has by their places (R168, R169); an `ldreq` keeps the pieces of other packages' lines,
and of lines that a copy command claims or that are in transit, that it waits for, in `bits` the bits that it has already, and the tag
of its requests (R171); `dst` and `code` are its destination and size code, or the
destination and query code of a `hoopq`, and `href` that query's slot; `flags` are the FSTAT flags that it sets as it completes (R78). -/
structure Flight where
  id : Nat
  chunk : Nat
  kind : FlightKind
  writes : List RegWrite
  pc : Word64
  poison : Option Word64
  todo : List (Nat × Nat × Nat)
  got : NMap Byte
  dst : BitVec 5
  code : BitVec 3
  href : Word64
  bits : NMap (BitVec 8 × BitVec 8) := []
  tag : Nat := 0
  flags : BitVec 5 := 0
  deriving DecidableEq, Repr

/-- An operation of the core's vector queue (R127, R185): beats not yet assigned, the writes and the FSTAT flags it makes
when it completes. -/
structure VOp where
  id : Nat
  chunk : Nat
  beats : Nat
  writes : List RegWrite
  flags : BitVec 5
  deriving DecidableEq, Repr

/-- The matrix operations that wait in a core's queue (R220), with the operands they captured at issue (R218). -/
inductive MOpKind where
  | fold (fpc : Nat) (sparse : Option Nat) (sca scb : Bool) (a : VReg) (b : BitVec 16384) (sv : VReg)
  | zero
  | read (rd : Nat) (x : BitVec 5) (frm : Word64) (draws : List Nat)
  | add (int : Bool) (src : BitVec 2)
  deriving DecidableEq, Repr

/-- One queued matrix operation (R220), with the flags of the pops that its operands made (R78). -/
structure MOp where
  id : Nat
  chunk : Nat
  acc : BitVec 2
  stream : Nat
  slots : List Nat
  kind : MOpKind
  flags : BitVec 5 := 0
  deriving DecidableEq, Repr

/-- What an h register holds beside its value (R107, R108, R177): nothing pending, the handle of a copy command held in the running chunk, a pending issued
engine operation, a pending far atomic, or a stale value. -/
inductive HState where
  | settled | held (cmd : Nat) | pending | atomic | stale
  deriving DecidableEq, Repr

/-- The registers of a task on its core (R118, R124, R126) and the engine state that goes with the running chunk. All of
it is chunk state: a squash restores it whole (R125, R183, R188, R221, R281, R287). -/
structure Regs where
  pc : Word64
  s : Vector Word64 32
  v : Vector VReg 32
  m : Vector MReg 8
  h : Vector Word64 16
  k : Vector Word64 32
  lc : Vector Word64 3
  e : Vector VReg 4
  asum : Vector Tile 4
  aerr : Vector Tile 4
  sFull : BitVec 32
  vFull : BitVec 32
  hFull : BitVec 16
  hst : Vector HState 16
  levels : List LoopLevel
  frm : Word64
  sidx : Word64
  fstat : Word64
  msel : Word64
  vshare : Word64
  g : Word64
  pane : Vector Word64 7
  wseed : Word64
  wtab : Word64
  q : Vector (Option Stream) 8
  slots : Vector TileSlot 4
  flights : List Flight
  vq : List VOp
  mq : List MOp
  entry : Bool
  nextId : Nat
  deriving DecidableEq, Repr

/-- What a chunk holds until its grant (R295, R177, R181), in issue order. -/
inductive Held where
  | copy (id : Nat) (h : BitVec 5) (desc : Word64) (frm : Word64) (sidx : BitVec 32) (wseed wtab : Word64)
  | cancel (handle : Word64) (h : BitVec 5)
  | tspawn (rec : Word64)
  | tspawnc (rec : Word64) (save : Word64)
  | suspend (rec : Word64)
  | done
  | send (dst : Word64) (body : BitVec 512)
  | hoopj (desc : Word64)
  | vote (href : Word64) (pred : Bool) (opr : BitVec 2)
  | sys (f : Nat) (x y z : Word64)
  | sup (num : Nat) (v : Word64)
  | trap (no : BitVec 7) (x pc : Word64)
  | shut (vote : Option (Bool × BitVec 2 × Word64 × BitVec 5))
  | fence
  deriving DecidableEq, Repr

/-- A far atomic that a one-bundle chunk makes at its grant (R252, R296). -/
inductive AtomicOp where
  | fatom (op : BitVec 3) (a b : Word64) (h : BitVec 5) (at_ : Nat)
  | evinc (a : Word64) (at_ : Nat)
  | rgrab (range : Nat) (x : BitVec 5)
  deriving DecidableEq, Repr

/-- Why a chunk has ended (R236). -/
inductive Ended where
  | plain | fence | suspend | done | trap | shut | cbr | atomic
  deriving DecidableEq, Repr

/-- The speculation of the chunk after a `cbr` (R317): the guess, control as the other direction leaves it, the `cbr`
bundle, whether the vote has resolved, the result word once it has, and the CSN under which the vote left. A chunk that ends with a `cbr` carries it for the next chunk (`after`); once it is granted the
core holds it (`spec`), so that a squashed speculative chunk runs again as one. -/
structure Spec where
  guess : Bool
  alt : Word64 × List LoopLevel × Vector Word64 3
  cbr : Word64
  resolved : Bool
  word : Word64
  tag : Nat
  deriving DecidableEq, Repr

/-- A value entry of the commit-order log (R416): VK, its first word's low bits, and the 64-bit values. -/
structure LogValue where
  vk : Nat
  ord : Nat
  vals : List Word64
  deriving DecidableEq, Repr

/-- A fault raised in a chunk, waiting for its delivery (R365, R368): code, resume PC, bundle, failing address, AUX and
trap number. -/
structure FaultRec where
  code : Code
  pc : Word64
  fpc : Word64
  addr : Word64
  aux : Word64
  trapNo : BitVec 7
  deriving DecidableEq, Repr

/-- A running or pending chunk (R235): number, bundles so far, the registers at its start, the package number as it was at its start (R16), its uncommitted bytes (key of
the byte, bit mask, value), its signatures, lines, held work, forwarded lines, popped messages, and the numbers of its tile fetches (R97). -/
structure Chunk where
  seq : Nat
  n : Nat
  start : Regs
  stores : NMap (BitVec 8 × BitVec 8)
  rsig : Sig
  wsig : Sig
  ulines : List ULine
  held : List Held
  atomic : Option AtomicOp
  remote : NMap (Line × Bool)
  span : Option Nat
  spanLines : List Nat
  pops : List Nat
  fetches : List Nat
  after : Option Spec
  first : Bool
  afterError : Bool
  ended : Option Ended
  values : List LogValue
  dirty : List Nat
  fault : Option FaultRec
  pkg : Nat := 0
  deriving DecidableEq, Repr

/-- A placed, queued, registered or parked task (R324, R332, R368): its job, its record and where the record lies, the
values the scheduler derives and keeps, its launch, for a handler the task it serves, and the saved program counter where
the bundle there must still pass the entry check of R290, and whether it was saved between two phases (R349), and the window of its latest
commit that sent parts, as its core noted it (R261); whether it is a task of a launch's grid, a copy of one record (R332); whether
its next chunk runs again after a detected error (R373); the core to which a task that has yielded (R345) or been drained (R384, R436)
goes back if it can. -/
structure Task where
  id : Nat
  kid : Nat
  words : BitVec 512
  addr : Word64
  save : Word64
  stkBase : Nat
  stkLim : Nat
  tile : Word64
  launch : Nat
  regCluster : Nat
  s0 : BitVec 512
  contSave : Option Word64
  handlerOf : Option Nat
  gang : Option Nat
  member : Nat
  resume : Bool
  firmware : Bool
  started : Bool
  entryAt : Option Word64
  atClosure : Bool
  lastPart : Option Nat
  grid : Bool := false
  redo : Bool := false
  keep : Option Nat := none
  deriving DecidableEq, Repr

/-- What a core does beside running bundles: nothing, or wait for a window boundary (R182), a vote (R360), a shutter
reopening (R318), or the end of a package action. -/
inductive CoreWait where
  | none | window (n : Nat) | vote | shutter | deliver | start | resume | held (until_ : Nat)
  deriving DecidableEq, Repr

/-- Why a bundle cannot issue yet; for a line of another package with the tag of the request that went out for it. -/
inductive Need where
  | none | reg | flight | vq | mq | weave (d : Nat) | walk (page : Nat) | resume | remote (line tag : Nat) | copy (line : Nat) | pop | push
  | pend | result | transit | msg | slot
  deriving DecidableEq, Repr

/-- How the word being executed has fared: not yet, done, waiting, cut before its bundle, or faulted. -/
inductive Phase where
  | idle | ok | waiting | cutting | faulted
  deriving DecidableEq, Repr

/-- What spin detection remembers of the last chunks that began at one bundle and did nothing (R345): the bundle, how many,
the values their `ldx` and `hoopq` returned, their read signatures. -/
structure Spin where
  pc : Word64
  count : Nat
  values : List LogValue
  rsigs : List Sig
  deriving DecidableEq, Repr

/-- Why a task is saved at its next boundary (R342, R343, R345, R365, R347, R384). -/
inductive SaveWhy where
  | slice | urgent | spin | drain | fault | shutter | restart
  deriving DecidableEq, Repr

/-- Where control goes after a bundle (R268, R280): to the next bundle, also by a branch not taken, or to the target of a
taken transfer; `skip` is a `loop` that goes to its end without opening a level (R278). -/
inductive NextPc where
  | seq | jump (t : Word64) | skip (t : Word64)
  deriving DecidableEq, Repr

/-- A core (R10, R118): its task, live registers, registers as they stood before the bundle (R133), chunks and timers;
the literal of the bundle's `xlit` (R137); the bundles its loop buffer holds (R282); the weave windows
loaded for the bundle that waits for them (R230); whether the next chunk runs again after a detected error
(R373); how many of the next chunks are executions of squashed ones (R237); the squashes in a row
of the oldest chunk and of the one after it, each with its first bundle (R247), and in the same way the block checker's mismatches in
a row (R291); the values of chunks that took no CSN here, which the log writes with the task's next entry (R416); while a word is executed, the flags that it sets as it
completes (`due`, R78) and the SIDX indices that it has reserved for its roundings still to come (`draws`, R82). -/
structure Core where
  task : Option Task
  regs : Regs
  src : Regs
  run : Option Chunk
  pend : Option Chunk
  requested : Bool
  next : NextPc
  spec : Option Spec
  lit : Option (Bool × BitVec 24)
  loopBuf : NMap Word64
  weaveGot : NMap (List Byte)
  redo : Bool
  again : Nat
  cutAfter : Option Ended
  wait : CoreWait
  need : Need
  phase : Phase
  target : Nat
  clean : Nat
  tries : NMap (Nat × Word64)
  mismatches : NMap (Nat × Word64)
  stalls : Word64
  fault : Option FaultRec
  saveWhy : Option SaveWhy
  since : Nat
  sliceFrom : Nat
  fromUrgent : Bool
  spin : Spin
  lastPart : Option Nat
  deficit : Nat
  atomicOut : Option (BitVec 5)
  due : BitVec 5
  draws : List Nat
  carry : List LogValue
  deriving DecidableEq, Repr

/-- A message in a receive queue (R309, R390), with its ordinal from its source to its core (R416). -/
structure QMsg where
  id : Nat
  msg : Msg
  ord : Nat
  taken : Bool
  deriving DecidableEq, Repr

/-- A committed line in a cell's cache role (R48, R51, R57): its name, its key-ID tag, the sectors that have been filled, and
those that are dirty. Its bytes are those of committed memory, since the copies are coherent. -/
structure CLine where
  line : Nat
  kid : Nat
  sectors : BitVec 4
  dirty : BitVec 4
  deriving DecidableEq, Repr

/-- A message to another package or to the host that has left this one: what the outside world can see. A line or a payload crosses
as ciphertext (R44, R403), which is the key and the plaintext (log 59). -/
inductive Out where
  | msg (m : Msg)
  | forward (pkg : Nat) (r : FwdReq)
  | reply (pkg : Nat) (core : Nat) (line : Nat) (data : CipherLine) (poison : Bool)
  | part (pkg : Nat) (p : Part)
  | vote (pkg : Nat) (v : Vote)
  | join (pkg : Nat) (j : Join)
  | drop (pkg : Nat) (d : Drop)
  | result (pkg : Nat) (slot : Nat) (core : Nat) (tag : Nat) (w : Word64)
  | query (pkg : Nat) (core : Nat) (kid : Nat) (href : Word64) (q : Nat)
  | atomic (pkg : Nat) (r : RemoteAtomic)
  | atomics (pkg : Nat) (rs : List RemoteAtomic)
  | atomicReply (pkg : Nat) (line : Nat) (r : AtomicReply)
  | msix (vec : Nat)
  | hostData (data : List Byte) (poison : Bool)
  | snoop (line : Nat)
  | snoopReply (line : Nat) (shared : Bool)
  | flit (port : Nat) (flit : BitVec 2176)
  | repairRequest (port : Nat) (seq : BitVec 16) (round : Nat)
  | parity (port : Nat) (seq : BitVec 16) (round : Nat) (p : BitVec 128)
  | retransmitRequest (port : Nat) (seq : BitVec 16)
  | page (m : PageMove)
  | retarget (pkg : Nat) (r : Retarget)
  | rdma (qp : Nat) (op : Nat) (raddr : Word64) (rkey : Nat) (peer : Nat) (key : BitVec 512) (data : List Byte)
  | timing (pkg : Nat) (stamp : Nat)
  | barData (off : Nat) (w : Word64)
  | pldm (w : Word64)
  | fru (data : List Byte)
  deriving DecidableEq, Repr

/-- An entry of a cell's injection queue (R389): a message, or a request into the fabric with the latest CSN as it was made, each with
the core that made it. -/
inductive Inject where
  | msg (m : Msg) (core : Nat)
  | req (o : Out) (core : Nat) (csn : Nat)
  deriving DecidableEq, Repr

/-- A vote or a far fetch-and-add that stage 0 holds (R358, R391): what it is, its input port, and since when in domain time. -/
structure Hold where
  out : Out
  port : Nat
  since : Nat
  deriving DecidableEq, Repr

/-- A cell (R10, R54, R56, R57, R61, R63): carve-out, the committed lines of its cache role, the most recently used first,
counts, recency of the four sampled sets, arbiter pointers, weave store (key ID, TBASE, window, contents), and its two queues
(R389, R390). -/
structure Cell where
  cmcfg : Word64
  cfgJob : Nat
  roles : BitVec 16
  change : NMap (BitVec 2)
  cache : List CLine
  cntA : Nat
  cntG : Nat
  cntL : Nat
  recency : Vector (List Nat) 4
  lastCarve : Nat
  vptr : Nat
  mptr : Nat
  weave : Option (Nat × Nat × Nat × List Byte)
  inject : List Inject
  recvQ : List QMsg
  sealing : Bool
  sealed_ : Bool
  testing : Bool
  recoveries : Nat
  tfSeq : Nat
  deriving DecidableEq, Repr

/-- A TLB entry (R36): key ID, virtual base and size, target, frame, permissions, dirty bit of a host leaf. -/
structure TlbEntry where
  kid : Nat
  va : Nat
  size : Nat
  tgt : Nat
  owner : Nat
  frame : Nat
  w : Bool
  x : Bool
  sup : Bool
  dirty : Bool
  deriving DecidableEq, Repr

/-- A pending walk of the miss table (R37): the cores whose accesses wait on it, each with its place in the order in which
they reached the TLB; whether a walker has taken it; `void` when an invalidation covered its page (R39). -/
structure Walk where
  id : Nat
  kid : Nat
  va : Nat
  acc : Access
  void_ : Bool
  waiters : List (Nat × Nat)
  begun : Bool
  deriving DecidableEq, Repr

/-- A walk that ended in a fault and whose waiting accesses have not yet met it (R37). -/
structure WalkFault where
  kid : Nat
  va : Nat
  code : Code
  cores : List Nat
  deriving DecidableEq, Repr

/-- An issued copy command (R98, R102): sequence number, job, CSN of issue and place in the package's order of issue, descriptor, the code it will resolve with where
a check at issue failed (R101), whose aperture and stack bounds it acts under, sampled FRM, weave context and reserved
indices, the lines it claims, the lines it reads, those of their sectors that it has already read (R100, by sector
number), the lines of other packages it has received, and for a transfer of a shutter closure its gang and member
(R348). -/
structure CopyCmd where
  seq : Nat
  kid : Nat
  csn : Nat
  ord : Nat
  desc : BitVec 512
  bad : Code
  core : Nat
  stkBase : Nat
  stkLim : Nat
  cell : Nat
  frm : Word64
  sidx : BitVec 32
  claims : List Nat
  running : Bool
  gang : Option (Nat × Nat)
  wseed : Word64
  wtab : Word64
  srcs : List Nat
  snap : NMap (BitVec 256 × Bool)
  remote : NMap (Line × Bool)
  deriving DecidableEq, Repr

/-- A ready entry (R331, R337): a task or a whole gang, since when it is ready and since when urgent. -/
structure Entry where
  id : Nat
  tasks : List Task
  since : Nat
  urgent : Option Nat
  deriving DecidableEq, Repr

/-- A registration against an event counter (R303, R335). -/
structure Registration where
  kid : Nat
  ctr : Nat
  tgt : Nat
  tasks : List Task
  cluster : Nat
  deriving DecidableEq, Repr

/-- A gang's reservation of cores (R338). -/
structure Reservation where
  entry : Nat
  cores : List Nat
  until_ : Option Nat
  cell : Nat
  deriving DecidableEq, Repr

/-- A cluster (R10, R27, R36, R37, R102, R108, R243, R329): the translation words of the jobs that run on it, as it read them
when it started each one's first task; TLB, miss table, and the cores that resume in order after a walk; copy engine, latch
offer, scheduler. -/
structure Cluster where
  trans : NMap (Word64 × Word64)
  tlb : List TlbEntry
  walks : List Walk
  resume : List (List Nat)
  walkFaults : List WalkFault
  copyQ : List CopyCmd
  copySeq : Nat
  outcomes : NMap Word64
  offer : Option Nat
  ptr : Nat
  ready : List Entry
  spill : List Entry
  vt : NMap Nat
  resvs : List Reservation
  retry : List Nat
  nextSteal : Nat
  draining : Bool
  deriving DecidableEq, Repr

/-- An upper-level entry in a die's walk cache (R36): the job's key ID, the level of the table that it points to, the virtual
address bits above that level's reach, the table, and what the levels of a host walk above it permit (R31). -/
structure WalkEntry where
  kid : Nat
  level : Nat
  va : Nat
  table : Nat
  w : Bool
  sup : Bool
  deriving DecidableEq, Repr

/-- A die (R10, R36, R37, R243): latch offer and pointer, walk cache and the pointer of its walkers' round robin, the logical-to-physical maps of its supervisor, and
the states of its physical cells (R320, R378, R383). -/
structure Die where
  offer : Option Nat
  ptr : Nat
  walkCache : List WalkEntry
  walkPtr : Nat
  clusterMap : NMap Nat
  cellMap : NMap Nat
  spareClusters : List Nat
  spareCells : NMap (List Nat)
  sealedCells : List Nat
  tested : List Nat
  deriving DecidableEq, Repr

/-- Who holds a line Exclusive (R51): a cell, or the copy engine of a cluster. -/
inductive Holder where
  | cell (c : Nat) | engine (cl : Nat)
  deriving DecidableEq, Repr

/-- An L2 way in use (R49, R51): the line it holds, its key ID tag, its sole holder if it is Exclusive, the clusters that share
it, whether the host does, and whether the host has been asked to drop it (R400). -/
structure Way where
  line : Nat
  kid : Nat
  holder : Option Holder
  sharers : List Nat
  host : Bool
  snooped : Bool
  deriving DecidableEq, Repr

/-- A hoop slot of this package's stage-0 switch (R351): descriptor fields, job, round, epoch, SHRUNK, counts, timer, the
cores counted in the open round (package, core and tag), the latest and the fixed result word (R316, R356), and how many
counted members leave after this round (R320). -/
structure Hoop where
  kid : Nat
  addr : Word64
  amap : Word64
  nmem : Nat
  k : Nat
  opr : BitVec 2
  tmo : Nat
  epoch : BitVec 16
  round : Nat
  shrunk : Bool
  live : Nat
  arr : Nat
  truth : Nat
  timer : Option Nat
  fixed : Option Word64
  last : Word64
  voters : List (Nat × Nat × Nat)
  leaving : Nat
  deriving DecidableEq, Repr

/-- A placed gang (R338, R347, R362): its members' task numbers and cores; for a shutter gang the list's address, the phase,
the closures so far, members that have ended the phase with their votes, the transfers still running, those that have still to
start, each with its number in the list and its descriptor's address (R102),
the members that a save of the whole gang has saved so far or that wait for its restart, and whether a seal restarts it (R377). -/
structure Gang where
  members : List (Nat × Nat)
  size : Nat
  shut : Bool
  list : Word64
  phase : Nat
  closures : Nat
  ended : List (Nat × Option (Bool × BitVec 2 × Word64 × BitVec 5))
  out : Option (Bool × Bool)
  transfers : Nat
  home : Nat
  saved : List Task
  restart : Bool
  todo : List (Nat × Word64) := []
  deriving DecidableEq, Repr

/-- A launch (R332, R333): its record, job, live count, tasks ended by `done`, level reached, and whether it has completed. -/
structure Launch where
  ring : Nat
  kid : Nat
  lseq : Nat
  crec : Word64
  live : Nat
  tasks : Nat
  level : Nat
  reason : Nat
  completed : Bool
  deriving DecidableEq, Repr

/-- A launch ring (R401): base and control words, TAIL, HEAD and the status bits; whether the head is to be examined, and whether an error
has stopped the ring until a TAIL write. -/
structure Ring where
  base : Word64
  ctl : Word64
  tail : BitVec 32
  head : BitVec 32
  err : Bool
  held : Bool
  waitp : Bool
  examine : Bool
  seqs : List (Nat × Nat)
  stopped : Bool := false
  deriving DecidableEq, Repr

/-- The 16 ranges of a job at the Spoke (R340). -/
structure Range where
  next : Nat
  end_ : Nat
  div : Nat
  min : Nat
  deriving DecidableEq, Repr

/-- A job the package knows (R322, R27): its words as read, verdict, ranges held by the Spoke, live launches. -/
structure Job where
  trans0 : Word64
  trans1 : Word64
  cmcfg : Word64
  slice : Nat
  weight : Nat
  spillSize : Nat
  waitBase : Nat
  hfmt : Word64
  ranges : NMap Range
  liveLaunches : Nat
  deriving DecidableEq, Repr

/-- A parked task with its fault (R365, R371, R372). -/
structure Parked where
  task : Task
  fault : FaultRec
  core : Nat
  fseq : Nat
  cluster : Nat
  hasEntry : Bool
  deriving DecidableEq, Repr

/-- A queue pair (R403, R404): port, remote queue pair, job, the objects the driver gives it, next index, stopped or not,
buffers, and the WRID of the entry under way (R406). -/
structure QueuePair where
  port : Nat
  peer : Nat
  kid : Nat
  k : Nat
  ring : Word64
  pc : Nat
  cc : Nat
  rc : Nat
  status : Word64
  index : Nat
  running : Option Nat
  stopped : Bool
  recvBufs : List Word64
  wrid : Word64 := 0
  deriving DecidableEq, Repr

/-- What waits at the package latch beside the chunks (R243): a window batch (R259); a host write, or incoming RDMA data with
its job and the job and place of the counter that its last commit raises (R256, R405); far atomics (R252, R304, R320), of another
package with those combined with it (R253) and the line's name there (R387); a completion record (R333). -/
inductive Item where
  | batch (win : Nat)
  | host (cells : NMap (BitVec 8 × BitVec 8)) (kid : Option Nat) (rc : Option (Nat × Nat))
  | remoteAtomic (r : RemoteAtomic) (more : List RemoteAtomic) (line : Nat)
  | evinc (kid : Nat) (core : Nat) (at_ : Nat) (a : Word64)
  | record (launch : Nat)
  deriving DecidableEq, Repr

/-- A `sys` function that has acted and not yet completed (R320). -/
structure SysJob where
  id : Nat
  f : Nat
  x : Word64
  y : Word64
  z : Word64
  deriving DecidableEq, Repr

/-- A damaged flit under repair (R394): its stored bits, when it first arrived (R407), the rounds and the parity received for it, requests made again, and
whether it waits for its retransmission. -/
structure Broken where
  flit : BitVec 2176
  stamp : Nat
  rounds : Nat
  parity : List (BitVec 128)
  tries : Nat
  resend : Bool
  deriving DecidableEq, Repr

/-- One scale-up port (R388, R392-R396): the numbers of the next flit sent and the next one delivered, the sent flits kept
for repair, flits sent and returned and slots freed on each channel, flits held behind damaged ones and those damaged, the
messages that wait to leave with their channels, the channel whose return total goes next, when the latest flits of channel 3 that
had to be repaired or sent again first arrived, by their SEQ (R407), the spare lane. -/
structure Port where
  txSeq : BitVec 16
  rxSeq : BitVec 16
  sent : List (BitVec 2176)
  sentCnt : Vector (BitVec 16) 4
  rtotIn : Vector (BitVec 16) 4
  freed : Vector (BitVec 16) 4
  broken : NMap Broken
  behind : NMap (BitVec 2176)
  queue : List (Nat × Out)
  rot : Nat
  firstSeen : List (BitVec 16 × Nat)
  spareUsed : Option Nat
  retraining : Bool
  down : Bool
  deriving DecidableEq, Repr

/-- The package-wide supervisor registers (R421, R422, R371, R415, R423, R425, R426, R428). -/
structure Service where
  jcbase : Word64
  trapbase : Word64
  ovf : Bool
  logctl : Word64
  logMode : Nat
  logptr : Word64
  winlen : Word64
  migthr : Word64
  pkgnum : Word64
  pkgSet : Bool
  errbase : Word64
  errptr : Word64
  keymis : Word64
  pthr : Word64
  pwrctl : Word64
  power : BitVec 16
  bub : Nat
  temp : BitVec 8
  pst : PowerState
  stctl : Word64
  deriving DecidableEq, Repr

/-- A migration-table entry (R41): page, and up to four requester places with their counts. -/
structure MigEntry where
  page : Nat
  counts : List (Nat × Nat)
  deriving DecidableEq, Repr

/-- A page that has left this package (R42): its address and size here, its new owner and its address there, its job. -/
structure Moved where
  base : Nat
  size : Nat
  owner : Nat
  frame : Nat
  kid : Nat
  deriving DecidableEq, Repr

/-- A granule of local HBM in transit while it is copied to a spare (R42, R383); for a pseudo-channel's copy, its place and
the number of its granules still to come. -/
structure Transit where
  base : Nat
  size : Nat
  rest : Option (Nat × Nat)
  deriving DecidableEq, Repr

/-- What comes from outside beside the events of the opcode table: what the driver does with a queue pair (R403, R404, R406), to
bind it, to give it receive buffers, to return it to service; a host read of a word of BAR0 (R401); what the service processor reads over
PLDM: a supervisor register (R421), a sensor (0 POWER, 1 TEMP, 2 BUB, n + 3 the predictive counter with number n), the FRU data (R420). -/
inductive Outside where
  | bind (qp : Nat) (x : QueuePair)
  | buffers (qp : Nat) (l : List Word64)
  | restart (qp : Nat)
  | barRead (off : Nat)
  | pldmRead (reg : Nat)
  | sensorRead (n : Nat)
  | fruRead
  deriving DecidableEq, Repr

/-- The reasons a step can stop. -/
inductive Fault where
  /-- Raised by an event's meaning when it is handed to a state in which that event cannot happen, and by an
  instruction's meaning when no task runs on the current core. The step function never makes such a call from an event
  it has found enabled. Safe: the machine stops where the hardware has no such happening. -/
  | notEnabled
  deriving DecidableEq, Repr

/-- The reasons a step can refuse. -/
inductive Refusal where
  /-- An instruction whose meaning has not been written yet, by its mnemonic. Safe. -/
  | notModelled (mnemonic : String)
  deriving DecidableEq, Repr

/-- A core's registers as at a fresh start of R327 (all zero but VSHARE, every full/empty bit set). -/
def Regs.reset : Regs :=
  { pc := 0, s := Vector.replicate 32 0, v := Vector.replicate 32 0, m := Vector.replicate 8 0,
    h := Vector.replicate 16 0, k := Vector.replicate 32 0, lc := Vector.replicate 3 0, e := Vector.replicate 4 0,
    asum := Vector.replicate 4 0, aerr := Vector.replicate 4 0, sFull := BitVec.allOnes 32,
    vFull := BitVec.allOnes 32, hFull := BitVec.allOnes 16, hst := Vector.replicate 16 .settled, levels := [],
    frm := 0, sidx := 0, fstat := 0, msel := 0, vshare := 1, g := 0, pane := Vector.replicate 7 0, wseed := 0,
    wtab := 0, q := Vector.replicate 8 none, slots := Vector.replicate 4 ⟨.empty, 0, none, 0, [], 0⟩, flights := [],
    vq := [], mq := [], entry := false, nextId := 0 }

/-- A core at reset: no task, registers as at a fresh start. -/
def Core.reset : Core :=
  { task := none, regs := Regs.reset, src := Regs.reset, run := none, pend := none, requested := false, next := .seq,
    spec := none, lit := none, loopBuf := [], weaveGot := [], redo := false, again := 0, cutAfter := none, wait := .none, need := .none, phase := .idle,
    target := 1024, clean := 0, tries := [],
    mismatches := [], stalls := 0, fault := none, saveWhy := none, since := 0, sliceFrom := 0,
    fromUrgent := false, spin := ⟨0, 0, [], []⟩, lastPart := none, deficit := 0,
    atomicOut := none, due := 0, draws := [], carry := [] }

/-- A cell at reset (R61): every quad is cache. -/
def Cell.reset : Cell :=
  { cmcfg := 0, cfgJob := 0, roles := 0x5555, change := [], cache := [], cntA := 0, cntG := 0, cntL := 0,
    recency := Vector.replicate 4 [], lastCarve := 0, vptr := 0, mptr := 0, weave := none, inject := [], recvQ := [],
    sealing := false, sealed_ := false, testing := false, recoveries := 0, tfSeq := 0 }

/-- A cluster at reset: everything empty. -/
def Cluster.reset : Cluster :=
  { trans := [], tlb := [], walks := [], resume := [], walkFaults := [], copyQ := [], copySeq := 0, outcomes := [], offer := none, ptr := 0,
    ready := [], spill := [], vt := [], resvs := [], retry := [], nextSteal := 256, draining := false }

/-- A die at reset: identity maps, two spare clusters (48, 49) and two spare cells (32, 33) in every cluster. -/
def Die.reset : Die :=
  { offer := none, ptr := 0, walkCache := [], walkPtr := 0, clusterMap := [], cellMap := [], spareClusters := [48, 49],
    spareCells := [], sealedCells := [], tested := [] }

/-- The supervisor registers at reset (R61, R371, R415, R422, R423, R425, R426, R428). -/
def Service.reset : Service :=
  { jcbase := 0, trapbase := 0, ovf := false, logctl := 0, logMode := 0, logptr := 0, winlen := 0, migthr := 256,
    pkgnum := 0, pkgSet := false, errbase := 0, errptr := 0, keymis := 0,
    pthr := (2#16 ++ 32#16 ++ 64#16 ++ 1000#16 : BitVec 64), pwrctl := BitVec.ofNat 64 (3200 * 2 ^ 32 + 105 * 2 ^ 24),
    power := 0, bub := 0, temp := 0, pst := .run, stctl := 0 }

/-- A launch ring at reset (R401). -/
def Ring.reset : Ring :=
  { base := 0, ctl := 0, tail := 0, head := 0, err := false, held := false, waitp := false, examine := false,
    seqs := [] }

/-- A scale-up port at reset. -/
def Port.reset : Port :=
  { txSeq := 0, rxSeq := 0, sent := [], sentCnt := Vector.replicate 4 0, rtotIn := Vector.replicate 4 0,
    freed := Vector.replicate 4 0, broken := [], behind := [], queue := [], rot := 0, firstSeen := [], spareUsed := none, retraining := false,
    down := false }

/-- A job context before any launch has read it. -/
def Job.reset : Job :=
  { trans0 := 0, trans1 := 0, cmcfg := 0, slice := 2000, weight := 1, spillSize := 65536, waitBase := 0, hfmt := 0,
    ranges := [], liveLaunches := 0 }

/-- The state of the package and its interface. `cur` is the core whose bundle is being executed; `turn` names the
core whose bundle the next step runs where that is given from outside; `moment` counts the free choices made so far; `token` lists who
holds the priority token and who waits for it, each with whether that is the task's second chunk not yet granted; `waking` and
`restarting` hold the registrations to be queued and the entries to be restarted whose records' lines have still to come from another
package; `mail`
holds what this package's units have sent one another, as the events that it will be; `splits` holds the cores of each combined request whose reply stage 0 must split (R391); `steer` is how the package changes its rate, in
parts per million, and `lastSent` when it last sent timing messages (R397); `snoops` holds lines that have left L2
before the host has answered for its copy (R400); `firmware` is the image that has been stored and `image`
the one in effect since the last cold reset (R420); `pauseWin` is the window in which the current pause began, and after it the last window
that closed during it, whose batches come before anything else (R384); `moved` says where pages went
that have left this package, and `migQ` which pages its die supervisor is to move, and to which packages (R41, R42); `fwd` holds the lines of other
packages that a scheduler or the host link has asked for, `asked` those that have not come. -/
structure State where
  cur : Nat
  turn : Option Nat
  moment : Nat
  cyc : Nat
  dt : Nat
  mem : List Host.Cell
  poison : List Nat
  lineKey : NMap Nat
  l2 : NMap (List Way)
  snoops : List Nat
  keys : NMap (KeyState × BitVec 512)
  resets : Nat
  cores : NMap Core
  cells : NMap Cell
  clusters : NMap Cluster
  dies : NMap Die
  csn : Nat
  latchPtr : Nat
  token : List (Nat × Bool)
  items : List Item
  parts : List Part
  late : List Part
  unapplied : List Part
  lastBatch : Option Nat
  jobs : NMap Job
  launches : NMap Launch
  nextLaunch : Nat
  rings : NMap Ring
  registrations : List Registration
  waking : List Registration
  restarting : List (Nat × List Task × Bool)
  gangs : NMap Gang
  nextTask : Nat
  parked : NMap Parked
  fseq : Nat
  fbQueue : List Nat
  hoops : NMap Hoop
  mig : List MigEntry
  migQ : List (Nat × Nat)
  lastMig : Nat
  transit : List Transit
  moved : List Moved
  sysJobs : List SysJob
  npkg : Nat
  domain : Bool
  hopD : Nat
  hdmBase : Nat
  lastTiming : Option Nat
  lastSent : Nat
  steer : Int
  holds : List Hold
  splits : List (List Nat)
  qps : NMap QueuePair
  ports : NMap Port
  svc : Service
  counters : NMap Nat
  lastCheck : Nat
  lastPower : Nat
  selfTest : Option Nat
  swaps : List (Nat × Nat × Nat)
  spent : NMap Nat
  paused : Bool
  pauseWin : Option Nat
  firmware : List Byte
  image : List Byte
  mail : List Instr
  fwd : NMap (Line × Bool)
  asked : List Nat
  inputs : List Instr
  outside : List Outside
  outs : List Out
  msgOrd : NMap Nat
  deriving DecidableEq, Repr

/-- The machine right after a cold reset's reset values: no task, empty memory, every register at the value the manual
states, and where it states none at the value the assumption log names. -/
def State.reset : State :=
  { cur := 0, turn := none, moment := 0, cyc := 0, dt := 0, mem := [], poison := [], lineKey := [], l2 := [], snoops := [], keys := [],
    resets := 0, cores := [], cells := [], clusters := [], dies := [], csn := 0, latchPtr := 0, token := [],
    items := [], parts := [], late := [], unapplied := [], lastBatch := none, jobs := [], launches := [],
    nextLaunch := 1, rings := [], registrations := [], waking := [], restarting := [], gangs := [], nextTask := 1, parked := [], fseq := 0,
    fbQueue := [], hoops := [], mig := [], migQ := [], lastMig := 0, transit := [], moved := [], sysJobs := [], npkg := 1, domain := false,
    hopD := 0, hdmBase := 0, lastTiming := none, lastSent := 0, steer := 0, holds := [], splits := [], qps := [], ports := [], svc := Service.reset,
    counters := [], lastCheck := 0, lastPower := 0, selfTest := none, swaps := [], spent := [], paused := false, pauseWin := none, firmware := [], image := [],
    mail := [], fwd := [], asked := [], inputs := [], outside := [], outs := [], msgOrd := [] }

end Sys2Proof.Machine
end

