-- ==== Sys2Proof/Machine/Mem.lean ====
section
/-!
DEFINITION. Committed memory: byte keys (R239), the canonical byte list, key-ID tags (R44, R45, R64), poison (R46, R374)
and the L2 slices with their directory (R49-R53). A byte key is the 64-bit line name times 128 plus the byte's place.
-/
namespace Sys2Proof.Machine

/-- What an address that memory does not list reads as. The manual gives no power-on contents (log 2). -/
def unwritten : Byte := 0

/-- Read one byte of a sorted byte list. -/
def memRead : List Host.Cell → Nat → Byte
  | [], _ => unwritten
  | (a, b) :: t, k => if a = k then b else memRead t k

/-- Write one byte: the list stays sorted, and a byte equal to `unwritten` is not listed. -/
def memWrite : List Host.Cell → Nat → Byte → List Host.Cell
  | [], k, v => if v = unwritten then [] else [(k, v)]
  | (a, b) :: t, k, v =>
    if k < a then (if v = unwritten then (a, b) :: t else (k, v) :: (a, b) :: t)
    else if k = a then (if v = unwritten then t else (k, v) :: t)
    else (a, b) :: memWrite t k v

/-- The canonical form: addresses strictly rising above a bound, no entry equal to `unwritten`. -/
def memWfFrom (lo : Nat) : List Host.Cell → Bool
  | [] => true
  | (a, b) :: t => decide (lo ≤ a) && b != unwritten && memWfFrom (a + 1) t

/-- The canonical form of a byte list. -/
def Memory.wf (m : List Host.Cell) : Bool := memWfFrom 0 m

/-- Read n bytes from a key upward. -/
def memReadN (m : List Host.Cell) (k : Nat) : Nat → List Byte
  | 0 => []
  | n + 1 => memRead m k :: memReadN m (k + 1) n

/-- Write bytes from a key upward. -/
def memWriteN (m : List Host.Cell) (k : Nat) : List Byte → List Host.Cell
  | [] => m
  | b :: t => memWriteN (memWrite m k b) (k + 1) t

/-! ## The units -/

/-- The first core number of the die supervisor cells. -/
def firstSup : Nat := 49152

/-- Whether a core belongs to a die supervisor cell (R12). -/
def isSup (i : Nat) : Bool := firstSup ≤ i

/-- Package cell number, package cluster number and die of a core; a supervisor core has no cell or cluster. -/
def cellOf (i : Nat) : Nat := if isSup i then 12288 + (i - firstSup) / 4 else i / 4
def clusterOf (i : Nat) : Nat := if isSup i then 384 + (i - firstSup) / 4 else i / 128
def dieOf (i : Nat) : Nat := if isSup i then (i - firstSup) / 4 else i / 6144

def State.core (s : State) (i : Nat) : Core := s.cores.get i Core.reset
def State.setCore (s : State) (i : Nat) (c : Core) : State := { s with cores := s.cores.put i c }
def State.cell (s : State) (i : Nat) : Cell := s.cells.get i Cell.reset
def State.setCell (s : State) (i : Nat) (c : Cell) : State := { s with cells := s.cells.put i c }
def State.cluster (s : State) (i : Nat) : Cluster := s.clusters.get i Cluster.reset
def State.setCluster (s : State) (i : Nat) (c : Cluster) : State := { s with clusters := s.clusters.put i c }
def State.die (s : State) (i : Nat) : Die := s.dies.get i Die.reset
def State.setDie (s : State) (i : Nat) (d : Die) : State := { s with dies := s.dies.put i d }
def State.job (s : State) (k : Nat) : Job := s.jobs.get k Job.reset
def State.setJob (s : State) (k : Nat) (j : Job) : State := { s with jobs := s.jobs.put k j }

/-- The clusters of a die, its supervisor cell last. -/
def clustersOf (die : Nat) : List Nat := (List.range 48).map (48 * die + ·) ++ [384 + die]
/-- The die of a cluster. -/
def dieOfCluster (cl : Nat) : Nat := if 384 ≤ cl then cl - 384 else cl / 48
/-- The place of a cluster in its die's round robin. -/
def clusterPlace (cl : Nat) : Nat := if 384 ≤ cl then 48 else cl % 48

/-- Round robin: the first element that passes a test, from place p on and around. -/
def roundRobin (l : List Nat) (p : Nat) (f : Nat → Bool) : Option Nat := (l.drop p ++ l.take p).find? f

/-! ## Byte keys and line names -/

/-- Size of local HBM (R25). -/
def hbmSize : Nat := 2 ^ 40

/-- Byte key of host memory (R239). -/
def hostKey (hpa : Nat) : Nat := 2 ^ 69 + hpa
/-- Byte key of a byte at its owner, another package (R239). -/
def remoteKey (owner a : Nat) : Nat := 2 ^ 70 + owner * 2 ^ 52 + a
/-- Byte key of cell memory: die, cluster, cell of the package cell number c, byte b (R239). -/
def cellKey (c b : Nat) : Nat :=
  2 ^ 70 + 2 ^ 69 + c / 1536 * 2 ^ 29 + c / 32 % 48 * 2 ^ 23 + c % 32 * 2 ^ 18 + b

/-- The kinds of line of R239, by bits [63:62] of the name. -/
def lineKind (line : Nat) : Nat := line / 2 ^ 62 % 4
def isHbm (line : Nat) : Bool := lineKind line == 0
def isHost (line : Nat) : Bool := lineKind line == 1
def isRemote (line : Nat) : Bool := lineKind line == 2
def isCell (line : Nat) : Bool := lineKind line == 3
/-- Owner and address at the owner of a remote line. -/
def remoteOwner (line : Nat) : Nat := line / 2 ^ 45 % 2 ^ 10
def remoteAddr (line : Nat) : Nat := line % 2 ^ 45 * 128
/-- The package cell number of a cell-memory line. -/
def lineCell (line : Nat) : Nat := (line / 2 ^ 22 % 8 * 48 + line / 2 ^ 16 % 64) * 32 + line / 2 ^ 11 % 32
/-- The quad of a cell-memory line (R54). -/
def lineQuad (line : Nat) : Nat := line / 2 ^ 8 % 8

/-- `HomeSlice` (R50) of an HBM or host line: slice number 0-383 and set. -/
def homeSlice (line : Nat) : Nat × Nat :=
  let ln := line % 2 ^ 45
  let f := (ln % 2 ^ 15) ^^^ (ln / 2 ^ 15 % 2 ^ 15) ^^^ (ln / 2 ^ 30)
  let set := (ln % 2 ^ 12) ^^^ (ln / 2 ^ 12 % 2 ^ 12)
  (f % 8 * 48 + f / 8 * 48 / 4096, set)

/-- `HbmPlace` (R26): stack and pseudo-channel. -/
def hbmPlace (dpa : Nat) : Nat × Nat :=
  let pc := (dpa / 2 ^ 11 % 2 ^ 10) ^^^ (dpa / 2 ^ 21 % 2 ^ 10) ^^^ (dpa / 2 ^ 31 % 2 ^ 9)
  (pc / 64, pc % 64)

/-- `SigBits` (R240): the signature with a line entered. -/
def sigBit (line j : Nat) : Nat :=
  let x : BitVec 32 := BitVec.ofNat 32 line ^^^ BitVec.ofNat 32 (line >>> 32)
  512 * j + (hash32 x (BitVec.ofNat 32 (j + 1))).toNat % 512

/-- Enter a line into a signature (R240). -/
def sigAdd (g : Sig) (line : Nat) : Sig :=
  g ||| BitVec.ofNat 2048 (2 ^ sigBit line 0 + 2 ^ sigBit line 1 + 2 ^ sigBit line 2 + 2 ^ sigBit line 3)

/-- Whether two signatures meet (R241): a common bit in each of the four banks. -/
def sigMeets (a b : Sig) : Bool :=
  let x := (a &&& b).toNat
  x % 2 ^ 512 != 0 && x >>> 512 % 2 ^ 512 != 0 && x >>> 1024 % 2 ^ 512 != 0 && x >>> 1536 % 2 ^ 512 != 0

/-- The key stored under a key ID, zeros where none is. -/
def State.keyOf (s : State) (kid : Nat) : BitVec 512 := (s.keys.get kid (.free, 0)).2

/-- Read a committed line as one number. -/
def State.rawLine (s : State) (line : Nat) : Line := BitVec.ofNat 1024 (ofBytes (memReadN s.mem (line * 128) 128))

/-- Whether a line is poisoned (R46, R374). -/
def State.poisoned (s : State) (line : Nat) : Bool := s.poison.contains line

/-- Count one key-mismatch read, saturating (R45, R422). -/
def State.countMismatch (s : State) : State :=
  let n := fld s.svc.keymis 31 0
  { s with svc := { s.svc with keymis := BitVec.ofNat 64 (if n < 2 ^ 32 - 1 then n + 1 else n) } }

/-- The key ID a line was last written under; an unwritten line belongs to whoever reads it (log 2). -/
def State.writerOf (s : State) (line kid : Nat) : Nat := s.lineKey.get line kid

/-! ## The cache role of a cell (R56, R57, R59) -/

/-- The role code of a quad (R56). -/
def Cell.role (c : Cell) (quad : Nat) : Nat := c.roles.toNat >>> (2 * quad) % 4

/-- The number of quads of a cell that take lines in the cache role (R62): one that is to leave it takes none (R64). -/
def Cell.cacheQuads (c : Cell) : Nat :=
  ((List.range 8).filter fun q => c.roles.toNat / 4 ^ q % 4 == 1 && (c.change.find q).isNone).length

/-- The set of the cache role that a line belongs to (R57): ln is the line's name from its lowest bit on, for a line of cell memory and of
another package as for one of HBM (log 64). -/
def cacheSet (line : Nat) : Nat := (line % 32) ^^^ (line / 32 % 32)

/-- How many lines of a set the four cores of a cell hold. -/
def State.setLoad (s : State) (cell set : Nat) : Nat :=
  ([0, 1, 2, 3].map fun j =>
    let c := s.core (cell * 4 + j)
    let f (k : Option Chunk) : Nat := match k with
      | some k => (k.ulines.filter (·.set == set)).length
      | none => 0
    f c.run + f c.pend + (c.regs.slots.toList.map fun t => (t.lines.filter (·.set == set)).length).sum).foldl (· + ·) 0

/-- How many committed lines a set of a cell's cache role may hold beside the lines that replacement passes over (R57, R110). -/
def State.setRoom (s : State) (cell set : Nat) : Nat := 8 * (s.cell cell).cacheQuads - s.setLoad cell set

/-- Whether a tile slot of some core pins a line (R110). -/
def State.pinned (s : State) (line : Nat) : Bool :=
  s.cores.any fun p => p.2.regs.slots.toList.any fun t => t.lines.any (·.name == line)

/-! ## The L2 slices and their directory (R49-R53) -/

/-- The index of a slice's set in the map of L2 sets. -/
def l2Index (line : Nat) : Nat := (homeSlice line).1 * 4096 + (homeSlice line).2

/-- The way that holds a line, if any. -/
def State.l2Way (s : State) (line : Nat) : Option Way := (s.l2.get (l2Index line) []).find? (·.line == line)

/-- The package cluster number of a cell; a die supervisor cell, which lies in no cluster (R12), has the numbers after the
clusters' (log 52). -/
def cellCluster (c : Nat) : Nat := if c < 12288 then c / 32 else 384 + (c - 12288)

/-- Whether a directory entry names a cell as one that may hold the line (R51). -/
def Way.names (w : Way) (cell : Nat) : Bool := w.holder == some (.cell cell) || w.sharers.contains (cellCluster cell)

/-- Note a cluster among those whose cells hold clean copies (R51). -/
def Way.share (w : Way) (cl : Nat) : Way :=
  { w with sharers := if w.sharers.contains cl then w.sharers else cl :: w.sharers }

/-- A cell's cache role gives up its coherent copy of a line, which then has no place among the lines of its set (R51, R63). -/
def Cell.lose (c : Cell) (line : Nat) : Cell :=
  if c.cache.any (·.line == line) then
    { c with cache := c.cache.filter (·.line != line), recency := c.recency.map fun l => l.filter (· != line) }
  else c

/-- Take every cell's coherent copy of a line, as its directory entry names them (R51, R52). No chunk's data is touched. -/
def State.dropCopies (s : State) (w : Way) : State :=
  { s with cells := s.cells.map fun p => (p.1, if w.names p.1 then p.2.lose w.line else p.2) }

/-- What goes with a line that leaves L2: the cells' copies (R51), and the host's, which it is asked to drop unless it has
been asked already (R400). -/
def State.backInvalidate (s : State) (w : Way) : State :=
  let s := s.dropCopies w
  if w.host then
    { s with outs := if w.snooped then s.outs else s.outs ++ [.snoop w.line], snoops := w.line :: s.snoops }
  else s

/-- The ways that a predicate picks leave L2 (R43, R51). -/
def State.l2Drop (s : State) (gone : Way → Bool) : State :=
  let out := (s.l2.map fun p => p.2.filter gone).flatten
  let s := { s with l2 := s.l2.map fun p => (p.1, p.2.filter fun w => !gone w) }
  out.foldl State.backInvalidate s

/-- What a set of 16 ways keeps when one more line comes in front, and the line it gives up: the least recently used that no
tile slot pins (R49, R51, R110); where slots pin all the others, the least recently used of those (log 64). -/
def State.l2Victim (s : State) (l : List Way) : Option Way :=
  if l.length ≤ 16 then none
  else match l.tail.reverse.find? (fun w => !s.pinned w.line) with
    | some w => some w
    | none => l.getLast?

/-- Put a way in front of its set as the most recently used; where the set is full another line goes (R49, R51). -/
def State.l2Put (s : State) (w : Way) : State :=
  let i := l2Index w.line
  let l := w :: (s.l2.get i []).filter (·.line != w.line)
  match s.l2Victim l with
  | none => { s with l2 := s.l2.put i l }
  | some v => { s with l2 := s.l2.put i (l.filter (·.line != v.line)) }.backInvalidate v

/-- An Exclusive line that another agent reads (R51): the holder writes back what it holds dirty, and a cell keeps a clean copy,
so that its cluster shares the line. -/
def State.recall (s : State) (w : Way) : State × Way :=
  match w.holder with
  | some (.cell c) =>
    let x := s.cell c
    (s.setCell c { x with cache := x.cache.map fun l => if l.line = w.line then { l with dirty := 0 } else l },
     { w.share (cellCluster c) with holder := none })
  | _ => (s, { w with holder := none })

/-- A new way of a line, with no holder. -/
def Way.fill (line kid : Nat) : Way :=
  { line := line, kid := kid, holder := none, sharers := [], host := false, snooped := false }

/-- A line's committed bytes as a key ID finds them (R44, R45): the plaintext under its own, and what the ciphertext decrypts to
under another. -/
def State.lineData (s : State) (kid line : Nat) : Line :=
  if s.writerOf line kid = kid ∨ isHost line then s.rawLine line
  else Config.decrypt line (s.keyOf (s.writerOf line kid)) (s.rawLine line) (s.keyOf kid)

/-- A committed read of a line by a key ID, with the line's effect on L2 and the mismatch count (R44, R45, R51): its bytes and
whether it is poisoned. The key check comes before the poison (R374). -/
def State.readLine (s : State) (kid line : Nat) : State × Line × Bool :=
  if isCell line then
    if s.writerOf line kid = kid then (s, s.rawLine line, s.poisoned line)
    else (s.countMismatch, 0, false)
  else
    match s.l2Way line with
    | some w =>
      if w.kid = kid then
        let (t, w) := s.recall w
        (t.l2Put w, s.lineData kid line, s.poisoned line)
      else (s.countMismatch, 0, false)
    | none => (s.l2Put (Way.fill line kid), s.lineData kid line, s.poisoned line)

/-- Change the directory entry of a line where it stands in its set. -/
def State.modWay (s : State) (line : Nat) (f : Way → Way) : State :=
  { s with l2 := s.l2.put (l2Index line) ((s.l2.get (l2Index line) []).map fun w => if w.line = line then f w else w) }

/-- Whether some cell of a cluster holds a committed line (R51). -/
def State.clusterHolds (s : State) (cl line : Nat) : Bool :=
  s.cells.any fun p => cellCluster p.1 == cl && p.2.cache.any (·.line == line)

/-- A cell has given up a line: what it held dirty is written back, and the directory entry names it no more (R48, R51). -/
def State.cellGone (cell : Nat) (s : State) (l : CLine) : State :=
  match s.l2Way l.line with
  | none => s
  | some w =>
    if w.holder = some (.cell cell) then
      if l.dirty = 0 then s.modWay l.line fun w => { w with holder := none }
      else s.l2Put { w with holder := none, sharers := [] }
    else if s.clusterHolds (cellCluster cell) l.line then s
    else s.modWay l.line fun w => { w with sharers := w.sharers.filter (· != cellCluster cell) }

/-- A set of a cell's cache role gives up its least recently used committed lines where it holds more than it has ways; the lines
of chunks and tile slots stay (R57). -/
def State.trimSet (cell : Nat) (s : State) (set : Nat) : State :=
  let c := s.cell cell
  let l := c.cache.filter fun y => cacheSet y.line == set
  if l.isEmpty then s
  else
    let out := l.drop (s.setRoom cell set)
    out.foldl (State.cellGone cell) (s.setCell cell { c with cache := c.cache.filter fun y => !out.contains y })

/-- Every set of a cell's cache role does so, when a quad leaves it (R64). -/
def State.trimCache (s : State) (cell : Nat) : State :=
  if (s.cell cell).cache.isEmpty then s else (List.range 32).foldl (State.trimSet cell) s

/-- A cell's cache role takes its copy of a line out, whatever it held (R60, R64): the home has it written back. -/
def State.cellLeave (s : State) (cell line : Nat) : State :=
  match (s.cell cell).cache.find? (·.line == line) with
  | none => s
  | some l =>
    (s.setCell cell { s.cell cell with cache := (s.cell cell).cache.filter (·.line != line) }).cellGone cell l

/-- Put a line in front of a cell's cache role as the most recently used; the set's least recently used committed lines go
when it is full (R57). -/
def State.cachePut (s : State) (cell : Nat) (x : CLine) : State :=
  let c := s.cell cell
  (s.setCell cell { c with cache := x :: c.cache.filter (·.line != x.line) }).trimSet cell (cacheSet x.line)

/-- The sectors that n bytes at a place touch (R48). -/
def sectorsOf (k n : Nat) : BitVec 4 :=
  BitVec.ofNat 4 ((2 ^ ((k % 128 + n - 1) / 32 + 1) - 1) - (2 ^ (k % 128 / 32) - 1))

/-- Fill sectors of a line from L2 into a cell's cache role, `old` being those it holds (R48, R51): a line that L2 holds under
another key ID reads as zeros and is not filled (R45). -/
def State.cellFill (s : State) (kid cell line : Nat) (old need : BitVec 4) : State × Line × Bool :=
  let (t, d, po) := s.readLine kid line
  match t.l2Way line with
  | none => (t, d, po)
  | some w =>
    if w.kid ≠ kid then (t, d, po)
    else ((t.l2Put (w.share (cellCluster cell))).cachePut cell ⟨line, kid, old ||| need, 0⟩, d, po)

/-- A core's read of n committed bytes of one line through its cell's cache role (R48, R51, R57): sectors that it holds are
served there, under its tag (R45); others are filled from L2. -/
def State.cellRead (s : State) (kid core k n : Nat) : State × Line × Bool :=
  let line := k / 128
  let need := sectorsOf k n
  if isCell line then s.readLine kid line
  else match (s.cell (cellOf core)).cache.find? (·.line == line) with
    | none => s.cellFill kid (cellOf core) line 0 need
    | some x =>
      if x.kid ≠ kid then (s.countMismatch, 0, false)
      else if need &&& ~~~x.sectors = 0 then (s.cachePut (cellOf core) x, s.lineData kid line, s.poisoned line)
      else s.cellFill kid (cellOf core) line x.sectors need

/-- A cell whose core has committed a write to a line of local HBM holds the line Exclusive, and dirty in the sectors that it
wrote (R48, R51); a line of host memory is written through its home slice (R256). -/
def State.holdDirty (s : State) (kid cell line : Nat) (sec : BitVec 4) : State :=
  match s.l2Way line with
  | none => s
  | some w =>
    if !isHbm line then s
    else (s.l2Put { w with holder := some (.cell cell), sharers := [] }).cachePut cell ⟨line, kid, sec, sec⟩

/-- The contents a committed write starts from (R45): zeros where the line is in L2 or in cell memory under another key
ID; what the line decrypts to where HBM holds it under another. -/
def State.lineForWrite (s : State) (kid line : Nat) : Line :=
  if isCell line then (if s.writerOf line kid = kid then s.rawLine line else 0)
  else match s.l2Way line with
    | some w => if w.kid = kid then s.lineData kid line else 0
    | none => s.lineData kid line

/-- Whether an issued copy command claims a line (R98). -/
def State.claimed (s : State) (line : Nat) : Bool :=
  s.clusters.any fun p => p.2.copyQ.any fun c => c.claims.contains line

/-- Whether a copy command issued before another claims a line: what reads it for the other waits for that write, which counts at the
earlier command's CSN (R98, R250). -/
def State.claimedBefore (s : State) (ord line : Nat) : Bool :=
  s.clusters.any fun p => p.2.copyQ.any fun c => decide (c.ord < ord) && c.claims.contains line

/-- The sectors of a source line that a copy command has read before a commit to that line: those that `pick` names and
that it had not read yet (R100). -/
def CopyCmd.witness (c : CopyCmd) (line : Nat) (d : Line) (po : Bool) (pick : Nat) : CopyCmd :=
  { c with snap := (List.range 4).foldl (fun m j =>
      if pick >>> j % 2 = 1 ∧ (m.find (4 * line + j)).isNone then m.put (4 * line + j) (d.extractLsb' (256 * j) 256, po)
      else m) c.snap }

/-- Copy commands of a cluster that read a line about to be written: for each, a free choice says which of its sectors it
has read already (R100). The number counts the choices. -/
def State.snapCmds (s : State) (line : Nat) : Nat → List CopyCmd → Nat × List CopyCmd
  | m, [] => (m, [])
  | m, c :: t =>
    if c.srcs.contains line && !s.claimedBefore c.ord line then
      let (_, d, po) := s.readLine c.kid line
      let (m', t') := s.snapCmds line (m + 1) t
      (m', c.witness line d po (Config.choice m) :: t')
    else
      let (m', t') := s.snapCmds line m t
      (m', c :: t')

/-- Before a commit to a line: what the copy engines have already read of it (R100). -/
def State.snapCopies (s : State) (line : Nat) : State :=
  s.clusters.foldl (fun s p =>
    if p.2.copyQ.any (·.srcs.contains line) then
      let (m, q) := s.snapCmds line s.moment p.2.copyQ
      { s with moment := m, clusters := s.clusters.put p.1 { p.2 with copyQ := q } }
    else s) s

/-- A committed write to one line by a key ID: `mask` selects bits, `data` gives them (R155). A write of all 128 bytes
clears the line's poison (R46, R374). The home takes every cell's copy (R51), and a host that holds the line is snooped (R400). -/
def State.writeLine (s : State) (kid line : Nat) (mask data : Line) : State :=
  let s := s.snapCopies line
  let old := s.lineForWrite kid line
  let new := (old &&& ~~~mask) ||| (data &&& mask)
  let w := (s.l2Way line).getD (Way.fill line kid)
  let s := s.dropCopies w
  let s := { s with
    mem := memWriteN s.mem (line * 128) (bytesOf 128 new.toNat)
    lineKey := if isHost line then s.lineKey else s.lineKey.put line kid
    poison := if mask = BitVec.allOnes 1024 then s.poison.filter (· != line) else s.poison
    outs := if w.host && !w.snooped then s.outs ++ [.snoop line] else s.outs }
  if isCell line then s
  else s.l2Put { w with kid := kid, holder := none, sharers := [], snooped := w.host }

/-- A mask and data for bytes at a place in a line. -/
def lineBytes (off : Nat) (bs : List Byte) : Line × Line :=
  (BitVec.ofNat 1024 ((2 ^ (8 * bs.length) - 1) <<< (8 * off)), BitVec.ofNat 1024 (ofBytes bs <<< (8 * off)))

/-- Split n bytes at a key into pieces that lie in one line: key and length. -/
def pieces : Nat → Nat → Nat → List (Nat × Nat)
  | 0, _, _ => []
  | fuel + 1, k, n =>
    if n = 0 then []
    else
      let room := 128 - k % 128
      let m := if n ≤ room then n else room
      (k, m) :: pieces fuel (k + m) (n - m)

/-- Committed read of n bytes at a byte key, by an agent that enters no signature (R38, R100, R227). -/
def State.readKey (s : State) (kid k n : Nat) : State × List Byte × Bool :=
  (pieces (n / 128 + 2) k n).foldl (fun (a : State × List Byte × Bool) p =>
    let (s, d, po) := a.1.readLine kid (p.1 / 128)
    (s, a.2.1 ++ bytesOf p.2 (d.toNat >>> (8 * (p.1 % 128))), a.2.2 || po)) (s, [], false)

/-- Committed write of bytes at a byte key. -/
def State.writeKey (s : State) (kid k : Nat) (bs : List Byte) : State :=
  ((pieces (bs.length / 128 + 2) k bs.length).foldl (fun (a : State × List Byte) p =>
    let (m, d) := lineBytes (p.1 % 128) (a.2.take p.2)
    (a.1.writeLine kid (p.1 / 128) m d, a.2.drop p.2)) (s, bs)).1

/-- The lines that n bytes at a key touch. -/
def linesOf (k n : Nat) : List Nat := (pieces (n / 128 + 2) k n).map (·.1 / 128)

/-- Read 8 committed bytes as a word. -/
def State.readWord (s : State) (kid k : Nat) : State × Nat × Bool :=
  let (s, b, po) := s.readKey kid k 8
  (s, ofBytes b, po)

/-- Write a committed word. -/
def State.writeWord (s : State) (kid k : Nat) (v : Nat) : State := s.writeKey kid k (bytesOf 8 v)

/-- Invalidate every L2 and cell-memory line under a key ID (R43): L2 lines leave with the cells' copies, cell lines lose their
contents. -/
def State.dropKey (s : State) (kid : Nat) : State :=
  let s := s.l2Drop (·.kid == kid)
  let gone := (s.lineKey.filter (fun p => p.2 == kid && isCell p.1)).map (·.1)
  { s with
    cells := s.cells.map fun p => (p.1, { p.2 with cache := p.2.cache.filter (·.kid != kid) })
    mem := s.mem.filter (fun c => !gone.contains (c.1 / 128))
    lineKey := s.lineKey.filter (fun p => !(p.2 == kid && isCell p.1)) }

end Sys2Proof.Machine
end

