-- ==== Sys2Proof/Machine/Translate.lean ====
section
/-!
DEFINITION. From a generic address to byte keys: apertures (R20-R24), TLBs (R36), walks of native and host tables
(R28-R33) and permissions (R34), in the order of R157.
-/
namespace Sys2Proof.Machine

/-- Why a word cannot complete now: a fault (code, first failing byte's address, AUX), a wait, a TLB miss (virtual address
and access), or a cut of the chunk before its bundle (R236). -/
inductive Stop where
  | fault (code : Code) (addr aux : Word64)
  | wait (n : Need)
  | miss (va : Nat) (acc : Access)
  | cut
  deriving DecidableEq, Repr

/-- Who makes an access: key ID, package cell and cluster, stack and event-counter bounds, supervisor or task. -/
structure Ctx where
  kid : Nat
  core : Nat
  cell : Nat
  cl : Nat
  stkBase : Nat
  stkLim : Nat
  ecBase : Nat
  ecCount : Nat
  sup : Bool
  deriving DecidableEq, Repr

/-- ECBASE in bytes and the number of event counters of a TRANS1 word (R27): a word whose ECBASE breaks R27's bound gives its job
no counter, so that no other job's memory is reached (R4, log 63). -/
def ecBaseOf (t : Word64) : Nat := fld t 23 3 * 2 ^ 24
def ecCountOf (t : Word64) : Nat := if fld t 23 3 < 65536 then fld t 43 24 else 0

/-- The supervisor context's TRANS1 word at JCBASE + 8, under key ID 0 (R322). -/
def State.supTrans1 (s : State) : Word64 :=
  BitVec.ofNat 64 (ofBytes (s.readKey 0 (fld s.svc.jcbase 51 20 * 2 ^ 20 + 8) 8).2.1)

/-- The translation words of a job on a cluster (R27): those that the cluster read when it started the job's first task there,
and before that those of the launch that checked them. -/
def State.trans (s : State) (kid cl : Nat) : Word64 × Word64 :=
  match (s.cluster cl).trans.find kid with
  | some w => w
  | none => ((s.job kid).trans0, (s.job kid).trans1)

/-- The context of a job's engine or record access at a cluster, without a stack. -/
def State.jobCtx (s : State) (kid cl : Nat) : Ctx :=
  let t1 := (s.trans kid cl).2
  { kid := kid, core := 0, cell := 0, cl := cl, stkBase := 0, stkLim := 0, ecBase := ecBaseOf t1,
    ecCount := ecCountOf t1, sup := false }

/-- The context of a core's accesses. -/
def State.ctx (s : State) (i : Nat) : Ctx :=
  match (s.core i).task with
  | none => { s.jobCtx 0 (clusterOf i) with core := i, cell := cellOf i }
  | some t =>
    let t1 := if t.firmware then s.supTrans1 else (s.trans t.kid (clusterOf i)).2
    { kid := t.kid, core := i, cell := cellOf i, cl := clusterOf i, stkBase := t.stkBase, stkLim := t.stkLim,
      ecBase := ecBaseOf t1, ecCount := ecCountOf t1, sup := t.firmware }

/-- Log2 of the page size of an SZ code, and the level its leaf stands at (R28). -/
def pageLog (sz : Nat) : Nat := [12, 14, 16, 18, 20, 21, 22, 24, 26, 28, 30, 32].getD sz 0
def pageLevel (sz : Nat) : Nat := if sz ≤ 4 then 1 else if sz ≤ 9 then 2 else 3

/-- This package's number (R13, R422): a package that belongs to no domain is package 0. -/
def State.pkg (s : State) : Nat := if s.domain then fld s.svc.pkgnum 9 0 else 0

/-- The checks of a native leaf (R29): the TLB entry or fault 0x18. -/
def nativeLeaf (s : State) (kid level va : Nat) (e : Word64) : Except Code TlbEntry :=
  let sz := fld e 9 6
  let frame := fld e 51 12 * 4096
  let tgt := fld e 53 52
  let owner := fld e 63 54
  let size := 2 ^ pageLog sz
  if 12 ≤ sz ∨ pageLevel sz ≠ level then .error 0x18
  else if frame % size ≠ 0 ∨ tgt = 3 ∨ fld e 11 10 ≠ 0 ∨ bitAt e 5 then .error 0x18
  else if tgt = 0 ∧ hbmSize < frame + size then .error 0x18
  else if tgt = 2 ∧ (!s.domain ∨ s.npkg ≤ owner ∨ owner = s.pkg) then .error 0x18
  else .ok { kid := kid, va := va / size * size, size := size, tgt := tgt, owner := owner, frame := frame,
             w := bitAt e 2, x := bitAt e 3, sup := bitAt e 4, dirty := true }

/-- Keep a pointer entry in the walk cache of the walking cluster's die (R36). -/
def State.keepWalk (s : State) (cl : Nat) (e : WalkEntry) : State :=
  let d := s.die (dieOfCluster cl)
  s.setDie (dieOfCluster cl)
    { d with walkCache := e :: d.walkCache.filter fun x => !(x.kid == e.kid && x.level == e.level && x.va == e.va) }

/-- Where a walk begins (R36): at the lowest table to which the die's walk cache leads, if it is still there, or at the root. -/
def State.walkFrom (s : State) (kid cl va top root : Nat) : State × WalkEntry :=
  let hit := (List.range top).findSome? fun l => (s.die (dieOfCluster cl)).walkCache.find? fun e =>
    e.kid == kid && e.level == l + 1 && e.va == va >>> (12 + 9 * (l + 1))
  let start : WalkEntry := { kid := kid, level := top, va := 0, table := root, w := true, sup := false }
  match hit with
  | none => (s, start)
  | some e => ({ s with moment := s.moment + 1 }, if Config.walkCached s.moment then e else start)

/-- Walk native tables from a level downward (R28, R29): `fuel` is the level. Of a group whose entries differ it uses the one at
the address's own index (R30 leaves which open: log 53). -/
def nativeWalk (s : State) (kid cl va : Nat) : Nat → Nat → State × Except Code TlbEntry
  | 0, _ => (s, .error 0x18)
  | fuel + 1, table =>
    let level := fuel + 1
    let k := table + 8 * (va >>> (12 + 9 * fuel) % 512)
    let (s, w, po) := s.readWord kid k
    let e : Word64 := BitVec.ofNat 64 w
    if po then (s, .error 0x18)
    else if !bitAt e 0 then (s, .error 0x14)
    else if bitAt e 1 then
      (s, if 4 ≤ level then .error 0x18 else nativeLeaf s kid level va e)
    else if level = 1 ∨ fld e 63 52 ≠ 0 ∨ fld e 11 2 ≠ 0 ∨ hbmSize ≤ fld e 51 12 * 4096 then (s, .error 0x18)
    else
      let t := fld e 51 12 * 4096
      nativeWalk (s.keepWalk cl ⟨kid, fuel, va >>> (12 + 9 * fuel), t, true, false⟩) kid cl va fuel t

/-- The byte key of a host physical address: local HBM inside the host's decoded window (R32, R400). -/
def State.hpaKey (s : State) (hpa : Nat) : Nat :=
  if s.hdmBase ≤ hpa ∧ hpa < s.hdmBase + hbmSize then hpa - s.hdmBase else hostKey hpa

/-- Positions of HFMT's fields (R31). -/
def hbit (h : Word64) (lo : Nat) : Nat := fld h (lo + 5) lo

/-- A host physical address as a walker reaches it over CXL.cache (R31, R400): device memory through its home, host memory in
clear, whatever the key ID of the line that L2 may hold of it. -/
def State.hostWord (s : State) (kid k : Nat) : State × Nat × Bool :=
  if isHost (k / 128) then (s, ofBytes (memReadN s.mem k 8), s.poisoned (k / 128)) else s.readWord kid k

/-- The atomic update of a host table entry over CXL.cache (R32): the host's own copy of the line is the one that changes. -/
def State.writeHostWord (s : State) (kid k v : Nat) : State :=
  if isHost (k / 128) then { s with mem := memWriteN s.mem k (bytesOf 8 v) } else s.writeWord kid k v

/-- Walk host tables from a level downward (R31, R32), setting accessed bits; `w` and `sup` gather the permissions of the
levels above. The host may fail each read of its tables (R33). A large leaf whose address is not aligned to its size has the
low bits of that address dropped, for which R31 gives no fault (log 53). -/
def hostWalk (s : State) (kid cl va pasid : Nat) (hf : Word64) : Nat → Nat → Bool → Bool → State × Except Code TlbEntry
  | 0, _, _, _ => (s, .error 0x18)
  | fuel + 1, table, w, sup =>
    let level := fuel + 1
    let hpa := table + 8 * (va >>> (12 + 9 * fuel) % 512)
    let k := s.hpaKey hpa
    let (s, x, po) := s.hostWord kid k
    let e : Word64 := BitVec.ofNat 64 x
    if isHost (k / 128) ∧ Config.hostRefuses s.moment pasid hpa then ({ s with moment := s.moment + 1 }, .error 0x19)
    else if po then (s, .error 0x18)
    else if !bitAt e (hbit hf 0) then (s, .error 0x14)
    else
      let leafBit := bitAt e (hbit hf 30)
      let w := w && bitAt e (hbit hf 6)
      let sup := sup || (bitAt e (hbit hf 12) == bitAt hf 43)
      if 4 ≤ level ∧ leafBit then (s, .error 0x18)
      else
        let s := s.writeHostWord kid k (e ||| BitVec.ofNat 64 (2 ^ hbit hf 18)).toNat
        if level = 1 ∨ leafBit then
          let size := 2 ^ (12 + 9 * fuel)
          let hpa := fld e 51 12 * 4096 / size * size
          (s, .ok { kid := kid, va := va / size * size, size := size, tgt := 1, owner := 0, frame := hpa, w := w,
                    x := bitAt e (hbit hf 36) != bitAt hf 42, sup := sup, dirty := bitAt e (hbit hf 24) })
        else
          let t := fld e 51 12 * 4096
          hostWalk (s.keepWalk cl ⟨kid, fuel, va >>> (12 + 9 * fuel), t, w, sup⟩) kid cl va pasid hf fuel t w sup

/-- A whole walk of a job's tables from committed state (R28, R31, R33, R36, R38). -/
def State.walkNow (s : State) (kid cl va : Nat) : State × Except Code TlbEntry :=
  let (t0, t1) := s.trans kid cl
  let fmt := fld t0 63 62
  let root := fld t0 51 12 * 4096
  if fmt = 0 then
    let (s, e) := s.walkFrom kid cl va 5 root
    nativeWalk s kid cl va e.level e.table
  else if fmt = 1 ∧ va >>> 47 % 2 ^ 10 ≠ 0 ∧ va >>> 47 % 2 ^ 10 ≠ 2 ^ 10 - 1 then (s, .error 0x14)
  else
    let (s, e) := s.walkFrom kid cl va (if fmt = 1 then 4 else 5) root
    hostWalk s kid cl va (fld t1 63 44) (s.job kid).hfmt e.level e.table e.w e.sup

/-- Permissions of a TLB entry (R24, R34): supervisor pages first, then the access's own permission. -/
def permit (e : TlbEntry) (acc : Access) (sup : Bool) : Except Code Unit :=
  if e.sup ∧ !sup then .error 0x17
  else match acc with
    | .read => .ok ()
    | .write => if e.w then .ok () else .error 0x15
    | .fetch => if e.x then .ok () else .error 0x16

/-- The byte key of a virtual address under a TLB entry (R29, R40, R239); a host physical address inside the host's decoded
window is local HBM, byte by byte (R32). -/
def entryKey (s : State) (e : TlbEntry) (va : Nat) : Nat :=
  let a := e.frame + va % e.size
  if e.tgt = 0 then a else if e.tgt = 1 then s.hpaKey a else remoteKey e.owner a

/-- The TLB entry that covers an address (R36). -/
def Cluster.lookup (c : Cluster) (kid va : Nat) : Option TlbEntry :=
  c.tlb.find? fun e => e.kid == kid && decide (e.va ≤ va ∧ va < e.va + e.size)

/-- A global address is canonical (R21). -/
def canonical (a : Word64) : Bool := fld a 63 57 == (if bitAt a 56 then 127 else 0)

/-- The aperture of an address (R20). -/
def apertureOf (a : Word64) : Nat := fld a 63 52

/-- The key of a byte of cell memory if its quad can be reached (R56), fault 0x21 at a sealed cell (R378). -/
def State.cellByte (s : State) (cell byte : Nat) : Except Code Nat :=
  let c := s.cell cell
  if c.sealed_ then .error 0x21
  else if c.role (byte / 2 ^ 15) = 1 then .error 0x11
  else .ok (cellKey cell byte)

/-- A key ID of a job that is not Installed: every access under it is fault 0x14 (R43). -/
def State.keyGone (s : State) (kid : Nat) : Bool := kid != 0 && (s.keys.get kid (.free, 0)).1 != .installed

/-- One piece of an access inside one 128-byte line, in the apertures and, through `global`, the global window. `raw`
allows PANE bits, which the pane instructions have already used. A stack within its bounds that would pass the end of HBM is fault
0x12 (log 63). -/
def locateSome (s : State) (c : Ctx) (global : Nat → Except Stop Nat) (a : Word64) (n : Nat) : Except Stop Nat :=
  let fail (code : Code) : Except Stop Nat := .error (.fault code a 0)
  let ap := apertureOf a
  if ap = 0xFFF then
    if fld a 51 21 ≠ 0 ∨ fld a 20 18 ≠ 0 ∨ c.sup then fail 0x11
    else match s.cellByte c.cell (fld a 17 0) with
      | .ok k => .ok k
      | .error e => fail e
  else if ap = 0xFFE then
    let off := fld a 51 0
    if c.stkLim < off + n then
      .error (.fault 0x12 (if off < c.stkLim then a + BitVec.ofNat 64 (c.stkLim - off) else a) 0)
    else if hbmSize < c.stkBase + off + n then fail 0x12
    else .ok (c.stkBase + off)
  else if ap = 0xFFD then
    if fld a 51 23 ≠ 0 ∨ c.ecCount ≤ fld a 22 3 then fail 0x11
    else .ok (c.ecBase + 8 * fld a 22 3)
  else if ap = 0xFFC then
    if fld a 51 26 ≠ 0 ∨ fld a 25 23 ≠ 0 ∨ c.sup then fail 0x11
    else match s.cellByte (c.cell / 32 * 32 + fld a 22 18) (fld a 17 0) with
      | .ok k => .ok k
      | .error e => fail e
  else if !canonical a then fail 0x10
  else global (a.toNat % 2 ^ 57)

/-- One piece of an access, under a key ID that is Installed (R43). -/
def locatePiece (s : State) (c : Ctx) (global : Nat → Except Stop Nat) (a : Word64) (n : Nat) : Except Stop Nat :=
  match locateSome s c (fun va => if s.keyGone c.kid then .error (.fault 0x14 a 0) else global va) a n with
  | .error e => .error e
  | .ok k => if s.keyGone c.kid then .error (.fault 0x14 a 0) else .ok k

/-- The global window of a core: its TLB, or identity for supervisor firmware, whose translation the manual does not give
(log 6). -/
def tlbGlobal (s : State) (c : Ctx) (acc : Access) (a : Word64) (va : Nat) : Except Stop Nat :=
  if c.sup then (if va < hbmSize then .ok va else .error (.fault 0x14 a 0))
  else
    let cl := s.cluster c.cl
    match cl.walkFaults.find? (fun w => w.kid == c.kid && w.va == va / 4096 && w.cores.contains c.core) with
    | some w => .error (.fault w.code a 0)
    | none =>
      match cl.lookup c.kid va with
      | none => .error (.miss va acc)
      | some e =>
        match permit e acc c.sup with
        | .error code => .error (.fault code a 0)
        | .ok _ => .ok (entryKey s e va)

/-- Pieces of an access split at 128-byte lines: address and length. -/
def addrPieces (a : Word64) (n : Nat) : List (Word64 × Nat) :=
  (pieces (n / 128 + 2) a.toNat n).map fun p => (BitVec.ofNat 64 p.1, p.2)

/-- Locate the pieces of an access in ascending order (R22, R157): one aperture for all bytes. -/
def locateAll (s : State) (c : Ctx) (glob : Word64 → Nat → Except Stop Nat) (ap : Nat) :
    List (Word64 × Nat) → Except Stop (List (Nat × Nat))
  | [] => .ok []
  | (a, n) :: t =>
    let bucket (x : Nat) : Nat := if 0xFFC ≤ x then x else 0
    if bucket (apertureOf a) ≠ bucket ap then .error (.fault 0x11 a 0)
    else do
      let k ← locatePiece s c (glob a) a n
      let r ← locateAll s c glob ap t
      pure ((k, n) :: r)

/-- Locate n bytes at an address: byte keys and lengths, line by line. An event-counter access must be one aligned
counter (R22). -/
def locateWith (s : State) (c : Ctx) (glob : Word64 → Nat → Except Stop Nat) (a : Word64) (n : Nat) :
    Except Stop (List (Nat × Nat)) :=
  if apertureOf a = 0xFFD ∧ (n ≠ 8 ∨ a.toNat % 8 ≠ 0) then .error (.fault 0x13 a 0)
  else locateAll s c glob (apertureOf a) (addrPieces a n)

/-- Locate for a core's own access, through its TLB. -/
def locate (s : State) (c : Ctx) (acc : Access) (a : Word64) (n : Nat) : Except Stop (List (Nat × Nat)) :=
  locateWith s c (tlbGlobal s c acc) a n

/-- The global window of an engine: what a walk of its own found (R38). -/
def walkGlobal (s : State) (c : Ctx) (acc : Access) (r : Except Code TlbEntry) (a : Word64) (va : Nat) : Except Stop Nat :=
  if c.sup then (if va < hbmSize then .ok va else .error (.fault 0x14 a 0))
  else match r with
    | .error code => .error (.fault code a 0)
    | .ok e =>
      match permit e acc c.sup with
      | .error code => .error (.fault code a 0)
      | .ok _ => .ok (entryKey s e va)

/-- Whether a piece of an access needs a walk: it lies in the global window, under a key ID that is Installed. -/
def State.walks (s : State) (c : Ctx) (a : Word64) : Bool :=
  decide (apertureOf a < 0xFFC) && canonical a && !c.sup && !s.keyGone c.kid

/-- Locate pieces by walks, in ascending order (R22, R38): each walk leaves its accessed bits (R32). -/
def locateWalk (c : Ctx) (acc : Access) (ap : Nat) :
    List (Word64 × Nat) → State → State × Except Stop (List (Nat × Nat))
  | [], s => (s, .ok [])
  | (a, n) :: t, s =>
    let bucket (x : Nat) : Nat := if 0xFFC ≤ x then x else 0
    if bucket (apertureOf a) ≠ bucket ap then (s, .error (.fault 0x11 a 0))
    else
      let (s', r) := if s.walks c a then s.walkNow c.kid c.cl (a.toNat % 2 ^ 57) else (s, .error 0x14)
      match locatePiece s' c (walkGlobal s' c acc r a) a n with
      | .error e => (s', .error e)
      | .ok k => match locateWalk c acc ap t s' with
        | (s'', .ok l) => (s'', .ok ((k, n) :: l))
        | (s'', .error e) => (s'', .error e)

/-- Locate for an engine or a record access, by walks, with what the walks leave behind (R32, R38). -/
def State.locateW (s : State) (c : Ctx) (acc : Access) (a : Word64) (n : Nat) : State × Except Stop (List (Nat × Nat)) :=
  if apertureOf a = 0xFFD ∧ (n ≠ 8 ∨ a.toNat % 8 ≠ 0) then (s, .error (.fault 0x13 a 0))
  else locateWalk c acc (apertureOf a) (addrPieces a n) s

/-- Where an engine's or a unit's access lies. -/
def locateNow (s : State) (c : Ctx) (acc : Access) (a : Word64) (n : Nat) : Except Stop (List (Nat × Nat)) :=
  (s.locateW c acc a n).2

/-- The bytes of own parts to a line that its home has not yet applied, latest source CSN last (R260); the home may be this
package, where the page has since come here (R42). -/
def State.overlayParts (s : State) (line : Nat) (d : Line) : Line :=
  (s.unapplied.filter fun p => (if p.home = s.pkg then p.addr else remoteKey p.home p.addr) / 128 == line).foldl
    (fun d p => (d &&& ~~~p.mask) ||| (p.data &&& p.mask)) d

/-- A committed read through the job's tables (R119, R301, R315): the bytes, or the code and address of what it met;
a poisoned line gives 0x20. Its walks leave their accessed bits and its lines their effect on L2 and on KEYMIS (R32, R45). Lines of
other packages are those that have been received (R40), with the bytes of this package's own parts to them (R260). -/
def State.readNowFrom (s : State) (got : NMap (Line × Bool)) (c : Ctx) (a : Word64) (n : Nat) :
    State × Except (Code × Word64) (List Byte) :=
  match s.locateW c .read a n with
  | (s, .error (.fault code ad _)) => (s, .error (code, ad))
  | (s, .error _) => (s, .error (0x14, a))
  | (s, .ok ps) =>
    let note (old : Option Word64) (po : Bool) (ad : Word64) : Option Word64 := if old.isNone ∧ po then some ad else old
    let r := (List.zip ps (addrPieces a n)).foldl (fun (x : State × List Byte × Option Word64) p =>
      if isRemote (p.1.1 / 128) then
        let (d, po) := got.get (p.1.1 / 128) (0, false)
        let d := x.1.overlayParts (p.1.1 / 128) d
        (x.1, x.2.1 ++ bytesOf p.1.2 (d.toNat >>> (8 * (p.1.1 % 128))), note x.2.2 po p.2.1)
      else
        let (s, b, po) := x.1.readKey c.kid p.1.1 p.1.2
        (s, x.2.1 ++ b, note x.2.2 po p.2.1)) (s, [], none)
    match r.2.2 with
    | some ad => (r.1, .error (0x20, ad))
    | none => (r.1, .ok r.2.1)

/-- The same with the lines that the package's units have asked for. -/
def State.readNow (s : State) (c : Ctx) (a : Word64) (n : Nat) : State × Except (Code × Word64) (List Byte) :=
  s.readNowFrom s.fwd c a n

/-- A committed write through the job's tables, all or nothing: what it leaves, and the code and address of what it met. -/
def State.writeNow (s : State) (c : Ctx) (a : Word64) (bs : List Byte) : State × Option (Code × Word64) :=
  match s.locateW c .write a bs.length with
  | (s, .error (.fault code ad _)) => (s, some (code, ad))
  | (s, .error _) => (s, some (0x14, a))
  | (s, .ok ps) =>
    ((ps.foldl (fun (x : State × List Byte) p => (x.1.writeKey c.kid p.1 (x.2.take p.2), x.2.drop p.2)) (s, bs)).1, none)

/-- The lines that a committed read needs; none where it meets a fault. -/
def State.linesAt (s : State) (c : Ctx) (a : Word64) (n : Nat) : List Nat :=
  match locateNow s c .read a n with
  | .error _ => []
  | .ok ps => (ps.map (·.1 / 128)).eraseDups

/-- The lines of other packages among some that have not come (R40). -/
def State.notHere (s : State) (ls : List Nat) : List Nat := ls.filter fun l => isRemote l && (s.fwd.find l).isNone

/-- The lines of other packages that a read needs and that have not come (R40). -/
def State.missing (s : State) (c : Ctx) (a : Word64) (n : Nat) : List Nat := s.notHere (s.linesAt c a n)

/-- Whether a copy command that has been issued is still to write some of the lines: who reads them waits for it (R98, R250). -/
def State.anyClaimed (s : State) (ls : List Nat) : Bool := ls.any s.claimed

/-- Lines of other packages that a unit has read are let go. -/
def State.dropFar (s : State) (ls : List Nat) : State := { s with fwd := ls.foldl NMap.del s.fwd }

/-- A unit's committed read, after which it lets go of the lines of other packages. -/
def State.readOnce (s : State) (c : Ctx) (a : Word64) (n : Nat) : State × Except (Code × Word64) (List Byte) :=
  let used := s.linesAt c a n
  let (s, r) := s.readNow c a n
  (s.dropFar used, r)

/-- The number that stands for the package's own units, which are no cores, in forwarded requests. -/
def unitCore : Nat := 65535

/-- The request for a line of another package, with a tag that its reply brings back (R40). -/
def FwdReq.read (pkg core kid line tag : Nat) : FwdReq :=
  { pkg := pkg, core := core, kid := kid, line := line, addr := remoteAddr line, again := false, atomic := none, tag := tag }

/-- Ask for lines of other packages under a key ID (R40). -/
def State.ask (s : State) (kid : Nat) (ls : List Nat) : State :=
  let new := ls.filter fun l => !s.asked.contains l
  { s with
    asked := s.asked ++ new
    outs := s.outs ++ new.map fun l =>
      Out.forward (remoteOwner l) (FwdReq.read s.pkg unitCore kid l 0) }

end Sys2Proof.Machine
end

