-- ==== Sys2Proof/Machine/Records.lean ====
section
/-!
DEFINITION. Error records (R402, R423), verdicts (R381, R382), the commit-order log and its replay (R415-R419).
-/
namespace Sys2Proof.Machine

/-- The fields of an error record that the reporter knows (R423). -/
structure ErrRec where
  code : Code
  cls : Nat
  unit : Nat
  die : Nat
  pclu : Nat
  pcell : Nat
  idx : Nat
  addr : Word64
  kid : Nat
  deriving DecidableEq, Repr

/-- Write an error record and send MSI-X vector 1; drop it and count it as lost when the ring is full or its size is
illegal (R402, R423). -/
def State.errorRecord (s : State) (e : ErrRec) : State :=
  let p := s.svc.errptr
  let size := fld p 47 43
  let wr := fld p 19 0
  let rd := fld p 39 20
  let lost := fld p 63 48
  if size < 8 ∨ 16 < size ∨ (wr + 2 ^ 20 - rd) % 2 ^ 20 = 2 ^ size then
    { s with svc := { s.svc with errptr := setFld p 63 48 (if lost < 65535 then lost + 1 else lost) } }
  else
    let w0 := e.code.toNat * 2 ^ 56 + e.cls * 2 ^ 52 + e.unit * 2 ^ 48 + s.pkg * 2 ^ 34 + e.die * 2 ^ 31 +
      e.pclu * 2 ^ 25 + e.pcell * 2 ^ 19 + e.idx % 2 ^ 19
    let k := (fld s.svc.errbase 51 12 * 4096 + 32 * (wr % 2 ^ size)) % hbmSize
    let bs := bytesOf 8 w0 ++ bytesOf 8 e.addr.toNat ++ bytesOf 8 s.dt ++ bytesOf 8 (e.kid * 2 ^ 54 + s.csn % 2 ^ 54)
    let s := s.writeKey 0 k bs
    { s with svc := { s.svc with errptr := setFld p 19 0 (wr + 1) }, outs := s.outs ++ [.msix 1] }

/-- The physical cell of a logical cell under its die's maps (R320, R378). -/
def State.physCluster (s : State) (cl : Nat) : Nat := (s.die (cl / 48)).clusterMap.get (cl % 48) (cl % 48)
def State.physCell (s : State) (cell : Nat) : Nat :=
  (s.die (cell / 1536)).cellMap.get (cell % 1536) (cell % 32)

/-- An error record that a core writes about itself; one of a die supervisor core, which lies in no cluster, names the numbers of
log 51. -/
def State.coreError (s : State) (i : Nat) (code : Code) (cls unit : Nat) (addr : Word64) (kid : Nat) : State :=
  if isSup i then s.errorRecord ⟨code, cls, unit, dieOf i, 63, 0, i % 4, addr, kid⟩
  else s.errorRecord ⟨code, cls, unit, dieOf i, s.physCluster (clusterOf i), s.physCell (cellOf i), i % 4, addr, kid⟩

/-- An error record of the package's latch, clock, windows and hoops (R424, UNIT 8). -/
def State.packageError (s : State) (code : Code) (cls : Nat) (addr : Word64) (kid : Nat) : State :=
  s.errorRecord ⟨code, cls, 8, 0, 0, 0, 0, addr, kid⟩

/-- Record an error of a task (codes 0x0A to 0x0C, CLASS 7) at the cluster or core it belongs to. -/
def State.taskError (s : State) (i : Nat) (code : Code) (addr : Word64) (kid : Nat) : State := s.coreError i code 7 0 addr kid

/-! ## Verdicts -/

/-- Place of a job's context (R322). -/
def State.jobBase (s : State) (kid : Nat) : Nat := (fld s.svc.jcbase 51 20 * 2 ^ 20 + 1024 * kid) % hbmSize

/-- The VERDICT word of a job as key ID 0 finds it in memory (R381, R45). -/
def State.verdict (s : State) (kid : Nat) : Word64 := BitVec.ofNat 64 (s.readWord 0 (s.jobBase kid + 0x38)).2.1

/-- Whether a job's verdict is tainted (R341). -/
def State.tainted (s : State) (kid : Nat) : Bool := fld (s.verdict kid) 1 0 == 2

/-- A VERDICT word after an event of a level (R381): the level rises, its count goes up and saturates. -/
def verdictUp (v : Word64) (lvl : Nat) : Word64 :=
  let w := setFld v 1 0 (if fld v 1 0 < lvl then lvl else fld v 1 0)
  if lvl = 1 then (if fld w 63 32 < 2 ^ 32 - 1 then setFld w 63 32 (fld w 63 32 + 1) else w)
  else if fld w 31 16 < 65535 then setFld w 31 16 (fld w 31 16 + 1) else w

/-- The level of a launch rises (R382). -/
def State.raiseLaunch (s : State) (launch lvl : Nat) : State :=
  match s.launches.find launch with
  | none => s
  | some l => { s with launches := s.launches.put launch { l with level := if l.level < lvl then lvl else l.level } }

/-- An event of R381: raise the job's level and its count, and the level of the launch (R382). Level 1 is corrected, 2
tainted. -/
def State.raiseVerdict (s : State) (kid launch lvl : Nat) : State :=
  let r := s.readWord 0 (s.jobBase kid + 0x38)
  (r.1.writeWord 0 (s.jobBase kid + 0x38) (verdictUp (BitVec.ofNat 64 r.2.1) lvl).toNat).raiseLaunch launch lvl

/-! ## The commit-order log -/

/-- Byte key of log entry i (R415). -/
def State.logKey (s : State) (i : Nat) : Nat :=
  (fld s.svc.logctl 51 12 * 4096 + 16 * (i % 2 ^ fld s.svc.logptr 62 58)) % hbmSize
def State.logIdx (s : State) : Nat := fld s.svc.logptr 27 0
def State.logLim (s : State) : Nat := fld s.svc.logptr 55 28
def State.logKid (s : State) : Nat := fld s.svc.logctl 11 2
def State.setIdx (s : State) (i : Nat) : State := { s with svc := { s.svc with logptr := setFld s.svc.logptr 27 0 i } }

/-- Write one log entry (R416). -/
def State.logEntry (s : State) (w0 w1 : Nat) : State :=
  (s.writeKey s.logKid (s.logKey s.logIdx) (bytesOf 8 w0 ++ bytesOf 8 w1)).setIdx (s.logIdx + 1)

/-- Whether n entries fit below LIM (R416); always where no log is written. -/
def State.logRoom (s : State) (n : Nat) : Bool := s.svc.logMode != 1 || decide (s.logIdx + n ≤ s.logLim)

/-- The entries of one value of a chunk (R416): VK in bits 43 to 40, ORD below. -/
def LogValue.entries (core : Nat) (v : LogValue) : List (Nat × Nat) :=
  v.vals.map fun x => (6 * 2 ^ 60 + core % 2 ^ 16 * 2 ^ 44 + v.vk * 2 ^ 40 + v.ord % 2 ^ 32, x.toNat)

/-- Write the entries of a grant, its values first, where a log is written; in replay move past the entry (R416, R418). -/
def State.logGrant (s : State) (core : Nat) (vals : List LogValue) (w0 : Nat) : State :=
  if s.svc.logMode = 1 then
    let s := (vals.map (LogValue.entries core)).flatten.foldl (fun s e => s.logEntry e.1 e.2) s
    s.logEntry w0 s.csn
  else s

/-- One log entry as two words, read under the log's key ID (R415). -/
def State.readEntry (s : State) (i : Nat) : Word64 × Word64 :=
  let b := (s.readKey s.logKid (s.logKey i) 16).2.1
  (BitVec.ofNat 64 (ofBytes (b.take 8)), BitVec.ofNat 64 (ofBytes (b.drop 8)))
def entryKind (w : Word64) : Nat := fld w 63 60
def entryCore (w : Word64) : Nat := fld w 59 44

/-- The entries from IDX up to LIM that a test picks, at most n of them, looking at no more than `fuel` entries. -/
def State.scanLog (s : State) (p : Word64 → Bool) : Nat → Nat → Nat → List (Word64 × Word64)
  | 0, _, _ => []
  | fuel + 1, i, n =>
    if n = 0 ∨ s.logLim ≤ i then []
    else
      let e := s.readEntry i
      if p e.1 then e :: s.scanLog p fuel (i + 1) (n - 1) else s.scanLog p fuel (i + 1) n

/-- The next grant entry: the first from IDX that is not a value (R418), with its index. -/
def State.nextGrant (s : State) : Nat → Nat → Option (Nat × Word64 × Word64)
  | 0, _ => none
  | fuel + 1, i =>
    if s.logLim ≤ i then none
    else
      let e := s.readEntry i
      if entryKind e.1 = 6 then s.nextGrant fuel (i + 1) else some (i, e)

/-- The logged LEN of a core's n-th next chunk (R418). -/
def State.loggedLen (s : State) (core n : Nat) : Option Nat :=
  ((s.scanLog (fun w => entryKind w == 1 && entryCore w == core) (s.logLim - s.logIdx) s.logIdx (n + 1)).drop n).head?.map
    fun e => fld e.1 43 32

/-- Nothing is enforced any more (R418, R419). The numbers of the logged windows are past with it: no window of the package's clock
counts as granted. -/
def State.endReplay (s : State) : State :=
  { s with svc := { s.svc with logMode := 0, logctl := setFld s.svc.logctl 1 0 0 }, lastBatch := none }

/-- Replay diverges (R419): DIV, no enforcement, an error record, and every job with a live launch tainted. -/
def State.diverge (s : State) : State :=
  let s : State := { s.endReplay with svc := { s.endReplay.svc with logptr := setFld s.svc.logptr 63 63 1 } }
  let s := s.packageError 0 6 0 0
  s.launches.foldl (fun s p => if p.2.completed then s else s.raiseVerdict p.2.kid p.1 2) s

/-- The entries of values that a core's chunks have already used; a vote's result comes before the values of the chunk
that follows it. -/
def Core.usedValues (c : Core) : Nat :=
  let f (k : Option Chunk) : Nat := match k with
    | some k => (k.values.map (·.vals.length)).sum + (if k.after.isSome then 1 else 0)
    | none => 0
  (if c.spec.isSome then 1 else 0) + (c.carry.map (·.vals.length)).sum + f c.pend + f c.run

/-- In replay, the next n logged words for a value read of a core (R418); `none` where no replay runs, and a divergence
where the log has no such value next (R419). -/
def State.replayValue (s : State) (core vk n : Nat) : State × Option (List (Word64 × Word64)) :=
  if s.svc.logMode ≠ 2 then (s, none)
  else
    let used := (s.core core).usedValues
    let es := (s.scanLog (fun w => entryKind w == 6 && entryCore w == core) (s.logLim - s.logIdx) s.logIdx (used + n)).drop used
    if es.length = n ∧ es.all (fun e => fld e.1 43 40 == vk) then (s, some es) else (s.diverge, none)

end Sys2Proof.Machine
end

