-- ==== Sys2Proof/Machine/Ops.lean ====
section
/-!
DEFINITION. The named operations over a core's registers, its chunk and memory, and taking an exception: what a faulting,
waiting or cutting word does to the state (R235, R236, R245, R246, R365, R457), once for every instruction.
-/
namespace Sys2Proof.Machine

/-- An effect that may stop. -/
abbrev Act := StateT State (Except Stop)

/-- Stop with a fault (R363). -/
def faultWith {α : Type} (code : Code) (addr aux : Word64) : Act α := fun _ => .error (.fault code addr aux)
/-- Stop with a fault that names no address. -/
def raise {α : Type} (code : Code) : Act α := faultWith code 0 0
/-- Wait: the bundle has no effect now and issues again later. -/
def waitFor {α : Type} (n : Need) : Act α := fun _ => .error (.wait n)
/-- Cut the chunk before this bundle (R236). -/
def cutHere {α : Type} : Act α := fun _ => .error .cut
/-- Raise a fault when a condition holds. -/
def faultIf (b : Bool) (code : Code) : Act Unit := if b then raise code else pure ()
/-- Wait while a condition holds. -/
def waitIf (b : Bool) (n : Need) : Act Unit := if b then waitFor n else pure ()
/-- Apply a pure change. -/
def change (f : State → State) : Act Unit := fun s => .ok ((), f s)
/-- Use a located or checked result. -/
def liftStop {α : Type} (x : Except Stop α) : Act α := fun s =>
  match x with
  | .ok a => .ok (a, s)
  | .error e => .error e

/-- The core whose bundle is executed. -/
def State.me (s : State) : Core := s.core s.cur
def State.setMe (s : State) (c : Core) : State := s.setCore s.cur c
def State.modCore (s : State) (i : Nat) (f : Core → Core) : State := s.setCore i (f (s.core i))
def State.modMe (s : State) (f : Core → Core) : State := s.setMe (f s.me)
/-- The registers as they stood before the bundle (R133, R270). -/
def State.src (s : State) : Regs := s.me.src
/-- The live registers. -/
def State.regs (s : State) : Regs := s.me.regs
def State.modRegs (s : State) (f : Regs → Regs) : State := s.modMe fun c => { c with regs := f c.regs }
/-- Change the live registers. -/
def onRegs (f : Regs → Regs) : Act Unit := change (·.modRegs f)
def onMe (f : Core → Core) : Act Unit := change (·.modMe f)
def State.me? (s : State) : Option Task := s.me.task
/-- Whether the current core runs supervisor firmware (R320). -/
def State.supervisor (s : State) : Bool := match s.me.task with
  | some t => t.firmware
  | none => false

/-- A new chunk that starts from the registers of a core (R235). -/
def Chunk.new (seq : Nat) (r : Regs) : Chunk :=
  { seq := seq, n := 0, start := r, stores := [], rsig := 0, wsig := 0, ulines := [], held := [], atomic := none,
    remote := [], span := none, spanLines := [], pops := [], fetches := [], after := none, first := true, afterError := false,
    ended := none, values := [], dirty := [], fault := none }

/-- The running chunk, or a new one. -/
def Core.chunk (c : Core) : Chunk := c.run.getD { Chunk.new c.regs.nextId c.regs with first := c.again == 0, afterError := c.redo }

/-- Open a chunk on the current core if none runs (R235). A word begins with no flags due and no indices reserved. -/
def openChunk (s : State) : State :=
  match s.me.run with
  | some _ => s.modMe fun c => { c with due := 0, draws := [] }
  | none => s.modMe fun c =>
    { c with run := some { c.chunk with pkg := s.pkg }, again := c.again - 1, regs := { c.regs with nextId := c.regs.nextId + 1 }, due := 0, draws := [] }

def State.chunk (s : State) : Chunk := s.me.chunk
def State.modChunk (s : State) (f : Chunk → Chunk) : State := s.modMe fun c => { c with run := some (f c.chunk) }
def onChunk (f : Chunk → Chunk) : Act Unit := change (·.modChunk f)

/-- A fresh number for an operation of the current core. -/
def fresh : Act Nat := fun s =>
  .ok (s.regs.nextId, s.modRegs fun r => { r with nextId := r.nextId + 1 })

/-! ## Stopping -/

/-- The speculation of the running chunk: what the pending chunk's `cbr` began, or what the core holds (R317). -/
def Core.runSpec (c : Core) : Option Spec := match c.pend with
  | some k => k.after
  | none => c.spec

/-- Whether the running chunk is speculative and its vote unresolved (R360). -/
def Core.speculating (c : Core) : Bool := match c.runSpec with
  | some p => !p.resolved
  | none => false

/-- Return a core's popped messages to their queue (R254). -/
def Cell.unpop (c : Cell) (ids : List Nat) : Cell :=
  { c with recvQ := c.recvQ.map (fun m => if ids.contains m.id then { m with taken := false } else m) }

/-- Forget a walk fault that a core has met (R37). -/
def Cluster.dropWalkFault (c : Cluster) (core : Nat) : Cluster :=
  { c with walkFaults :=
      (c.walkFaults.map (fun w => { w with cores := w.cores.filter (· != core) })).filter (fun w => !w.cores.isEmpty) }

/-- Halve T, not below 64, and end the run of clean commits (R237). -/
def Core.halve (c : Core) : Core := { c with target := if c.target / 2 < 64 then 64 else c.target / 2, clean := 0 }

/-- The tile fetches of a squashed chunk leave no trace in their unit (R97): no outcome, and no number, unless another core's
fetch has taken a later one (log 57). -/
def State.unfetch (s : State) (i : Nat) (k : Chunk) : State :=
  let c := s.cell (cellOf i)
  let back := k.fetches.foldl (fun n x => if n = x then (if x = 1 then 0 else x - 1) else n) c.tfSeq
  let cl := s.cluster (clusterOf i)
  let key (x : Nat) : Nat := 2 ^ 40 + cellOf i % 32 * 2 ^ 28 + x
  if k.fetches.isEmpty then s
  else (s.setCell (cellOf i) { c with tfSeq := back }).setCluster (clusterOf i)
    { cl with outcomes := k.fetches.foldl (fun m x => m.del (key x)) cl.outcomes }

/-- Squash the running chunk of a core (R237, R246): T halves, its registers, streams, slots, queues and handles return to their state at
chunk start, popped messages return, and nothing it held acts; a fault held with it is gone (R361), and one that a walk has left for it (R37). -/
def squashRun (s : State) (i : Nat) : State :=
  let c := s.core i
  match c.run with
  | none => s
  | some k =>
    let s := s.setCell (cellOf i) ((s.cell (cellOf i)).unpop k.pops)
    let s := s.setCluster (clusterOf i) ((s.cluster (clusterOf i)).dropWalkFault i)
    let s := s.unfetch i k
    s.setCore i { c.halve with
                         regs := { k.start with nextId := c.regs.nextId }, run := none,
                         again := c.again + 1, cutAfter := none, next := .seq, need := .none,
                         weaveGot := [], wait := if c.wait = .vote then .none else c.wait }

/-- The chunks that a squash of a core's running chunk reaches, or of its pending one and with it the running one: the place of
each, 0 for the task's oldest, and its first bundle. -/
def Core.squashed (c : Core) (pend : Bool) : List (Nat × Word64) :=
  let y : List (Nat × Word64) := match c.run with
    | some k => [(if c.pend.isSome then 1 else 0, k.start.pc)]
    | none => []
  match c.pend with
  | some k => if pend then (0, k.start.pc) :: y else y
  | none => y

/-- One more execution of the chunk at a place of a core ends in a mismatch (R291): how many in a row from this first bundle, and the
core with that noted. The chunk after it starts its own count again. -/
def Core.mismatch (c : Core) (place : Nat) (start : Word64) : Nat × Core :=
  let x := c.mismatches.get place (0, 0)
  let n := if x.2 = start then x.1 + 1 else 1
  (n, { c with mismatches := NMap.put (if place = 0 then [] else c.mismatches) place (n, start) })

/-- Executions of the chunks at these places end in another way (R291). -/
def Core.noMismatch (c : Core) (l : List (Nat × Word64)) : Core :=
  { c with mismatches := l.foldl (fun m x => m.del x.1) c.mismatches }

/-- Count squashes, for each chunk in a row from one first bundle (R247), and forget what spin detection remembers. -/
def Core.afterSquash (c : Core) (l : List (Nat × Word64)) : Core :=
  { c with
    tries := l.foldl (fun m x => m.put x.1 (if (m.get x.1 (0, 0)).2 = x.2 then (m.get x.1 (0, 0)).1 + 1 else 1, x.2)) c.tries
    spin := ⟨0, 0, [], []⟩ }

/-- The third squash of a chunk in a row from one first bundle asks for the priority token (R247). -/
def State.askToken (s : State) (i : Nat) : State :=
  let asks := [false, true].filter fun y => decide (3 ≤ ((s.core i).tries.get (bit y) (0, 0)).1) && !s.token.contains (i, y)
  { s with token := s.token ++ asks.map fun y => (i, y) }

/-- A core's chunk releases the priority token, or its place in the queue for it (R247). -/
def State.dropToken (s : State) (i : Nat) (younger : Bool) : State :=
  { s with token := s.token.filter (· != (i, younger)) }

/-- Start the supervisor firmware on a core, its registers as at a fresh start (R457, R430). -/
def State.startFirmware (s : State) (i : Nat) : State :=
  let t : Task :=
    { id := 0, kid := 0, words := 0, addr := 0, save := 0, stkBase := 0, stkLim := 0, tile := 0, launch := 0,
      regCluster := clusterOf i, s0 := 0, contSave := none, handlerOf := none, gang := none, member := 0,
      resume := false, firmware := true, started := true, entryAt := none, atClosure := false, lastPart := none }
  s.setCore i { Core.reset with
    task := some t, regs := { Regs.reset with pc := Config.firmwareEntry s.image i },
    src := { Regs.reset with pc := Config.firmwareEntry s.image i }, since := s.cyc, deficit := (s.core i).deficit }

/-- TAKING AN EXCEPTION: a fault in the running chunk of the current core. In a speculative chunk it is held with the
chunk until the vote's result (R361). Otherwise the chunk is squashed, the priority token released, and the fault waits
for its delivery, which saves the state at the chunk's start, parks the task and spawns the handler (R365, FAULT_DELIVERY).
On a supervisor core the firmware starts again, once an older pending chunk has been granted (R457). -/
def takeFault (code : Code) (addr aux : Word64) (s : State) : State :=
  let i := s.cur
  let c := s.me
  let k := c.chunk
  let f : FaultRec :=
    { code := code, pc := k.start.pc, fpc := c.src.pc, addr := if 0x10 ≤ code ∧ code ≤ 0x21 then addr else 0,
      aux := aux, trapNo := 0 }
  if c.speculating then
    let s := s.setCluster (clusterOf i) ((s.cluster (clusterOf i)).dropWalkFault i)
    s.setCore i { c with run := some { k with fault := some f }, wait := .vote, phase := .faulted }
  else if isSup i ∧ c.pend.isNone then
    (((squashRun s i).dropToken i false).coreError i code 9 0 c.src.pc 0).startFirmware i
  else
    ((squashRun s i).modCore i fun x =>
      { x.noMismatch (c.squashed false) with fault := some f, wait := .deliver, phase := .faulted }).dropToken i
      c.pend.isSome

/-- Mark the oldest walk that no walker has taken. -/
def Cluster.beginWalk (c : Cluster) : Cluster :=
  match c.walks.find? (!·.begun) with
  | none => c
  | some w => { c with walks := c.walks.map fun x => if x.id = w.id then { x with begun := true } else x }

/-- The free ones of a die's 64 walkers take pending walks by round robin over its clusters, within a cluster the oldest
first (R36, R37); the first argument bounds how many. -/
def State.assignWalkers (die : Nat) : Nat → State → State
  | 0, s => s
  | fuel + 1, s =>
    if 64 ≤ ((clustersOf die).map fun x => ((s.cluster x).walks.filter (·.begun)).length).sum then s
    else match roundRobin (clustersOf die) (s.die die).walkPtr fun x => (s.cluster x).walks.any (!·.begun) with
      | none => s
      | some x =>
        assignWalkers die fuel
          ((s.setCluster x (s.cluster x).beginWalk).setDie die { s.die die with walkPtr := clusterPlace x + 1 })

/-- Put a walk into the miss table: an access to a page that has one joins it; a full table makes the access wait (R37). An access
that tries again keeps its place among those that wait. -/
def State.missWalk (s : State) (c : Ctx) (va : Nat) (acc : Access) : State :=
  let cl := s.cluster c.cl
  let here (w : Walk) : Bool := w.kid == c.kid && w.va == va / 4096 && !w.void_
  if cl.walks.any here then
    let join (w : Walk) : Walk :=
      if !here w || (w.waiters.any (·.1 == c.core) && (s.core c.core).need == .walk (va / 4096)) then w
      else { w with waiters := w.waiters.filter (·.1 != c.core) ++ [(c.core, s.moment)] }
    s.setCluster c.cl { cl with walks := cl.walks.map join }
  else if 256 ≤ cl.walks.length then s
  else
    let w : Walk := { id := s.moment, kid := c.kid, va := va / 4096, acc := acc, void_ := false,
                      waiters := [(c.core, s.moment)], begun := false }
    (s.setCluster c.cl { cl with walks := cl.walks ++ [w] }).assignWalkers (dieOfCluster c.cl) 64

/-- A request of a core enters its cell's injection queue (R389). -/
def State.inject (s : State) (i : Nat) (o : Out) : State :=
  let c := s.cell (cellOf i)
  s.setCell (cellOf i) { c with inject := c.inject ++ [.req o i s.csn] }

/-- The core that made an entry of an injection queue. -/
def Inject.core : Inject → Nat
  | .msg _ i | .req _ i _ => i

/-- A bundle that cannot issue: nothing of it has happened, and the core remembers what it waits for. A TLB miss starts
or joins its walk (R37); a read of another package's line sends its request (R40). In replay a wait for such a line or for a message
has read the log, and where the log holds no value for it the replay has diverged (R418, R419). -/
def block (n : Need) (s : State) : State :=
  let s := match n with
    | .remote line tag =>
      if s.me.need = n then s
      else
        let s := (s.replayValue s.cur 1 16).1
        s.inject s.cur (.forward (remoteOwner line) (FwdReq.read s.pkg s.cur (s.ctx s.cur).kid line tag))
    | .msg =>
      if s.me.need = n then s else (s.replayValue s.cur 4 1).1
    | _ => s
  s.modMe fun c => { c with need := n, phase := .waiting }

/-- A TLB miss of the current core. -/
def blockMiss (va : Nat) (acc : Access) (s : State) : State :=
  block (.walk (va / 4096)) (s.missWalk (s.ctx s.cur) va acc)

/-- In replay, a chunk that a cause of R236 ends at a bundle count other than the log's makes the replay diverge (R419). -/
def State.checkLen (s : State) (core : Nat) (k : Chunk) : State :=
  let n := match (s.core core).pend with
    | some p => if p.atomic.isNone then 1 else 0
    | none => 0
  if s.svc.logMode = 2 ∧ k.atomic.isNone then
    match s.loggedLen (core % 2 ^ 16) n with
    | some len => if k.n = len + 1 then s else s.diverge
    | none => s
  else s

/-- End the running chunk before the bundle at which the core stands (R236): the chunk becomes pending. A core that has a
pending chunk already waits with the ended one (R238). -/
def endChunk (why : Ended) (s : State) : State :=
  (s.checkLen s.cur s.me.chunk).modMe fun c =>
    let k := { c.chunk with ended := some why }
    match c.pend with
    | none => { c with run := none, pend := some k, cutAfter := none, requested := false }
    | some _ => { c with run := some k, cutAfter := none }

/-- A word that cuts the chunk before its bundle: the bundle becomes the first of the next chunk. In a speculative chunk
the core stalls at it instead (R59, R360). The first bundle of a chunk waits for what the core's other chunk and the other cores give
back, also where its own lines alone exceed the capacity, for which R59 gives no outcome (log 64). -/
def cutBefore (s : State) : State :=
  if s.me.speculating then block .result s
  else
    let s := if s.me.chunk.n = 0 then block .pend s else endChunk .plain s
    s.modMe fun c => { c with phase := .cutting }

/-- Run one word of a bundle on the current core: the outcome is always a next state; a stop takes its exception, waits or
cuts. -/
def issue (m : Act Unit) (s : State) : Host.Outcome State Fault Refusal :=
  match s.me.task with
  | none => .fault .notEnabled
  | some _ =>
    match m (openChunk s) with
    | .ok (_, s') => .next (s'.modMe fun c => { c with phase := .ok, need := .none })
    | .error (.fault code addr aux) => .next (takeFault code addr aux (openChunk s))
    | .error (.wait n) => .next (block n (openChunk s))
    | .error (.miss va acc) => .next (blockMiss va acc (openChunk s))
    | .error .cut => .next (cutBefore (openChunk s))

/-- An event that can happen only in some states. -/
def event (enabled : Bool) (s' : State) : Host.Outcome State Fault Refusal :=
  if enabled then .next s' else .fault .notEnabled

/-! ## Chunk accesses (R155) -/

/-- Whether a line of local HBM is in transit (R42, R383). -/
def State.inTransit (s : State) (line : Nat) : Bool :=
  isHbm line && s.transit.any fun t => decide (t.base ≤ line * 128 ∧ line * 128 < t.base + t.size)

/-- The cache-role lines a chunk holds: uncommitted lines and one for each held spawn or message (R59, R295). -/
def Chunk.lines (k : Chunk) : Nat :=
  k.ulines.length + (k.held.filter fun h => match h with
    | .tspawn _ | .tspawnc _ _ | .send _ _ => true
    | _ => false).length

/-- The lines a core's chunks and tile slots hold (R59, R110). -/
def Core.lines (c : Core) : Nat :=
  (c.regs.slots.toList.map (·.lines.length)).sum +
  (match c.run with
    | some k => k.lines
    | none => 0) +
  (match c.pend with
    | some k => k.lines
    | none => 0)

/-- Whether an entry is a message of a core. -/
def Inject.msgOf (i : Nat) : Inject → Bool
  | .msg _ j => j == i
  | .req _ _ _ => false

/-- The lines a core holds with those of its granted messages that still wait for an entry of the injection queue (R389). -/
def State.coreLines (s : State) (i : Nat) : Nat :=
  (s.core i).lines + (((s.cell (cellOf i)).inject.drop 16).filter (Inject.msgOf i)).length

/-- The lines the core with this number may hold now (R59): what the other three cores' guarantees or holdings leave;
the guaranteed 64 while a log is written or replayed (R417). -/
def State.capacity (s : State) (i : Nat) : Nat :=
  if s.svc.logMode ≠ 0 then 64
  else
    let q := (s.cell (cellOf i)).cacheQuads
    let b := i / 4 * 4
    let others := ([b, b + 1, b + 2, b + 3].filter (· != i)).foldl
      (fun a j => a + (if s.coreLines j < 64 then 64 else s.coreLines j)) 0
    if 256 * q < others + 64 then 64 else 256 * q - others

/-- Place a new uncommitted or pinned line (R59, R60): in its own set, or in the lowest set with a free way through the
overflow tag table of 64 entries; none when the capacity is exceeded. -/
def State.placeLine (s : State) (i line : Nat) : Option ULine :=
  let ways := 8 * (s.cell (cellOf i)).cacheQuads
  let own := cacheSet line
  if s.capacity i ≤ s.coreLines i then none
  else if s.setLoad (cellOf i) own < ways then some ⟨line, own, false⟩
  else
    let c := s.core i
    let extra (k : Option Chunk) : Nat := match k with
      | some k => (k.ulines.filter (·.extra)).length
      | none => 0
    if 64 ≤ extra c.run + extra c.pend + (c.regs.slots.toList.map fun t => (t.lines.filter (·.extra)).length).sum then none
    else match (List.range 32).find? fun x => s.setLoad (cellOf i) x < ways with
      | some x => some ⟨line, x, true⟩
      | none => none

/-- Note a line touched in a span: a 65th distinct one is fault 0x38 (R249). -/
def touchSpan (line : Nat) : Act Unit := do
  let s ← get
  let k := s.chunk
  match k.span with
  | none => pure ()
  | some _ =>
    if k.spanLines.contains line then pure ()
    else if 64 ≤ k.spanLines.length then raise 0x38
    else onChunk fun k => { k with spanLines := line :: k.spanLines }

/-- Enter a line into the read signature (R240). -/
def enterRead (line : Nat) : Act Unit := do
  touchSpan line
  onChunk fun k => { k with rsig := sigAdd k.rsig line }

/-- Enter a line into the write signature (R240). -/
def enterWrite (line : Nat) : Act Unit := do
  touchSpan line
  onChunk fun k => { k with wsig := sigAdd k.wsig line }

/-- Hold a line in a way of the cache role, whose set gives up its least recently used committed line for it (R57), or cut the
chunk before this bundle (R59); a speculative chunk stalls. Inside a span the guaranteed lines always leave room. -/
def holdLine (line : Nat) : Act Unit := do
  let s ← get
  let k := s.chunk
  let take (u : ULine) : Act Unit :=
    change fun s => (s.modChunk fun k => { k with ulines := u :: k.ulines }).trimSet (cellOf s.cur) u.set
  if k.ulines.any (·.name == line) then pure ()
  else match s.placeLine s.cur line with
    | some u => take u
    | none => if k.span.isSome then take ⟨line, cacheSet line, false⟩ else cutHere

/-- Note an access to the cache role in the recency lists of the sampled sets (R63): `had` says whether the cell held the line, and
`live` which lines that no replacement puts out are still in the cell. -/
def Cell.sample (c : Cell) (live : Nat → Bool) (had : Bool) (line : Nat) : Cell :=
  let set := cacheSet line
  if set % 8 ≠ 0 then c
  else
    let j : Fin 4 := ⟨set / 8 % 4, Nat.mod_lt _ (by decide)⟩
    let l := (c.recency.get j).filter live
    let q := c.cacheQuads
    let place := l.findIdx (· == line)
    { c with
      cntA := c.cntA + 1
      cntL := if had ∧ 8 * (q - 1) ≤ place ∧ place < 8 * q then c.cntL + 1 else c.cntL
      cntG := if !had ∧ place < l.length ∧ 8 * q ≤ place ∧ place < 8 * q + 8 then c.cntG + 1 else c.cntG
      recency := c.recency.set j.val ((line :: l.filter (· != line)).take (8 * q + 8)) j.isLt }

/-- The chunk's own view of a byte: the running chunk's last store, then the pending chunk's, over the committed value
(R155, R238). -/
def overlayByte (run pend : NMap (BitVec 8 × BitVec 8)) (k : Nat) (b : Byte) : Byte :=
  let f (m : NMap (BitVec 8 × BitVec 8)) (b : Byte) : Byte := match m.find k with
    | some (mask, v) => (b &&& ~~~mask) ||| (v &&& mask)
    | none => b
  f run (f pend b)

def Core.pendStores (c : Core) : NMap (BitVec 8 × BitVec 8) := match c.pend with
  | some k => k.stores
  | none => []

/-- Note a value that R416 logs with the running chunk. -/
def noteValue (vk ord : Nat) (vals : List Word64) : Act Unit :=
  onChunk fun k => { k with values := k.values ++ [⟨vk, ord, vals⟩] }

/-- In replay, the n logged words of a value read, which are noted as read; none where no replay runs (R418). -/
def replayed (vk n : Nat) : Act (Option (List (Word64 × Word64))) := do
  let s ← get
  let (s', r) := s.replayValue s.cur vk n
  set s'
  match r with
  | some es => do
    noteValue vk (match es with
      | e :: _ => fld e.1 31 0
      | [] => 0) (es.map (·.2))
    pure r
  | none => pure none

/-- A value that replay enforces, or the one read (R416, R418). -/
def loggedValue (vk : Nat) (v : Word64) : Act Word64 := do
  match ← replayed vk 1 with
  | some (e :: _) => pure e.2
  | _ => do
    noteValue vk 0 [v]
    pure v

/-- Whether the core's chunks hold a line that they have written (R59). -/
def Core.holds (c : Core) (line : Nat) : Bool :=
  let f (k : Option Chunk) : Bool := match k with
    | some k => k.ulines.any (·.name == line)
    | none => false
  f c.run || f c.pend

/-- Whether a core's chunks or tile slots hold a line in the cache role of its cell: one that they have written or pinned, or one of
another package that they have received (R53, R59, R110). -/
def Core.keeps (c : Core) (line : Nat) : Bool :=
  let f (k : Option Chunk) : Bool := match k with
    | some k => (k.remote.find line).isSome
    | none => false
  c.holds line || f c.run || f c.pend || c.regs.slots.toList.any fun t => t.lines.any (·.name == line)

/-- The same of the cores of a cell. -/
def State.cellKeeps (s : State) (cell line : Nat) : Bool := [0, 1, 2, 3].any fun j => (s.core (cell * 4 + j)).keeps line

/-- Count an access of the current core to the cache role of its cell, before it changes anything there (R63): every line of the global
window, and the lines of cell memory that its chunks hold there or now take. A line that its home has taken back, or one of another
package whose chunk has ended, is no hit. -/
def State.sampled (s : State) (line : Nat) (take : Bool) : State :=
  let cell := cellOf s.cur
  let kept := s.cellKeeps cell
  if isCell line && !take && !s.me.holds line then s
  else s.setCell cell ((s.cell cell).sample (fun l => !(isRemote l || isCell l) || kept l)
    (kept line || (s.cell cell).cache.any (·.line == line)) line)

/-- A core's read of committed bytes of one line (R48, R155): what its own parts to another package have still to bring to the line
overlies it (R260), and a line that the core's own chunks have written is already theirs and counts no key mismatch (R45). -/
def State.coreRead (s : State) (i k n : Nat) : State × Line × Bool :=
  let (t, d, po) := s.cellRead (s.ctx i).kid i k n
  (if (s.core i).holds (k / 128) then { t with svc := s.svc } else t, s.overlayParts (k / 128) d, po)

/-- The request that this step makes for a line of another package, unless the core waits for one already. -/
def State.wantLine (s : State) (line : Nat) : Need :=
  match s.me.need with
  | .remote l tag => if l = line then .remote l tag else .remote line (2 * s.moment)
  | _ => .remote line (2 * s.moment)

/-- Read n bytes' line for the running chunk, and whether it is poisoned: claims and transit make the access wait (R98, R42); a
remote line is forwarded once and keeps its first value (R260). -/
def readLineRaw (k n : Nat) : Act (Line × Bool) := do
  let s ← get
  let line := k / 128
  waitIf (s.claimed line) (.copy line)
  waitIf (s.inTransit line) .transit
  change (·.sampled line false)
  if isRemote line then
    match s.chunk.remote.find line with
    | some x => pure x
    | none => do
      match ← replayed 1 16 with
      | some es =>
        let d : Line := BitVec.ofNat 1024 (packN 64 (es.map (·.2.toNat)))
        onChunk fun k => { k with remote := k.remote.put line (d, false) }
        pure (d, false)
      | none => waitFor (s.wantLine line)
  else
    let s ← get
    let (t, d, po) := s.coreRead s.cur k n
    set t
    pure (d, po)

/-- Read bytes' line; poison faults in the reading task (R47). -/
def readLineAct (k n : Nat) (a : Word64) : Act Line := do
  let (d, po) ← readLineRaw k n
  if po then faultWith 0x20 a 0 else pure d

/-- Whether the core's own chunks have stored all 128 bytes of a line: then no poison is left for them (R46, R374). -/
def Core.covers (c : Core) (line : Nat) : Bool :=
  (List.range 128).all fun j =>
    let f (m : NMap (BitVec 8 × BitVec 8)) : BitVec 8 := match m.find (line * 128 + j) with
      | some (mask, _) => mask
      | none => 0
    f c.chunk.stores ||| f c.pendStores == 0xFF

/-- Read located pieces with the address of the first poisoned one, their lines in the read signature if wanted. -/
def readPiecesPo (sig : Bool) (a : Word64) : List (Nat × Nat) → Act (List Byte × Option Word64)
  | [] => pure ([], none)
  | (k, n) :: t => do
    if sig then enterRead (k / 128) else pure ()
    let (d, po) ← readLineRaw k n
    let s ← get
    let raw := bytesOf n (d.toNat >>> (8 * (k % 128)))
    let me := s.me
    let own := (List.range n).zipWith (fun j b => overlayByte me.chunk.stores me.pendStores (k + j) b) raw
    let (rest, po') ← readPiecesPo sig (a + BitVec.ofNat 64 n) t
    pure (own ++ rest, if po && !me.covers (k / 128) then some a else po')

/-- Read located pieces; poison faults. -/
def readPieces (sig : Bool) (a : Word64) (ps : List (Nat × Nat)) : Act (List Byte) := do
  let (b, po) ← readPiecesPo sig a ps
  match po with
  | some x => faultWith 0x20 x 0
  | none => pure b

/-- `ChunkRead` (R155): n bytes at an address. -/
def chunkRead (a : Word64) (n : Nat) : Act (List Byte) := do
  let s ← get
  let ps ← liftStop (locate s (s.ctx s.cur) .read a n)
  readPieces true a ps

/-- Hold bits of bytes as uncommitted data: (key, mask, value) (R155). -/
def storeBits (l : List (Nat × BitVec 8 × BitVec 8)) (m : NMap (BitVec 8 × BitVec 8)) : NMap (BitVec 8 × BitVec 8) :=
  l.foldl (fun m x =>
    let (om, ov) := m.get x.1 (0, 0)
    m.put x.1 (om ||| x.2.1, (ov &&& ~~~x.2.1) ||| (x.2.2 &&& x.2.1))) m

/-- Write located pieces: lines enter the write signature and the cache role. -/
def writePieces : List (Nat × Nat) → List (BitVec 8 × BitVec 8) → Act Unit
  | [], _ => pure ()
  | (k, n) :: t, bs => do
    let s ← get
    waitIf (s.claimed (k / 128)) (.copy (k / 128))
    waitIf (s.inTransit (k / 128)) .transit
    enterWrite (k / 128)
    change (·.sampled (k / 128) true)
    holdLine (k / 128)
    let cells := List.zipWith (fun j (b : BitVec 8 × BitVec 8) => (k + j, b.1, b.2)) (List.range n) (bs.take n)
    onChunk fun c => { c with stores := storeBits cells c.stores }
    writePieces t (bs.drop n)

/-- Remember host pages whose leaf still has a clear dirty bit (R32). -/
def noteDirty (a : Word64) (n : Nat) : Act Unit := do
  let s ← get
  let c := s.ctx s.cur
  let vas := (addrPieces a n).map fun p => p.1.toNat % 2 ^ 57
  let need := vas.filter fun va => match (s.cluster c.cl).lookup c.kid va with
    | some e => !e.dirty
    | none => false
  onChunk fun k => { k with dirty := k.dirty ++ need }

/-- `ChunkWrite` with a bit mask for each byte (R155). -/
def chunkWriteBits (a : Word64) (bs : List (BitVec 8 × BitVec 8)) : Act Unit := do
  let s ← get
  let ps ← liftStop (locate s (s.ctx s.cur) .write a bs.length)
  if apertureOf a < 0xFFC then noteDirty a bs.length else pure ()
  writePieces ps bs

/-- `ChunkWrite` of whole bytes (R155). -/
def chunkWrite (a : Word64) (bs : List Byte) : Act Unit := chunkWriteBits a (bs.map fun b => (0xFF, b))

/-- An address that names the cell or cluster aperture with a pane is fault 0x11 outside the pane instructions (R156):
the apertures' own check of PANE = 0. An alignment that an instruction asks for comes first (R157). -/
def checkAlign (a : Word64) (n : Nat) : Act Unit := if a.toNat % n = 0 then pure () else faultWith 0x13 a 0

/-- Set where control goes after the bundle (R268). -/
def setNext (n : NextPc) : Act Unit := onMe fun c => { c with next := n }

/-- The bundle ends its chunk after it (R236). Inside a span that is fault 0x39 (R249). -/
def cutChunk (why : Ended) : Act Unit := do
  let s ← get
  faultIf s.chunk.span.isSome 0x39
  onMe fun c => { c with cutAfter := some why }

/-- Hold work in the running chunk until its grant (R295). -/
def hold (h : Held) : Act Unit := onChunk fun k => { k with held := k.held ++ [h] }

/-- A held spawn or message occupies one line of the cache role, or the chunk is cut before it (R295). -/
def holdWithLine (h : Held) : Act Unit := do
  let s ← get
  if s.capacity s.cur ≤ s.coreLines s.cur ∧ s.chunk.span.isNone then cutHere else hold h

end Sys2Proof.Machine
end

