-- ==== Sys2Proof/Machine/Flags.lean ====
section
/-!
DEFINITION. FSTAT, weave points, and rounding under FRM (R77-R83, R93, R227-R232): the draw of SIDX indices and the
residue registers, which every instruction that rounds shares.
-/
namespace Sys2Proof.Machine

/-- The address of WTAB.TBASE (R226): bits 56 to 12, sign-extended. -/
def tbaseOf (w : Word64) : Word64 := ((w.extractLsb' 0 45) ++ (0 : BitVec 12)).signExtend 64

/-- `WeavePoint` (R93) from the 32 direction numbers of a dimension. -/
def weavePoint (row : List Nat) (seed : BitVec 32) (dim idx : Nat) : Nat :=
  let x := (List.zip row (elemsN 1 32 idx)).foldl (fun (x : BitVec 32) p => if p.2 = 1 then x ^^^ BitVec.ofNat 32 p.1 else x) 0
  (reverse32 (hash32 (reverse32 x) (hash32 (BitVec.ofNat 32 dim) seed))).toNat

/-- A committed read by a unit that enters no signature and walks for itself (R38, R227); a line of another package is
forwarded once in the chunk (R40). -/
def readCommitted (a : Word64) (n : Nat) : Act (List Byte) := do
  let s ← get
  let ps ← liftStop (locateNow s (s.ctx s.cur) .read a n)
  go a ps
where
  /-- Read the pieces in ascending order. -/
  go (a : Word64) : List (Nat × Nat) → Act (List Byte)
    | [] => pure []
    | (k, n) :: t => do
      let d ← readLineAct k n a
      let r ← go (a + BitVec.ofNat 64 n) t
      pure (bytesOf n (d.toNat >>> (8 * (k % 128))) ++ r)

/-- Bytes of a window: 64 rows of 128 (R230). A load brings all of them, also those of dimensions not below NDIM. -/
def windowBytes : Nat := 8192
/-- The address of a window of the table (R226, R227). -/
def windowAddr (wtab : Word64) (win : Nat) : Word64 := tbaseOf wtab + BitVec.ofNat 64 (8192 * win)

/-- The direction numbers of one row out of a window's bytes. -/
def windowRow (bs : List Byte) (d : Nat) : List Nat := elemsN 32 32 (ofBytes ((bs.drop (128 * (d % 64))).take 128))

/-- What the cell's weave store holds of the window of a dimension, under the tag of the core's job and table (R230). -/
def State.windowIn (s : State) (d : Nat) : Option (List Byte) :=
  let c := s.ctx s.cur
  match (s.cell c.cell).weave with
  | some (k, t, w, bs) => if k = c.kid ∧ t = fld s.src.wtab 44 0 ∧ w = d / 64 then some bs else none
  | none => none

/-- What the cell's weave store, or else a load made for this operation, holds of the window of a dimension (R230). -/
def State.windowHeld (s : State) (d : Nat) : Option (List Byte) :=
  match s.windowIn d with
  | some bs => some bs
  | none => s.me.weaveGot.find (d / 64)

/-- The bytes of a row of the table now, if they can be read without a wait or a fault: a table that software has written while
its window is held may give the old number or the new one (R227). -/
def State.rowNow (s : State) (d : Nat) : Option (List Byte) :=
  let c := s.ctx s.cur
  let a := windowAddr s.src.wtab (d / 64) + BitVec.ofNat 64 (128 * (d % 64))
  match (s.readNow c a 128).2 with
  | .ok bs => if (s.missing c a 128).isEmpty then some bs else none
  | .error _ => none

/-- A row of two readings of the same table: where they differ, a free choice for each number says which holds (R227). -/
def eitherRow (a b : List Nat) : Act (List Nat) := fun s =>
  if a = b then .ok (b, s)
  else .ok ((List.zip (List.zip a b) (List.range 32)).map fun p => if Config.choice s.moment >>> p.2 % 2 = 1 then p.1.1 else p.1.2,
    { s with moment := s.moment + 1 })

/-- The direction numbers of a dimension (R227, R230, R232): the dimension must lie in the table; the cell's weave store
must hold its window, or have held it for this operation, or the operation waits for its load, whose faults it takes; a load sets WIN. Where the
table has been written since, each direction number is the old or the new one (R227). -/
def weaveRow (d : Nat) : Act (List Nat) := do
  let s ← get
  let w := s.src.wtab
  let ndim := fld w 63 51
  faultIf (4096 < ndim) 0x4A
  faultIf (ndim ≤ d) 0x49
  match s.windowHeld d with
  | none =>
    let _ ← readCommitted (windowAddr w (d / 64)) windowBytes
    waitFor (.weave d)
  | some old =>
    if (s.windowIn d).isNone then onRegs fun r => { r with wtab := setFld r.wtab 50 45 (d / 64) } else pure ()
    eitherRow (windowRow old d) (((s.rowNow d).map fun bs => windowRow bs 0).getD (windowRow old d))

/-- Reserve n consecutive indices of SIDX (R82). A `creg.wr` of SIDX in the same bundle has written it already: R270 names no
such case (log 54). -/
def reserveIdx (n : Nat) : Act Nat := do
  let s ← get
  let i := fld s.regs.sidx 31 0
  onRegs fun r => { r with sidx := setFld r.sidx 31 0 (i + n) }
  pure i

/-- Residue slot k of a residue register (R83). -/
def residue (e : VReg) (k : Nat) : FVal := decV 17 (elemN 32 e.toNat (k % 128))
def setResidue (e : VReg) (k : Nat) (v : FVal) : VReg :=
  let sh := 32 * (k % 128)
  (e &&& ~~~(BitVec.ofNat 4096 (0xFFFFFFFF <<< sh))) ||| BitVec.ofNat 4096 (encodeFmt 17 v <<< sh)

/-- RSEL of FRM (R77). -/
def rsel (frm : Word64) : Fin 4 := ⟨fld frm 4 3 % 4, Nat.mod_lt _ (by decide)⟩

/-- Round a list of values through one residue register in order (R80, R83). -/
def roundFeedback (c : Nat) : VReg → List (FVal × Nat) → List Rounded × VReg
  | e, [] => ([], e)
  | e, (v, k) :: t =>
    let (q, left) := roundResidue c v (residue e k)
    let (qs, e') := roundFeedback c (setResidue e k left) t
    (q :: qs, e')

/-- The indices of an operation's next n roundings: of the run that it has reserved, where it rounds elements more than once, or of a
run that it reserves now (R82). -/
def takeIdx (n : Nat) : Act (List Nat) := do
  let s ← get
  if s.me.draws.isEmpty then
    let i ← reserveIdx n
    pure ((List.range n).map (i + ·))
  else
    onMe fun c => { c with draws := c.draws.drop n }
    pure (s.me.draws.take n)

/-- The indices of the roundings of an operation in the order in which it makes them, step by step: `stages` gives the elements that
each step rounds. They run by element, and within an element by step (R82). -/
def runOrder (base : Nat) (stages : List (List Nat)) : List Nat :=
  let all := ((List.zip stages (List.range stages.length)).map fun p => p.1.map fun e => (e, p.2)).flatten
  all.map fun p => base + (all.filter fun q => decide (q.1 < p.1 ∨ (q.1 = p.1 ∧ q.2 < p.2))).length

/-- Reserve at issue the indices of an operation that rounds in more than one step (R82). -/
def planDraws (stages : List (List Nat)) : Act Unit := do
  let s ← get
  if fld s.src.frm 2 0 ≠ 5 ∨ (stages.filter fun l => !l.isEmpty).length < 2 then pure ()
  else
    let i ← reserveIdx (stages.map List.length).sum
    onMe fun c => { c with draws := runOrder i stages }

/-- `RoundToFormat` of R80 for every value an operation rounds, in ascending element order, with the residue slot of each:
mode 0b101 takes one index for each (R82), mode 0b110 uses the residues where `keep` allows it (R83). Where an operation rounds its
elements twice, all are converted before the first is stored (log 54). -/
def roundAll (frm : Word64) (keep : Bool) (c : Nat) (xs : List (FVal × Nat)) : Act (List Rounded) := do
  let mode := fld frm 2 0
  if mode = 5 then
    if xs.isEmpty then pure []
    else
      let row ← weaveRow (fld frm 27 16)
      let s ← get
      let seed := s.src.wseed.extractLsb' 0 32
      let idx ← takeIdx xs.length
      pure (List.zipWith (fun j (x : FVal × Nat) => roundV c 5 (weavePoint row seed (fld frm 27 16) (j % 2 ^ 32)) x.1)
        idx xs)
  else if mode = 6 && keep then
    let s ← get
    waitIf (s.regs.mq.any fun o => match o.kind with
      | .read rd _ f _ => (rd == 1 || rd == 2) && fld f 2 0 == 6
      | _ => false) .mq
    let (qs, e) := roundFeedback c (s.regs.e.get (rsel frm)) xs
    onRegs fun r => { r with e := r.e.set (rsel frm).val e (rsel frm).isLt }
    pure qs
  else pure (xs.map fun x => roundV c mode 0 x.1)

/-- The flags of a list of roundings. -/
def flagsOf (rs : List Rounded) : Flags := rs.foldl (fun a r => a ||| r.fl) flNone

/-- Set sticky flags in FSTAT at once, for what completes as it issues (R78). -/
def raiseFlags (fl : Flags) : Act Unit := onRegs fun r => { r with fstat := r.fstat ||| fl.setWidth 64 }

/-- Flags that the word being executed sets when its operation completes (R78). -/
def dueFlags (fl : Flags) : Act Unit := onMe fun c => { c with due := c.due ||| fl }

/-- The flags due so far, for the operation that the word leaves in a queue. -/
def takeDue : Act Flags := do
  let s ← get
  if s.me.due = 0 then pure 0
  else
    onMe fun c => { c with due := 0 }
    pure s.me.due

/-- A word that leaves no operation in a queue completes as it issues (R78). -/
def settleFlags : Act Unit := do
  let s ← get
  if s.me.due = 0 then pure ()
  else
    raiseFlags s.me.due
    onMe fun c => { c with due := 0 }

end Sys2Proof.Machine
end

