-- ==== Sys2Proof/Machine/Forms.lean ====
section
/-!
DEFINITION. Which instruction words are legal: the operand forms, type classes, register ranges and reserved fields of
the two words of a bundle (R119, R135-R139, R159-R161, R190, R201-R205, R212-R214, R267, R274, R275, R297). `legal`
false is fault 0x01, `reservedOk` false is fault 0x02, in the order of R146.
-/
namespace Sys2Proof.Machine

/-- The type class of an arithmetic opcode (R135). -/
inductive Cls where
  | i | f | w | n
  deriving DecidableEq, Repr

/-- The operand form of an arithmetic opcode (R138). -/
inductive Form where
  | e | t | c | k | s | f | w
  deriving DecidableEq, Repr

/-- Class, form and whether the opcode is unary (R143, R190). -/
structure AInfo where
  cls : Cls
  form : Form
  unary : Bool
  deriving DecidableEq, Repr

/-- The arithmetic opcode map (R143), by OP[31:25]. -/
def aInfo (op : Nat) : AInfo :=
  if op ≤ 0x11 then ⟨.i, .e, false⟩
  else if op ≤ 0x15 then ⟨.i, .e, true⟩
  else if op ≤ 0x17 then ⟨.i, .t, false⟩
  else if op ≤ 0x1B then ⟨.i, .c, false⟩
  else if op ≤ 0x1F then ⟨.f, .c, false⟩
  else if op = 0x20 then ⟨.w, .e, true⟩
  else if op = 0x21 then ⟨.w, .e, false⟩
  else if op ≤ 0x24 then ⟨.n, .k, false⟩
  else if op = 0x25 then ⟨.n, .k, true⟩
  else if op ≤ 0x27 then ⟨.n, .s, true⟩
  else if op ≤ 0x2A then ⟨.f, .e, false⟩
  else if op ≤ 0x2C then ⟨.f, .t, false⟩
  else if op ≤ 0x2E then ⟨.f, .e, false⟩
  else if op ≤ 0x37 then ⟨.f, .e, true⟩
  else if op = 0x38 then ⟨.i, .f, false⟩
  else if op = 0x39 then ⟨.f, .f, false⟩
  else if op = 0x3A then ⟨.i, .f, false⟩
  else if op = 0x3B then ⟨.f, .f, false⟩
  else if op = 0x3C then ⟨.i, .w, true⟩
  else if op ≤ 0x3F then ⟨.f, .w, true⟩
  else if op ≤ 0x45 then ⟨.w, .e, false⟩
  else if op ≤ 0x47 then ⟨.w, .e, true⟩
  else if op ≤ 0x4D then ⟨if op % 2 = 0 then .i else .f, .s, true⟩
  else if op ≤ 0x4F then ⟨if op % 2 = 0 then .i else .f, .e, true⟩
  else if op ≤ 0x51 then ⟨.i, .t, false⟩
  else if op = 0x52 then ⟨.f, .e, false⟩
  else ⟨.i, .e, false⟩

/-- The opcode and fields of an arithmetic instruction. -/
def arithOf (i : Instr) : Option (Nat × Arith) :=
  match i with
  | .addI f => some (0, f)
  | .subI f => some (1, f)
  | .adds f => some (2, f)
  | .subs f => some (3, f)
  | .mulI f => some (4, f)
  | .mulh f => some (5, f)
  | .div f => some (6, f)
  | .rem f => some (7, f)
  | .and f => some (8, f)
  | .or f => some (9, f)
  | .xor f => some (10, f)
  | .andn f => some (11, f)
  | .shl f => some (12, f)
  | .shr f => some (13, f)
  | .sra f => some (14, f)
  | .rsh f => some (15, f)
  | .minI f => some (16, f)
  | .maxI f => some (17, f)
  | .absI f => some (18, f)
  | .negI f => some (19, f)
  | .clz f => some (20, f)
  | .popc f => some (21, f)
  | .madd f => some (22, f)
  | .ceqI f => some (24, f)
  | .cneI f => some (25, f)
  | .cltI f => some (26, f)
  | .cleI f => some (27, f)
  | .ceqF f => some (28, f)
  | .cneF f => some (29, f)
  | .cltF f => some (30, f)
  | .cleF f => some (31, f)
  | .mov f => some (32, f)
  | .sel f => some (33, f)
  | .mand f => some (34, f)
  | .mor f => some (35, f)
  | .mxor f => some (36, f)
  | .mnot f => some (37, f)
  | .mpop f => some (38, f)
  | .mfirst f => some (39, f)
  | .addF f => some (40, f)
  | .subF f => some (41, f)
  | .mulF f => some (42, f)
  | .fma f => some (43, f)
  | .fnma f => some (44, f)
  | .minF f => some (45, f)
  | .maxF f => some (46, f)
  | .absF f => some (47, f)
  | .negF f => some (48, f)
  | .exp2 f => some (49, f)
  | .log2 f => some (50, f)
  | .rcp f => some (51, f)
  | .rsqrt f => some (52, f)
  | .cvti f => some (56, f)
  | .cvtf f => some (57, f)
  | .packi f => some (58, f)
  | .packf f => some (59, f)
  | .widenI f => some (60, f)
  | .widenF f => some (61, f)
  | .perm f => some (64, f)
  | .slup f => some (65, f)
  | .sldn f => some (66, f)
  | .zip f => some (67, f)
  | .unzip f => some (68, f)
  | .bcast f => some (69, f)
  | .comp f => some (70, f)
  | .rsumI f => some (72, f)
  | .rsumF f => some (73, f)
  | .rmaxI f => some (74, f)
  | .rmaxF f => some (75, f)
  | .rminI f => some (76, f)
  | .rminF f => some (77, f)
  | .scanI f => some (78, f)
  | .scanF f => some (79, f)
  | .dot4 f => some (80, f)
  | .tsel f => some (81, f)
  | .pmerge f => some (82, f)
  | .qrnd f => some (83, f)
  | _ => none

/-- The arithmetic instruction of an opcode, none for the 51 unassigned ones (R143, R144). -/
def arithMk (op : Nat) (f : Arith) : Option Instr :=
  match op with
  | 0 => some (.addI f)
  | 1 => some (.subI f)
  | 2 => some (.adds f)
  | 3 => some (.subs f)
  | 4 => some (.mulI f)
  | 5 => some (.mulh f)
  | 6 => some (.div f)
  | 7 => some (.rem f)
  | 8 => some (.and f)
  | 9 => some (.or f)
  | 10 => some (.xor f)
  | 11 => some (.andn f)
  | 12 => some (.shl f)
  | 13 => some (.shr f)
  | 14 => some (.sra f)
  | 15 => some (.rsh f)
  | 16 => some (.minI f)
  | 17 => some (.maxI f)
  | 18 => some (.absI f)
  | 19 => some (.negI f)
  | 20 => some (.clz f)
  | 21 => some (.popc f)
  | 22 => some (.madd f)
  | 24 => some (.ceqI f)
  | 25 => some (.cneI f)
  | 26 => some (.cltI f)
  | 27 => some (.cleI f)
  | 28 => some (.ceqF f)
  | 29 => some (.cneF f)
  | 30 => some (.cltF f)
  | 31 => some (.cleF f)
  | 32 => some (.mov f)
  | 33 => some (.sel f)
  | 34 => some (.mand f)
  | 35 => some (.mor f)
  | 36 => some (.mxor f)
  | 37 => some (.mnot f)
  | 38 => some (.mpop f)
  | 39 => some (.mfirst f)
  | 40 => some (.addF f)
  | 41 => some (.subF f)
  | 42 => some (.mulF f)
  | 43 => some (.fma f)
  | 44 => some (.fnma f)
  | 45 => some (.minF f)
  | 46 => some (.maxF f)
  | 47 => some (.absF f)
  | 48 => some (.negF f)
  | 49 => some (.exp2 f)
  | 50 => some (.log2 f)
  | 51 => some (.rcp f)
  | 52 => some (.rsqrt f)
  | 56 => some (.cvti f)
  | 57 => some (.cvtf f)
  | 58 => some (.packi f)
  | 59 => some (.packf f)
  | 60 => some (.widenI f)
  | 61 => some (.widenF f)
  | 64 => some (.perm f)
  | 65 => some (.slup f)
  | 66 => some (.sldn f)
  | 67 => some (.zip f)
  | 68 => some (.unzip f)
  | 69 => some (.bcast f)
  | 70 => some (.comp f)
  | 72 => some (.rsumI f)
  | 73 => some (.rsumF f)
  | 74 => some (.rmaxI f)
  | 75 => some (.rmaxF f)
  | 76 => some (.rminI f)
  | 77 => some (.rminF f)
  | 78 => some (.scanI f)
  | 79 => some (.scanF f)
  | 80 => some (.dot4 f)
  | 81 => some (.tsel f)
  | 82 => some (.pmerge f)
  | 83 => some (.qrnd f)
  | _ => none

/-- The element width of TYPE in bits (R135). Class N has none. -/
def tyWidth (c : Cls) (ty : BitVec 3) : Nat :=
  match c with
  | .f => if ty.toNat ≤ 1 then 16 else if ty.toNat = 2 then 32 else 64
  | _ => 8 <<< (ty.toNat % 4)

/-- The width in bits of a stored-format code (R66), 0 for codes without a format. -/
def fmtWidth (c : Nat) : Nat :=
  if c = 1 ∨ c = 2 then 4
  else if c = 3 ∨ c = 4 then 8
  else if c = 5 ∨ c = 6 then 16
  else if c = 7 ∨ c = 8 then 32
  else if c = 9 then 2
  else if c = 10 then 4
  else if c = 11 ∨ c = 12 then 6
  else if c = 13 ∨ c = 14 then 8
  else if c = 15 ∨ c = 16 then 16
  else if c = 17 then 32
  else 0

/-- The ratio of a pack's source width to its destination width, 0 where it does not divide (R203). -/
def packRatio (w fmt : Nat) : Nat := if fmtWidth fmt = 0 ∨ w % fmtWidth fmt ≠ 0 then 0 else w / fmtWidth fmt

/-- The formats `cvti` and `cvtf` accept beside `rint` (R202): bytes to f32 without t2, f4, f6 and f8. -/
def cvtFmt (c : Nat) : Bool := (3 ≤ c && c ≤ 8) || (15 ≤ c && c ≤ 17)

/-- Conditions of one opcode beyond its form (R200, R202-R205, R209-R211, R231). -/
def opLegal (op : Nat) (f : Arith) : Bool :=
  let ty := f.ty.toNat
  let b := f.b.toNat
  let w := tyWidth (aInfo op).cls f.ty
  if 0x31 ≤ op && op ≤ 0x34 then ty != 3
  else if op = 0x38 then ty % 4 != 3 && cvtFmt b && fmtWidth b == w
  else if op = 0x39 then ty != 3 && (b == 0 || (cvtFmt b && fmtWidth b == w))
  else if op = 0x3A || op = 0x3B then
    let r := packRatio w b
    (if op = 0x3A then 1 ≤ b && b ≤ 8 else ty != 3 && (b == 10 || b == 13 || b == 14 || (15 ≤ b && b ≤ 17)))
      && (r == 1 || ((r == 2 || r == 4) && f.ak == 0 && f.a.toNat % r == 0))
  else if op = 0x3C then ty % 4 != 3
  else if op = 0x3D then ty ≤ 1
  else if 0x40 ≤ op && op ≤ 0x46 then !f.dk && (!(op == 0x41 || op == 0x42 || op == 0x45) || f.bk != 0)
  else if op = 0x50 then ty % 4 == 0
  else if op = 0x51 then ty % 4 == 0 && (f.dk || f.bk == 0)
  else if op = 0x52 then ty == 2 && !f.dk
  else if op = 0x53 then ty == 6
  else true

/-- Whether one of the sources is a vector (kind 0b00). -/
def vecSrc (inf : AInfo) (f : Arith) : Bool := f.ak == 0 || (!inf.unary && inf.form != .f && f.bk == 0)

/-- Legality of an arithmetic word (R135, R136, R138, R201 and R212): false is fault 0x01. -/
def arithLegal (op : Nat) (f : Arith) : Bool :=
  let inf := aInfo op
  (match inf.cls with
    | .f => f.ty.toNat < 4 && (f.ty != 3 || (f.dk && !vecSrc inf f))
    | .n => f.ty == 0
    | _ => true) &&
  (match inf.form with
    | .e | .t => !f.dk || !vecSrc inf f
    | .c => if f.dk then !vecSrc inf f else f.d.toNat % 8 != 0
    | .k => !f.dk && f.ak == 0 && (inf.unary || f.bk == 0) && f.d.toNat % 8 != 0
    | .s => f.dk && f.ak == 0
    | .f => !f.dk && f.bk == 3 && f.b.toNat ≤ 17
    | .w => !f.dk && f.ak == 0 && f.d.toNat % 2 == 0) &&
  opLegal op f

/-- Whether a source of this form and opcode is a mask register (R136). -/
def maskSrc (op : Nat) : Bool := (0x22 ≤ op && op ≤ 0x27)

/-- Reserved fields of an arithmetic word (R136, R138, R190): false is fault 0x02. -/
def arithReserved (op : Nat) (f : Arith) : Bool :=
  let inf := aInfo op
  (if inf.unary then f.bk == 0 && f.b == 0 && !f.bw else true) &&
  (f.ak.toNat < 2 || !f.aw) &&
  (inf.unary || f.bk.toNat < 2 || !f.bw) &&
  (!maskSrc op || (f.a.toNat < 8 && !f.aw && f.b.toNat < 8 && !f.bw)) &&
  (!(inf.form == .k || (inf.form == .c && !f.dk)) || f.d.toNat < 8)

/-- An `xlit` against the word it is paired with (R137): F = 1 with class I or W is fault 0x01. -/
def xlitLegal (f : Bool) (op : Nat) : Bool := !f || ((aInfo op).cls == .f || (aInfo op).cls == .n)

/-- The literal fields an `xlit` replaces must be zero (R137): otherwise fault 0x02. -/
def xlitReserved (op : Nat) (a : Arith) : Bool :=
  let inf := aInfo op
  (a.ak != 3 || a.a == 0) && (inf.unary || inf.form == .f || a.bk != 3 || a.b == 0)

/-- Register ranges and codes of a control word (R159-R161, R213, R267, R274, R275, R297): false is fault 0x01. -/
def ctlLegal (i : Instr) : Bool :=
  match i with
  | .lds f | .ldx f | .ldreq f => f.f3 != 7 || f.x.toNat % 2 == 0
  | .sts f => (f.f3.toNat ≤ 3 || f.f3 == 7) && (f.f3 != 7 || f.x.toNat % 2 == 0)
  | .ldv f | .stv f => f.f3.toNat ≤ 4
  | .strm f => 24 ≤ f.x.toNat
  | .cpy f | .ldh f | .sth f => f.x.toNat < 16
  | .msave f | .mrest f => f.x.toNat < 4
  | .tspawnc f => f.x.toNat % 8 == 0
  | .fatomAdd f | .fatomMin f | .fatomMax f | .fatomSwap f | .fatomAnd f | .fatomOr f =>
    f.x.toNat < 16 && f.x.toNat % 2 == 0 && f.b.toNat ≤ 30
  | .fatomCas f => f.x.toNat < 16 && f.x.toNat % 2 == 0 && f.b.toNat ≤ 29
  | .strmqLeft f | .strmqPos f | .strmqState f | .strmqRegs f | .strmx f => 24 ≤ f.y.toNat
  | .htest f | .hcancel f => f.y.toNat < 16
  | .setlc f | .setlcImm f => f.x.toNat < 3
  | .mma f | .mmas f =>
    let la := f.f7.toNat / 32
    let lb := f.f7.toNat / 8 % 4
    la != 3 && lb != 3
  | .mzero f => f.x.toNat < 4
  | .mreadF32 f | .mreadSum f | .mreadErr f => f.y.toNat < 4 && f.x.toNat % 2 == 0
  | .mreadBf16 f | .mreadF16 f => f.y.toNat < 4
  | .accaddF32 f | .accaddI32 f => f.x.toNat < 4 && f.y.toNat < 4
  | .rgrab f => f.x.toNat % 2 == 0
  | .bs f => f.c.toNat % 8 < 6
  | .bm f => f.f9.toNat % 8 ≤ 4
  | .loop f => f.c.toNat % 4 != 3
  | i => match arithOf i with
    | some (op, f) => arithLegal op f
    | none => true

/-- Format M: OFF10 is zero in a lone bundle, word 1 belongs to the arithmetic word in a paired one (R139). -/
def mShape (f : MF) : Bool := if f.p then f.ext == 0 else f.off10 == 0

/-- Format T without an immediate: no word-1 value (R139). -/
def tShape (f : TF) : Bool := f.ext == 0

/-- The fields X, Y, Z with their wait bits that a format-T instruction does not use are zero (R139). -/
def tUse (f : TF) (x y z xw yw zw : Bool) : Bool :=
  (x || f.x == 0) && (y || f.y == 0) && (z || f.z == 0) && (xw || !f.xw) && (yw || !f.yw) && (zw || !f.zw)

/-- Reserved fields of a control word (R139, R159, R161, R167, R213, R267, R274, R275, R284, R288, R297): false is
fault 0x02. The function value that a constructor stands for is fixed here as well. -/
def ctlReserved (i : Instr) : Bool :=
  match i with
  | .blk f => !f.mrg || f.dif == 0
  | .setm f => tShape f && tUse f true false false false false false && f.x.toNat < 8 && f.f7 == 0
  | .setrm f => tShape f && tUse f false true false false true false && f.f7 == 0
  | .setrmMode f => tShape f && tUse f false true false false false false && f.y.toNat < 8 && f.f7 == 1
  | .setrmImm f => !f.p && tUse f false false false false false false && f.f7 == 2
  | .setlc f => tShape f && tUse f true true false false true false && f.f7 == 0
  | .setlcImm f => !f.p && tUse f true false false false false false && f.f7 == 1
  | .jmp f => f.x == 0 && f.y == 0 && !f.xw && !f.yw && f.c == 0 && f.f9 == 0
  | .jtab f => f.c == 0
  | .bs f =>
    (f.c.toNat < 8 || (f.y == 0 && !f.yw)) &&
      (if f.c == 12 || f.c == 13 then f.f9.toNat < 64 else f.f9 == 0)
  | .bm f => f.x.toNat < 8 && f.y == 0 && !f.xw && !f.yw && f.c.toNat < 4 && f.f9.toNat < 8
  | .loop f => f.x == 0 && f.y == 0 && !f.xw && !f.yw && f.c.toNat < 4 && f.f9 == 0
  | .lds f | .ldv f | .ldx f | .ldreq f => mShape f && !f.xw
  | .sts f | .stv f => mShape f
  | .ldp f | .strm f | .cpy f | .ldh f | .sth f | .msave f | .mrest f => mShape f && !f.xw && f.f3 == 0
  | .stp f | .wload f | .tspawnc f | .evinc f => mShape f && f.f3 == 0
  | .tfetch f => mShape f && f.f3.toNat < 4
  | .tspawn f => mShape f && f.x == 0 && !f.xw && f.f3 == 0
  | .fatomAdd f => mShape f && !f.xw && f.f3 == 0
  | .fatomMin f => mShape f && !f.xw && f.f3 == 1
  | .fatomMax f => mShape f && !f.xw && f.f3 == 2
  | .fatomSwap f => mShape f && !f.xw && f.f3 == 3
  | .fatomCas f => mShape f && !f.xw && f.f3 == 4
  | .fatomAnd f => mShape f && !f.xw && f.f3 == 5
  | .fatomOr f => mShape f && !f.xw && f.f3 == 6
  | .gath f => tShape f && !f.xw && f.f7.toNat < 8
  | .scat f => tShape f && f.f7.toNat < 8
  | .strmqLeft f => tShape f && tUse f true true false false false false && f.f7 == 0
  | .strmqPos f => tShape f && tUse f true true false false false false && f.f7 == 1
  | .strmqState f => tShape f && tUse f true true false false false false && f.f7 == 2
  | .strmqRegs f => tShape f && tUse f true true false false false false && f.f7 == 3
  | .strmx f => tShape f && tUse f false true false false false false && f.f7 == 0
  | .htest f => tShape f && tUse f true true false false false false && f.f7 == 0
  | .hcancel f => tShape f && tUse f false true false false false false && f.f7 == 0
  | .mma f | .mmas f =>
    tShape f && f.f7.toNat % 2 == 0 && (f.f7.toNat / 32 != 1 || (!f.xw && f.x.toNat < 4)) &&
      (f.f7.toNat / 8 % 4 != 1 || (!f.yw && f.y.toNat < 4))
  | .mzero f => tShape f && tUse f true false false false false false && f.f7 == 0
  | .mreadF32 f => tShape f && tUse f true true false false false false && f.f7 == 0
  | .mreadBf16 f => tShape f && tUse f true true false false false false && f.f7 == 1
  | .mreadF16 f => tShape f && tUse f true true false false false false && f.f7 == 2
  | .mreadSum f => tShape f && tUse f true true false false false false && f.f7 == 3
  | .mreadErr f => tShape f && tUse f true true false false false false && f.f7 == 4
  | .accaddF32 f => tShape f && tUse f true true false false false false && f.f7 == 0
  | .accaddI32 f => tShape f && tUse f true true false false false false && f.f7 == 1
  | .wseed f => tShape f && tUse f true false false true false false && f.f7 == 0
  | .wseedH f => tShape f && tUse f true true false true true false && f.f7 == 1
  | .cregRd f => tShape f && tUse f true false false false false false && f.f7.toNat < 64
  | .cregWr f => tShape f && tUse f false true false false true false && 64 ≤ f.f7.toNat
  | .seal f => tShape f && tUse f true false true true false true && f.f7 == 0
  | .unseal f => tShape f && tUse f true false true true false true && f.f7 == 1
  | .hoopdrop f => tShape f && tUse f true false true true false true && f.f7 == 2
  | .tlbinv f => tShape f && f.f7 == 3
  | .keyset f => tShape f && f.f7 == 4
  | .keyret f => tShape f && tUse f true false true true false true && f.f7 == 5
  | .suspend f => tShape f && tUse f true false false true false false && f.f7 == 0
  | .rgrab f => tShape f && tUse f true true false false true false && f.f7 == 0
  | .send f => tShape f && tUse f true true false true true false && f.f7 == 0
  | .recv f => tShape f && tUse f true false false false false false && f.f7 == 0
  | .recvPoll f => tShape f && tUse f true false false false false false && f.f7 == 1
  | .cbr f => f.f9 == 0
  | .hoopj f => tShape f && tUse f false true false false true false && f.f7 == 0
  | .hoopqRes f => tShape f && tUse f true true false false true false && f.f7 == 0
  | .hoopqEpoch f => tShape f && tUse f true true false false true false && f.f7 == 1
  | .hoopqArr f => tShape f && tUse f true true false false true false && f.f7 == 2
  | .hoopqState f => tShape f && tUse f true true false false true false && f.f7 == 3
  | .shutv f => tShape f && tUse f true true (f.f7 == 3) true false (f.f7 == 3) && f.f7.toNat < 4
  | .trap f => tShape f && tUse f true false false true false false
  | i => match arithOf i with
    | some (op, f) => arithReserved op f
    | none => true

/-- A register named by an instruction: its kind (s 0, v 1, m 2, h 3, k 4, lc 5, e 6, a 7) and index (R154). -/
abbrev RegName := Nat × Nat

/-- The registers a control word writes or marks empty (R133). `strm` and `strmx` move a binding, not the register. -/
def ctlWrites (i : Instr) : List RegName :=
  match i with
  | .lds f | .ldx f | .ldreq f => if f.f3 = 7 then [(0, f.x.toNat), (0, f.x.toNat + 1)] else [(0, f.x.toNat)]
  | .ldv f | .ldp f => [(1, f.x.toNat)]
  | .gath f | .recv f | .recvPoll f => [(1, f.x.toNat)]
  | .strmqLeft f | .strmqPos f | .strmqState f | .strmqRegs f | .htest f | .cregRd f => [(0, f.x.toNat)]
  | .hoopqRes f | .hoopqEpoch f | .hoopqArr f | .hoopqState f => [(0, f.x.toNat)]
  | .cpy f | .ldh f => [(3, f.x.toNat)]
  | .hcancel f => [(3, f.y.toNat)]
  | .tfetch f => [(3, 12 + f.f3.toNat % 4)]
  | .mreadF32 f | .mreadSum f | .mreadErr f => [(1, f.x.toNat), (1, f.x.toNat + 1)]
  | .mreadBf16 f | .mreadF16 f => [(1, f.x.toNat)]
  | .rgrab f => [(0, f.x.toNat), (0, f.x.toNat + 1)]
  | .fatomAdd f | .fatomMin f | .fatomMax f | .fatomSwap f | .fatomCas f | .fatomAnd f | .fatomOr f =>
    [(3, f.x.toNat), (3, f.x.toNat + 1)]
  | .shutv f => [(0, f.y.toNat)]
  | .setlc f | .setlcImm f => [(5, f.x.toNat)]
  | .loop f => [(5, f.c.toNat % 4)]
  | _ => []

/-- The destination registers of an arithmetic word (R134, R138). -/
def arithDest (op : Nat) (f : Arith) : List RegName :=
  let inf := aInfo op
  if inf.form == .k || (inf.form == .c && !f.dk) then [(2, f.d.toNat % 8)]
  else if f.dk then [(0, f.d.toNat)]
  else if inf.form == .w then [(1, f.d.toNat), (1, f.d.toNat + 1)]
  else [(1, f.d.toNat)]

/-- Two words of one bundle that write one register take fault 0x01 (R133). -/
def overlap (ctl : Instr) (op : Nat) (f : Arith) : Bool :=
  (arithDest op f).any fun d => (ctlWrites ctl).contains d

end Sys2Proof.Machine
end

