-- ==== Sys2Proof/Machine/Panes.lean ====
section
/-!
DEFINITION. Panes (R65-R69): from a pane descriptor and an element index to bits of cell memory, and the loads and stores
through panes that `ldp`, `stp` and streams share.
-/
namespace Sys2Proof.Machine

/-- The stored-format number of a type code of class I or F (R135); 0 where the code is illegal or f64 in class F. -/
def regFmt (float : Bool) (ty : Nat) : Nat :=
  if float then (if ty = 0 then 15 else if ty = 1 then 16 else if ty = 2 then 17 else 0)
  else [3, 5, 7, 19, 4, 6, 8, 20].getD ty 0

/-- A checked pane descriptor (R65): stored format, scale placement, bases, format of the register elements; the target cell
and the address for fault reports. -/
structure Pane where
  fmt : Nat
  scl : Nat
  base : Nat
  sbase : Nat
  rfmt : Nat
  cell : Nat
  addr : Word64
  deriving DecidableEq, Repr

/-- Formats that admit scales (R66). -/
def admitsScale (f : Nat) : Bool := f == 3 || (10 ≤ f && f ≤ 14)

/-- Number of register elements of a pane (R165). -/
def Pane.count (p : Pane) : Nat := if (fmtOf p.rfmt).w = 0 then 0 else 4096 / (fmtOf p.rfmt).w

/-- The cell and the element index that a pane address names (R20, R165): own-cell or cluster aperture. -/
def paneTarget (c : Ctx) (a : Word64) : Option Nat :=
  let ap := apertureOf a
  if c.sup then none
  else if ap = 0xFFF then (if fld a 51 21 = 0 then some c.cell else none)
  else if ap = 0xFFC then (if fld a 51 26 = 0 then some (c.cell / 32 * 32 + fld a 22 18) else none)
  else none

/-- Check a pane descriptor (R66, R165): fault 0x11 where it cannot be used. -/
def openPane (d : Word64) (cell : Nat) (a : Word64) : Act Pane := do
  let fmt := fld d 4 0
  let scl := fld d 9 8
  let rf := regFmt (bitAt d 15) (fld d 14 12)
  if fmt = 0 ∨ 18 ≤ fmt ∨ scl = 3 ∨ (scl ≠ 0 ∧ !admitsScale fmt) ∨ rf = 0 then faultWith 0x11 a 0
  else pure { fmt := fmt, scl := scl, base := fld d 45 28, sbase := fld d 63 46, rfmt := rf, cell := cell, addr := a }

/-- `PanePlace` (R67): bit position of an element and byte of its block's scale. -/
def Pane.place (p : Pane) (e : Nat) : Nat × Nat :=
  let w := (fmtOf p.fmt).w
  let blk := e / 32
  if p.scl = 1 then
    let sb := p.base + blk * (1 + 4 * w)
    (8 * (sb + 1) + e % 32 * w, sb)
  else (8 * p.base + e * w, p.sbase + blk)

/-- The key of the first of n bytes of the target cell, every byte below 256 KiB in a scratch or operand quad (R67). -/
def Pane.key (p : Pane) (byte n : Nat) : Act Nat := do
  let s ← get
  match (List.range n).findSome? (fun j => match (if byte + j < 2 ^ 18 then s.cellByte p.cell (byte + j) else .error 0x11) with
      | .error c => some c
      | .ok _ => none) with
  | some c => faultWith c p.addr 0
  | none => if s.keyGone (s.ctx s.cur).kid then faultWith 0x14 p.addr 0 else pure (cellKey p.cell byte)

/-- Read w bits at a bit position of the target cell as a chunk read. -/
def Pane.readBits (p : Pane) (bit w : Nat) : Act Nat := do
  let n := (bit % 8 + w + 7) / 8
  let k ← p.key (bit / 8) n
  let bs ← readPieces true p.addr (pieces 3 k n)
  pure (ofBytes bs >>> (bit % 8) % 2 ^ w)

/-- Write w bits at a bit position of the target cell as a chunk write of those bits alone (R155). -/
def Pane.writeBits (p : Pane) (bit w v : Nat) : Act Unit := do
  let n := (bit % 8 + w + 7) / 8
  let k ← p.key (bit / 8) n
  let m := bytesOf n ((2 ^ w - 1) <<< (bit % 8))
  let d := bytesOf n ((v % 2 ^ w) <<< (bit % 8))
  writePieces (pieces 3 k n) (List.zip m d)

/-- Element e of a pane as a value, with its block's scale applied (R68). -/
def Pane.load1 (p : Pane) (e : Nat) : Act (FVal × Flags) := do
  let (bit, sb) := p.place e
  let x ← p.readBits bit (fmtOf p.fmt).w
  let (v, fl) := decodeFmt p.fmt x
  if p.scl = 0 then pure (v, fl)
  else
    let sc ← p.readBits (8 * sb) 8
    pure (if sc = 255 then .nan else v.scale ((sc : Int) - 127), fl)

/-- Load elements in order and round them to the register type (R68); the flags of decoding and rounding. -/
def Pane.load (p : Pane) (frm : Word64) (es : List Nat) : Act (List Nat × Flags) := do
  let vs ← es.mapM p.load1
  let rs ← roundAll frm false p.rfmt (vs.map fun v => (v.1, 0))
  pure (rs.map (fun r => encodeFmt p.rfmt r.q), vs.foldl (fun a v => a ||| v.2) (flagsOf rs))

/-- Store active elements of a pane without scales (R69): index, residue slot, register pattern. -/
def Pane.storePlain (p : Pane) (frm : Word64) (xs : List (Nat × Nat × Nat)) : Act Unit := do
  let rs ← roundAll frm true p.fmt (xs.map fun x => (decV p.rfmt x.2.2, x.2.1))
  dueFlags (flagsOf rs)
  (List.zip xs rs).forM fun (x, r) => p.writeBits (p.place x.1).1 (fmtOf p.fmt).w (encodeFmt p.fmt r.q)

/-- Store one block of a scaled pane (R69): the scale over the active values, then every element. A block whose scale is
0xFF holds zeros; each active element still uses its index (R82), and no residue changes and no flag is set, on which R69 and
R83 are silent (log 15). -/
def Pane.storeBlock (p : Pane) (frm : Word64) (blk : Nat) (xs : List (Nat × Nat × Nat)) : Act Unit := do
  let vs := xs.map fun x => (decV p.rfmt x.2.2, x.2.1)
  let sc := blockScale p.fmt (vs.map (·.1))
  let rs ← if sc = 255 then do
      if fld frm 2 0 = 5 then
        let _ ← roundAll frm false p.fmt (vs.map fun _ => (.zero, 0))
      pure (vs.map fun _ => (⟨.zero, flNone⟩ : Rounded))
    else roundAll frm true p.fmt (vs.map fun v => (v.1.scale (127 - (sc : Int)), v.2))
  dueFlags (flagsOf rs)
  p.writeBits (8 * (p.place (32 * blk)).2) 8 sc
  (List.range 32).forM fun j => do
    let e := 32 * blk + j
    let x := match (List.zip xs rs).find? (fun q => q.1.1 == e) with
      | some q => encodeFmt p.fmt q.2.q
      | none => encodeFmt p.fmt .zero
    p.writeBits (p.place e).1 (fmtOf p.fmt).w x

/-- Split a list into runs of 32. -/
def blocks32 {α : Type} : Nat → List α → List (List α)
  | 0, _ => []
  | n + 1, l => if l.isEmpty then [] else l.take 32 :: blocks32 n (l.drop 32)

/-- Whether element indices cover whole blocks, each run of 32 the block that it begins (R67). -/
def coversBlocks (es : List Nat) : Bool :=
  (blocks32 (es.length / 32 + 1) es).all fun b => decide (b.headD 0 % 32 = 0) && b == (List.range 32).map (b.headD 0 + ·)

/-- An access through a pane with scales begins at a block and covers whole blocks, or is fault 0x13 (R67). -/
def wholeBlocks (scl : Nat) (a : Word64) (es : List Nat) : Act Unit :=
  if scl ≠ 0 ∧ !coversBlocks es then faultWith 0x13 a 0 else pure ()

/-- Store the blocks of a scaled pane in order, each with its active elements (R69). -/
def Pane.storeBlocks (p : Pane) (frm : Word64) : List (List ((Nat × Nat × Nat) × Bool)) → Act Unit
  | [] => pure ()
  | b :: t => do
    let act := (b.filter (·.2)).map (·.1)
    match act with
    | [] => pure ()
    | x :: _ => p.storeBlock frm (x.1 / 32) act
    p.storeBlocks frm t

/-- Store elements through a pane: index, residue slot, register pattern and whether active, in order (R69). -/
def Pane.store (p : Pane) (frm : Word64) (xs : List ((Nat × Nat × Nat) × Bool)) : Act Unit := do
  if p.scl = 0 then p.storePlain frm ((xs.filter (·.2)).map (·.1))
  else
    wholeBlocks p.scl p.addr (xs.map (·.1.1))
    p.storeBlocks frm (blocks32 (xs.length / 32 + 1) xs)

end Sys2Proof.Machine
end

