-- ==== Sys2Proof/Machine/Operands.lean ====
section
/-!
DEFINITION. Operands: reading scalar, vector, mask and constant registers with full/empty and wait bits (R124, R136, R185),
stream pops and pushes (R112-R116), literals (R136, R137), the active mask (R122), and the writes of results with their
fill (R120) and queueing (R127).
-/
namespace Sys2Proof.Machine

/-- The register a write in flight names. -/
def RegWrite.name : RegWrite → RegName
  | .s i _ => (0, i.toNat)
  | .v i _ => (1, i.toNat)
  | .m i _ => (2, i.toNat)
  | .h i _ => (3, i.toNat)

/-- The registers a read in flight will write. -/
def Flight.names (f : Flight) : List RegName :=
  f.writes.map RegWrite.name ++ (match f.kind with
    | .ldx => if f.code = 7 then [(0, f.dst.toNat), (0, f.dst.toNat + 1)] else [(0, f.dst.toNat)]
    | .hoopq => [(0, f.dst.toNat)]
    | _ => [])

/-- The vector registers a queued matrix operation will write (R223). -/
def MOp.names (o : MOp) : List RegName :=
  match o.kind with
  | .read rd x _ _ => if rd = 1 ∨ rd = 2 then [(1, x.toNat)] else [(1, x.toNat), (1, x.toNat + 1)]
  | _ => []

/-- What an instruction that names a register must wait for (R158, R185, R220): a load, a queued vector operation, a queued
`mread`. A producer that marked its destination empty is not among them (R124). -/
def Regs.pendingOn (r : Regs) (n : RegName) : Option Need :=
  if r.flights.any (fun f => f.kind != .ldreq && f.kind != .recv && f.names.contains n) then some .flight
  else if r.vq.any (fun o => (o.writes.map RegWrite.name).contains n) then some .vq
  else if r.mq.any (fun o => o.names.contains n) then some .mq
  else none

/-- Wait until no load or queued operation is still to write a register. -/
def waitOn (n : RegName) : Act Unit := do
  let s ← get
  match s.src.pendingOn n with
  | some w => waitFor w
  | none => pure ()

/-- The full/empty check of one source (R124). -/
def fullCheck (full wait : Bool) : Act Unit :=
  if full then pure () else if wait then raise 0x46 else waitFor .reg

/-- Read a scalar source (R124, R133). -/
def readS (i : BitVec 5) (w : Bool) : Act Word64 := do
  waitOn (0, i.toNat)
  let s ← get
  fullCheck (s.src.sFull.getLsbD i.toNat) w
  pure (s.src.s.get i.toFin)

/-- Read a constant-bank entry. -/
def readK (i : BitVec 5) : Act Word64 := do
  let s ← get
  pure (s.src.k.get i.toFin)

/-- Read a mask register; m0 reads as all ones (R118). -/
def readM (i : BitVec 3) : Act MReg := do
  waitOn (2, i.toNat)
  let s ← get
  pure (if i = 0 then BitVec.allOnes 1024 else s.src.m.get i.toFin)

/-- The active mask (R122). -/
def activeMask : Act Nat := do
  let s ← get
  let m ← readM (s.src.msel.extractLsb' 0 3)
  pure m.toNat

/-! ## Streams (R112-R116) -/

/-- The stream bound to v(24 + q) in a set of registers. -/
def Regs.stream (r : Regs) (i : Nat) : Option Stream :=
  if 24 ≤ i then r.q.get ⟨(i - 24) % 8, Nat.mod_lt _ (by decide)⟩ else none

def Regs.setStream (r : Regs) (i : Nat) (st : Option Stream) : Regs :=
  { r with q := r.q.set ((i - 24) % 8) st (Nat.mod_lt _ (by decide)) }

/-- The stream that an operand v(24 + q) names: the binding that stood before the bundle (R133), as far on as the bundle's
other word has left it (R114). -/
def State.bound (s : State) (i : Nat) : Option Stream :=
  match s.src.stream i with
  | none => none
  | some st => match s.regs.stream i with
    | some x => if x.bid = st.bid then some x else some st
    | none => some st

/-- Advance a binding, unless the bundle's other word has released it or bound its register anew (R133). -/
def Regs.moveStream (r : Regs) (i : Nat) (st : Stream) : Regs :=
  match r.stream i with
  | some x => if x.bid = st.bid then r.setStream i (some st) else r
  | none => r

/-- Number of elements of a stream. -/
def Stream.total (st : Stream) : Nat := st.c0 * st.c1 * st.c2

/-- Byte offset or element offset of element p from BASE (R113). -/
def Stream.offset (st : Stream) (p : Nat) : Int :=
  let c0 := if st.c0 = 0 then 1 else st.c0
  let c1 := if st.c1 = 0 then 1 else st.c1
  ((p % c0 : Nat) : Int) * st.s0.toInt + ((p / c0 % c1 : Nat) : Int) * st.s1.toInt +
    ((p / (c0 * c1) : Nat) : Int) * st.s2.toInt

/-- The descriptor of a stream's pane as the current operation samples it (R65). -/
def State.paneReg (s : State) (p : Nat) : Word64 :=
  if p = 0 then 0 else s.src.pane.get ⟨(p - 1) % 7, Nat.mod_lt _ (by decide)⟩

/-- Elements in one register: 512 bytes of ESZ elements, or of RTYPE elements (R113). -/
def State.perReg (s : State) (st : Stream) : Nat :=
  if st.pane = 0 then 512 >>> st.esz
  else
    let d := s.paneReg st.pane
    let w := (fmtOf (regFmt (bitAt d 15) (fld d 14 12))).w
    if regFmt (bitAt d 15) (fld d 14 12) = 0 then 128 else 4096 / w

/-- The byte address of element p of a pane-0 stream (R113). -/
def Stream.addr (st : Stream) (p : Nat) : Word64 := st.base + BitVec.ofInt 64 (st.offset p)

/-- The pane of a stream with PANE above 0: BASE selects the cell, the descriptor's PANE governs (R113). -/
def Stream.openPane (st : Stream) : Act Pane := do
  let s ← get
  match paneTarget (s.ctx s.cur) st.base with
  | none => faultWith 0x11 st.base 0
  | some cell => Machine.openPane (s.paneReg st.pane) cell st.base

/-- The element indices of n elements from position p. A negative index is fault 0x11, as an index past the cell's memory is, which
R67 does not say (log 64). -/
def Stream.indices (st : Stream) (p n : Nat) : Act (List Nat) := do
  let xs := (List.range n).map fun j => (fld st.base 17 0 : Int) + st.offset (p + j)
  if xs.any (· < 0) then faultWith 0x11 st.base 0 else pure (xs.map Int.toNat)

/-- The next register's worth of a read stream (R113, R114). Through a scaled pane the descriptor and negative indices (0x11) come before
the blocks (0x13), and in mode 0b101 every popped element draws, whatever the mask of the operation that pops (log 54, log 64). -/
def Stream.read (st : Stream) (frm : Word64) (n : Nat) : Act VReg := do
  let left := st.total - st.pos
  let m := if left < n then left else n
  if st.pane = 0 then
    let sz := 2 ^ st.esz
    let bs ← (List.range m).mapM fun j => chunkRead (st.addr (st.pos + j)) sz
    pure (BitVec.ofNat 4096 (ofBytes bs.flatten))
  else
    let p ← st.openPane
    let es ← st.indices st.pos m
    wholeBlocks p.scl st.base es
    let (xs, fl) ← p.load frm es
    dueFlags fl
    pure (BitVec.ofNat 4096 (packN (fmtOf p.rfmt).w xs))

/-- Pop one register's worth from a bound stream (R114-R116). -/
def popStream (i : Nat) (st : Stream) : Act VReg := do
  faultIf st.write 0x51
  faultIf (st.total ≤ st.pos) 0x52
  waitIf (st.ahead = 0) .pop
  let s ← get
  let n := s.perReg st
  let x ← st.read s.src.frm n
  onRegs fun r => r.moveStream i { st with
    pos := if st.pos + n < st.total then st.pos + n else st.total, ahead := st.ahead - 1 }
  pure x

/-- The element bits a write touches: n elements of w bits, those active. -/
def activeBits (w : Nat) (act : List Bool) : Nat := packN w (act.map fun b => if b then 2 ^ w - 1 else 0)

/-- Push a register to a bound stream: `bits` are the bits of active elements (R114, R122). -/
def pushStream (i : Nat) (st : Stream) (x : VReg) (bits : Nat) : Act Unit := do
  faultIf (!st.write) 0x51
  faultIf (st.total ≤ st.pos) 0x52
  waitIf (4 ≤ st.buf) .push
  let s ← get
  let n := s.perReg st
  let left := st.total - st.pos
  let m := if left < n then left else n
  let w := 4096 / n
  let act (j : Nat) : Bool := elemN w bits j != 0
  if st.pane = 0 then
    let sz := 2 ^ st.esz
    (List.range m).forM fun j =>
      if act j then
        chunkWriteBits (st.addr (st.pos + j)) (List.zip (bytesOf sz (elemN w bits j)) (bytesOf sz (elemN w x.toNat j)))
      else pure ()
  else
    let p ← st.openPane
    let es ← st.indices st.pos m
    p.store s.src.frm (List.zipWith (fun j e => ((e, j % 128, elemN w x.toNat j), act j)) (List.range m) es)
  onRegs fun r => r.moveStream i { st with
    pos := if st.pos + n < st.total then st.pos + n else st.total, buf := st.buf + 1 }

/-! ## Vector sources and results -/

/-- Read a vector source: a bound stream register pops (R114), an ordinary one is read as before the bundle. -/
def readV (i : Nat) (w : Bool) : Act VReg := do
  let s ← get
  match s.bound i with
  | some st => popStream i st
  | none =>
    waitOn (1, i)
    fullCheck (s.src.vFull.getLsbD i) w
    pure (s.src.v.get ⟨i % 32, Nat.mod_lt _ (by decide)⟩)

/-- Read a list of vector registers in order, each at most once (R114, R185). -/
def readVs : List (Nat × Bool) → NMap VReg → Act (NMap VReg)
  | [], m => pure m
  | (i, w) :: t, m =>
    match m.find i with
    | some _ => readVs t m
    | none => do
      let x ← readV i w
      readVs t (m.put i x)

/-- Set a scalar register full with a value. -/
def Regs.putS (r : Regs) (i : BitVec 5) (v : Word64) : Regs :=
  { r with s := r.s.set i.toNat v i.isLt, sFull := r.sFull ||| BitVec.ofNat 32 (2 ^ i.toNat) }
/-- Set a vector register full with a value. -/
def Regs.putV (r : Regs) (i : BitVec 5) (v : VReg) : Regs :=
  { r with v := r.v.set i.toNat v i.isLt, vFull := r.vFull ||| BitVec.ofNat 32 (2 ^ i.toNat) }
def Regs.putM (r : Regs) (i : BitVec 3) (v : MReg) : Regs := { r with m := r.m.set i.toNat v i.isLt }
def Regs.emptyS (r : Regs) (i : BitVec 5) : Regs := { r with sFull := r.sFull &&& ~~~BitVec.ofNat 32 (2 ^ i.toNat) }
def Regs.emptyV (r : Regs) (i : BitVec 5) : Regs := { r with vFull := r.vFull &&& ~~~BitVec.ofNat 32 (2 ^ i.toNat) }

/-- Write a scalar result at once (R124). -/
def writeS (i : BitVec 5) (v : Word64) : Act Unit := do
  waitOn (0, i.toNat)
  onRegs (·.putS i v)

/-- The old value of a vector destination, for the elements an operation leaves (R122). A bound register has none. -/
def oldV (i : Nat) : Act VReg := do
  let s ← get
  match s.bound i with
  | some _ => pure 0
  | none =>
    waitOn (1, i)
    pure (s.src.v.get ⟨i % 32, Nat.mod_lt _ (by decide)⟩)

/-- Merge a result into the old register under the bits of the active elements. -/
def mergeBits (old new bits : Nat) : VReg :=
  let b := BitVec.ofNat 4096 bits
  (BitVec.ofNat 4096 old &&& ~~~b) ||| (BitVec.ofNat 4096 new &&& b)

/-- Prepare the write of a vector result: a bound register is pushed at once (R185), an ordinary one gives the write that
the operation makes when it completes. -/
def vecWrite (i : BitVec 5) (new bits : Nat) : Act (List RegWrite) := do
  let s ← get
  match s.bound i.toNat with
  | some st =>
    pushStream i.toNat st (BitVec.ofNat 4096 new) bits
    pure []
  | none =>
    let old ← oldV i.toNat
    pure [.v i (mergeBits old.toNat new bits)]

/-- Put an operation into the core's vector queue (R127, R185), with its flags and those of its pops and pushes (R78). -/
def enqueueV (beats : Nat) (ws : List RegWrite) (fl : Flags) : Act Unit := do
  let d ← takeDue
  let id ← fresh
  let s ← get
  let k := s.chunk.seq
  onRegs fun r => { r with vq := r.vq ++ [{ id := id, chunk := k, beats := beats, writes := ws, flags := fl ||| d }] }

/-- Start a load: its data arrive later (R158), and with them its flags (R78). -/
def startFlight (kind : FlightKind) (ws : List RegWrite) : Act Unit := do
  let d ← takeDue
  let id ← fresh
  let s ← get
  let k := s.chunk.seq
  let pc := s.src.pc
  onRegs fun r => { r with flights := r.flights ++
    [{ id := id, chunk := k, kind := kind, writes := ws, pc := pc, poison := none, todo := [], got := [], dst := 0,
       code := 0, href := 0, flags := d }] }

/-- A vector load whose destination is bound has pushed and is done; another's data arrive later (R114, R158). -/
def endLoad (ws : List RegWrite) : Act Unit := if ws.isEmpty then settleFlags else startFlight .load ws

/-- The elements of v(i) that a pop through a pane rounds (R82). -/
def State.popped (s : State) (i : Nat) : List Nat :=
  match s.bound i with
  | none => []
  | some st => if st.pane = 0 then []
    else (List.range (s.perReg st)).take (st.total - st.pos)

/-- The elements of a result for v(i) that a push through a pane rounds: `bits` are those of the active elements (R82, R114). -/
def State.pushed (s : State) (i bits : Nat) : List Nat :=
  match s.bound i with
  | none => []
  | some st => if st.pane = 0 then []
    else ((List.range (s.perReg st)).take (st.total - st.pos)).filter fun j => elemN (4096 / s.perReg st) bits j != 0

/-- The numbers of the active elements. -/
def activeNos (act : List Bool) : List Nat := ((List.range act.length).zip act).filterMap fun p => if p.2 then some p.1 else none

/-- The active elements among n, as the mask stands (R122). -/
def State.actNow (s : State) (n : Nat) : List Bool :=
  let i := s.src.msel.extractLsb' 0 3
  maskList n (if i = 0 then BitVec.allOnes 1024 else s.src.m.get i.toFin).toNat

/-- Reserve the indices of a vector operation (R82): the pops of its sources, its own rounding of the active elements if it makes
one, and the push of its result. Each register's elements count by their numbers there (log 54). -/
def planVector (srcs : List (Nat × Bool)) (own : Bool) (d : BitVec 5) (w : Nat) (act : List Bool) : Act Unit := do
  let s ← get
  planDraws ((srcs.map (·.1)).eraseDups.map s.popped ++ [if own then activeNos act else [], s.pushed d.toNat (activeBits w act)])

/-- Make the writes of an operation that completes (R158, R185). A handle is settled where it enters its register, by the
caller. -/
def Regs.apply (r : Regs) : List RegWrite → Regs
  | [] => r
  | .s i v :: t => (r.putS i v).apply t
  | .v i v :: t => (r.putV i v).apply t
  | .m i v :: t => (r.putM i v).apply t
  | .h i v :: t => Regs.apply { r with h := r.h.set i.toNat v i.isLt } t

/-! ## Literals, fill and element views of the arithmetic word -/

/-- The stored-format number of TYPE for class F (R135). -/
def floatFmt (ty : BitVec 3) : Nat := [15, 16, 17, 18].getD ty.toNat 17

/-- A literal source (R136, R137): its pattern at width w. -/
def litBits (cls : Cls) (ty : BitVec 3) (lit : Option (Bool × BitVec 24)) (idx : BitVec 5) : Nat :=
  let w := tyWidth cls ty
  let v : Int := match lit with
    | some (_, l) => l.toInt
    | none => idx.toInt
  if cls = .f then
    match lit with
    | some (true, l) => encodeFmt (floatFmt ty) (rnV (floatFmt ty) (decV 17 (l.toNat * 256)))
    | _ => encodeFmt (floatFmt ty) (rnV (floatFmt ty) (.ofInt v))
  else wrapN w v

/-- A literal at 64 bits, sign-extended (R205). -/
def litWide (lit : Option (Bool × BitVec 24)) (idx : BitVec 5) : Nat :=
  wrapN 64 (match lit with
    | some (_, l) => l.toInt
    | none => idx.toInt)

/-- The literal of the bundle's `xlit`. -/
def bundleLit : Act (Option (Bool × BitVec 24)) := do
  let s ← get
  pure s.me.lit

/-- Fill a scalar result (R120): sign copies for signed integer types, zeros otherwise. -/
def fillS (cls : Cls) (ty : BitVec 3) (x : Nat) : Word64 :=
  let w := tyWidth cls ty
  if cls = .f ∨ 4 ≤ ty.toNat then BitVec.ofNat 64 (x % 2 ^ w) else BitVec.ofInt 64 (signedN w x)

/-- A value of class I by the signedness of TYPE (R191). -/
def intVal (ty : BitVec 3) (w x : Nat) : Int := if ty.toNat < 4 then signedN w x else ((x % 2 ^ w : Nat) : Int)

/-- The stored-format number of TYPE for class I. -/
def intFmt (ty : BitVec 3) : Nat := regFmt false ty.toNat

/-- What an arithmetic word works on: element count and width, active elements, and the element patterns of A, B and the
accumulator D. A scalar form has one element, always active (R186). -/
structure Elems where
  n : Nat
  w : Nat
  act : List Bool
  a : List Nat
  b : List Nat
  d : List Nat
  deriving DecidableEq, Repr

/-- Read one source as n elements of w bits (R136, R186). `regs` holds the vector registers already read. -/
def srcElems (cls : Cls) (ty : BitVec 3) (n w : Nat) (regs : NMap VReg) (k : BitVec 2) (i : BitVec 5) (wt : Bool) :
    Act (List Nat) := do
  if k = 0 then pure (elemsN w n (regs.get i.toNat 0).toNat)
  else if k = 1 then
    let x ← readS i wt
    pure (List.replicate n (x.toNat % 2 ^ w))
  else if k = 2 then
    let x ← readK i
    pure (List.replicate n (x.toNat % 2 ^ w))
  else
    let l ← bundleLit
    pure (List.replicate n (litBits cls ty l i))

/-- The vector registers among two sources, in order. -/
def vecSrcs (f : Arith) (b : Bool) : List (Nat × Bool) :=
  (if f.ak = 0 then [(f.a.toNat, f.aw)] else []) ++ (if b && f.bk == 0 then [(f.b.toNat, f.bw)] else [])

/-- Whether an arithmetic word of form E or T rounds each element under FRM (R187, R193, R198). -/
def roundsUnderFrm (op : Nat) : Bool := op == 0x0F || (0x28 ≤ op && op ≤ 0x2C) || (0x31 ≤ op && op ≤ 0x34)

/-- Read the sources of a form E, T or C instruction (R138): A, B unless unary, and D for form T, whose destination may not
be bound to a stream (R185). -/
def readElems (op : Nat) (f : Arith) : Act Elems := do
  let inf := aInfo op
  let w := tyWidth inf.cls f.ty
  let n := if f.dk then 1 else 4096 / w
  let useB := !inf.unary
  let s ← get
  let now := s.actNow n
  let pushes := if op = 0x52 then (List.range n).map fun i => now.getD (i / 2 * 2) false else now
  if f.dk then pure () else planVector (vecSrcs f useB) (roundsUnderFrm op) f.d w pushes
  faultIf (inf.form == .t && !f.dk && (s.bound f.d.toNat).isSome) 0x51
  let regs ← readVs (vecSrcs f useB) []
  let a ← srcElems inf.cls f.ty n w regs f.ak f.a f.aw
  let b ← if useB then srcElems inf.cls f.ty n w regs f.bk f.b f.bw else pure (List.replicate n 0)
  let d ← if inf.form == .t then
      if f.dk then do
        let x ← readS f.d false
        pure [x.toNat % 2 ^ w]
      else do
        let x ← readV f.d.toNat false
        pure (elemsN w n x.toNat)
    else pure (List.replicate n 0)
  let act ← if f.dk then pure [true] else do
    let m ← activeMask
    pure (maskList n m)
  pure { n := n, w := w, act := act, a := a, b := b, d := d }

/-- The lane-group beats of a vector form (R189). -/
def beatsOf (op : Nat) (f : Arith) : Nat :=
  if op = 0x06 ∨ op = 0x07 ∨ op = 0x4E ∨ op = 0x4F then 64
  else if (op = 0x3A ∨ op = 0x3B) then
    let r := packRatio (tyWidth (aInfo op).cls f.ty) f.b.toNat
    if r = 4 then 64 else if r = 2 then 32 else 16
  else if op = 0x3C ∨ op = 0x3D ∨ (0x31 ≤ op ∧ op ≤ 0x34) then 32
  else 16

/-- Finish a form E or T instruction: the new element patterns and the flags. A scalar form writes at once, a vector form
is queued; inactive elements keep their old values (R122, R185, R186). -/
def finish (op : Nat) (f : Arith) (e : Elems) (res : List Nat) (fl : Flags) : Act Unit := do
  let inf := aInfo op
  if f.dk then
    writeS f.d (fillS inf.cls f.ty (res.headD 0))
    raiseFlags fl
  else
    let ws ← vecWrite f.d (packN e.w res) (activeBits e.w e.act)
    enqueueV (beatsOf op f) ws fl

/-- Map a function over the active elements; inactive places hold zero and raise nothing. -/
def mapActive {α : Type} (z : α) (g : Nat → Nat → Nat → α) : List Bool → List Nat → List Nat → List Nat → List α
  | m :: tm, a :: ta, b :: tb, d :: td => (if m then g a b d else z) :: mapActive z g tm ta tb td
  | _, _, _, _ => []

/-- Put the results of the active elements back to their places. -/
def scatterActive : List Bool → List Nat → List Nat
  | [], _ => []
  | true :: t, x :: xs => x :: scatterActive t xs
  | true :: t, [] => 0 :: scatterActive t []
  | false :: t, xs => 0 :: scatterActive t xs

/-- Keep the values of the active elements, each with its index. -/
def keepActive {α : Type} (act : List Bool) (xs : List α) : List (α × Nat) :=
  ((List.zip (List.zip xs (List.range xs.length)) act).filter (·.2)).map (·.1)

/-- Round the active elements of a list of values to a format, in ascending order, and put the encodings back (R187). -/
def roundActive (act : List Bool) (frm : Word64) (keep : Bool) (c : Nat) (vs : List FVal) : Act (List Nat × Flags) := do
  let rs ← roundAll frm keep c (keepActive act vs)
  pure (scatterActive act (rs.map fun r => encodeFmt c r.q), flagsOf rs)

end Sys2Proof.Machine
end

