-- ==== Sys2Proof/Machine/Handles.lean ====
section
/-!
DEFINITION. Completion handles (R106-R109, R311, R312): their fields, the engines' records of outcomes, and how a handle
value is settled when it enters an h register.
-/
namespace Sys2Proof.Machine

/-- Fields of a handle value (R106). -/
def hPh (v : Word64) : Nat := fld v 63 62
def hKind (v : Word64) : Nat := fld v 61 60
def hSeq (v : Word64) : Nat := fld v 27 0

/-- The handle of an engine operation (R106). -/
def mkHandle (ph kind code pkg die clu cell seq : Nat) : Word64 :=
  BitVec.ofNat 64 (ph * 2 ^ 62 + kind * 2 ^ 60 + code * 2 ^ 52 + pkg * 2 ^ 42 + die * 2 ^ 39 + clu * 2 ^ 33 + cell * 2 ^ 28 + seq)

/-- The same handle in another phase with another code. -/
def setPhase (v : Word64) (ph code : Nat) : Word64 := setFld (setFld v 63 62 ph) 59 52 code

/-- The package cluster number that a handle names (63 in CLU names the die supervisor cell), and the key of its operation
in that cluster's record. -/
def hCluster (v : Word64) : Nat := if fld v 38 33 = 63 then 384 + fld v 41 39 else fld v 41 39 * 48 + fld v 38 33
/-- CLU of the handles of a core's engines. -/
def cluField (core : Nat) : Nat := if isSup core then 63 else clusterOf core % 48
def hKey (v : Word64) : Nat := hKind v * 2 ^ 40 + fld v 32 28 * 2 ^ 28 + hSeq v

/-- The sequence number after n: modulo 2^28, never 0 (R106). -/
def nextSeq (n : Nat) : Nat := if (n + 1) % 2 ^ 28 = 0 then 1 else (n + 1) % 2 ^ 28

/-- The sequence number n operations before one, among the 2^28 − 1 that are in use (R106). -/
def seqBack (seq n : Nat) : Nat := (seq + (2 ^ 28 - 2) - n) % (2 ^ 28 - 1) + 1

/-- An engine that has numbered an operation lets go of the outcome that is no longer among its 65,536 most recent (R108); `key` is
the operation's key in the cluster's record. -/
def Cluster.forget (c : Cluster) (key : Nat) : Cluster :=
  { c with outcomes := c.outcomes.del (key / 2 ^ 28 * 2 ^ 28 + seqBack (key % 2 ^ 28) 65536) }

/-- Record an outcome; the engine keeps its 65,536 most recent operations (R108). -/
def Cluster.record (c : Cluster) (v : Word64) : Cluster :=
  let c := c.forget (hKey v)
  { c with outcomes := c.outcomes.put (hKey v) v }

/-- The numbers of the cores of the cell that a tile-fetch handle names. -/
def hCores (v : Word64) : List Nat :=
  let cl := hCluster v
  let first := if 384 ≤ cl then firstSup + 4 * (cl - 384) else (cl * 32 + fld v 32 28) * 4
  [first, first + 1, first + 2, first + 3]

/-- Whether a tile slot holds the fetch that a handle names, still running or withdrawn by a chunk that has not committed. -/
def TileSlot.names (t : TileSlot) (v : Word64) : Bool := (t.st == .fetching || t.st == .cancelled) && t.seq == hSeq v

/-- Whether the operation a handle names is still pending (R108). -/
def State.opPending (s : State) (v : Word64) : Bool :=
  if hKind v = 0 then (s.cluster (hCluster v)).copyQ.any (·.seq == hSeq v)
  else (hCores v).any fun i => (s.core i).regs.slots.toList.any (·.names v)

/-- Whether a core has itself cancelled the tile fetch that a handle names (R181). -/
def Regs.cancelled (r : Regs) (core : Nat) (v : Word64) : Bool :=
  hKind v == 1 && (hCores v).contains core && r.slots.toList.any fun t => t.st == .cancelled && t.seq == hSeq v

/-- How a handle value is settled when it enters an h register of a core (R108, R312): value, state, full. What an engine of
another package keeps is a free choice. -/
def State.settle (s : State) (core : Nat) (r : Regs) (v : Word64) : Word64 × HState × Bool :=
  if v = 0 then (0, .settled, true)
  else if 2 ≤ hKind v then (if hPh v ≠ 0 then (v, .settled, true) else (v, .stale, true))
  else if fld v 51 42 ≠ s.pkg then
    if !s.domain ∨ s.npkg ≤ fld v 51 42 then (v, .stale, true)
    else match Config.remoteHandle s.moment v with
      | (0, _, _) => (v, .pending, false)
      | (1, ph, code) => (setPhase v (1 + ph % 3) (code % 256), .settled, true)
      | _ => (v, .stale, true)
  else match (s.cluster (hCluster v)).outcomes.find (hKey v) with
    | some o => (o, .settled, true)
    | none =>
      if r.cancelled core v then (setPhase v 3 0, .settled, true)
      else if s.opPending v then (v, .pending, false) else (v, .stale, true)

/-- The index of an h register. -/
def hIdx (i : BitVec 5) : Fin 16 := ⟨i.toNat % 16, Nat.mod_lt _ (by decide)⟩

/-- Put a value, a state and a full/empty bit into an h register. -/
def Regs.putH (r : Regs) (i : Fin 16) (v : Word64) (st : HState) (full : Bool) : Regs :=
  { r with
    h := r.h.set i.val v i.isLt
    hst := r.hst.set i.val st i.isLt
    hFull := if full then r.hFull ||| BitVec.ofNat 16 (2 ^ i.val) else r.hFull &&& ~~~BitVec.ofNat 16 (2 ^ i.val) }

/-- A handle value enters an h register of a core (R108). -/
def Regs.enterH (r : Regs) (s : State) (core : Nat) (i : Fin 16) (v : Word64) : Regs :=
  let x := s.settle core r v
  r.putH i x.1 x.2.1 x.2.2

/-- Make the writes of a load that completes on a core, settling handles (R108, R158). -/
def Regs.land (r : Regs) (s : State) (core : Nat) : List RegWrite → Regs
  | [] => r
  | .h i v :: t => (r.enterH s core (hIdx (i.setWidth 5)) v).land s core t
  | w :: t => (r.apply [w]).land s core t

/-- A pending handle of another package's engine may have resolved (R107, R108). -/
def State.freshH (s : State) (core : Nat) (r : Regs) (i : Fin 16) : Regs :=
  match r.hst.get i with
  | .pending => if fld (r.h.get i) 51 42 = s.pkg then r else r.enterH s core i (r.h.get i)
  | _ => r

/-- Whether a core's h register is the one that the tile fetch which a handle names was to write (R178): its outcome replaces what
has been written there meanwhile (R124). -/
def Regs.fetchLands (r : Regs) (core : Nat) (v : Word64) (i : Fin 16) : Bool :=
  let t := r.slots.get ⟨i.val % 4, Nat.mod_lt _ (by decide)⟩
  hKind v == 1 && (hCores v).contains core && decide (12 ≤ i.val) && t.st == .fetching && t.seq == hSeq v

/-- An engine operation resolves with a handle (R107, R124): every register of a core that is pending on it takes the outcome and
becomes full. -/
def Regs.resolveH (core : Nat) (v : Word64) (r : Regs) : Regs :=
  (List.finRange 16).foldl (fun q i =>
    if (q.hst.get i = .pending ∧ setPhase (q.h.get i) 0 0 = setPhase v 0 0) ∨ r.fetchLands core v i then
      q.putH i v .settled true
    else q) r

/-- Change the registers of a core wherever they stand: live, and as the running and pending chunks will restore them. -/
def Core.onAll (f : Regs → Regs) (c : Core) : Core :=
  { c with
    regs := f c.regs
    run := c.run.map fun k => { k with start := f k.start }
    pend := c.pend.map fun k => { k with start := f k.start } }

/-- An outcome is recorded (R108), and enters the registers of every core that waits for it (R107, R124). -/
def State.landOutcome (s : State) (v : Word64) : State :=
  let s := s.setCluster (hCluster v) ((s.cluster (hCluster v)).record v)
  { s with cores := s.cores.map fun p => (p.1, p.2.onAll (Regs.resolveH p.1 v)) }

/-- The current value and state of an h register (R107, R108). -/
def readH (i : BitVec 5) : Act (Word64 × HState) := do
  waitOn (3, (hIdx i).val)
  let s ← get
  let r := s.freshH s.cur s.regs (hIdx i)
  onRegs fun _ => r
  pure (r.h.get (hIdx i), r.hst.get (hIdx i))

/-- A copy command with this number held in the running chunk. -/
def Chunk.holdsCopy (k : Chunk) (id : Nat) : Bool := k.held.any fun h => match h with
  | .copy j _ _ _ _ _ _ => j == id
  | _ => false

/-- An instruction that needs the handle a held command will get (R109, R172, R180): the chunk is cut before it, or fault
0x43 in a span; while the command is held in the pending chunk the core waits for that chunk's grant. -/
def needIssued (st : HState) : Act Unit := do
  let s ← get
  match st with
  | .held id =>
    if s.chunk.holdsCopy id then (if s.chunk.span.isSome then raise 0x43 else cutHere) else waitFor .pend
  | _ => pure ()

/-- Engine commands that a chunk holds (R96, R181). -/
def Chunk.commands (k : Chunk) : Nat := (k.held.filter fun h => match h with
  | .copy _ _ _ _ _ _ _ => true
  | .cancel v _ => hKind v == 0
  | _ => false).length

/-- A seventeenth engine command cuts the chunk before it, or is fault 0x45 in a span (R96). -/
def commandRoom : Act Unit := do
  let s ← get
  if 16 ≤ s.chunk.commands then (if s.chunk.span.isSome then raise 0x45 else cutHere) else pure ()

/-- Hold an engine command (R96). -/
def holdCommand (h : Held) : Act Unit := do
  commandRoom
  hold h

end Sys2Proof.Machine
end

