-- ==== Sys2Proof/Machine/Publish.lean ====
section
/-!
DEFINITION. What a grant makes visible (R244, R258): committing held bytes to lines and parts, the squash of the chunks
that a write signature meets (R244-R247), and the host's dirty bits (R32).
-/
namespace Sys2Proof.Machine

/-! ## Squashes of chunks that have not been granted -/

/-- Squash the pending chunk of a core and with it the running one (R238, R246). A fault that waits for delivery in the
younger chunk is discarded with it (R365). -/
def squashPend (s : State) (i : Nat) : State :=
  let s := squashRun s i
  let c := s.core i
  match c.pend with
  | none => s
  | some k =>
    let s := s.setCell (cellOf i) ((s.cell (cellOf i)).unpop k.pops)
    let s := s.unfetch i k
    s.setCore i { c.halve with
                         regs := { k.start with nextId := c.regs.nextId }, pend := none, requested := false, fault := none, again := c.again + 1,
                         wait := .none, need := .none }

/-- Drop a cluster's and a die's latch offer of a chunk that has been squashed (R243). -/
def State.dropOffer (s : State) (i : Nat) : State :=
  let cl := s.cluster (clusterOf i)
  if cl.offer = some i then
    let s := s.setCluster (clusterOf i) { cl with offer := none }
    let d := s.die (dieOf i)
    if d.offer = some (clusterOf i) then s.setDie (dieOf i) { d with offer := none } else s
  else s

/-- A conflict squash of a core's pending or running chunk (R244-R247): the third in a row from one first bundle asks for the
priority token. It breaks a run of the block checker's mismatches (R291). -/
def conflictSquash (s : State) (i : Nat) (pend : Bool) : State :=
  let l := (s.core i).squashed pend
  let s := if pend then (squashPend s i).dropOffer i else squashRun s i
  (s.modCore i fun c => (c.afterSquash l).noMismatch l).askToken i

/-- Whether a chunk's signatures meet a write signature (R241). -/
def Chunk.meets (w : Sig) (k : Chunk) : Bool := sigMeets w k.rsig || sigMeets w k.wsig

/-- Whether one of a core's chunks meets a write signature. -/
def meetsOpt (w : Sig) : Option Chunk → Bool
  | some k => k.meets w
  | none => false

/-- One core's part of a grant's broadcast (R244): the chunk that the signature meets is squashed, an older one with its
successor; what spin detection remembers ends where the grant meets it (R345). -/
def meetCore (w : Sig) (s : State) (i : Nat) : State :=
  let c := s.core i
  let s := if c.spin.rsigs.any (sigMeets w) then s.setCore i { c with spin := ⟨0, 0, [], []⟩ } else s
  if meetsOpt w c.pend then conflictSquash s i true
  else if meetsOpt w c.run then conflictSquash s i false
  else s

/-- Broadcast of a write signature to every core but one whose successor chunk is spared (R244). -/
def State.broadcast (s : State) (w : Sig) (spare : Option Nat) : State :=
  if w = 0 then s
  else (s.cores.map (·.1)).foldl (fun s i => if spare = some i then s else meetCore w s i) s

/-- The chunk at a place of a core: the task's oldest that has not been granted, or the one after it. -/
def Core.chunkAt (c : Core) (younger : Bool) : Option Chunk :=
  if younger then (if c.pend.isSome then c.run else none) else if c.pend.isSome then c.pend else c.run

/-- Whether the chunk that holds the token keeps an item with this write signature waiting (R247). An item of the holder's own
task comes before it in program order and is not kept. -/
def State.tokenBlocks (s : State) (w : Sig) (self : Option Nat) : Bool :=
  match s.token.head? with
  | none => false
  | some h => self != some h.1 && meetsOpt w ((s.core h.1).chunkAt h.2)

/-! ## Windows and parts (R257, R258, R264, R398) -/

/-- The window length L in ns. -/
def State.winLength (s : State) : Nat := 50 * (if fld s.svc.winlen 7 0 = 0 then 20 else fld s.svc.winlen 7 0)
/-- The window of the clock now. -/
def State.window (s : State) : Nat := s.dt / s.winLength

/-- Gather held bytes into lines: mask and data of each (R258). -/
def groupLines (m : NMap (BitVec 8 × BitVec 8)) : NMap (Line × Line) :=
  m.foldl (fun (a : NMap (Line × Line)) p =>
    let (om, od) := a.get (p.1 / 128) (0, 0)
    let sh := 8 * (p.1 % 128)
    a.put (p.1 / 128) (om ||| BitVec.ofNat 1024 (p.2.1.toNat <<< sh),
      od ||| BitVec.ofNat 1024 ((p.2.2 &&& p.2.1).toNat <<< sh))) []

/-- Bytes at located pieces as held bytes. -/
def cellsAt : List (Nat × Nat) → List Byte → NMap (BitVec 8 × BitVec 8)
  | [], _ => []
  | (k, n) :: t, bs =>
    storeBits (List.zipWith (fun j b => (k + j, (0xFF : BitVec 8), b)) (List.range n) (bs.take n)) (cellsAt t (bs.drop n))

/-- Send a part to its line's home; a core of this package reads it back until the home has applied it (R258, R260). -/
def State.sendPart (s : State) (win kid csn line : Nat) (m d : Line) : State :=
  let p : Part := { win := win, pkg := s.pkg, csn := csn, kid := kid, home := remoteOwner line, addr := remoteAddr line,
                    mask := m, data := d }
  { s with outs := s.outs ++ [.part p.home p], unapplied := s.unapplied ++ [p] }

/-- Make bytes committed at a CSN: local and host lines are written, lines of other packages become parts (R244, R258). -/
def State.publish (s : State) (win kid csn : Nat) (m : NMap (BitVec 8 × BitVec 8)) : State :=
  (groupLines m).foldl (fun s p =>
    if isRemote p.1 then s.sendPart win kid csn p.1 p.2.1 p.2.2 else s.writeLine kid p.1 p.2.1 p.2.2) s

/-- Whether any byte goes to another package. -/
def sendsParts (m : NMap (BitVec 8 × BitVec 8)) : Bool := m.any fun p => isRemote (p.1 / 128)

/-! ## Dirty bits of host tables (R32) -/

/-- Set the dirty bit of the leaf that maps an address, walking from a level downward (R31, R32). -/
def hostDirty (s : State) (kid va : Nat) (hf : Word64) : Nat → Nat → State
  | 0, _ => s
  | fuel + 1, table =>
    let k := s.hpaKey (table + 8 * (va >>> (12 + 9 * fuel) % 512))
    let e : Word64 := BitVec.ofNat 64 (ofBytes (memReadN s.mem k 8))
    if !bitAt e (hbit hf 0) then s
    else if fuel = 0 ∨ bitAt e (hbit hf 30) then s.writeHostWord kid k (e ||| BitVec.ofNat 64 (2 ^ hbit hf 24)).toNat
    else hostDirty s kid va hf fuel (fld e 51 12 * 4096)

/-- Set the dirty bit of a page's leaf for a writer on a cluster, and note it in every TLB entry that covers the page (R32). -/
def State.setDirty (s : State) (kid cl va : Nat) : State :=
  let t0 := (s.trans kid cl).1
  let fmt := fld t0 63 62
  let s := if fmt = 0 then s
    else hostDirty s kid va (s.job kid).hfmt (if fmt = 1 then 4 else 5) (fld t0 51 12 * 4096)
  { s with clusters := s.clusters.map fun p => (p.1, { p.2 with tlb := p.2.tlb.map fun e =>
      if e.kid = kid ∧ e.va ≤ va ∧ va < e.va + e.size then { e with dirty := true } else e }) }

/-- A unit's write of n bytes at an address sets the dirty bits of the host pages that it lies in (R32). -/
def State.dirtyAt (s : State) (c : Ctx) (a : Word64) (n : Nat) : State :=
  if fld (s.trans c.kid c.cl).1 63 62 = 0 ∨ c.sup ∨ 0xFFC ≤ apertureOf a then s
  else (addrPieces a n).foldl (fun s p => s.setDirty c.kid c.cl (p.1.toNat % 2 ^ 57)) s

/-! ## Completions that must survive a squash -/

/-- A far atomic's reply replaces what its h register holds, whatever has been written there since (R124, R311). -/
def Regs.atomicLands (x : Fin 16) (v : Word64) (r : Regs) : Regs := r.putH x v .settled true

/-- The handle of a held command gets its issued value (R106, R177). -/
def Regs.commandIssues (id : Nat) (x : Fin 16) (v : Word64) (r : Regs) : Regs :=
  if r.hst.get x = .held id then r.putH x v .pending false else r

end Sys2Proof.Machine
end

