-- ==== Sys2Proof/Machine/Engine.lean ====
section
/-!
DEFINITION. The copy engine (R98-R105): the descriptor, the checks at issue, the claims, and the copy itself.
-/
namespace Sys2Proof.Machine

/-- A copy descriptor (R102). -/
structure CopyDesc where
  saddr : Nat
  daddr : Nat
  c0 : Nat
  c1 : Nat
  c2 : Nat
  c3 : Nat
  ss : List Int
  ds : List Int
  sdesc : Word64
  ddesc : Word64
  deriving DecidableEq, Repr

/-- Word j of a 64-byte record. -/
def word512 (d : BitVec 512) (j : Nat) : Word64 := d.extractLsb' (64 * j) 64

/-- Read the fields of a copy descriptor (R102). -/
def copyDesc (d : BitVec 512) : CopyDesc :=
  let w := word512 d
  let lo (j : Nat) : Int := signedN 32 (w j).toNat
  let hi (j : Nat) : Int := signedN 32 ((w j).toNat >>> 32)
  { saddr := (w 0).toNat, daddr := (w 1).toNat, c0 := fld (w 2) 15 0, c1 := fld (w 2) 31 16, c2 := fld (w 2) 47 32,
    c3 := fld (w 2) 63 48, ss := [lo 3, hi 3, lo 4], ds := [hi 4, lo 5, hi 5], sdesc := w 6, ddesc := w 7 }

def CopyDesc.total (d : CopyDesc) : Nat := d.c0 * d.c1 * d.c2 * d.c3
/-- Stored format and scale placement of a side. -/
def sideFmt (w : Word64) : Nat := fld w 4 0
def sideScl (w : Word64) : Nat := fld w 9 8
/-- Width of a side's elements; raw bytes for format 0 (R103). -/
def sideWidth (w : Word64) : Nat := if sideFmt w = 0 then 8 else (fmtOf (sideFmt w)).w

/-- Format checks of one side (R103). -/
def sideBad (w : Word64) (c0 : Nat) (strides : List Int) : Bool :=
  fld w 7 5 != 0 || fld w 63 10 != 0 || decide (18 ≤ sideFmt w) || decide (2 ≤ sideScl w) ||
    (sideScl w != 0 && !admitsScale (sideFmt w)) ||
    (sideScl w == 1 && (c0 % 32 != 0 || strides.any (fun x => x % 32 != 0)))

/-- Whether an address names a pane above 0 in the cell or cluster aperture (R104). -/
def namesPane (a : Nat) : Bool :=
  let a : Word64 := BitVec.ofNat 64 a
  (apertureOf a == 0xFFF && fld a 20 18 != 0) || (apertureOf a == 0xFFC && fld a 25 23 != 0)

/-- The first two checks at issue (R101): 0 where both pass. -/
def CopyDesc.check (d : CopyDesc) : Code :=
  if sideBad d.sdesc d.c0 d.ss ∨ sideBad d.ddesc d.c0 d.ds ∨ ((sideFmt d.sdesc = 0) ≠ (sideFmt d.ddesc = 0)) then 0x40
  else if namesPane d.saddr ∨ namesPane d.daddr then 0x11
  else 0

/-- Index of element k of a side (R104). -/
def CopyDesc.index (d : CopyDesc) (strides : List Int) (k : Nat) : Int :=
  let i0 := k % d.c0
  let k := k / d.c0
  let i1 := k % d.c1
  let k := k / d.c1
  (i0 : Int) + (i1 : Int) * strides.getD 0 0 + ((k % d.c2 : Nat) : Int) * strides.getD 1 0 +
    ((k / d.c2 : Nat) : Int) * strides.getD 2 0

/-- `PanePlace` (R67) with a byte address as BASE (R104): bit address of an element, byte address of its block's scale. -/
def copyPlace (w : Word64) (base : Nat) (e : Int) : Int × Int :=
  let b : Int := sideWidth w
  if sideScl w = 1 then
    let sb := (base : Int) + e / 32 * (1 + 4 * b)
    (8 * (sb + 1) + e % 32 * b, sb)
  else (8 * (base : Int) + e * b, 0)

/-- The bytes that w bits at a bit address touch: address and number. -/
def bitPlace (bit : Int) (w : Nat) : Word64 × Nat := (BitVec.ofInt 64 (bit / 8), ((bit % 8).toNat + w + 7) / 8)

/-- Locate w bits at a bit address for the engine (R104): not in the event-counter aperture. -/
def copyLocate (s : State) (c : Ctx) (acc : Access) (bit : Int) (w : Nat) : Except Code (List (Nat × Nat)) :=
  let p := bitPlace bit w
  if apertureOf p.1 = 0xFFD then .error 0x11
  else match locateNow s c acc p.1 p.2 with
    | .ok ps => .ok ps
    | .error (.fault code _ _) => .error code
    | .error _ => .error 0x14

/-- The source pieces of element k: element, and scale byte of a scaled side. -/
def CopyDesc.srcOf (d : CopyDesc) (s : State) (c : Ctx) (k : Nat) : Except Code (List (Nat × Nat) × List (Nat × Nat)) := do
  let (bit, sb) := copyPlace d.sdesc d.saddr (d.index d.ss k)
  let e ← copyLocate s c .read bit (sideWidth d.sdesc)
  let x ← if sideScl d.sdesc = 0 then pure [] else copyLocate s c .read (8 * sb) 8
  pure (e, x)

/-- The destination pieces of element k, its block's scale byte first for element 0 of a block. -/
def CopyDesc.dstOf (d : CopyDesc) (s : State) (c : Ctx) (k : Nat) : Except Code (List (Nat × Nat) × List (Nat × Nat)) := do
  let (bit, sb) := copyPlace d.ddesc d.daddr (d.index d.ds k)
  let x ← if sideScl d.ddesc = 0 ∨ k % 32 ≠ 0 then pure [] else copyLocate s c .write (8 * sb) 8
  let e ← copyLocate s c .write bit (sideWidth d.ddesc)
  pure (e, x)

/-- The bytes that element k of a side touches, its scale byte's too where the side has one there. -/
def sidePlaces (w : Word64) (base : Nat) (e : Int) (scale : Bool) : List (Word64 × Nat) :=
  let (bit, sb) := copyPlace w base e
  bitPlace bit (sideWidth w) :: (if scale then [bitPlace (8 * sb) 8] else [])
def CopyDesc.srcPlaces (d : CopyDesc) (k : Nat) : List (Word64 × Nat) :=
  sidePlaces d.sdesc d.saddr (d.index d.ss k) (sideScl d.sdesc != 0)
def CopyDesc.dstPlaces (d : CopyDesc) (k : Nat) : List (Word64 × Nat) :=
  sidePlaces d.ddesc d.daddr (d.index d.ds k) (sideScl d.ddesc != 0 && k % 32 == 0)

/-- Distinct lines of pieces, over every element that can be located. -/
def linesAll (n : Nat) (f : Nat → Except Code (List (Nat × Nat) × List (Nat × Nat))) : List Nat :=
  ((List.range n).map fun k => match f k with
    | .ok (a, b) => (a ++ b).map (·.1 / 128)
    | .error _ => []).flatten.eraseDups

/-- The byte that an address names, whatever its bounds, its permission or its quad's role: none where it has no place at all. -/
def rawKey (s : State) (c : Ctx) (a : Word64) : Option Nat :=
  let ap := apertureOf a
  if ap = 0xFFF then (if c.sup then none else some (cellKey c.cell (fld a 17 0)))
  else if ap = 0xFFE then some (c.stkBase + fld a 51 0)
  else if ap = 0xFFD then some (c.ecBase + fld a 22 0)
  else if ap = 0xFFC then (if c.sup then none else some (cellKey (c.cell / 32 * 32 + fld a 22 18) (fld a 17 0)))
  else if !canonical a then none
  else if c.sup then some (a.toNat % 2 ^ 57)
  else match (s.walkNow c.kid c.cl (a.toNat % 2 ^ 57)).2 with
    | .ok e => some (entryKey s e (a.toNat % 2 ^ 57))
    | .error _ => none

/-- The lines of w bits at a bit address, whatever the engine may do there. -/
def rawLines (s : State) (c : Ctx) (bit : Int) (w : Nat) : List Nat :=
  (addrPieces (bitPlace bit w).1 (bitPlace bit w).2).filterMap fun p => (rawKey s c p.1).map (· / 128)

/-- Every line of a side over every element that the counts give, for the overlap test of R101. -/
def CopyDesc.sideLines (d : CopyDesc) (s : State) (c : Ctx) (w : Word64) (base : Nat) (strides : List Int) : List Nat :=
  ((List.range d.total).map fun k =>
    let (bit, sb) := copyPlace w base (d.index strides k)
    rawLines s c bit (sideWidth w) ++ (if sideScl w = 0 then [] else rawLines s c (8 * sb) 8)).flatten.eraseDups

/-- Whether two ranges of lines, from lowest to highest, meet (R101). -/
def rangesMeet (a b : List Nat) : Bool :=
  match a, b with
  | x :: xs, y :: ys =>
    let lo (h : Nat) (t : List Nat) : Nat := t.foldl (fun m z => if z < m then z else m) h
    let hi (h : Nat) (t : List Nat) : Nat := t.foldl (fun m z => if m < z then z else m) h
    decide (lo x xs ≤ hi y ys ∧ lo y ys ≤ hi x xs)
  | _, _ => false

/-- Whether a copy rounds in mode 0b101 (R82). -/
def CopyDesc.draws (d : CopyDesc) (frm : Word64) : Bool := fld frm 2 0 == 5 && sideFmt d.ddesc != 0 && d.total != 0

/-- The weave checks at issue (R226, R232): 0 where they pass. -/
def weaveCheck (frm wtab : Word64) : Code :=
  if 4096 < fld wtab 63 51 then 0x4A else if fld wtab 63 51 ≤ fld frm 27 16 then 0x49 else 0

/-- Where the weave window that a copy draws from stands, and how many bytes it is (R104, R230). -/
def rowPlace (wtab frm : Word64) : Word64 × Nat := (windowAddr wtab (fld frm 27 16 / 64), windowBytes)

/-- The lines of that window, which the engine reads too. -/
def State.rowLines (s : State) (c : Ctx) (wtab frm : Word64) (draws : Bool) : List Nat :=
  if draws then s.linesAt c (rowPlace wtab frm).1 (rowPlace wtab frm).2 else []

/-- The context an issued copy acts under (R102). -/
def State.copyCtx (s : State) (cl : Nat) (x : CopyCmd) : Ctx :=
  if isSup x.core then s.ctx x.core
  else { s.jobCtx x.kid cl with core := x.core, cell := x.cell, stkBase := x.stkBase, stkLim := x.stkLim }

/-- Make a copy command from a descriptor as it was read, with the checks of R101 and the lines it reads and claims
(R98). -/
def State.makeCopy (s : State) (cl : Nat) (x : CopyCmd) (desc : Except Code (BitVec 512)) : CopyCmd :=
  match desc with
  | .error code => { x with bad := code }
  | .ok b =>
    let d := copyDesc b
    let x := { x with desc := b }
    if d.check ≠ 0 then { x with bad := d.check }
    else
      let c := s.copyCtx cl x
      let src := linesAll d.total (d.srcOf s c)
      let dst := linesAll d.total (d.dstOf s c)
      if rangesMeet (d.sideLines s c d.sdesc d.saddr d.ss) (d.sideLines s c d.ddesc d.daddr d.ds) then { x with bad := 0x41 }
      else if d.draws x.frm && weaveCheck x.frm x.wtab != 0 then { x with bad := weaveCheck x.frm x.wtab }
      else { x with srcs := src ++ s.rowLines c x.wtab x.frm (d.draws x.frm), claims := dst }

/-- A new command's record before its descriptor is read. -/
def newCopy (seq kid csn ord core : Nat) (frm : Word64) (sidx : BitVec 32) (wseed wtab : Word64) (c : Ctx)
    (gang : Option (Nat × Nat)) : CopyCmd :=
  { seq := seq, kid := kid, csn := csn, ord := ord, desc := 0, bad := 0, core := core, stkBase := c.stkBase,
    stkLim := c.stkLim, cell := c.cell, frm := frm, sidx := sidx, claims := [], running := false, gang := gang,
    wseed := wseed, wtab := wtab, srcs := [], snap := [], remote := [] }

/-- Put a command into a cluster's queue; its number is the cluster's next, and the outcome that is no longer among the 65,536 most
recent goes (R102, R106, R108). -/
def State.queueCopy (s : State) (cl : Nat) (x : CopyCmd) : State :=
  let c := (s.cluster cl).forget x.seq
  { s.setCluster cl { c with copyQ := c.copyQ ++ [x], copySeq := x.seq } with moment := s.moment + 1 }

/-! ## The copy itself -/

/-- A source line as a command sees it, and whether it is poisoned: sectors already read keep what they held (R100). -/
def State.copyLine (s : State) (x : CopyCmd) (line : Nat) : Line × Bool :=
  if isRemote line then x.remote.get line (0, false)
  else
    let (_, d, po) := s.readLine x.kid line
    (List.range 4).foldl (fun (a : Line × Bool) j => match x.snap.find (4 * line + j) with
      | none => a
      | some (v, p) =>
        let m : Line := BitVec.ofNat 1024 ((2 ^ 256 - 1) <<< (256 * j))
        ((a.1 &&& ~~~m) ||| BitVec.ofNat 1024 (v.toNat <<< (256 * j)), a.2 || p)) (d, po)

/-- The bytes of source pieces, and whether a line was poisoned (R46): to a copy that acts for a task that is fault 0x20 (R105); a
copy of supervisor firmware, which is no task, carries the marker on (R47). -/
def State.copyBytes (s : State) (x : CopyCmd) (ps : List (Nat × Nat)) : Except Code (List Byte × Bool) := do
  let bs ← ps.mapM fun p =>
    let (d, po) := s.copyLine x (p.1 / 128)
    if po ∧ !isSup x.core then Except.error (0x20 : Code) else .ok (bytesOf p.2 (d.toNat >>> (8 * (p.1 % 128))), po)
  pure ((bs.map (·.1)).flatten, bs.any (·.2))

/-- The value of source element k (R104): pattern for raw bytes, decoded and scaled value with its flags otherwise; and whether
it is poisoned. -/
def State.copyValue (s : State) (x : CopyCmd) (d : CopyDesc) (c : Ctx) (k : Nat) :
    Except Code (Nat × FVal × Flags × Bool) := do
  let (ps, sc) ← d.srcOf s c k
  let (bs, po) ← s.copyBytes x ps
  let bit := (copyPlace d.sdesc d.saddr (d.index d.ss k)).1
  let raw := ofBytes bs >>> (bit % 8).toNat % 2 ^ sideWidth d.sdesc
  if sideFmt d.sdesc = 0 then pure (raw, .zero, flNone, po)
  else
    let (v, fl) := decodeFmt (sideFmt d.sdesc) raw
    if sideScl d.sdesc = 0 then pure (raw, v, fl, po)
    else
      let (sb, po') ← s.copyBytes x sc
      pure (raw, if ofBytes sb = 255 then .nan else v.scale ((ofBytes sb : Int) - 127), fl, po || po')

/-- The bytes written for w bits at pieces: key, mask, value. -/
def copyCells (bit : Int) (w v : Nat) (ps : List (Nat × Nat)) : List (Nat × BitVec 8 × BitVec 8) :=
  let sh := (bit % 8).toNat
  let n := (sh + w + 7) / 8
  let keys := (ps.map fun p => (List.range p.2).map (p.1 + ·)).flatten
  List.zipWith (fun k (mv : BitVec 8 × BitVec 8) => (k, mv.1, mv.2)) keys
    (List.zip (bytesOf n ((2 ^ w - 1) <<< sh)) (bytesOf n ((v % 2 ^ w) <<< sh)))

/-- What a copy has done so far: elements and bytes written, flags, the code of the fault that stopped it, and the lines that it
poisons (R47). -/
structure CopyRun where
  n : Nat
  cells : NMap (BitVec 8 × BitVec 8)
  fl : Flags
  code : Code
  po : List Nat
  deriving DecidableEq, Repr

/-- The direction numbers of the dimension that a copy draws from, read by the engine (R104, R230). -/
def State.copyRow (s : State) (x : CopyCmd) (c : Ctx) (d : CopyDesc) : Except Code (List Nat) :=
  if !d.draws x.frm then .ok []
  else
    match (s.readNowFrom x.remote c (rowPlace x.wtab x.frm).1 (rowPlace x.wtab x.frm).2).2 with
    | .ok bs => .ok (windowRow bs (fld x.frm 27 16))
    | .error (code, _) => .error code

/-- Round element k of a copy (R82, R83, R104). -/
def copyRound (x : CopyCmd) (fmt : Nat) (row : List Nat) (k : Nat) (v : FVal) : Rounded :=
  let dim := fld x.frm 27 16
  roundV fmt (fld x.frm 2 0)
    (if fld x.frm 2 0 = 5 then weavePoint row (x.wseed.extractLsb' 0 32) dim ((x.sidx.toNat + k) % 2 ^ 32) else 0) v

/-- One element of a copy without destination scales (R104, R105): its source is read before its destination is located, so where both
fault the source's code goes into the handle (log 64). -/
def State.copyElem (s : State) (x : CopyCmd) (d : CopyDesc) (c : Ctx) (row : Except Code (List Nat))
    (r : CopyRun) (k : Nat) : CopyRun :=
  if r.code ≠ 0 then r
  else
    let f := sideFmt d.ddesc
    let res : Except Code (Nat × Flags × List (Nat × Nat) × Bool) := do
      let (raw, v, fl, po) ← s.copyValue x d c k
      let (ps, _) ← d.dstOf s c k
      if f = 0 then pure (raw, fl, ps, po)
      else
        let row ← row
        let q := copyRound x f row k v
        pure (encodeFmt f q.q, fl ||| q.fl, ps, po)
    match res with
    | .error code => { r with code := code }
    | .ok (p, fl, ps, po) =>
      { r with n := r.n + 1, fl := r.fl ||| fl, po := if po then ps.map (·.1 / 128) ++ r.po else r.po,
               cells := storeBits (copyCells (copyPlace d.ddesc d.daddr (d.index d.ds k)).1 (sideWidth d.ddesc) p ps) r.cells }

/-- One block of a copy with destination scales: all of it or none (R104, R105, R69). -/
def State.copyBlock (s : State) (x : CopyCmd) (d : CopyDesc) (c : Ctx) (row : Except Code (List Nat))
    (r : CopyRun) (b : Nat) : CopyRun :=
  if r.code ≠ 0 then r
  else
    let f := sideFmt d.ddesc
    let ks := (List.range 32).map (32 * b + ·)
    let res : Except Code (List (Nat × FVal × Flags × List (Nat × Nat) × List (Nat × Nat)) × Bool × List Nat) := do
      let es ← ks.mapM fun k => do
        let (_, v, fl, po) ← s.copyValue x d c k
        let (ps, sc) ← d.dstOf s c k
        pure ((k, v, fl, ps, sc), po)
      let row ← row
      pure (es.map (·.1), es.any (·.2), row)
    match res with
    | .error code => { r with code := code }
    | .ok (es, po, row) =>
      let sc := blockScale f (es.map (·.2.1))
      let qs := es.map fun e => if sc = 255 then (⟨.zero, flNone⟩ : Rounded) else copyRound x f row e.1 (e.2.1.scale (127 - (sc : Int)))
      let cells := (List.zip es qs).foldl (fun m q =>
        let e := q.1
        let (bit, sb) := copyPlace d.ddesc d.daddr (d.index d.ds e.1)
        let m := if e.2.2.2.2.isEmpty then m else storeBits (copyCells (8 * sb) 8 sc e.2.2.2.2) m
        storeBits (copyCells bit (sideWidth d.ddesc) (encodeFmt f q.2.q) e.2.2.2.1) m) r.cells
      { r with n := r.n + 32, fl := (List.zip es qs).foldl (fun a q => a ||| q.1.2.2.1 ||| q.2.fl) r.fl, cells := cells,
               po := if po then (es.map fun e => (e.2.2.2.1 ++ e.2.2.2.2).map (·.1 / 128)).flatten ++ r.po else r.po }

/-- Run a copy to its end or its first fault (R104, R105). -/
def State.runCopy (s : State) (cl : Nat) (x : CopyCmd) : CopyRun :=
  let d := copyDesc x.desc
  let c := s.copyCtx cl x
  let r : CopyRun := { n := 0, cells := [], fl := flNone, code := x.bad, po := [] }
  let row := s.copyRow x c d
  if x.bad ≠ 0 then r
  else if sideScl d.ddesc = 1 then (List.range (d.total / 32)).foldl (s.copyBlock x d c row) r
  else (List.range d.total).foldl (s.copyElem x d c row) r

/-- Whether an earlier command of the package claims one of these lines (R98, R99). -/
def State.earlierClaim (s : State) (ord : Nat) (ls : List Nat) : Bool :=
  s.clusters.any fun p => p.2.copyQ.any fun y => decide (y.ord < ord) && y.claims.any ls.contains

/-- Every page of host memory that a copy writes gets its dirty bit, for every byte of an element and of its scale (R32). -/
def State.copyDirty (s : State) (cl : Nat) (x : CopyCmd) (d : CopyDesc) (upto : Nat) : State :=
  ((List.range upto).map d.dstPlaces).flatten.foldl (fun s p => s.dirtyAt (s.copyCtx cl x) p.1 p.2) s

/-- What a copy's own reads leave: its walks' accessed bits, over every byte of its elements and scales (R32), and the read of the
weave window that it draws from (R230). -/
def State.copyWalks (s : State) (cl : Nat) (x : CopyCmd) (d : CopyDesc) : State :=
  if isSup x.core ∨ x.bad ≠ 0 then s
  else
    let c := s.copyCtx cl x
    let s := if fld (s.trans x.kid cl).1 63 62 = 0 then s
      else (List.range d.total).foldl (fun s k =>
        let s := (d.srcPlaces k).foldl (fun s p => (s.locateW c .read p.1 p.2).1) s
        (d.dstPlaces k).foldl (fun s p => (s.locateW c .write p.1 p.2).1) s) s
    if d.draws x.frm then (s.readNowFrom x.remote c (rowPlace x.wtab x.frm).1 (rowPlace x.wtab x.frm).2).1 else s

/-- The engine of a cluster that has written a line of local HBM is its sole holder (R51). -/
def State.engineHolds (s : State) (cl : Nat) (line : Nat) : State :=
  match s.l2Way line with
  | some w => if isHbm line then s.l2Put { w with holder := some (.engine cl) } else s
  | none => s

/-- Finish a copy: its bytes count at the CSN of the chunk that issued it (R98), its claims go, its handle resolves (R105,
R106). Bytes for other packages leave as parts of the window in which the engine writes them. -/
def State.finishCopy (s : State) (cl : Nat) (x : CopyCmd) : State × CopyRun :=
  let r := s.runCopy cl x
  let s := s.copyWalks cl x (copyDesc x.desc)
  let s := x.srcs.foldl (fun s l => if isRemote l then s else (s.readLine x.kid l).1) s
  let s := s.copyDirty cl x (copyDesc x.desc) r.n
  let s := s.publish s.window x.kid x.csn r.cells
  let s := (groupLines r.cells).foldl (fun s p => s.engineHolds cl p.1) s
  let s := { s with poison := r.po.foldl (fun l x => if l.contains x then l else x :: l) s.poison }
  let c := s.cluster cl
  let v := mkHandle (if r.code = 0 then 1 else 2) 0 (if r.code = 0 then r.fl.toNat else r.code.toNat) s.pkg (dieOf x.core)
    (cluField x.core) 0 x.seq
  let s := s.setCluster cl { c with copyQ := c.copyQ.filter (fun y => y.ord != x.ord) }
  (if x.gang.isSome then s else s.landOutcome v, r)

end Sys2Proof.Machine
end

