-- ==== Sys2Proof/Machine/FetchStore.lean ====
section
/-!
DEFINITION. Loads and stores (R155-R172): scalar, vector, pane, gather and scatter, escape and split-phase loads, handle
loads and stores.
-/
namespace Sys2Proof.Machine

/-- The address of a format-M instruction (R140). -/
def addrM (f : MF) (scale : Nat) : Act Word64 := do
  let b ← readS f.b f.bw
  pure (b + (if f.p then sext64 f.off10 * BitVec.ofNat 64 scale else sext64 f.ext))

/-- The bytes of a size code (R160). -/
def sizeOf_ (f3 : BitVec 3) : Nat := [1, 2, 4, 8, 1, 2, 4, 16].getD f3.toNat 8

/-- A loaded value extended to 64 bits (R160). -/
def extendLoad (f3 : BitVec 3) (x : Nat) : Word64 :=
  let w := 8 * sizeOf_ f3
  if 4 ≤ f3.toNat ∧ f3.toNat ≤ 6 then BitVec.ofInt 64 (signedN w x) else BitVec.ofNat 64 (x % 2 ^ w)

/-- The register writes of a scalar load (R160, R162). -/
def loadWrites (f3 : BitVec 3) (x : BitVec 5) (bs : List Byte) : List RegWrite :=
  let v := ofBytes bs
  if f3 = 7 then [.s x (BitVec.ofNat 64 v), .s (x + 1) (BitVec.ofNat 64 (v >>> 64))] else [.s x (extendLoad f3 v)]

/-- Wait for the destinations of a scalar load. -/
def waitDest (f : MF) : Act Unit := do
  waitOn (0, f.x.toNat)
  if f.f3 = 7 then waitOn (0, f.x.toNat + 1) else pure ()

/-- LDS (R162). -/
def ldsAct (f : MF) : Act Unit := do
  let a ← addrM f (sizeOf_ f.f3)
  waitDest f
  let b ← chunkRead a (sizeOf_ f.f3)
  startFlight .load (loadWrites f.f3 f.x b)

/-- LDS: a scalar load (R162). -/
def execLds (f : MF) (s : State) : Host.Outcome State Fault Refusal := issue (ldsAct f) s

/-- STS (R162). -/
def stsAct (f : MF) : Act Unit := do
  let a ← addrM f (sizeOf_ f.f3)
  let x ← readS f.x f.xw
  if f.f3 = 7 then
    let y ← readS (f.x + 1) f.xw
    chunkWrite a (bytesOf 8 x.toNat ++ bytesOf 8 y.toNat)
  else chunkWrite a (bytesOf (sizeOf_ f.f3) x.toNat)

/-- STS: a scalar store (R162). -/
def execSts (f : MF) (s : State) : Host.Outcome State Fault Refusal := issue (stsAct f) s

/-! ## Vector loads and stores (R163, R164) -/

/-- Element width of a width code (R164). -/
def vecWidth (f3 : BitVec 3) : Nat := [8, 16, 32, 64, 4].getD f3.toNat 8

/-- The runs of bytes with a nonzero mask: place and masks of each run. -/
def runsOf : Nat → List (BitVec 8) → List (Nat × List (BitVec 8))
  | _, [] => []
  | i, m :: t =>
    if m = 0 then runsOf (i + 1) t
    else match runsOf (i + 1) t with
      | (j, ms) :: r => if j = i + 1 then (i, m :: ms) :: r else (i, [m]) :: (j, ms) :: r
      | [] => [(i, [m])]

/-- A vector access whose active bytes lie in the event-counter aperture and are not one aligned counter is fault 0x13 (R22, R163): its
first active byte says where it lies. -/
def oneAccess (a : Word64) (rs : List (Nat × List (BitVec 8))) : Act Unit :=
  match rs with
  | [] => pure ()
  | (j, ms) :: t =>
    let b := a + BitVec.ofNat 64 j
    if apertureOf b = 0xFFD ∧ !(t.isEmpty && ms.length == 8 && b.toNat % 8 == 0) then faultWith 0x13 b 0 else pure ()

/-- Locate the bytes of all runs as one access (R163): every address is checked, in ascending order and in one aperture, before
any line is read (R22, R157). -/
def locateRuns (acc : Access) (a : Word64) (rs : List (Nat × List (BitVec 8))) : Act (List (Nat × Nat)) := do
  let s ← get
  let c := s.ctx s.cur
  match rs with
  | [] => pure []
  | (j, _) :: _ =>
    liftStop (locateAll s c (tlbGlobal s c acc) (apertureOf (a + BitVec.ofNat 64 j))
      (rs.map fun r => addrPieces (a + BitVec.ofNat 64 r.1) r.2.length).flatten)

/-- How many of the located pieces belong to a run. -/
def runPieces (a : Word64) (r : Nat × List (BitVec 8)) : Nat := (addrPieces (a + BitVec.ofNat 64 r.1) r.2.length).length

/-- Read located runs, each at its place of the register. -/
def readRuns (a : Word64) : List (Nat × List (BitVec 8)) → List (Nat × Nat) → Act Nat
  | [], _ => pure 0
  | r :: t, ps => do
    let b ← readPieces true (a + BitVec.ofNat 64 r.1) (ps.take (runPieces a r))
    let x ← readRuns a t (ps.drop (runPieces a r))
    pure ((ofBytes b <<< (8 * r.1)) ||| x)

/-- Write located runs from the places of a register (R155). -/
def writeRuns (a : Word64) (x : VReg) : List (Nat × List (BitVec 8)) → List (Nat × Nat) → Act Unit
  | [], _ => pure ()
  | r :: t, ps => do
    let n := r.2.length
    if apertureOf (a + BitVec.ofNat 64 r.1) < 0xFFC then noteDirty (a + BitVec.ofNat 64 r.1) n else pure ()
    writePieces (ps.take (runPieces a r)) (List.zip r.2 (bytesOf n (x.toNat >>> (8 * r.1))))
    writeRuns a x t (ps.drop (runPieces a r))

/-- LDV (R163): only bytes of active elements are read. -/
def ldvAct (f : MF) : Act Unit := do
  let a ← addrM f 64
  let m ← activeMask
  let w := vecWidth f.f3
  let bits := activeBits w (maskList (4096 / w) m)
  let rs := runsOf 0 (elemsN 8 512 bits |>.map (BitVec.ofNat 8))
  oneAccess a rs
  let ps ← locateRuns .read a rs
  let new ← readRuns a rs ps
  let ws ← vecWrite f.x new bits
  endLoad ws

/-- LDV: a vector load (R163). -/
def execLdv (f : MF) (s : State) : Host.Outcome State Fault Refusal := issue (ldvAct f) s

/-- STV (R163): memory at inactive elements stays. -/
def stvAct (f : MF) : Act Unit := do
  let a ← addrM f 64
  let x ← readV f.x.toNat f.xw
  let m ← activeMask
  let w := vecWidth f.f3
  let bits := activeBits w (maskList (4096 / w) m)
  let rs := runsOf 0 (elemsN 8 512 bits |>.map (BitVec.ofNat 8))
  oneAccess a rs
  let ps ← locateRuns .write a rs
  writeRuns a x rs ps
  settleFlags

/-- STV: a vector store (R163). -/
def execStv (f : MF) (s : State) : Host.Outcome State Fault Refusal := issue (stvAct f) s

/-! ## Pane loads and stores (R165) -/

/-- The pane number of a cell or cluster aperture address. -/
def paneNo (a : Word64) : Nat := if apertureOf a = 0xFFF then fld a 20 18 else fld a 25 23

/-- Open the pane an address names; scaled panes begin on a block (R67, R165). -/
def paneAt (a : Word64) : Act Pane := do
  let s ← get
  match paneTarget (s.ctx s.cur) a with
  | none => faultWith 0x11 a 0
  | some cell =>
    if paneNo a = 0 then faultWith 0x11 a 0
    else
      let d := s.paneReg (paneNo a)
      if fld d 9 8 ≠ 0 ∧ fld a 17 0 % 32 ≠ 0 then faultWith 0x13 a 0 else Machine.openPane d cell a

/-- LDP (R165). -/
def ldpAct (f : MF) : Act Unit := do
  let a ← addrM f 32
  let p ← paneAt a
  let m ← activeMask
  let s ← get
  let act := maskList p.count m
  let es := (keepActive act ((List.range p.count).map (fld a 17 0 + ·))).map (·.1)
  let w := (fmtOf p.rfmt).w
  planVector [] true f.x w act
  let (xs, fl) ← p.load s.src.frm es
  let ws ← vecWrite f.x (packN w (scatterActive act xs)) (activeBits w act)
  dueFlags fl
  endLoad ws

/-- LDP: a load through a pane (R165). -/
def execLdp (f : MF) (s : State) : Host.Outcome State Fault Refusal := issue (ldpAct f) s

/-- STP (R165). -/
def stpAct (f : MF) : Act Unit := do
  let a ← addrM f 32
  let p ← paneAt a
  let s ← get
  planDraws [s.popped f.x.toNat, activeNos (s.actNow p.count)]
  let x ← readV f.x.toNat f.xw
  let m ← activeMask
  let s ← get
  let w := (fmtOf p.rfmt).w
  p.store s.src.frm (List.zipWith (fun (k : Nat × Nat) c => ((fld a 17 0 + k.1, k.1 % 128, k.2), c))
    (List.zip (List.range p.count) (elemsN w p.count x.toNat)) (maskList p.count m))
  settleFlags

/-- STP: a store through a pane (R165). -/
def execStp (f : MF) (s : State) : Host.Outcome State Fault Refusal := issue (stpAct f) s

/-! ## Gather and scatter (R166, R167) -/

/-- Data element size in bytes and number of elements of a gather code (R167). -/
def gatherSize (f7 : BitVec 7) : Nat := 2 ^ (f7.toNat % 4)
def gatherCount (f7 : BitVec 7) : Nat := if 512 / gatherSize f7 < 128 then 512 / gatherSize f7 else 128

/-- The addresses of the elements (R167). -/
def gatherAddrs (f7 : BitVec 7) (base : Word64) (z : VReg) : List Word64 :=
  let sc : Int := if f7.getLsbD 2 then gatherSize f7 else 1
  (elemsN 32 (gatherCount f7) z.toNat).map fun i => base + BitVec.ofInt 64 (signedN 32 i * sc)

/-- GATH (R166). -/
def gathAct (f : TF) : Act Unit := do
  let base ← readS f.y f.yw
  let s ← get
  planVector [(f.z.toNat, f.zw)] false f.x (8 * gatherSize f.f7) (s.actNow (gatherCount f.f7))
  let z ← readV f.z.toNat f.zw
  let m ← activeMask
  let sz := gatherSize f.f7
  let act := maskList (gatherCount f.f7) m
  let xs ← (keepActive act (gatherAddrs f.f7 base z)).mapM fun p => do
    let b ← chunkRead p.1 sz
    pure (ofBytes b)
  let ws ← vecWrite f.x (packN (8 * sz) (scatterActive act xs)) (activeBits (8 * sz) act)
  endLoad ws

/-- GATH: gather elements (R166). -/
def execGath (f : TF) (s : State) : Host.Outcome State Fault Refusal := issue (gathAct f) s

/-- SCAT (R166). -/
def scatAct (f : TF) : Act Unit := do
  let base ← readS f.y f.yw
  let s ← get
  planDraws ([f.x.toNat, f.z.toNat].eraseDups.map s.popped)
  let regs ← readVs [(f.x.toNat, f.xw), (f.z.toNat, f.zw)] []
  let m ← activeMask
  let sz := gatherSize f.f7
  let act := maskList (gatherCount f.f7) m
  let as := gatherAddrs f.f7 base (regs.get f.z.toNat 0)
  (keepActive act (List.zip as (elemsN (8 * sz) (gatherCount f.f7) (regs.get f.x.toNat 0).toNat))).forM fun p =>
    chunkWrite p.1.1 (bytesOf sz p.1.2)
  settleFlags

/-- SCAT: scatter elements (R166). -/
def execScat (f : TF) (s : State) : Host.Outcome State Fault Refusal := issue (scatAct f) s

/-! ## Escape and split-phase loads (R168-R171) -/

/-- Split located pieces at 32-byte sectors (R169). -/
def sectors : Nat → Nat → Nat → List (Nat × Nat)
  | 0, _, _ => []
  | fuel + 1, k, n =>
    if n = 0 then []
    else
      let room := 32 - k % 32
      let m := if n ≤ room then n else room
      (k, m) :: sectors fuel (k + m) (n - m)

/-- Pieces with their places in what they make up. -/
def placed : Nat → List (Nat × Nat) → List (Nat × Nat × Nat)
  | _, [] => []
  | o, (k, n) :: t => (o, k, n) :: placed (o + n) t

/-- LDX (R168): checks at issue; each sector is read at one moment before its data's arrival. A line of another package is
forwarded first (R40), and its value stands in the log before the load's (R416). -/
def ldxAct (f : MF) : Act Unit := do
  let sz := sizeOf_ f.f3
  let a ← addrM f sz
  waitDest f
  let s ← get
  let ps ← liftStop (locate s (s.ctx s.cur) .read a sz)
  ps.forM fun p => do
    if isRemote (p.1 / 128) then
      let _ ← readLineRaw p.1 p.2
    else pure ()
  let id ← fresh
  let logged ← replayed 0 (if f.f3 = 7 then 2 else 1)
  let (todo, got) ← match logged with
    | some es => pure ([], (List.range sz).zip (bytesOf sz (packN 64 (es.map (·.2.toNat)))))
    | none => do
      noteValue 0 id []
      pure (placed 0 (ps.map fun p => sectors 5 p.1 p.2).flatten, [])
  let s ← get
  let k := s.chunk.seq
  let pc := s.src.pc
  onRegs fun r => { r with flights := r.flights ++
    [{ id := id, chunk := k, kind := .ldx, writes := [], pc := pc, poison := none, todo := todo, got := got, dst := f.x,
       code := f.f3, href := a }] }

/-- LDX: an escape load (R168). -/
def execLdx (f : MF) (s : State) : Host.Outcome State Fault Refusal := issue (ldxAct f) s

/-- The placed pieces of a split-phase load that it must wait for: those whose lines lie on other packages and have not come (R171,
R260), which in replay the log gives (R418), and those whose lines a copy command claims or that are in transit (R98, R42). -/
def farPieces : List (Nat × Nat × Nat) → Act (List (Nat × Nat × Nat))
  | [] => pure []
  | p :: t => do
    let s ← get
    let line := p.2.1 / 128
    let far ← if !isRemote line then pure (s.claimed line || s.inTransit line)
      else if (s.chunk.remote.find line).isSome then pure false
      else match ← replayed 1 16 with
        | some es => do
          let d : Line := BitVec.ofNat 1024 (packN 64 (es.map (·.2.toNat)))
          onChunk fun k => { k with remote := k.remote.put line (d, false) }
          pure false
        | none => pure true
    let r ← farPieces t
    pure (if far then p :: r else r)

/-- The bits of a byte that the running and the pending chunk have stored. -/
def ownBits (run pend : NMap (BitVec 8 × BitVec 8)) (k : Nat) : BitVec 8 × BitVec 8 :=
  let (pm, pv) := pend.get k (0, 0)
  let (rm, rv) := run.get k (0, 0)
  (pm ||| rm, (pv &&& ~~~rm) ||| (rv &&& rm))

/-- The flight of an `ldreq` (R171): its destination is empty until the reply. Its requests bear the number of the
moment. -/
def startRequest (f : MF) (ws : List RegWrite) (po : Option Word64) (todo : List (Nat × Nat × Nat))
    (bits : NMap (BitVec 8 × BitVec 8)) (a : Word64) : Act Unit := do
  let id ← fresh
  let s ← get
  let k := s.chunk.seq
  let pc := s.src.pc
  onRegs fun r =>
    let r := r.emptyS f.x
    let r := if f.f3 = 7 then r.emptyS (f.x + 1) else r
    { r with flights := r.flights ++
      [{ id := id, chunk := k, kind := .ldreq, writes := ws, pc := pc, poison := po, todo := todo, got := [], dst := f.x,
         code := f.f3, href := a, bits := bits, tag := 2 * s.moment }] }

/-- A split-phase load whose data is not all here (R171): lines of other packages are asked for, and the core does not wait. The bytes that
are here, and the core's own stores so far, are kept with the load; the lines have their places among the chunk's values (R416). -/
def requestFar (f : MF) (a : Word64) (ps far : List (Nat × Nat × Nat)) : Act Unit := do
  ps.forM fun p => enterRead (p.2.1 / 128)
  let near := ps.filter fun p => !far.contains p
  let got ← near.mapM fun p => do
    let (b, po) ← readPiecesPo false (a + BitVec.ofNat 64 p.1) [p.2]
    pure ((List.zipWith (fun j x => (p.1 + j, ((0xFF : BitVec 8), x))) (List.range b.length) b), po)
  let s ← get
  let own := (far.map fun p => (List.range p.2.2).map fun j =>
    (p.1 + j, ownBits s.me.chunk.stores s.me.pendStores (p.2.1 + j))).flatten
  let lines := ((far.map fun p => p.2.1 / 128).filter isRemote).eraseDups
  lines.forM fun l => if s.chunk.values.any (· == ⟨1, l, []⟩) then pure () else noteValue 1 l []
  change fun s => lines.foldl (fun (s : State) l =>
    s.inject s.cur (.forward (remoteOwner l) (FwdReq.read s.pkg s.cur (s.ctx s.cur).kid l (2 * s.moment)))) s
  startRequest f [] (got.findSome? (·.2)) far (((got.map (·.1)).flatten ++ own).foldl (fun m x => m.put x.1 x.2) []) a

/-- LDREQ (R171): the destination is empty until the reply; a poisoned line faults with the reply. -/
def ldreqAct (f : MF) : Act Unit := do
  let sz := sizeOf_ f.f3
  let a ← addrM f sz
  waitDest f
  let s ← get
  let ps ← liftStop (locate s (s.ctx s.cur) .read a sz)
  let far ← farPieces (placed 0 ps)
  if far.isEmpty then
    let (b, po) ← readPiecesPo true a ps
    startRequest f (loadWrites f.f3 f.x b) po [] [] 0
  else requestFar f a (placed 0 ps) far

/-- LDREQ: a split-phase load (R171). -/
def execLdreq (f : MF) (s : State) : Host.Outcome State Fault Refusal := issue (ldreqAct f) s

/-! ## Handle loads and stores (R172) -/

/-- LDH (R172). -/
def ldhAct (f : MF) : Act Unit := do
  let a ← addrM f 8
  waitOn (3, (hIdx f.x).val)
  checkAlign a 8
  let b ← chunkRead a 8
  startFlight .load [.h (f.x.extractLsb' 0 4) (BitVec.ofNat 64 (ofBytes b))]

/-- LDH: a handle load (R172). -/
def execLdh (f : MF) (s : State) : Host.Outcome State Fault Refusal := issue (ldhAct f) s

/-- STH (R172). -/
def sthAct (f : MF) : Act Unit := do
  let a ← addrM f 8
  checkAlign a 8
  let (v, st) ← readH f.x
  needIssued st
  chunkWrite a (bytesOf 8 v.toNat)

/-- STH: a handle store, full or empty (R108, R172). -/
def execSth (f : MF) (s : State) : Host.Outcome State Fault Refusal := issue (sthAct f) s

end Sys2Proof.Machine
end

