-- ==== Sys2Proof/Machine/Copy.lean ====
section
/-!
DEFINITION. Engine commands (R95-R111, R177-R182): `cpy`, `tfetch`, `htest`, `hcancel`, `wfence`, the issue of a held
command at its grant, and the engines' starts and completions.
-/
namespace Sys2Proof.Machine

/-- CPY (R177). -/
def cpyAct (f : MF) : Act Unit := do
  let a ← addrM f 64
  waitOn (3, (hIdx f.x).val)
  checkAlign a 64
  commandRoom
  let s ← get
  let i ← if fld s.src.frm 2 0 = 5 then do
      let b ← chunkRead (a + 16) 8
      let w := ofBytes b
      reserveIdx (w % 2 ^ 16 * (w / 2 ^ 16 % 2 ^ 16) * (w / 2 ^ 32 % 2 ^ 16) * (w / 2 ^ 48))
    else pure 0
  let id ← fresh
  hold (.copy id f.x a s.src.frm (BitVec.ofNat 32 i) s.src.wseed s.src.wtab)
  onRegs fun r => r.putH (hIdx f.x) (mkHandle 0 0 0 s.pkg (dieOf s.cur) (cluField s.cur) 0 0) (.held id) false

/-- CPY: hold a copy command (R177). -/
def execCpy (f : MF) (s : State) : Host.Outcome State Fault Refusal := issue (cpyAct f) s

/-- A descriptor as the engine reads it (R102), with what the read leaves, or the code of what it meets. -/
def State.readDesc (s : State) (c : Ctx) (a : Word64) : State × Except Code (BitVec 512) :=
  match s.readNow c a 64 with
  | (s, .ok bs) => (s, .ok (BitVec.ofNat 512 (ofBytes bs)))
  | (s, .error (code, _)) => (s, .error code)

/-- A held copy command as its chunk's grant would issue it (R101, R102), with what reading its descriptor leaves. -/
def State.copyOf (s : State) (i : Nat) (desc frm : Word64) (sidx : BitVec 32) (wseed wtab : Word64) : State × CopyCmd :=
  let cl := clusterOf i
  let c := s.ctx i
  let (s, b) := s.readDesc c desc
  (s, s.makeCopy cl (newCopy (nextSeq (s.cluster cl).copySeq) c.kid s.csn s.moment i frm sidx wseed wtab c none) b)

/-- The issue of a held copy command at its chunk's grant (R98, R101, R102, R177): the new state and the claimed lines. -/
def State.issueCopy (s : State) (i : Nat) (id : Nat) (h : BitVec 5) (desc frm : Word64) (sidx : BitVec 32)
    (wseed wtab : Word64) : State × List Nat :=
  let (s, x) := s.copyOf i desc frm sidx wseed wtab
  let s := s.queueCopy (clusterOf i) x
  let v := mkHandle 0 0 0 s.pkg (dieOf i) (cluField i) 0 x.seq
  (s.modCore i (Core.onAll (Regs.commandIssues id (hIdx h) v)), x.claims)

/-- A tile slot whose fetch a cancellation names, as the commit of the cancelling chunk leaves it (R181). -/
def Regs.dropSlot (v : Word64) (r : Regs) : Regs :=
  { r with slots := r.slots.map fun t =>
      if t.st == .fetching && t.seq == hSeq v then ⟨.cancelled, t.seq, none, 0, [], 0⟩ else t }

/-- A granted cancellation reaches its engine (R181): a copy that has not started never runs; a tile fetch of the core was
already withdrawn, one of another core is now, and its outcome is recorded. What a cancellation does at another package's engine is
not seen here. -/
def State.cancelOp (s : State) (v : Word64) : State :=
  let c := s.cluster (hCluster v)
  if fld v 51 42 ≠ s.pkg then s
  else if hKind v = 0 then
    if c.copyQ.any (fun x => x.seq == hSeq v && !x.running) then
      (s.setCluster (hCluster v) { c with copyQ := c.copyQ.filter (fun x => x.seq != hSeq v) }).landOutcome (setPhase v 3 0)
    else s
  else ((hCores v).foldl (fun (s : State) i => s.modCore i (Core.onAll (Regs.dropSlot v))) s).landOutcome (setPhase v 3 0)

/-! ## Tile fetches (R110, R111, R178, R179) -/

/-- Run an access whose faults go into a handle; a span's line limit is still a fault of the chunk (R249). -/
def catchFault {α : Type} (m : Act α) : Act (Except Code α) := fun s =>
  match m s with
  | .ok (a, s') => .ok (.ok a, s')
  | .error (.fault code a x) =>
    if code = 0x38 then .error (.fault code a x)
    else .ok (.error code, s.setCluster (clusterOf s.cur) ((s.cluster (clusterOf s.cur)).dropWalkFault s.cur))
  | .error e => .error e

/-- The rows of a tile in order (R110): data and lines, up to the first row that faults. The lines of a row enter the read
signature before any is read, a poisoned one too (R95, R240). -/
def tileRows (base pitch : Word64) : List Nat → Act (List Byte × List Nat × Code)
  | [] => pure ([], [], 0)
  | j :: t => do
    let a := base + BitVec.ofNat 64 j * pitch
    if 0xFFC ≤ apertureOf a then pure ([], [], 0x11)
    else
      let s ← get
      match ← catchFault (liftStop (locate s (s.ctx s.cur) .read a 32)) with
      | .error code => pure ([], [], code)
      | .ok ps =>
        ps.forM fun p => enterRead (p.1 / 128)
        match ← catchFault (readPieces false a ps) with
        | .error code => pure ([], [], code)
        | .ok b =>
          let (bs, more, code) ← tileRows base pitch t
          pure (b ++ bs, ps.map (·.1 / 128) ++ more, code)

/-- The outcome of a tile slot's fetch as a handle (R106, R178). -/
def slotHandle (pkg core : Nat) (t : TileSlot) : Word64 :=
  mkHandle (if t.code = 0 then 1 else 2) 1 t.code.toNat pkg (dieOf core) (cluField core) (cellOf core % 32) t.seq

/-- A fetch that its slot gives up before it completes resolves. -/
def State.giveUpSlot (s : State) (core : Nat) (t : TileSlot) : State :=
  if t.st = .fetching then s.landOutcome (slotHandle s.pkg core t) else s

/-- A tile slot of the live registers. -/
def slotIdx (i : Nat) : Fin 4 := ⟨i % 4, Nat.mod_lt _ (by decide)⟩
def Regs.setSlot (r : Regs) (i : Fin 4) (t : TileSlot) : Regs := { r with slots := r.slots.set i.val t i.isLt }

/-- Pin the lines of a tile in the cache role, or cut the chunk before the fetch (R60, R110): a committed copy that the cell had of a
line is written back, and the set of a way that is taken gives up its least recently used committed line (R51, R57). Inside a span the
guaranteed lines always leave room. -/
def pinLines (i : Fin 4) : List Nat → Act Unit
  | [] => pure ()
  | l :: t => do
    let s ← get
    let u ← match s.placeLine s.cur l with
      | some u => pure u
      | none => if s.chunk.span.isSome then pure ⟨l, cacheSet l, false⟩ else cutHere
    onRegs fun r => r.setSlot i { r.slots.get i with lines := u :: (r.slots.get i).lines }
    change fun s => (s.cellLeave (cellOf s.cur) l).trimSet (cellOf s.cur) u.set
    pinLines i t

/-- TFETCH (R178): the rows are read within the chunk; a fetch whose lines would exceed the capacity cuts the chunk before
it. -/
def tfetchAct (f : MF) : Act Unit := do
  let base ← addrM f 32
  let pitch ← readS f.x f.xw
  let i := slotIdx f.f3.toNat
  let h : Fin 16 := ⟨12 + i.val, by have := i.isLt; omega⟩
  waitOn (3, h.val)
  let s ← get
  onRegs fun r => r.setSlot i ⟨.empty, 0, none, 0, [], 0⟩
  let (bs, ls, code) ← if base.toNat % 32 ≠ 0 ∨ pitch.toNat % 32 ≠ 0 then pure ([], [], (0x13 : Code))
    else if 0xFFC ≤ apertureOf base then pure ([], [], (0x11 : Code))
    else tileRows base pitch (List.range 16)
  pinLines i ls.eraseDups
  let s1 ← get
  let seq := nextSeq (s1.cell (cellOf s1.cur)).tfSeq
  change fun s => (s.setCell (cellOf s.cur) { s.cell (cellOf s.cur) with tfSeq := seq }).giveUpSlot s.cur (s1.src.slots.get i)
  onChunk fun k => { k with fetches := seq :: k.fetches }
  onRegs fun r =>
    (r.setSlot i ⟨.fetching, seq, some s1.chunk.seq, code, (r.slots.get i).lines, BitVec.ofNat 4096 (ofBytes bs)⟩).putH h
      (mkHandle 0 1 0 s.pkg (dieOf s.cur) (cluField s.cur) (cellOf s.cur % 32) seq) .pending false

/-- TFETCH: fetch a matrix tile into a slot (R178). -/
def execTfetch (f : MF) (s : State) : Host.Outcome State Fault Refusal := issue (tfetchAct f) s

/-! ## Handles -/

/-- HTEST (R180). -/
def htestAct (f : TF) : Act Unit := do
  let (v, st) ← readH f.y
  if st = .stale then raise 0x42 else needIssued st
  writeS f.x v

/-- HTEST: read a handle without waiting (R180). -/
def execHtest (f : TF) (s : State) : Host.Outcome State Fault Refusal := issue (htestAct f) s

/-- Empty the tile slot whose fetch a handle names (R181): of the current core at once; that of another core of the package, whose
chunk the cancelling one cannot touch before its commit, at the commit (log 17). Every register of this core that is pending on
the handle is cancelled at once. -/
def emptySlotOf (v : Word64) : Act Unit := do
  let s ← get
  let own := fld v 51 42 == s.pkg && (hCores v).contains s.cur
  onRegs fun r => (if own then r.dropSlot v else r).resolveH s.cur (setPhase v 3 0)

/-- HCANCEL (R181). -/
def hcancelAct (f : TF) : Act Unit := do
  let x := hIdx f.y
  let (v, st) ← readH f.y
  match st with
  | .settled | .atomic => pure ()
  | .stale => raise 0x42
  | .held id =>
    let s ← get
    if s.chunk.holdsCopy id then
      onChunk fun k => { k with held := k.held.filter fun h => match h with
        | .copy j _ _ _ _ _ _ => j != id
        | _ => true }
      onRegs fun r => r.putH x (setPhase v 3 0) .settled true
    else waitFor .pend
  | .pending =>
    if hKind v = 0 then holdCommand (.cancel v f.y)
    else
      emptySlotOf v
      hold (.cancel v f.y)
      onRegs fun r => r.putH x (setPhase v 3 0) .settled true

/-- HCANCEL: cancel an engine operation (R181). -/
def execHcancel (f : TF) (s : State) : Host.Outcome State Fault Refusal := issue (hcancelAct f) s

/-- WFENCE: the chunk ends after this bundle; the next begins after a window boundary (R182). -/
def execWfence (_p : Bool) (s : State) : Host.Outcome State Fault Refusal := issue (cutChunk .fence) s

/-! ## Starts and completions -/

/-- The copy engine of a cluster starts its next command in CSN order, at most 8 at once (R102); it asks for the lines of
other packages that the command reads (R40), by requests with the command's own tag. -/
def execCopyStart (cluster : Nat) (s : State) : Host.Outcome State Fault Refusal :=
  let c := s.cluster cluster
  match c.copyQ.find? (!·.running) with
  | none => .fault .notEnabled
  | some x =>
    let asks := (x.srcs.filter isRemote).map fun l =>
      Out.forward (remoteOwner l) (FwdReq.read s.pkg x.core x.kid l (2 * x.ord + 1))
    event (decide ((c.copyQ.filter (·.running)).length < 8) && !s.paused)
      { s.setCluster cluster { c with copyQ := c.copyQ.map fun y => if y.ord = x.ord then { y with running := true } else y } with
        outs := s.outs ++ asks }

/-- Whether a running command can finish: every earlier claim on its lines written (R99), no line in transit (R42), every
line of another package received. -/
def State.copyReady (s : State) (x : CopyCmd) : Bool :=
  x.running && !s.earlierClaim x.ord (x.srcs ++ x.claims) && !(x.srcs ++ x.claims).any s.inTransit &&
    (x.srcs.filter isRemote).all fun l => (x.remote.find l).isSome

/-- What a transfer of a shutter closure leaves with its member (R348): its flags in FSTAT; a fault is an error record and
a tainted job. -/
def State.transferDone (s : State) (x : CopyCmd) (r : CopyRun) : State :=
  match x.gang with
  | none => s
  | some (g, core) =>
    let s := match s.gangs.find g with
      | some y => { s with gangs := s.gangs.put g { y with transfers := y.transfers - 1 } }
      | none => s
    if r.code = 0 then s.modCore core (Core.onAll fun q => { q with fstat := q.fstat ||| r.fl.setWidth 64 })
    else
      let launch := match (s.core core).task with
        | some t => t.launch
        | none => 0
      (s.errorRecord ⟨r.code, 1, 7, dieOf core, s.physCluster (clusterOf core), 0, 0, 0, x.kid⟩).raiseVerdict x.kid launch 2

/-- A copy command finishes or faults; its handle resolves (R104-R106). -/
def execCopyComplete (cluster seq : Nat) (s : State) : Host.Outcome State Fault Refusal :=
  match (s.cluster cluster).copyQ.find? (·.seq == seq) with
  | none => .fault .notEnabled
  | some x =>
    let (s', r) := s.finishCopy cluster x
    event (s.copyReady x && !s.paused) (s'.transferDone x r)

/-- A tile fetch resolves (R110, R178): the slot is full or in error, and the handle with it. A slot whose chunk has
committed meanwhile is emptied (R111). -/
def execTileFetchComplete (core slot : Nat) (s : State) : Host.Outcome State Fault Refusal :=
  let t := (s.core core).regs.slots.get (slotIdx slot)
  let land (r : Regs) : Regs :=
    let u := r.slots.get (slotIdx slot)
    if u.st = .fetching ∧ u.seq = t.seq then
      r.setSlot (slotIdx slot) (if u.chunk.isNone then ⟨.empty, 0, none, 0, [], 0⟩
        else { u with st := if u.code = 0 then .full else .error })
    else r
  event (t.st == .fetching && slot < 4 && !s.paused) ((s.landOutcome (slotHandle s.pkg core t)).modCore core (Core.onAll land))

end Sys2Proof.Machine
end

