-- ==== Sys2Proof/Machine/Registers.lean ====
section
/-!
DEFINITION. Control registers (R126, R299, R300) and the package-wide supervisor registers with what writing each does
(R371, R398, R415, R421-R428). `creg`, the management path and BAR0 share them.
-/
namespace Sys2Proof.Machine

/-- COREID of a core of a package with a number (R14). -/
def coreIdIn (pkg i : Nat) : Word64 :=
  if isSup i then BitVec.ofNat 64 (pkg * 2 ^ 16 + dieOf i * 2 ^ 13 + 63 * 2 ^ 7 + i % 4)
  else BitVec.ofNat 64 (pkg * 2 ^ 16 + dieOf i * 2 ^ 13 + clusterOf i % 48 * 2 ^ 7 + cellOf i % 32 * 4 + i % 4)

/-- COREID of a core of this package (R14). -/
def State.coreId (s : State) (i : Nat) : Word64 := coreIdIn s.pkg i

/-- The package number that a core's reads of COREID see: the one at the start of the chunk, so that every read in one chunk returns the
same (R16). -/
def State.pkgSeen (s : State) (i : Nat) : Nat := match (s.core i).run with
  | some k => k.pkg
  | none => s.pkg

/-- The core of this package that a COREID names, if there is one (R14, R15). -/
def coreOfId (w : Nat) : Option Nat :=
  let die := w / 2 ^ 13 % 8
  let clu := w / 2 ^ 7 % 64
  if clu < 48 then some (((die * 48 + clu) * 32 + w / 4 % 32) * 4 + w % 4)
  else if clu = 63 then some (firstSup + 4 * die + w % 4) else none

/-! ## Registers of a core -/

/-- The bits of a pane descriptor that hold fields (R65). -/
def paneMask : Word64 := 0xFFFFFFFFF000F31F

/-- A control register of the running task by number (R126); none for unassigned ones. -/
def State.readCreg (s : State) (i num : Nat) : Option Word64 :=
  let r := (s.core i).regs
  match num with
  | 0 => some (coreIdIn (s.pkgSeen i) i)
  | 1 => some ((s.cell (cellOf i)).roles.setWidth 64)
  | 2 => some r.frm
  | 3 => some r.sidx
  | 4 => some r.fstat
  | 5 => some r.msel
  | 6 => some r.vshare
  | 7 => some r.g
  | 8 => some (s.core i).stalls
  | 16 => some r.wseed
  | 17 => some r.wtab
  | n => if 9 ≤ n ∧ n ≤ 15 then some (r.pane.get ⟨(n - 9) % 7, Nat.mod_lt _ (by decide)⟩) else none

/-- Write a read-write control register with reserved bits ignored (R5, R299); none for read-only and unassigned ones. -/
def Regs.writeCreg (r : Regs) (num : Nat) (v : Word64) : Option Regs :=
  match num with
  | 2 => some { r with frm := v &&& 0x0FFF001F }
  | 3 => some { r with sidx := v &&& 0xFFFFFFFF }
  | 4 => some { r with fstat := v &&& 0x1F }
  | 5 => some { r with msel := v &&& 7 }
  | 6 => some { r with vshare := v &&& 0xF }
  | 16 => some { r with wseed := v &&& 0xFFFFFFFF }
  | 17 => some { r with wtab := v }
  | n => if 9 ≤ n ∧ n ≤ 15 then some { r with pane := r.pane.set ((n - 9) % 7) (v &&& paneMask) (Nat.mod_lt _ (by decide)) } else none

/-! ## Supervisor registers -/

/-- Whether a launch is live (R415, R429). -/
def State.anyLive (s : State) : Bool := s.launches.any fun p => !p.2.completed

/-- FBSTAT as it reads (R371). -/
def State.fbstat (s : State) : Word64 :=
  BitVec.ofNat 64 (bit s.svc.ovf * 2 ^ 63 + s.fbQueue.length % 2 ^ 16 * 2 ^ 32 +
    (s.parked.filter (·.2.hasEntry)).length % 2 ^ 13)

/-- PWRSTAT as it reads (R428). -/
def State.pwrstat (s : State) : Word64 :=
  BitVec.ofNat 64 (s.svc.power.toNat * 2 ^ 48 + s.svc.bub % 256 * 2 ^ 40 + s.svc.temp.toNat * 2 ^ 32 +
    (match s.svc.pst with
      | .run => 0
      | .standby => 1
      | .entering => 2))

/-- Read a supervisor register (R421); none for number 63. -/
def State.readSup (s : State) (num : Nat) : Option Word64 :=
  match num with
  | 48 => some s.svc.jcbase
  | 49 => some s.svc.trapbase
  | 50 => some s.fbstat
  | 51 => some s.svc.logctl
  | 52 => some s.svc.logptr
  | 53 => some s.svc.winlen
  | 54 => some s.svc.migthr
  | 55 => some (BitVec.ofNat 64 s.pkg)
  | 56 => some s.svc.errbase
  | 57 => some s.svc.errptr
  | 58 => some s.svc.keymis
  | 59 => some s.svc.pthr
  | 60 => some s.svc.pwrctl
  | 61 => some s.pwrstat
  | 62 => some s.svc.stctl
  | _ => none

/-- MODE of LOGCTL as it acts (R415). -/
def modeOf (w : Word64) : Nat := if fld w 1 0 = 3 then 0 else fld w 1 0

/-- A change of LOGCTL.MODE takes effect while no launch is live (R415). -/
def State.settleLog (s : State) : State :=
  let m := modeOf s.svc.logctl
  if s.anyLive then s
  else { s with svc := { s.svc with logMode := m }, lastBatch := if m ≠ s.svc.logMode ∧ (m = 2 ∨ s.svc.logMode = 2) then none else s.lastBatch }

/-- Write LOGCTL (R415): a MODE of log or replay with an illegal SIZE leaves MODE at 0. -/
def State.writeLogctl (s : State) (v : Word64) : State :=
  let v := v &&& 0x000FFFFFFFFFFFFF
  let size := fld s.svc.logptr 62 58
  let v := if modeOf v ≠ 0 ∧ (size < 12 ∨ 28 < size) then setFld v 1 0 0 else setFld v 1 0 (modeOf v)
  ({ s with svc := { s.svc with logctl := v } } : State).settleLog

/-- Write LOGPTR (R415): a 1 in DIV clears it. In replay, IDX at LIM ends it (R418). -/
def State.writeLogptr (s : State) (v : Word64) : State :=
  let w := v &&& 0x7CFFFFFFFFFFFFFF
  let w := if bitAt s.svc.logptr 63 && !bitAt v 63 then setFld w 63 63 1 else w
  { s with svc := { s.svc with logptr := w } }

/-- Write WINLEN (R398): 1-4 and 161-255 are ignored, and every write in a running domain. -/
def State.writeWinlen (s : State) (v : Word64) : State :=
  let n := fld v 7 0
  if s.domain ∨ (1 ≤ n ∧ n ≤ 4) ∨ 161 ≤ n then s
  else { s with svc := { s.svc with winlen := BitVec.ofNat 64 n } }

/-- Write PWRCTL (R428, R429): REQ = 1 asks for Standby; any other value returns the package to Run, or abandons the
entry. -/
def State.writePwrctl (s : State) (v : Word64) : State :=
  let w := v &&& 0x0000FFFFFF000003
  let standby := s.svc.pst == .standby
  if fld w 1 0 = 1 then { s with svc := { s.svc with pwrctl := w, pst := if standby then .standby else .entering } }
  else { s with svc := { s.svc with pwrctl := w, pst := .run }, paused := s.paused && !standby }

/-- Write STCTL (R426): ignored while GO = 1. -/
def State.writeStctl (s : State) (v : Word64) : State :=
  if bitAt s.svc.stctl 63 then s else { s with svc := { s.svc with stctl := v &&& 0xC000000000007FFF } }

/-- Write a supervisor register; none for read-only and unassigned ones (R300, R421). -/
def State.writeSup (s : State) (num : Nat) (v : Word64) : Option State :=
  match num with
  | 48 => some { s with svc := { s.svc with jcbase := v &&& 0x000FFFFFFFF00000 } }
  | 49 => some { s with svc := { s.svc with trapbase := v &&& 0x000FFFFFFFFF0000 } }
  | 50 => some (if bitAt v 63 then { s with svc := { s.svc with ovf := false } } else s)
  | 51 => some (s.writeLogctl v)
  | 52 => some (s.writeLogptr v)
  | 53 => some (s.writeWinlen v)
  | 54 => some { s with svc := { s.svc with migthr := v &&& 0xFFFF } }
  | 56 => some { s with svc := { s.svc with errbase := v &&& 0x000FFFFFFFFFF000 } }
  | 57 => some { s with svc := { s.svc with errptr :=
      (v &&& 0xFFFFF8FFFFF00000) ||| (s.svc.errptr &&& 0xFFFFF) } }
  | 58 => some { s with svc := { s.svc with keymis := v &&& 0xFFFFFFFF } }
  | 59 => some { s with svc := { s.svc with pthr := v } }
  | 60 => some (s.writePwrctl v)
  | 62 => some (s.writeStctl v)
  | _ => none

/-- The supervisor writes that a chunk holds, applied in order (R126): what its later reads see, and what its grant
makes. -/
def State.applySup (s : State) : List Held → State
  | [] => s
  | .sup num v :: t => ((s.writeSup num v).getD s).applySup t
  | _ :: t => s.applySup t

end Sys2Proof.Machine
end

