-- ==== Sys2Proof/Machine/Ready.lean ====
section
/-!
DEFINITION. Task records (R324-R326), live counts (R333), ready entries (R329-R331, R336, R341), and event counters with
their registrations (R303, R306, R330, R335).
-/
namespace Sys2Proof.Machine

/-! ## Task records -/


/-- Word j of a task record (R324). -/
def recW (w : BitVec 512) (j : Nat) : Word64 := w.extractLsb' (64 * j) 64
/-- Fields of a task record (R324). -/
def recWait (w : BitVec 512) : Bool := bitAt (recW w 5) 29
def recPrio (w : BitVec 512) : Nat := fld (recW w 5) 43 41
def recPlace (w : BitVec 512) : Nat := fld (recW w 5) 40 38
/-- Gang size (R324). -/
def recGang (w : BitVec 512) : Nat := fld (recW w 5) 37 31 + 1
def recShut (w : BitVec 512) : Bool := bitAt (recW w 5) 30
def recProc (w : BitVec 512) : Bool := bitAt (recW w 5) 28
def recRst (w : BitVec 512) : Bool := bitAt (recW w 5) 26
def recCctr (w : BitVec 512) : Nat := fld (recW w 5) 63 44
def recWctr (w : BitVec 512) : Nat := fld (recW w 4) 63 44
def recWtgt (w : BitVec 512) : Nat := fld (recW w 4) 43 0

/-- Whether a record is malformed by itself (R325). -/
def recBad (ec : Nat) (w : BitVec 512) : Bool :=
  fld (recW w 3) 63 60 != 0 || fld (recW w 5) 25 0 != 0 || fld (recW w 6) 3 0 != 0 || recW w 7 != 0 ||
    (recW w 0).toNat % (if recShut w then 64 else 8) != 0 || (recW w 1).toNat % 8 != 0 ||
    recW w 2 == 0 || (recW w 2).toNat % 512 != 0 ||
    (recWait w && decide (ec ≤ recWctr w)) || (recCctr w != 0 && decide (ec ≤ recCctr w)) ||
    decide (5 ≤ recPlace w) || (recPlace w == 1 && decide (4 < recGang w)) || (recPlace w == 0 && decide (1 < recGang w))

/-- Whether two members of a gang disagree (R326). -/
def recDiffers (a b : BitVec 512) : Bool :=
  fld (recW a 5) 43 29 != fld (recW b 5) 43 29 || (recWait a && recW a 4 != recW b 4)

/-- n records of 64 bytes from an address, each by a committed read: the words, or the address of what a read met. -/
def State.readRecs (s : State) (c : Ctx) (a : Word64) : Nat → State × Except Word64 (List (BitVec 512))
  | 0 => (s, .ok [])
  | n + 1 =>
    match s.readNow c a 64 with
    | (s, .error (_, x)) => (s, .error x)
    | (s, .ok b) => match s.readRecs c (a + 64) n with
      | (s, .error x) => (s, .error x)
      | (s, .ok t) => (s, .ok (BitVec.ofNat 512 (ofBytes b) :: t))

/-- The records of a gang from its first (R326): the words, or the failing address. -/
def State.readGang (s : State) (c : Ctx) (a : Word64) : State × Except Word64 (List (BitVec 512)) :=
  match s.readRecs c a 1 with
  | (s, .ok (first :: _)) => match s.readRecs c (a + 64) (recGang first - 1) with
    | (s, .error x) => (s, .error x)
    | (s, .ok t) =>
      (s, if (first :: t).any (recBad c.ecCount) ∨ t.any (recDiffers first) then .error 0 else .ok (first :: t))
  | (s, .ok []) => (s, .error 0)
  | (s, .error x) => (s, .error x)

/-- The lines that the records of a gang lie in, as far as its first record says. -/
def State.gangLines (s : State) (c : Ctx) (a : Word64) : List Nat :=
  match (s.readNow c a 64).2 with
  | .ok b => s.linesAt c a (64 * recGang (BitVec.ofNat 512 (ofBytes b)))
  | .error _ => s.linesAt c a 64

/-- The lines that held work reads at its chunk's grant: descriptors and records (R102, R301-R303, R315). -/
def State.workLines (s : State) (c : Ctx) : Held → List Nat
  | .copy _ _ d _ _ _ _ => s.linesAt c d 64
  | .hoopj a => s.linesAt c a 64
  | .tspawn a | .tspawnc a _ | .suspend a => s.linesAt c a 64 ++ s.gangLines c a
  | _ => []

/-- The committed state that the held work of a chunk finds at its grant, where the chunk's own stores count already (R177,
R244). -/
def State.afterStores (s : State) (i : Nat) (k : Chunk) : State :=
  if k.held.isEmpty then s else s.publish s.window (s.ctx i).kid s.csn k.stores

/-- All those lines of a chunk. -/
def State.heldLines (s : State) (i : Nat) (k : Chunk) : List Nat :=
  let t := s.afterStores i k
  (k.held.map (t.workLines (s.ctx i))).flatten.eraseDups

/-- Those of other packages that have not come: they are asked for when the chunk requests its grant, and not before (R40, log 56). -/
def State.heldMissing (s : State) (i : Nat) (k : Chunk) : List Nat := s.notHere (s.heldLines i k)

/-- Make tasks from the records of a gang, with fresh numbers. -/
def State.makeTasks (s : State) (kid launch cl : Nat) (a : Word64) (cont : Option Word64) (ws : List (BitVec 512)) :
    State × List Task :=
  let g := if 1 < ws.length ∨ ws.any recShut then some s.nextTask else none
  let ts := (List.zip ws (List.range ws.length)).map fun p =>
    { id := s.nextTask + p.2, kid := kid, words := p.1, addr := a + BitVec.ofNat 64 (64 * p.2), save := recW p.1 2,
      stkBase := fld (recW p.1 3) 59 32 * 4096, stkLim := fld (recW p.1 3) 31 0, tile := recW p.1 6, launch := launch,
      regCluster := cl, s0 := if recShut p.1 then BitVec.ofNat 512 p.2 else 0, contSave := cont, handlerOf := none,
      gang := g, member := p.2, resume := false, firmware := false, started := false, entryAt := none, atClosure := false, lastPart := none : Task }
  ({ s with nextTask := s.nextTask + ws.length }, ts)

/-! ## Live counts (R333) -/

/-- Tasks more in a launch. -/
def State.liveUp (s : State) (launch n : Nat) : State :=
  match s.launches.find launch with
  | none => s
  | some l => { s with launches := s.launches.put launch { l with live := l.live + n } }

/-- Tasks fewer in a launch; at zero the completion record is to be written at the next CSN. `done` says how many of them
count in TASKS. -/
def State.liveDown (s : State) (launch n done : Nat) : State :=
  match s.launches.find launch with
  | none => s
  | some l =>
    let l := { l with live := l.live - n, tasks := l.tasks + done }
    let s := { s with launches := s.launches.put launch l }
    if l.live = 0 ∧ !l.completed then { s with items := s.items ++ [.record launch] } else s

/-- Add 1 to a task's completion counter, at the next CSN (R304); counter 0 is none. -/
def State.bumpCompletion (s : State) (t : Task) (core : Nat) : State :=
  let c := recCctr t.words
  if c = 0 then s
  else { s with items := s.items ++ [.evinc t.kid core (ecBaseOf (s.job t.kid).trans1 + 8 * c) 1] }

/-- A task ends as by `done` on a core (R304). A handler is not counted in TASKS (R368). -/
def State.retire (s : State) (t : Task) (core : Nat) : State :=
  (s.bumpCompletion t core).liveDown t.launch 1 (if t.handlerOf.isSome then 0 else 1)

/-- A task ends abandoned (R369, ACT 0b10): its job turns tainted. -/
def State.abandon (s : State) (t : Task) : State := (s.raiseVerdict t.kid t.launch 2).liveDown t.launch 1 0

/-! ## Ready entries (R331, R336) -/

/-- The jobs with a ready entry or a running task in a cluster. -/
def State.jobsIn (s : State) (cl : Nat) : List Nat :=
  ((s.cluster cl).ready ++ (s.cluster cl).spill).filterMap (fun e => e.tasks.head?.map (·.kid)) ++
    (s.cores.filter (fun p => !isSup p.1 && clusterOf p.1 == cl)).filterMap (fun p => p.2.task.map (·.kid))

/-- VT of a job that gains its first entry in a cluster (R336). -/
def State.raiseVt (s : State) (cl kid : Nat) : State :=
  let js := s.jobsIn cl
  if js.contains kid then s
  else
    let c := s.cluster cl
    match js.map (c.vt.get · 0) with
    | [] => s
    | v :: t =>
      let lo := t.foldl (fun a b => if b < a then b else a) v
      if c.vt.get kid 0 < lo then s.setCluster cl { c with vt := c.vt.put kid lo } else s

/-- How many entries a job's spill ring can hold (R331). -/
def State.spillRoom (s : State) (kid : Nat) : Nat := (s.job kid).spillSize / 64

/-- How many entries of a job are spilled in the whole package. -/
def State.spilled (s : State) (kid : Nat) : Nat :=
  (s.clusters.map fun p => (p.2.spill.filter fun e => (e.tasks.head?.map (·.kid)) == some kid).length).sum

/-- Put a ready entry at the back of a cluster's queue, on chip while there is room (R331). -/
def State.enqueue (s : State) (cl : Nat) (ts : List Task) (urgent : Bool) : State :=
  match ts with
  | [] => s
  | t :: _ =>
    let s := s.raiseVt cl t.kid
    let c := s.cluster cl
    let e : Entry := { id := t.id, tasks := ts, since := s.cyc, urgent := if urgent then some s.cyc else none }
    if c.ready.length < 1024 ∧ (!c.spill.any fun x => (x.tasks.head?.map (·.kid)) == some t.kid) then
      s.setCluster cl { c with ready := c.ready ++ [e] }
    else s.setCluster cl { c with spill := c.spill ++ [e] }

/-- The members of a gang that has been saved whole go back to its home cluster's queue as one entry, once every member that is
left has been saved (R349, R458). -/
def State.regang (s : State) (g : Nat) : State :=
  match s.gangs.find g with
  | none => s
  | some x =>
    if x.restart ∨ x.saved.isEmpty ∨ !(x.members.all fun m => x.saved.any (·.id == m.1)) then s
    else
      ({ s with gangs := s.gangs.put g { x with saved := [] } } : State).enqueue x.home
        (x.members.filterMap fun m => x.saved.find? (·.id == m.1)) false

/-- A member leaves its gang; a gang without members is gone, and its barrier free (R362). Members that wait, saved, for the
others need not wait for it (R458). -/
def State.leaveGang (s : State) (t : Task) : State :=
  match t.gang with
  | none => s
  | some g =>
    match s.gangs.find g with
    | none => s
    | some x =>
      let ms := x.members.filter (·.1 != t.id)
      if ms.isEmpty then { s with gangs := s.gangs.del g }
      else ({ s with gangs := s.gangs.put g { x with members := ms, saved := x.saved.filter (·.id != t.id) } } : State).regang g

/-- A handler fails (R370): it ends, and the task it serves is abandoned. -/
def State.handlerFails (s : State) (core : Nat) (h : Task) : State :=
  let s := s.taskError core 0x0C 0 h.kid
  let s := s.liveDown h.launch 1 0
  match h.handlerOf with
  | none => s
  | some p => match s.parked.find p with
    | none => s
    | some x => (({ s with parked := s.parked.del p } : State).leaveGang x.task).abandon x.task

/-- Entries that a tainted job completes unrun (R341): fresh ones whose PROC is 0. -/
def State.unrun (s : State) (t : Task) : Bool := s.tainted t.kid && !t.resume && !t.started && !recProc t.words

/-- Tasks complete unrun (R341); a handler fails (R370). -/
def State.completeUnrun (s : State) (ts : List Task) : State :=
  ts.foldl (fun s t => if t.handlerOf.isSome then s.handlerFails (t.regCluster * 128) t else s.liveDown t.launch 1 0) s

/-- A fresh or continued entry becomes ready; a tainted job's may complete unrun instead (R341). -/
def State.makeReady (s : State) (cl : Nat) (ts : List Task) : State :=
  match ts with
  | [] => s
  | t :: _ => if s.unrun t then s.completeUnrun ts else s.enqueue cl ts false

/-! ## Event counters and registrations -/

/-- The key of a job's event counter (R20, R335). -/
def State.counterKey (s : State) (kid ctr : Nat) : Nat := ecBaseOf (s.job kid).trans1 + 8 * ctr
/-- The value of an event counter, under its job's key ID (R44). -/
def State.counter (s : State) (kid ctr : Nat) : Nat := ofBytes (s.readKey kid (s.counterKey kid ctr) 8).2.1

/-- Write a word of a record by its address, where it can be written (R335); for a record on another package it is a part
(R258). -/
def State.writeLink (s : State) (kid cl : Nat) (a : Word64) (v : Word64) : State :=
  match s.locateW (s.jobCtx kid cl) .write a 8 with
  | (s, .ok ps) =>
    let s := if apertureOf a < 0xFFC then s.setDirty kid cl (a.toNat % 2 ^ 57) else s
    s.publish s.window kid s.csn (cellsAt ps (bytesOf 8 v.toNat))
  | (s, .error _) => s

/-- The addresses of the records registered against a counter, in registration order (R335). -/
def State.waitList (s : State) (kid ctr : Nat) : List (Word64 × Nat) :=
  (s.registrations.filter fun r => r.kid == kid && r.ctr == ctr).filterMap fun r => r.tasks.head?.map fun t => (t.addr, r.cluster)

/-- Write the wait list of a counter: head and tail at WAITBASE + 16c, each record's LINK naming the next (R335). -/
def State.syncWait (s : State) (kid ctr : Nat) : State :=
  let l := s.waitList kid ctr
  let k := (s.job kid).waitBase + 16 * ctr
  let hd := match l with
    | x :: _ => x.1
    | [] => 0
  let tl := match l.getLast? with
    | some x => x.1
    | none => 0
  let s := if k + 16 ≤ hbmSize then s.writeKey kid k (bytesOf 8 hd.toNat ++ bytesOf 8 tl.toNat) else s
  (List.zip l ((l.drop 1).map (·.1) ++ [0])).foldl (fun s p => s.writeLink kid p.1.2 (p.1.1 + 56) p.2) s

/-- A record enters: ready at once, or registered until its counter reaches its target (R303, R330). -/
def State.enter (s : State) (cl : Nat) (ts : List Task) : State :=
  match ts with
  | [] => s
  | t :: _ =>
    let n := s.counter t.kid (recWctr t.words)
    let s := if recWait t.words then (s.readKey t.kid (s.counterKey t.kid (recWctr t.words)) 8).1 else s
    if recWait t.words && decide (n < recWtgt t.words) then
      ({ s with registrations := s.registrations ++
        [{ kid := t.kid, ctr := recWctr t.words, tgt := recWtgt t.words, tasks := ts, cluster := cl }] } : State).syncWait
          t.kid (recWctr t.words)
    else s.makeReady cl ts

/-- A task with its record's words as they have been read again (R325, R379): what the scheduler derives for a task of a grid
stays (R332), and so does the tile coordinate of a task that has started once (R379). -/
def Task.reword (t : Task) (w : BitVec 512) : Task :=
  if t.grid then { t with words := w }
  else { t with words := w, save := recW w 2, stkBase := fld (recW w 3) 59 32 * 4096, stkLim := fld (recW w 3) 31 0,
                tile := if t.started then t.tile else recW w 6 }

/-- Whether an entry's tasks are read one by one: copies of a grid's one record (R332), or some members of a gang alone. -/
def readApart : List Task → Bool
  | [] => false
  | t :: ts => t.grid || decide (ts.length + 1 < recGang t.words)

/-- Where the records of an entry's tasks lie: each alone, or a gang's together. -/
def recordPlaces (ts : List Task) : List (Word64 × Nat) :=
  if readApart ts then (ts.map fun t => (t.addr, 64)).eraseDups
  else match ts with
    | [] => []
    | t :: _ => [(t.addr, 64 * ts.length)]

/-- The lines in which the records of an entry's tasks lie. -/
def State.entryLines (s : State) (cl : Nat) : List Task → List Nat
  | [] => []
  | t :: ts => ((recordPlaces (t :: ts)).map fun p => s.linesAt (s.jobCtx t.kid cl) p.1 p.2).flatten.eraseDups

/-- Read the records of tasks again, each alone (R379): a member of a gang must agree with what its gang was formed from (R326). -/
def State.rereadApart (s : State) (c : Ctx) : List Task → State × Except Word64 (List Task)
  | [] => (s, .ok [])
  | u :: us =>
    match s.readRecs c u.addr 1 with
    | (s, .ok (w :: _)) =>
      if recBad c.ecCount w ∨ (1 < recGang u.words ∧ recDiffers u.words w) then (s, .error 0)
      else match s.rereadApart c us with
        | (s, .ok ts) => (s, .ok (u.reword w :: ts))
        | (s, .error x) => (s, .error x)
    | (s, .ok []) => (s, .error 0)
    | (s, .error x) => (s, .error x)

/-- The tasks of an entry with their records as they stand (R325, R379), or the failing address: a gang's members must still
agree, and be as many (R326). -/
def State.rereadEntry (s : State) (cl : Nat) : List Task → State × Except Word64 (List Task)
  | [] => (s, .ok [])
  | t :: ts =>
    let c := s.jobCtx t.kid cl
    if readApart (t :: ts) then s.rereadApart c (t :: ts)
    else
      match s.readGang c t.addr with
      | (s, .error x) => (s, .error x)
      | (s, .ok ws) =>
        (s, if ws.length ≠ ts.length + 1 then .error 0 else .ok (List.zipWith (fun (u : Task) w => u.reword w) (t :: ts) ws))

/-- A registration whose record has been read again is queued; a record that is malformed by now ends its tasks (R306, R325). -/
def State.wakeRead (s : State) (r : Registration) : State :=
  let used := s.entryLines r.cluster r.tasks
  let (s, x) := s.rereadEntry r.cluster r.tasks
  let s := s.dropFar used
  match x with
  | .ok ts =>
    let g := match ts with
      | t :: _ => if 1 < ts.length ∨ recShut t.words then some (t.gang.getD t.id) else none
      | [] => none
    s.makeReady r.cluster (ts.map fun (t : Task) => if t.grid then t else
      { t with gang := g, s0 := if recShut t.words then BitVec.ofNat 512 t.member else 0 })
  | .error x =>
    let s := s.taskError (r.cluster * 128) 0x0A x r.kid
    r.tasks.foldl (fun s t => (s.raiseVerdict t.kid t.launch 2).liveDown t.launch 1 0) s

/-- A registration whose target is reached leaves its wait list: its LINK becomes 0 (R335). -/
def State.unlink (s : State) (r : Registration) : State := match r.tasks with
  | t :: _ => s.writeLink r.kid r.cluster (t.addr + 56) 0
  | [] => s

/-- Queue the registrations that have been woken, in their order, as far as their records can be read (R306): the first whose record lies
on another package has it asked for (R40), and one that a copy command is still to write waits for that (R98); the others wait behind
it (log 47). The first argument bounds how many. -/
def State.wakeNext : Nat → State → State
  | 0, s => s
  | fuel + 1, s => match s.waking with
    | [] => s
    | r :: t =>
      let ls := s.entryLines r.cluster r.tasks
      if s.anyClaimed ls then s
      else if !(s.notHere ls).isEmpty then s.ask r.kid (s.notHere ls)
      else wakeNext fuel (({ s with waking := t } : State).wakeRead r)

/-- After a CSN: every registration whose target its counter has reached is woken, in the order of registration (R306). -/
def State.wake (s : State) : State :=
  let hit (r : Registration) : Bool := decide (r.tgt ≤ s.counter r.kid r.ctr)
  let woken := s.registrations.filter hit
  if woken.isEmpty then s
  else
    let s : State := { s with registrations := s.registrations.filter fun r => !hit r, waking := s.waking ++ woken }
    let s := woken.foldl (fun (s : State) r => (s.unlink r).syncWait r.kid r.ctr) s
    s.wakeNext s.waking.length

/-- The woken registrations whose records can be read by now are queued (R40, R306). -/
def State.wakeCame (s : State) : State := s.wakeNext s.waking.length

/-- A malformed record named by a task (R325): an error record, and the job tainted. -/
def State.malformed (s : State) (core kid launch : Nat) (a : Word64) : State :=
  (s.taskError core 0x0A a kid).raiseVerdict kid launch 2

end Sys2Proof.Machine
end

