-- ==== Sys2Proof/Machine/Grants.lean ====
section
/-!
DEFINITION. What every item that takes a CSN does (R244, R250): its number, its log entry or its place in a replayed log
(R416, R418), its broadcast, and the wake-ups after it (R306); and how a core is freed.
-/
namespace Sys2Proof.Machine

/-- The next grant entry of a replayed log. -/
def State.nextLogged (s : State) : Option (Nat × Word64 × Word64) := s.nextGrant (s.logLim - s.logIdx) s.logIdx

/-- Whether the log lets an item with this kind and test be granted next: room for its entries while logging, the named
item in replay (R416, R418). -/
def State.admits (s : State) (n kind : Nat) (p : Word64 → Bool) : Bool :=
  if s.svc.logMode = 2 then
    match s.nextLogged with
    | some (_, w, _) => entryKind w == kind && p w
    | none => false
  else s.logRoom n

/-- Take the next CSN (R244) and write the log's entries; in replay move past the entry, and end at LIM (R416, R418). -/
def State.takeCsn (s : State) (core : Nat) (vals : List LogValue) (w0 : Nat) : State :=
  let s : State := { s with csn := s.csn + 1 }
  if s.svc.logMode = 2 then
    match s.nextLogged with
    | some (i, _) =>
      let s := s.setIdx (i + 1)
      if s.logLim ≤ i + 1 then s.endReplay else s
    | none => s
  else s.logGrant core vals w0

/-- The window of a grant: the clock's, or in replay the logged one (R257, R418). -/
def State.grantWindow (s : State) : Nat :=
  if s.svc.logMode = 2 then
    match s.nextLogged with
    | some (_, w, _) => if entryKind w = 1 then fld w 31 0 else s.window
    | none => s.window
  else s.window

/-- The signature of the lines of held bytes (R240). -/
def cellsSig (m : NMap (BitVec 8 × BitVec 8)) : Sig := (groupLines m).foldl (fun g p => sigAdd g p.1) 0
/-- The signature of lines. -/
def linesSig (ls : List Nat) : Sig := ls.foldl sigAdd 0

/-- Whether a commit of some bytes must wait for an engine that is to write one of their lines (R99), or for a page in
transit (R42). -/
def State.heldBack (s : State) (m : NMap (BitVec 8 × BitVec 8)) : Bool :=
  (groupLines m).any fun p => s.claimed p.1 || s.inTransit p.1

/-- Whether the latch already has the batch of a window. -/
def State.hasBatch (s : State) (win : Nat) : Bool := s.items.any fun x => match x with
  | .batch w => w == win
  | _ => false

/-- Whether a window's batch is due: its home's clock has passed (N + 1) × L + L/2 (R259), or in replay the next grant is
this batch and its parts are here (R418). -/
def State.batchDue (s : State) (win : Nat) : Bool :=
  if s.svc.logMode = 2 then
    match s.nextLogged with
    | some (_, w, _) => entryKind w == 3 && fld w 31 0 == win % 2 ^ 32 &&
        decide (fld w 59 32 ≤ (s.parts.filter (·.win == win)).length)
    | none => false
  else decide ((win + 1) * s.winLength + s.winLength / 2 < s.dt)

/-- Whether the batch of a window can still come: no later window has had its own (R259). -/
def State.batchOpen (s : State) (win : Nat) : Bool := match s.lastBatch with
  | some w => decide (w < win)
  | none => true

/-- Whether the windows that closed during a pause have not all had their batches (R384): until then nothing else is granted, and no
forwarded read is served. Parts of such a window are waited for as long as its home waits for them (R259, R263). -/
def State.afterPause (s : State) : Bool := s.svc.logMode != 2 && match s.pauseWin with
  | some w => decide (s.dt ≤ (w + 1) * s.winLength + s.winLength / 2) || s.items.any (fun x => match x with
      | .batch v => decide (v ≤ w)
      | _ => false) || s.parts.any fun p => decide (p.win ≤ w)
  | none => false

/-- Whether window batches hold everything else back (R243, R259, R384): one is due and has not requested its grant yet, or windows
that closed during a pause still want theirs. -/
def State.batchesHold (s : State) : Bool :=
  s.afterPause || s.parts.any fun p => s.batchDue p.win && !s.hasBatch p.win && s.batchOpen p.win

/-- Whether a batch waits at the latch, or is still to come there: it is granted before anything else (R243). -/
def State.batchesFirst (s : State) : Bool := s.batchesHold || s.items.any fun x => match x with
  | .batch _ => true
  | _ => false

/-- The values that the log still owes for a core: a resolved vote's, and those of chunks that took no CSN here (R416). -/
def Core.owedValues (c : Core) : List LogValue :=
  (match c.spec with
    | some p => if p.resolved then [⟨5, 0, [p.word]⟩] else []
    | none => []) ++ c.carry

/-- One item that commits bytes: CSN, log with some values before it, bytes, broadcast and wake-ups (R244, R250). -/
def State.commitBytes (s : State) (kid core : Nat) (vals : List LogValue) (w0 : Nat) (m : NMap (BitVec 8 × BitVec 8)) : State :=
  let win := s.window
  let s := s.takeCsn core vals w0
  ((s.publish win kid s.csn m).broadcast (cellsSig m) none).wake

/-- A core without a task; what its arbiter has counted for it stays (R127). Tile fetches that it gives up are recorded
(R106), and walk faults that nothing has met are forgotten (R37). -/
def State.freeCore (s : State) (i : Nat) : State :=
  let c := s.core i
  let s := c.regs.slots.toList.foldl (fun s t => s.giveUpSlot i t) s
  let s := s.setCore i { Core.reset with deficit := c.deficit }
  { s.setCluster (clusterOf i) ((s.cluster (clusterOf i)).dropWalkFault i) with token := s.token.filter (·.1 != i) }

/-- Whether nothing a core has issued is still under way (R128): queues empty, no read or far atomic in flight, no chunk. -/
def Core.atRest (c : Core) : Bool :=
  c.run.isNone && c.pend.isNone && c.regs.vq.isEmpty && c.regs.mq.isEmpty && c.regs.flights.isEmpty &&
    c.atomicOut.isNone && (match c.spec with
      | some p => p.resolved
      | none => true)

/-- The gang of a task in shutter mode (R347). -/
def State.shutGang (s : State) (i : Nat) : Option (Nat × Gang) :=
  match (s.core i).task with
  | none => none
  | some t => match t.gang with
    | none => none
    | some g => match s.gangs.find g with
      | some x => if x.shut then some (g, x) else none
      | none => none

/-- Cut the running chunk of a core at the boundary where it stands, outside a span (R236, R342): an empty chunk
disappears. -/
def State.cutNow (s : State) (i : Nat) : State :=
  let c := s.core i
  match c.run with
  | none => s
  | some k =>
    if k.span.isSome ∨ k.ended.isSome ∨ k.fault.isSome then s
    else if k.n = 0 then
      s.setCore i { c with run := none, regs := { k.start with nextId := c.regs.nextId }, need := .none, weaveGot := [],
                           again := if k.first then c.again else c.again + 1 }
    else
      let s := s.checkLen i k
      let k := { k with ended := some .plain }
      match c.pend with
      | none => s.setCore i { c with run := none, pend := some k, cutAfter := none, requested := false }
      | some _ => s.setCore i { c with run := some k, cutAfter := none }

/-- Ask a core to save its task at its next boundary (R342, R344); in shutter mode that is the next closure (R349). -/
def State.askSave (s : State) (i : Nat) (why : SaveWhy) : State :=
  let s' := s.modCore i fun c => { c with saveWhy := some (c.saveWhy.getD why) }
  if (s.shutGang i).isSome then s' else s'.cutNow i

end Sys2Proof.Machine
end

