-- ==== Sys2Proof/Machine/IntArith.lean ====
section
/-!
DEFINITION. Integer arithmetic, logic, shifts and comparisons (R191-R195), moves and selects (R197), integer dot products
and ternary sign-select (R209, R210).
-/
namespace Sys2Proof.Machine

/-- An element-by-element instruction of form E or T: `g w a b d` is the result pattern and its flags (R186). -/
def elementOp (op : Nat) (f : Arith) (g : Nat → Nat → Nat → Nat → Nat × Flags) : Act Unit := do
  let e ← readElems op f
  let rs := mapActive (0, flNone) (g e.w) e.act e.a e.b e.d
  finish op f e (rs.map (·.1)) (rs.foldl (fun x r => x ||| r.2) flNone)

/-- The result of an exact integer, wrapped to the type (R191). -/
def wrapped (w : Nat) (x : Int) : Nat × Flags := (wrapN w x, flNone)

/-- An integer clamped to the type, with OV (R86). -/
def clamped (ty : BitVec 3) (w : Nat) (x : Int) : Nat × Flags :=
  let r := satI (intFmt ty) x
  (wrapN w r.1, r.2)

/-- ADD_I: a + b, wrapping (R191). -/
def execAddI (f : Arith) (s : State) : Host.Outcome State Fault Refusal :=
  issue (elementOp 0x00 f fun w a b _ => wrapped w (intVal f.ty w a + intVal f.ty w b)) s

/-- SUB_I: a − b, wrapping (R191). -/
def execSubI (f : Arith) (s : State) : Host.Outcome State Fault Refusal :=
  issue (elementOp 0x01 f fun w a b _ => wrapped w (intVal f.ty w a - intVal f.ty w b)) s

/-- ADDS: a + b, clamped with OV (R191). -/
def execAdds (f : Arith) (s : State) : Host.Outcome State Fault Refusal :=
  issue (elementOp 0x02 f fun w a b _ => clamped f.ty w (intVal f.ty w a + intVal f.ty w b)) s

/-- SUBS: a − b, clamped with OV (R191). -/
def execSubs (f : Arith) (s : State) : Host.Outcome State Fault Refusal :=
  issue (elementOp 0x03 f fun w a b _ => clamped f.ty w (intVal f.ty w a - intVal f.ty w b)) s

/-- MUL_I: the low w bits of a × b (R191). -/
def execMulI (f : Arith) (s : State) : Host.Outcome State Fault Refusal :=
  issue (elementOp 0x04 f fun w a b _ => wrapped w (intVal f.ty w a * intVal f.ty w b)) s

/-- MULH: floor(a × b / 2^w) (R191). -/
def execMulh (f : Arith) (s : State) : Host.Outcome State Fault Refusal :=
  issue (elementOp 0x05 f fun w a b _ => wrapped w ((intVal f.ty w a * intVal f.ty w b) / ((2 ^ w : Nat) : Int))) s

/-- Max and Min of an integer type (R70). -/
def maxI (ty : BitVec 3) : Int := (maxMag (intFmt ty)).1
def minI (ty : BitVec 3) : Int := -((minMag (intFmt ty)).1 : Int)

/-- Whether a and b are the overflowing pair of R192. -/
def divOverflow (ty : BitVec 3) (a b : Int) : Bool := ty.toNat < 4 && a == minI ty && b == -1

/-- The quotient of R192 with its flags. -/
def divResult (ty : BitVec 3) (w : Nat) (a b : Int) : Nat × Flags :=
  if b = 0 then (wrapN w (if a < 0 then minI ty else maxI ty), flDZ)
  else if divOverflow ty a b then (wrapN w (maxI ty), flOV)
  else (wrapN w (a.tdiv b), flNone)

/-- The remainder of R192 with its flags. -/
def remResult (ty : BitVec 3) (w : Nat) (a b : Int) : Nat × Flags :=
  if b = 0 then (wrapN w a, flDZ)
  else if divOverflow ty a b then (0, flNone)
  else (wrapN w (a - b * a.tdiv b), flNone)

/-- DIV: a / b truncated toward zero (R192). -/
def execDiv (f : Arith) (s : State) : Host.Outcome State Fault Refusal :=
  issue (elementOp 0x06 f fun w a b _ => divResult f.ty w (intVal f.ty w a) (intVal f.ty w b)) s

/-- REM: a − b × (a / b truncated) (R192). -/
def execRem (f : Arith) (s : State) : Host.Outcome State Fault Refusal :=
  issue (elementOp 0x07 f fun w a b _ => remResult f.ty w (intVal f.ty w a) (intVal f.ty w b)) s

/-- AND, bitwise (R191). -/
def execAnd (f : Arith) (s : State) : Host.Outcome State Fault Refusal :=
  issue (elementOp 0x08 f fun _ a b _ => (a &&& b, flNone)) s

/-- OR, bitwise (R191). -/
def execOr (f : Arith) (s : State) : Host.Outcome State Fault Refusal :=
  issue (elementOp 0x09 f fun _ a b _ => (a ||| b, flNone)) s

/-- XOR, bitwise (R191). -/
def execXor (f : Arith) (s : State) : Host.Outcome State Fault Refusal :=
  issue (elementOp 0x0A f fun _ a b _ => (a ^^^ b, flNone)) s

/-- ANDN: a and not b, bitwise (R191). -/
def execAndn (f : Arith) (s : State) : Host.Outcome State Fault Refusal :=
  issue (elementOp 0x0B f fun w a b _ => (a &&& (2 ^ w - 1 - b), flNone)) s

/-- SHL: left by b mod w, filling zeros (R191). -/
def execShl (f : Arith) (s : State) : Host.Outcome State Fault Refusal :=
  issue (elementOp 0x0C f fun w a b _ => ((a <<< (b % w)) % 2 ^ w, flNone)) s

/-- SHR: right by b mod w, filling zeros (R191). -/
def execShr (f : Arith) (s : State) : Host.Outcome State Fault Refusal :=
  issue (elementOp 0x0D f fun w a b _ => (a >>> (b % w), flNone)) s

/-- SRA: right by b mod w, filling copies of bit w − 1, whatever the signedness of TYPE (R191). -/
def execSra (f : Arith) (s : State) : Host.Outcome State Fault Refusal :=
  issue (elementOp 0x0E f fun w a b _ => wrapped w (signedN w a / ((2 ^ (b % w) : Nat) : Int))) s

/-- RSH: a × 2^(−s) rounded to the integers of TYPE, s = b clamped to 127 (R193). -/
def rshAct (f : Arith) : Act Unit := do
  let e ← readElems 0x0F f
  let s ← get
  let vs := List.zipWith (fun a b => (FVal.ofInt (intVal f.ty e.w a)).scale (-((if b < 127 then b else 127 : Nat) : Int))) e.a e.b
  let (res, fl) ← roundActive e.act s.src.frm false (intFmt f.ty) vs
  finish 0x0F f e res fl

/-- RSH: the rounding shift (R193). -/
def execRsh (f : Arith) (s : State) : Host.Outcome State Fault Refusal := issue (rshAct f) s

/-- MIN_I: the smaller, by the signedness of TYPE (R191). -/
def execMinI (f : Arith) (s : State) : Host.Outcome State Fault Refusal :=
  issue (elementOp 0x10 f fun w a b _ => (if intVal f.ty w b < intVal f.ty w a then b else a, flNone)) s

/-- MAX_I: the larger, by the signedness of TYPE (R191). -/
def execMaxI (f : Arith) (s : State) : Host.Outcome State Fault Refusal :=
  issue (elementOp 0x11 f fun w a b _ => (if intVal f.ty w a < intVal f.ty w b then b else a, flNone)) s

/-- ABS_I: |a|, wrapping; an unsigned a is returned (R191). -/
def execAbsI (f : Arith) (s : State) : Host.Outcome State Fault Refusal :=
  issue (elementOp 0x12 f fun w a _ _ => wrapped w ((intVal f.ty w a).natAbs : Int)) s

/-- NEG_I: −a, wrapping (R191). -/
def execNegI (f : Arith) (s : State) : Host.Outcome State Fault Refusal :=
  issue (elementOp 0x13 f fun w a _ _ => wrapped w (-(intVal f.ty w a))) s

/-- CLZ: leading zero bits, w for zero (R191). -/
def execClz (f : Arith) (s : State) : Host.Outcome State Fault Refusal :=
  issue (elementOp 0x14 f fun w a _ _ => (if a = 0 then w else w - 1 - a.log2, flNone)) s

/-- POPC: one bits (R191). -/
def execPopc (f : Arith) (s : State) : Host.Outcome State Fault Refusal :=
  issue (elementOp 0x15 f fun w a _ _ => (popN w a, flNone)) s

/-- MADD: d + a × b, wrapping (R191). -/
def execMadd (f : Arith) (s : State) : Host.Outcome State Fault Refusal :=
  issue (elementOp 0x16 f fun w a b d => wrapped w (intVal f.ty w d + intVal f.ty w a * intVal f.ty w b)) s

/-- A comparison (R194): a mask destination takes the active results, keeps inactive bits and clears those from n up; a
scalar destination takes 1 or 0. -/
def compareAct (op : Nat) (f : Arith) (g : Nat → Nat → Nat → Bool × Flags) : Act Unit := do
  let e ← readElems op f
  let rs := mapActive (false, flNone) (fun a b _ => g e.w a b) e.act e.a e.b e.d
  let fl := rs.foldl (fun x r => x ||| r.2) flNone
  if f.dk then
    writeS f.d (BitVec.ofNat 64 (bit ((rs.map (·.1)).headD false)))
    raiseFlags fl
  else
    let i := f.d.extractLsb' 0 3
    waitOn (2, i.toNat)
    let s ← get
    let act := packN 1 (e.act.map bit)
    let new := packN 1 (rs.map fun r => bit r.1)
    let keep := s.src.m.get i.toFin &&& ~~~BitVec.ofNat 1024 act &&& BitVec.ofNat 1024 (2 ^ e.n - 1)
    enqueueV (beatsOf op f) [.m i (keep ||| BitVec.ofNat 1024 new)] fl

/-- CEQ_I (R194). -/
def execCeqI (f : Arith) (s : State) : Host.Outcome State Fault Refusal :=
  issue (compareAct 0x18 f fun w a b => (intVal f.ty w a == intVal f.ty w b, flNone)) s
/-- CNE_I (R194). -/
def execCneI (f : Arith) (s : State) : Host.Outcome State Fault Refusal :=
  issue (compareAct 0x19 f fun w a b => (intVal f.ty w a != intVal f.ty w b, flNone)) s
/-- CLT_I (R194). -/
def execCltI (f : Arith) (s : State) : Host.Outcome State Fault Refusal :=
  issue (compareAct 0x1A f fun w a b => (decide (intVal f.ty w a < intVal f.ty w b), flNone)) s
/-- CLE_I (R194). -/
def execCleI (f : Arith) (s : State) : Host.Outcome State Fault Refusal :=
  issue (compareAct 0x1B f fun w a b => (decide (intVal f.ty w a ≤ intVal f.ty w b), flNone)) s

/-- A float comparison of two patterns: false with NV for an ordered comparison that meets a NaN (R195). -/
def floatCompare (ordered : Bool) (onNan : Bool) (g : FVal → FVal → Bool) (ty : BitVec 3) (a b : Nat) : Bool × Flags :=
  let x := decV (floatFmt ty) a
  let y := decV (floatFmt ty) b
  if x.isNan || y.isNan then (onNan, if ordered then flNV else flNone) else (g x y, flNone)

/-- CEQ_F (R195). -/
def execCeqF (f : Arith) (s : State) : Host.Outcome State Fault Refusal :=
  issue (compareAct 0x1C f fun _ a b => floatCompare false false eqV f.ty a b) s
/-- CNE_F (R195). -/
def execCneF (f : Arith) (s : State) : Host.Outcome State Fault Refusal :=
  issue (compareAct 0x1D f fun _ a b => floatCompare false true (fun x y => !eqV x y) f.ty a b) s
/-- CLT_F (R195). -/
def execCltF (f : Arith) (s : State) : Host.Outcome State Fault Refusal :=
  issue (compareAct 0x1E f fun _ a b => floatCompare true false ltV f.ty a b) s
/-- CLE_F (R195). -/
def execCleF (f : Arith) (s : State) : Host.Outcome State Fault Refusal :=
  issue (compareAct 0x1F f fun _ a b => floatCompare true false (fun x y => ltV x y || eqV x y) f.ty a b) s

/-- MOV: each active element takes the source's (R197). -/
def execMov (f : Arith) (s : State) : Host.Outcome State Fault Refusal :=
  issue (elementOp 0x20 f fun _ a _ _ => (a, flNone)) s

/-- SEL: the mask chooses between a and b, and every element is written; a scalar form reads bit 0 (R197). -/
def selAct (f : Arith) : Act Unit := do
  let e ← readElems 0x21 f
  let m ← activeMask
  let act := maskList e.n m
  let res := List.zipWith (fun (p : Nat × Nat) c => if c then p.1 else p.2) (List.zip e.a e.b) act
  finish 0x21 f { e with act := List.replicate e.n true } res flNone

/-- SEL (R197). -/
def execSel (f : Arith) (s : State) : Host.Outcome State Fault Refusal := issue (selAct f) s

/-! ## Dot products (R209, R210) -/

/-- Groups of k consecutive elements. -/
def groupsOf {α : Type} (k : Nat) : Nat → List α → List (List α)
  | 0, _ => []
  | n + 1, l => l.take k :: groupsOf k n (l.drop k)

/-- The value of a t2 code and the flag TC (R71, R210). -/
def tern (c : Nat) : Int × Flags :=
  if c % 4 = 1 then (1, flNone) else if c % 4 = 3 then (-1, flNone) else (0, if c % 4 = 2 then flTC else flNone)

/-- One accumulation of four products into i32, clamped with OV. -/
def dotStep (d : Nat) (ps : List (Int × Flags)) : Nat × Flags :=
  let r := satI 7 (ps.foldl (fun x p => x + p.1) (signedN 32 d))
  (wrapN 32 r.1, ps.foldl (fun x p => x ||| p.2) r.2)

/-- DOT4 and TSEL share their operands: `prods` gives the four products of a group from its four bytes of A and the bytes
or codes of B (R209, R210). -/
def dotAct (op : Nat) (f : Arith) (bw : Nat) (prod : Nat → Nat → Int × Flags) : Act Unit := do
  let s ← get
  faultIf (!f.dk && (s.bound f.d.toNat).isSome) 0x51
  if f.dk then pure () else planVector (vecSrcs f true) false f.d 32 (s.actNow 128)
  let regs ← readVs (vecSrcs f true) []
  if f.dk then
    let wide (k : BitVec 2) (i : BitVec 5) (wt : Bool) : Act Nat := do
      if k = 1 then
        let x ← readS i wt
        pure x.toNat
      else if k = 2 then
        let x ← readK i
        pure x.toNat
      else
        let l ← bundleLit
        pure (litBits .i f.ty l i)
    let a ← wide f.ak f.a f.aw
    let b ← wide f.bk f.b f.bw
    let d ← readS f.d false
    let r := dotStep (d.toNat % 2 ^ 32) (List.zipWith prod (elemsN 8 4 a) (elemsN bw 4 b))
    writeS f.d (BitVec.ofInt 64 (signedN 32 r.1))
    raiseFlags r.2
  else
    let a ← srcElems .i f.ty 512 8 regs f.ak f.a f.aw
    let b8 ← srcElems .i f.ty 512 8 regs f.bk f.b f.bw
    let b := elemsN bw 512 (packN 8 b8)
    let d ← readV f.d.toNat false
    let m ← activeMask
    let act := maskList 128 m
    let ab := List.zip (groupsOf 4 128 a) (groupsOf 4 128 b)
    let rs := List.zipWith (fun (x : (List Nat × List Nat) × Nat) c =>
      if c then dotStep x.2 (List.zipWith prod x.1.1 x.1.2) else (0, flNone)) (List.zip ab (elemsN 32 128 d.toNat)) act
    let ws ← vecWrite f.d (packN 32 (rs.map (·.1))) (activeBits 32 act)
    enqueueV (beatsOf op f) ws (rs.foldl (fun x r => x ||| r.2) flNone)

/-- DOT4: four 8-bit products added into i32, clamped (R209). -/
def execDot4 (f : Arith) (s : State) : Host.Outcome State Fault Refusal :=
  issue (dotAct 0x50 f 8 fun a b => (intVal f.ty 8 a * intVal f.ty 8 b, flNone)) s

/-- TSEL: four activations added, subtracted or skipped by their t2 codes (R210). -/
def execTsel (f : Arith) (s : State) : Host.Outcome State Fault Refusal :=
  issue (dotAct 0x51 f 2 fun a b => ((tern b).1 * intVal f.ty 8 a, (tern b).2)) s

end Sys2Proof.Machine
end

