-- ==== Sys2Proof/Machine/FloatArith.lean ====
section
/-!
DEFINITION. Float arithmetic (R198-R200), conversions, packs and widening (R201-R204), and pair merge (R211).
-/
namespace Sys2Proof.Machine

/-- A float instruction that rounds once: `g` gives the exact value of an active element and the flags beside its
rounding's (R187, R198). -/
def roundedOp (op : Nat) (f : Arith) (g : FVal → FVal → FVal → FVal × Flags) : Act Unit := do
  let e ← readElems op f
  let s ← get
  let c := floatFmt f.ty
  let vs := mapActive (.zero, flNone) (fun a b d => g (decV c a) (decV c b) (decV c d)) e.act e.a e.b e.d
  let (res, fl) ← roundActive e.act s.src.frm false c (vs.map (·.1))
  finish op f e res (vs.foldl (fun x v => x ||| v.2) fl)

/-- An invalid operation gives NaN and NV (R198). -/
def orInvalid (x : Option FVal) : FVal × Flags := match x with
  | some v => (v, flNone)
  | none => (.nan, flNV)

/-- The sign of an exact zero sum under a mode (R198). -/
def zeroNeg (frm : Word64) : Bool := fld frm 2 0 == 2

/-- a × b + d with one invalid check for the product (R198). -/
def fmaV (zneg neg : Bool) (a b d : FVal) : FVal × Flags :=
  match mulV a b with
  | none => (.nan, flNV)
  | some p => orInvalid (addV zneg (if neg then p.neg else p) d)

/-- ADD_F: a + b (R198). -/
def execAddF (f : Arith) (s : State) : Host.Outcome State Fault Refusal :=
  issue (do let s ← get; roundedOp 0x28 f fun a b _ => orInvalid (addV (zeroNeg s.src.frm) a b)) s
/-- SUB_F: a − b (R198). -/
def execSubF (f : Arith) (s : State) : Host.Outcome State Fault Refusal :=
  issue (do let s ← get; roundedOp 0x29 f fun a b _ => orInvalid (addV (zeroNeg s.src.frm) a b.neg)) s
/-- MUL_F: a × b (R198). -/
def execMulF (f : Arith) (s : State) : Host.Outcome State Fault Refusal :=
  issue (roundedOp 0x2A f fun a b _ => orInvalid (mulV a b)) s
/-- FMA: a × b + d (R198). -/
def execFma (f : Arith) (s : State) : Host.Outcome State Fault Refusal :=
  issue (do let s ← get; roundedOp 0x2B f fun a b d => fmaV (zeroNeg s.src.frm) false a b d) s
/-- FNMA: −(a × b) + d (R198). -/
def execFnma (f : Arith) (s : State) : Host.Outcome State Fault Refusal :=
  issue (do let s ← get; roundedOp 0x2C f fun a b d => fmaV (zeroNeg s.src.frm) true a b d) s

/-- The order of R199: −0 below +0. -/
def ltZ (a b : FVal) : Bool := ltV a b || (a.isZero && b.isZero && a.sign && !b.sign)

/-- The smaller or larger of two values (R199). -/
def pickV (larger : Bool) (a b : FVal) : FVal :=
  if a.isNan then (if b.isNan then .nan else b)
  else if b.isNan then a
  else if larger then (if ltZ a b then b else a) else (if ltZ b a then b else a)

/-- MIN_F (R199). -/
def execMinF (f : Arith) (s : State) : Host.Outcome State Fault Refusal :=
  issue (elementOp 0x2D f fun _ a b _ =>
    (encodeFmt (floatFmt f.ty) (pickV false (decV (floatFmt f.ty) a) (decV (floatFmt f.ty) b)), flNone)) s
/-- MAX_F (R199). -/
def execMaxF (f : Arith) (s : State) : Host.Outcome State Fault Refusal :=
  issue (elementOp 0x2E f fun _ a b _ =>
    (encodeFmt (floatFmt f.ty) (pickV true (decV (floatFmt f.ty) a) (decV (floatFmt f.ty) b)), flNone)) s
/-- ABS_F: clears the sign; NaN becomes canonical (R199). -/
def execAbsF (f : Arith) (s : State) : Host.Outcome State Fault Refusal :=
  issue (elementOp 0x2F f fun _ a _ _ => (encodeFmt (floatFmt f.ty) (decV (floatFmt f.ty) a).abs, flNone)) s
/-- NEG_F: inverts the sign; NaN becomes canonical (R199). -/
def execNegF (f : Arith) (s : State) : Host.Outcome State Fault Refusal :=
  issue (elementOp 0x30 f fun _ a _ _ => (encodeFmt (floatFmt f.ty) (decV (floatFmt f.ty) a).neg, flNone)) s

/-- The exact `exp2` of R200. -/
def exp2Fn (a : FVal) : FVal × Flags :=
  match a with
  | .nan => (.nan, flNone)
  | .inf n => (if n then .zero else .inf false, flNone)
  | .fin n m e _ => (exp2V n m e, flNone)

/-- The exact `log2` of R200. -/
def log2Fn (a : FVal) : FVal × Flags :=
  match a with
  | .nan => (.nan, flNone)
  | .inf n => if n then (.nan, flNV) else (.inf false, flNone)
  | .fin n m e _ => if m = 0 then (.inf true, flDZ) else if n then (.nan, flNV) else (log2V m e, flNone)

/-- The exact `rcp` of R200. -/
def rcpFn (a : FVal) : FVal × Flags :=
  match a with
  | .nan => (.nan, flNone)
  | .inf n => (.fin n 0 0 false, flNone)
  | .fin n m e _ => if m = 0 then (.inf n, flDZ) else (rcpV n m e, flNone)

/-- The exact `rsqrt` of R200. -/
def rsqrtFn (a : FVal) : FVal × Flags :=
  match a with
  | .nan => (.nan, flNone)
  | .inf n => if n then (.nan, flNV) else (.zero, flNone)
  | .fin n m e _ => if m = 0 then (.inf n, flDZ) else if n then (.nan, flNV) else (rsqrtV m e, flNone)

/-- EXP2 (R200). -/
def execExp2 (f : Arith) (s : State) : Host.Outcome State Fault Refusal :=
  issue (roundedOp 0x31 f fun a _ _ => exp2Fn a) s
/-- LOG2 (R200). -/
def execLog2 (f : Arith) (s : State) : Host.Outcome State Fault Refusal :=
  issue (roundedOp 0x32 f fun a _ _ => log2Fn a) s
/-- RCP (R200). -/
def execRcp (f : Arith) (s : State) : Host.Outcome State Fault Refusal :=
  issue (roundedOp 0x33 f fun a _ _ => rcpFn a) s
/-- RSQRT (R200). -/
def execRsqrt (f : Arith) (s : State) : Host.Outcome State Fault Refusal :=
  issue (roundedOp 0x34 f fun a _ _ => rsqrtFn a) s

/-! ## Conversions and packs (R201-R204) -/

/-- The single source of a form F or W instruction as n elements of w bits. -/
def readOne (cls : Cls) (f : Arith) (n w : Nat) : Act (List Nat) := do
  let regs ← readVs (vecSrcs f false) []
  srcElems cls f.ty n w regs f.ak f.a f.aw

/-- Convert active elements from one stored format to another (R85, R202), with slot i mod 128 for mode 0b110. -/
def convertElems (act : List Bool) (frm : Word64) (src dst : Nat) (xs : List Nat) :
    Act (List Nat × Flags) := do
  let ds := (keepActive act xs).map fun x => (decodeFmt src x.1, x.2)
  let rs ← roundAll frm true dst (ds.map fun d => (d.1.1, d.2))
  pure (scatterActive act (rs.map fun r => encodeFmt dst r.q), ds.foldl (fun a d => a ||| d.1.2) (flagsOf rs))

/-- CVTI and CVTF between formats of one width (R202). -/
def cvtAct (op : Nat) (f : Arith) (dst : Nat) : Act Unit := do
  let inf := aInfo op
  let w := tyWidth inf.cls f.ty
  let n := 4096 / w
  let s ← get
  planVector (vecSrcs f false) true f.d w (s.actNow n)
  let a ← readOne inf.cls f n w
  let m ← activeMask
  let act := maskList n m
  let s ← get
  let (res, fl) ← convertElems act s.src.frm f.b.toNat dst a
  let ws ← vecWrite f.d (packN w res) (activeBits w act)
  enqueueV (beatsOf op f) ws fl

/-- CVTI: to an integer type (R202). -/
def execCvti (f : Arith) (s : State) : Host.Outcome State Fault Refusal := issue (cvtAct 0x38 f (intFmt f.ty)) s

/-- The value that `rint` rounds on the integers: what is already integral, infinite or NaN goes round them (R202). -/
def rintArg (v : FVal) : FVal := match v with
  | .fin _ _ e _ => if 0 ≤ e then .zero else v
  | _ => .zero

/-- The result of `rint` from its rounding: the sign of a zero is the input's (R202). -/
def rintResult (v : FVal) (q : FVal) : FVal := match v with
  | .fin n _ e _ => if 0 ≤ e then v else if q.isZero then q.withSign n else q
  | v => v

/-- CVTF with `rint`: each active element rounded to an integral value of TYPE (R202). -/
def rintAct (f : Arith) : Act Unit := do
  let c := floatFmt f.ty
  let w := tyWidth .f f.ty
  let n := 4096 / w
  let s ← get
  planVector (vecSrcs f false) true f.d w (s.actNow n)
  let a ← readOne .f f n w
  let m ← activeMask
  let act := maskList n m
  let s ← get
  let vs := (keepActive act a).map fun x => decV c x.1
  let rs ← roundAll s.src.frm false 19 (vs.map fun v => (rintArg v, 0))
  let res := scatterActive act (List.zipWith (fun v r => encodeFmt c (rintResult v r.q)) vs rs)
  let ws ← vecWrite f.d (packN w res) (activeBits w act)
  enqueueV (beatsOf 0x39 f) ws (flagsOf rs)

/-- CVTF: to a float type, or to an integral value (R202). -/
def execCvtf (f : Arith) (s : State) : Host.Outcome State Fault Refusal :=
  issue (if f.b = 0 then rintAct f else cvtAct 0x39 f (floatFmt f.ty)) s

/-- The n source elements of a pack in interleave order (R123, R203): element i is slot i / c of member i mod c. -/
def interleave (c w n : Nat) (regs : List VReg) : List Nat :=
  let ms := regs.map fun r => elemsN w (4096 / w) r.toNat
  (List.range n).map fun i => (ms.getD (i % c) []).getD (i / c) 0

/-- PACKI and PACKF: narrow elements of TYPE into a format (R203). Element k of member t stands for element c × k + t of the result
(R82, R123). -/
def packAct (op : Nat) (f : Arith) (src : Nat) : Act Unit := do
  let inf := aInfo op
  let w := tyWidth inf.cls f.ty
  let fmt := f.b.toNat
  let c := packRatio w fmt
  let n := 4096 / fmtWidth fmt
  let s ← get
  planDraws ((if c = 1 then (vecSrcs f false).map fun p => s.popped p.1
      else (List.range c).map fun t => (s.popped (f.a.toNat + t)).map fun k => c * k + t) ++
    [activeNos (s.actNow n), s.pushed f.d.toNat (activeBits (fmtWidth fmt) (s.actNow n))])
  let xs ← if c = 1 then readOne inf.cls f n w
    else do
      let ids := (List.range c).map (f.a.toNat + ·)
      let regs ← readVs (ids.map fun i => (i, f.aw)) []
      pure (interleave c w n (ids.map fun i => regs.get i 0))
  let m ← activeMask
  let act := maskList n m
  let s ← get
  let (res, fl) ← convertElems act s.src.frm src fmt xs
  let ws ← vecWrite f.d (packN (fmtWidth fmt) res) (activeBits (fmtWidth fmt) act)
  enqueueV (beatsOf op f) ws fl

/-- PACKI (R203). -/
def execPacki (f : Arith) (s : State) : Host.Outcome State Fault Refusal := issue (packAct 0x3A f (intFmt f.ty)) s
/-- PACKF (R203). -/
def execPackf (f : Arith) (s : State) : Host.Outcome State Fault Refusal := issue (packAct 0x3B f (floatFmt f.ty)) s

/-- The elements of a list with even or odd index. -/
def everyOther {α : Type} : Bool → List α → List α
  | _, [] => []
  | true, x :: t => x :: everyOther false t
  | false, _ :: t => everyOther true t

/-- WIDEN: doubled elements into a pair, result element i in member i mod 2 (R123, R204). -/
def widenAct (op : Nat) (f : Arith) (g : Nat → Nat) : Act Unit := do
  let inf := aInfo op
  let w := tyWidth inf.cls f.ty
  let n := 4096 / w
  let s ← get
  let half (b : Bool) : Nat := activeBits (2 * w) (everyOther b (s.actNow n))
  planDraws ((vecSrcs f false).map (fun p => s.popped p.1) ++
    [(s.pushed f.d.toNat (half true)).map (2 * ·), (s.pushed (f.d + 1).toNat (half false)).map (2 * · + 1)])
  let a ← readOne inf.cls f n w
  let m ← activeMask
  let act := maskList n m
  let res := a.map g
  let ws0 ← vecWrite f.d (packN (2 * w) (everyOther true res)) (activeBits (2 * w) (everyOther true act))
  let ws1 ← vecWrite (f.d + 1) (packN (2 * w) (everyOther false res)) (activeBits (2 * w) (everyOther false act))
  enqueueV (beatsOf op f) (ws0 ++ ws1) flNone

/-- WIDEN_I (R204). -/
def execWidenI (f : Arith) (s : State) : Host.Outcome State Fault Refusal :=
  issue (widenAct 0x3C f fun x => wrapN (2 * tyWidth .i f.ty) (intVal f.ty (tyWidth .i f.ty) x)) s
/-- WIDEN_F (R204). -/
def execWidenF (f : Arith) (s : State) : Host.Outcome State Fault Refusal :=
  issue (widenAct 0x3D f fun x => encodeFmt 17 (decV (floatFmt f.ty) x)) s

/-! ## Pair merge (R211) -/

/-- tk of R211: s, 0 or s × 2^(m − m′). An irrational factor stands with 300 fraction bits and a set bit below them, so
that the sum is inexact and on the right side of every rounding boundary. -/
def mergeTerm (m s top : FVal) : FVal :=
  if eqV m top then s
  else if m == .inf true then .zero
  else match addV false m top.neg, s with
    | some (.fin n x e _), .fin sn sm se _ =>
      if sm = 0 then s
      else match exp2V n x e with
        | .fin _ pm pe st => if st then .fin sn (sm * (2 * pm + 1)) (se + pe - 1) false else .fin sn (sm * pm) (se + pe) false
        | v => v
    | _, s => s

/-- One merge of two partial pairs (R211). -/
def mergePair (m1 s1 m2 s2 : FVal) : FVal × FVal × Flags :=
  let anyNan := m1.isNan || s1.isNan || m2.isNan || s2.isNan
  if anyNan || m1 == .inf false || m2 == .inf false then (.nan, .nan, if anyNan then flNone else flNV)
  else
    let top := pickV true m1 m2
    match addV false (mergeTerm m1 s1 top) (mergeTerm m2 s2 top) with
    | none => (.nan, .nan, flNV)
    | some x =>
      let r := roundV 17 0 0 x
      (top, r.q, r.fl)

/-- Pair up consecutive elements. -/
def pairUp : List Nat → List (Nat × Nat)
  | x :: y :: t => (x, y) :: pairUp t
  | _ => []

/-- PMERGE: merge softmax partial pairs; bit 2j of the active mask governs pair j (R211). -/
def pmergeAct (f : Arith) : Act Unit := do
  let e ← readElems 0x52 f
  let act := everyOther true e.act
  let rs := List.zipWith (fun (x : (Nat × Nat) × Nat × Nat) c =>
    if c then
      let r := mergePair (decV 17 x.1.1) (decV 17 x.1.2) (decV 17 x.2.1) (decV 17 x.2.2)
      ([encodeFmt 17 r.1, encodeFmt 17 r.2.1], r.2.2)
    else ([0, 0], flNone)) (List.zip (pairUp e.a) (pairUp e.b)) act
  finish 0x52 f { e with act := (act.map fun c => [c, c]).flatten } (rs.map (·.1)).flatten
    (rs.foldl (fun x r => x ||| r.2) flNone)

/-- PMERGE (R211). -/
def execPmerge (f : Arith) (s : State) : Host.Outcome State Fault Refusal := issue (pmergeAct f) s

end Sys2Proof.Machine
end

