-- ==== Sys2Proof/Machine/Matrix.lean ====
section
/-!
DEFINITION. The matrix engine (R213-R225): folds, the accumulator instructions, their queue, and the engine's step.
-/
namespace Sys2Proof.Machine

/-- The format pair of FPC, with K (R216); none for 17-31. -/
def formatPair (fpc : Nat) : Option (Nat × Nat × Nat) :=
  [(13, 13, 32), (13, 14, 32), (14, 13, 32), (14, 14, 32), (11, 11, 32), (11, 12, 32), (12, 11, 32), (12, 12, 32),
   (10, 10, 64), (15, 15, 16), (16, 16, 16), (3, 3, 32), (3, 4, 32), (4, 3, 32), (4, 4, 32), (9, 3, 128),
   (9, 4, 128)][fpc]?

/-- Bits an operand element takes in its tile: f6 elements occupy a byte (R217). -/
def tileWidth (fmt : Nat) : Nat := if fmt = 11 ∨ fmt = 12 then 8 else (fmtOf fmt).w

/-- The step word of a step vector, with its checks (R215, R216, R219): FPC, scale flags, stream, NSEL; fault 0x47. -/
def stepBad (sparse : Bool) (w : Word64) : Bool :=
  let fpc := fld w 4 0
  let sc := bitAt w 9 || bitAt w 10
  fld w 63 11 != 0 || decide (17 ≤ fpc) || (sc && decide (9 ≤ fpc)) ||
    (sparse && (fld w 6 5 == 3 || sc || fpc == 8 || decide (15 ≤ fpc)))

/-- Kept elements per group of NSEL (R215). -/
def keptOf (w : Word64) : Nat := if fld w 6 5 = 0 then 6 else if fld w 6 5 = 1 then 8 else 12

/-- A metadata word is well formed (R88): N strictly ascending positions below 24, zero above. -/
def metaOk (n : Nat) (w : Nat) : Bool :=
  let ps := elemsN 5 n w
  w >>> (5 * n) == 0 && ps.all (· < 24) && (List.zip ps (ps.drop 1)).all fun p => p.1 < p.2

/-- The metadata words of a step vector: 16 rows of g groups (R219). -/
def metaWords (sv : VReg) (g : Nat) : List Nat := elemsN 64 (16 * g) (sv.toNat >>> 2048)

/-- Groups of 24 positions of a sparse step (R219). -/
def groups24 (fpc : Nat) : Nat := if fpc = 9 ∨ fpc = 10 then 1 else 2

/-- Bytes of B (R216, R219). -/
def bBytes (sparse : Bool) (fpc : Nat) : Nat := if sparse then 768 else if 15 ≤ fpc then 2048 else 512

/-- Whether the naming of B is wrong (R217, R219): register or slot groups start at the right number. -/
def bNaming (sparse : Bool) (fpc loc y : Nat) : Bool :=
  if sparse then (loc == 0 && y % 2 != 0) || (loc == 1 && y != 0 && y != 2)
  else if 15 ≤ fpc then (loc == 0 && y % 4 != 0) || (loc == 1 && y != 0)
  else false

/-- How many registers or slots an operand of n bytes takes. -/
def members (n : Nat) : Nat := (n + 511) / 512

/-- A tile slot's tile (R111, R179): wait until its fetch resolves; in error, cancelled or empty it is fault 0x44. -/
def readSlot (i : Nat) : Act VReg := do
  let s ← get
  let t := s.regs.slots.get (slotIdx i)
  match t.st with
  | .full => pure t.data
  | .fetching => waitFor .slot
  | .error => faultWith 0x44 0 (slotHandle s.pkg s.cur t)
  | .cancelled => faultWith 0x44 0 (setPhase (slotHandle s.pkg s.cur t) 3 0)
  | .empty => faultWith 0x44 0 (s.regs.h.get ⟨12 + i % 4, by omega⟩)

/-- An operand buffer (R214): 32-byte aligned, in operand-role quads of the own cell; a chunk read. Its bytes are checked in
ascending order: what is wrong before the first byte outside those quads comes first (R234). -/
def readBuffer (i : BitVec 5) (w : Bool) (n : Nat) : Act Nat := do
  let a ← readS i w
  if apertureOf a ≠ 0xFFF ∨ fld a 51 18 ≠ 0 then faultWith 0x11 a 0
  else
    checkAlign a 32
    let s ← get
    let cell := (s.ctx s.cur).cell
    let bad (j : Nat) : Bool :=
      let b := fld a 17 0 + j
      decide (2 ^ 18 ≤ b) || (s.cell cell).role (b / 2 ^ 15) != 2
    match (List.range n).find? bad with
    | some j =>
      let _ ← if j = 0 then pure [] else chunkRead a j
      faultWith 0x11 (a + BitVec.ofNat 64 j) 0
    | none =>
      let bs ← chunkRead a n
      pure (ofBytes bs)

/-- An operand of n bytes at a location (R214, R217-R219): registers already read, slots, or a buffer. -/
def readOperand (loc : Nat) (i : BitVec 5) (w : Bool) (n : Nat) (regs : NMap VReg) : Act Nat := do
  if loc = 0 then
    pure (packN 4096 ((List.range (members n)).map fun j => (regs.get (i.toNat + j) 0).toNat) % 2 ^ (8 * n))
  else if loc = 1 then
    let ts ← (List.range (members n)).mapM fun j => readSlot (i.toNat + j)
    pure (packN 4096 (ts.map BitVec.toNat) % 2 ^ (8 * n))
  else readBuffer i w n

/-- The vector registers of an operand. -/
def operandRegs (loc : Nat) (i : BitVec 5) (w : Bool) (n : Nat) : List (Nat × Bool) :=
  if loc = 0 then (List.range (members n)).map fun j => (i.toNat + j, w) else []

/-- Put an operation into the core's matrix queue (R220): a ninth stalls issue. -/
def enqueueM (acc : BitVec 2) (stream : Nat) (slots : List Nat) (kind : MOpKind) : Act Unit := do
  let s ← get
  waitIf (8 ≤ s.regs.mq.length) .mq
  let d ← takeDue
  let id ← fresh
  let k := s.chunk.seq
  onRegs fun r => { r with mq := r.mq ++
    [{ id := id, chunk := k, acc := acc, stream := stream, slots := slots, kind := kind, flags := d }] }

/-- MMA and MMAS (R214-R219): every operand is read and checked at issue, in the order step vector, A, B, metadata
(R234). -/
def foldAct (sparse : Bool) (f : TF) : Act Unit := do
  let la := f.f7.toNat / 32
  let lb := f.f7.toNat / 8 % 4
  let regs ← readVs [(f.z.toNat, f.zw)] []
  let sv := regs.get f.z.toNat 0
  let w : Word64 := sv.extractLsb' 0 64
  faultIf (stepBad sparse w) 0x47
  let fpc := fld w 4 0
  let n := bBytes sparse fpc
  let regs ← readVs (operandRegs la f.x f.xw 512) regs
  let a ← readOperand la f.x f.xw 512 regs
  faultIf (bNaming sparse fpc lb f.y.toNat) 0x47
  let regs ← readVs (operandRegs lb f.y f.yw n) regs
  let b ← readOperand lb f.y f.yw n regs
  faultIf (sparse && !(metaWords sv (groups24 fpc)).all (metaOk (keptOf w))) 0x48
  let slots := (if la = 1 then [f.x.toNat] else []) ++ (if lb = 1 then (List.range (members n)).map (f.y.toNat + ·) else [])
  enqueueM (BitVec.ofNat 2 (f.f7.toNat / 2)) (fld w 8 7) slots
    (.fold fpc (if sparse then some (keptOf w) else none) (bitAt w 9) (bitAt w 10) (BitVec.ofNat 4096 a) (BitVec.ofNat 16384 b) sv)

/-- MMA: one matrix step (R218). -/
def execMma (f : TF) (s : State) : Host.Outcome State Fault Refusal := issue (foldAct false f) s
/-- MMAS: one sparse step (R219). -/
def execMmas (f : TF) (s : State) : Host.Outcome State Fault Refusal := issue (foldAct true f) s

/-- MZERO: an accumulator to +0 (R222). -/
def execMzero (f : TF) (s : State) : Host.Outcome State Fault Refusal :=
  issue (enqueueM (f.x.extractLsb' 0 2) 0 [] .zero) s

/-! ## Accumulator values -/

/-- A fold, or another operation (R220). -/
def MOp.isFold (o : MOp) : Bool := match o.kind with
  | .fold _ _ _ _ _ _ _ => true
  | _ => false
/-- The accumulators an operation names. -/
def MOp.accs (o : MOp) : List (BitVec 2) := match o.kind with
  | .add _ src => [o.acc, src]
  | _ => [o.acc]
/-- Whether an operation uses a residue register (R83). -/
def MOp.usesResidue (o : MOp) : Bool := match o.kind with
  | .read rd _ frm _ => (rd == 1 || rd == 2) && fld frm 2 0 == 6
  | _ => false

/-- Sum and error elements of an accumulator. -/
def Regs.acc (r : Regs) (i : BitVec 2) : List Nat × List Nat :=
  (elemsN 32 256 (r.asum.get i.toFin).toNat, elemsN 32 256 (r.aerr.get i.toFin).toNat)
def Regs.setAcc (r : Regs) (i : BitVec 2) (sum err : List Nat) : Regs :=
  { r with asum := r.asum.set i.toNat (BitVec.ofNat 8192 (packN 32 sum)) i.isLt
           aerr := r.aerr.set i.toNat (BitVec.ofNat 8192 (packN 32 err)) i.isLt }

/-- Wait until no queued operation names an accumulator (R220). -/
def waitAcc (i : BitVec 2) : Act Unit := do
  let s ← get
  waitIf (s.regs.mq.any fun o => o.accs.contains i) .mq

/-- The encoded results and flags of `mread`, and the residues it leaves (R223): `draws` are the weave points of mode
0b101. -/
def readout (rd : Nat) (frm : Word64) (draws : List Nat) (e : VReg) (sum err : List Nat) : List Nat × Flags × VReg :=
  let vs := List.zipWith (fun x y => readPair (decV 17 x, decV 17 y)) sum err
  if rd = 0 then (vs.map fun v => encodeFmt 17 (rnV 17 v), flagsOf (vs.map (roundV 17 0 0)), e)
  else if rd = 3 then (sum, flNone, e)
  else if rd = 4 then (err, flNone, e)
  else
    let c := if rd = 1 then 15 else 16
    if fld frm 2 0 = 6 then
      let (qs, e') := roundFeedback c e (List.zip vs ((List.range 256).map (· % 128)))
      (qs.map fun q => encodeFmt c q.q, flagsOf qs, e')
    else
      let qs := (List.zip vs (List.range 256)).map fun p => roundV c (fld frm 2 0) (draws.getD p.2 0) p.1
      (qs.map fun q => encodeFmt c q.q, flagsOf qs, e)

/-- The destination registers' contents of `mread`: one register of 256 narrow elements, or an interleaved pair (R123). -/
def readoutRegs (rd : Nat) (xs : List Nat) : List VReg :=
  if rd = 1 ∨ rd = 2 then [BitVec.ofNat 4096 (packN 16 xs)]
  else [BitVec.ofNat 4096 (packN 32 (everyOther true xs)), BitVec.ofNat 4096 (packN 32 (everyOther false xs))]

/-- Registers after the writes of an `mread`. -/
def Regs.putVs (r : Regs) (x : BitVec 5) : List VReg → Regs
  | [] => r
  | v :: t => (r.putV x v).putVs (x + 1) t

/-- Apply a readout to the registers (R223). -/
def Regs.readAcc (r : Regs) (acc : BitVec 2) (rd : Nat) (x : BitVec 5) (frm : Word64) (draws : List Nat) : Regs :=
  let (sum, err) := r.acc acc
  let (xs, fl, e) := readout rd frm draws (r.e.get (rsel frm)) sum err
  let r := { r with e := r.e.set (rsel frm).val e (rsel frm).isLt, fstat := r.fstat ||| fl.setWidth 64 }
  r.putVs x (readoutRegs rd xs)

/-- MREAD (R223): the weave points of mode 0b101 are drawn at issue, each element's with that of its push where the destination
is bound to a stream through a pane (R82). A bound destination is pushed, so that form waits for the accumulator and reads it at
issue. -/
def mreadAct (rd : Nat) (f : TF) : Act Unit := do
  let acc := f.y.extractLsb' 0 2
  let s ← get
  let frm := s.src.frm
  let n := if rd = 1 ∨ rd = 2 then 1 else 2
  let bound := (List.range n).any fun j => (s.bound (f.x.toNat + j)).isSome
  (List.range n).forM fun j =>
    if (s.bound (f.x.toNat + j)).isSome then pure () else waitOn (1, f.x.toNat + j)
  planDraws ((if n = 1 then List.range 256 else []) ::
    (List.range n).map fun j => (s.pushed (f.x.toNat + j) (2 ^ 4096 - 1)).map (n * · + j))
  let draws ← if fld frm 2 0 = 5 ∧ n = 1 then do
      let row ← weaveRow (fld frm 27 16)
      let s ← get
      let own ← takeIdx 256
      pure (own.map fun j => weavePoint row (s.src.wseed.extractLsb' 0 32) (fld frm 27 16) (j % 2 ^ 32))
    else pure []
  if bound then
    waitAcc acc
    let s ← get
    waitIf (s.regs.mq.any MOp.usesResidue) .mq
    let (sum, err) := s.regs.acc acc
    let (xs, fl, e) := readout rd frm draws (s.regs.e.get (rsel frm)) sum err
    onRegs fun r => { r with e := r.e.set (rsel frm).val e (rsel frm).isLt }
    raiseFlags fl
    (List.zip (List.range n) (readoutRegs rd xs)).forM fun p => do
      let ws ← vecWrite (f.x + BitVec.ofNat 5 p.1) p.2.toNat (2 ^ 4096 - 1)
      onRegs (·.apply ws)
    settleFlags
  else enqueueM acc 0 [] (.read rd f.x frm draws)

/-- MREAD_F32 (R223). -/
def execMreadF32 (f : TF) (s : State) : Host.Outcome State Fault Refusal := issue (mreadAct 0 f) s
/-- MREAD_BF16 (R223). -/
def execMreadBf16 (f : TF) (s : State) : Host.Outcome State Fault Refusal := issue (mreadAct 1 f) s
/-- MREAD_F16 (R223). -/
def execMreadF16 (f : TF) (s : State) : Host.Outcome State Fault Refusal := issue (mreadAct 2 f) s
/-- MREAD_SUM (R223). -/
def execMreadSum (f : TF) (s : State) : Host.Outcome State Fault Refusal := issue (mreadAct 3 f) s
/-- MREAD_ERR (R223). -/
def execMreadErr (f : TF) (s : State) : Host.Outcome State Fault Refusal := issue (mreadAct 4 f) s

/-- MSAVE (R224). -/
def msaveAct (f : MF) : Act Unit := do
  let a ← addrM f 128
  checkAlign a 128
  waitAcc (f.x.extractLsb' 0 2)
  let s ← get
  let (sum, err) := s.regs.acc (f.x.extractLsb' 0 2)
  chunkWrite a ((sum ++ err).map (bytesOf 4)).flatten

/-- MSAVE: an accumulator to memory (R224). -/
def execMsave (f : MF) (s : State) : Host.Outcome State Fault Refusal := issue (msaveAct f) s

/-- MREST (R224). -/
def mrestAct (f : MF) : Act Unit := do
  let a ← addrM f 128
  checkAlign a 128
  waitAcc (f.x.extractLsb' 0 2)
  let b ← chunkRead a 2048
  let xs := elemsN 32 512 (ofBytes b)
  onRegs fun r => r.setAcc (f.x.extractLsb' 0 2) (xs.take 256) (xs.drop 256)

/-- MREST: an accumulator from memory (R224). -/
def execMrest (f : MF) (s : State) : Host.Outcome State Fault Refusal := issue (mrestAct f) s

/-- ACCADD_F32 (R225). -/
def execAccaddF32 (f : TF) (s : State) : Host.Outcome State Fault Refusal :=
  issue (enqueueM (f.x.extractLsb' 0 2) 0 [] (.add false (f.y.extractLsb' 0 2))) s
/-- ACCADD_I32 (R225). -/
def execAccaddI32 (f : TF) (s : State) : Host.Outcome State Fault Refusal :=
  issue (enqueueM (f.x.extractLsb' 0 2) 0 [] (.add true (f.y.extractLsb' 0 2))) s

/-! ## The engine -/

/-- Row r of A: n elements as patterns (R217). -/
def rowA (fmt : Nat) (a : VReg) (n r : Nat) : List Nat := elemsN (tileWidth fmt) n (elemN 256 a.toNat r)

/-- Column c of a dense or ternary B (R217). -/
def colB (fmt : Nat) (b : BitVec 16384) (k c : Nat) : List Nat :=
  if k = 128 then ((List.range 4).map fun t => elemsN 8 32 (elemN 256 (elemN 4096 b.toNat t) c)).flatten
  else elemsN (tileWidth fmt) k (elemN 256 b.toNat c)

/-- Column c of a sparse step's B: K positions of the first tile and Kd - K of the second (R219). -/
def colSparse (fmt : Nat) (b : BitVec 16384) (k kd c : Nat) : List Nat :=
  let w := tileWidth fmt
  elemsN w k (elemN 256 b.toNat c) ++ elemsN w (kd - k) (b.toNat >>> 4096 >>> (c * (kd - k) * w))

/-- The pairs of patterns and their scale bytes that result element (r, c) multiplies (R218, R219). -/
def stepPairs (fpc : Nat) (sparse : Option Nat) (sca scb : Bool) (a : VReg) (b : BitVec 16384) (sv : VReg) (r c : Nat) :
    List (Nat × Nat × Nat × Nat) :=
  match formatPair fpc with
  | none => []
  | some (fa, fb, k) =>
    match sparse with
    | none =>
      let nb := k / 32
      let sc (on : Bool) (base i j : Nat) : Nat := if on then elemN 8 sv.toNat (base + nb * i + j / 32) else 127
      (List.zip (List.zip (rowA fa a k r) (colB fb b k c)) (List.range k)).map fun p =>
        (p.1.1, p.1.2, sc sca 64 r p.2, sc scb 128 c p.2)
    | some n =>
      let g := groups24 fpc
      let col := colSparse fb b k (24 * g) c
      let ms := metaWords sv g
      let row := rowA fa a (g * n) r
      (List.range (g * n)).map fun j =>
        let pos := elemN 5 (ms.getD (r * g + j / n) 0) (j % n)
        (row.getD j 0, col.getD (24 * (j / n) + pos) 0, 127, 127)

/-- One float product with its scales (R89): a scale of 0xFF makes it NaN. -/
def stepProduct (fa fb : Nat) (p : Nat × Nat × Nat × Nat) : FVal :=
  if p.2.2.1 = 255 ∨ p.2.2.2 = 255 then .nan
  else ((mulV (decV fa p.1) (decV fb p.2.1)).getD .nan).scale ((p.2.2.1 : Int) + p.2.2.2 - 254)

/-- The integer value of an element; t2 codes as R218 gives. -/
def stepInt (fmt x : Nat) : Int :=
  if fmt = 9 then (tern x).1 else if fmt = 3 then signedN 8 x else ((x % 256 : Nat) : Int)

/-- Clamp to i32 and whether that changed the value (R92). -/
def clampI32 (x : Int) : Nat × Bool :=
  let y := (satI 7 x).1
  (wrapN 32 y, y != x)

/-- One element of a fold: sum and error patterns (R218). -/
def foldElem (fa fb : Nat) (ps : List (Nat × Nat × Nat × Nat)) (sum err : Nat) : Nat × Nat :=
  if (fmtOf fa).int then
    let t := ps.foldl (fun (a : Int) p => a + stepInt fa p.1 * stepInt fb p.2.1) (signedN 32 sum)
    let (y, cut) := clampI32 t
    (y, if cut then 1 else err)
  else
    let (x, e) := compAdd (decV 17 sum, decV 17 err) (stepSum (ps.map (stepProduct fa fb)), .zero)
    (encodeFmt 17 x, encodeFmt 17 e)

/-- One element of `accadd` (R225). -/
def accaddElem (int : Bool) (x ex y ey : Nat) : Nat × Nat :=
  if int then
    let (t, cut) := clampI32 (signedN 32 x + signedN 32 y)
    (t, if cut ∨ ey ≠ 0 ∨ ex ≠ 0 then 1 else 0)
  else
    let (a, e) := compAdd (decV 17 x, decV 17 ex) (decV 17 y, decV 17 ey)
    (encodeFmt 17 a, encodeFmt 17 e)

/-- Perform one matrix operation on registers (R218-R225). -/
def Regs.perform (r : Regs) (o : MOp) : Regs :=
  let (sum, err) := r.acc o.acc
  match o.kind with
  | .fold fpc sparse sca scb a b sv =>
    match formatPair fpc with
    | none => r
    | some (fa, fb, _) =>
      let es := (List.zip (List.zip sum err) (List.range 256)).map fun p =>
        foldElem fa fb (stepPairs fpc sparse sca scb a b sv (p.2 / 16) (p.2 % 16)) p.1.1 p.1.2
      r.setAcc o.acc (es.map (·.1)) (es.map (·.2))
  | .zero => r.setAcc o.acc (List.replicate 256 0) (List.replicate 256 0)
  | .read rd x frm draws => r.readAcc o.acc rd x frm draws
  | .add int src =>
    let (sy, ey) := r.acc src
    let es := (List.zip (List.zip sum err) (List.zip sy ey)).map fun p => accaddElem int p.1.1 p.1.2 p.2.1 p.2.2
    r.setAcc o.acc (es.map (·.1)) (es.map (·.2))

/-- Whether an operation must stay behind an earlier one (R220); folds of a DET task into one accumulator too (R411). -/
def MOp.follows (det : Bool) (earlier o : MOp) : Bool :=
  let common := o.accs.any earlier.accs.contains
  (o.isFold && earlier.isFold && o.stream == earlier.stream) ||
    (common && !(o.isFold && earlier.isFold)) || (det && common) || (o.usesResidue && earlier.usesResidue)

/-- The operations of a queue that the engine may perform next (R220). -/
def readyMOps (det : Bool) : List MOp → List MOp → List MOp
  | _, [] => []
  | before, o :: t => (if before.any (fun p => o.follows det p) then [] else [o]) ++ readyMOps det (before ++ [o]) t

/-- Perform an operation wherever it still waits: on the live registers, and on those a squash would restore (R221). -/
def Regs.performId (o : MOp) (r : Regs) : Regs :=
  if r.mq.any (·.id == o.id) then
    { r with mq := r.mq.filter (·.id != o.id), fstat := r.fstat ||| o.flags.setWidth 64 }.perform o
  else r

/-- DET of a task (R411). -/
def Task.det (t : Task) : Bool := bitAt (word512 t.words 5) 27

/-- The matrix engine of a cell performs one operation of the next core in round robin whose queue holds one (R220). -/
def execMatrixOpPerform (cell : Nat) (s : State) : Host.Outcome State Fault Refusal :=
  let c := s.cell cell
  match ((List.range 4).map fun j => cell * 4 + (c.mptr + j) % 4).find? fun i => !(s.core i).regs.mq.isEmpty with
  | none => .fault .notEnabled
  | some i =>
    let det := match (s.core i).task with
      | some t => t.det
      | none => false
    let ops := readyMOps det [] (s.core i).regs.mq
    match pickOf ops (Config.choice s.moment) with
    | none => .fault .notEnabled
    | some o =>
      let s := { s with moment := s.moment + 1 }.setCell cell { c with mptr := (i + 1) % 4 }
      event (!s.paused) (s.modCore i (Core.onAll (Regs.performId o)))

end Sys2Proof.Machine
end

