-- ==== Sys2Proof/Machine/Weave.lean ====
section
/-!
DEFINITION. The weave context (R226-R230): `wload`, `wseed`, and the window loads of the cell's weave store.
-/
namespace Sys2Proof.Machine

/-- WLOAD (R228): no table byte is read. -/
def wloadAct (f : MF) : Act Unit := do
  let a ← addrM f 4096
  let n ← readS f.x f.xw
  if !canonical a then faultWith 0x10 a 0
  else if 0xFFC ≤ apertureOf a then faultWith 0x11 a 0
  else if a.toNat % 4096 ≠ 0 then faultWith 0x13 a 0
  else if 4096 < n.toNat then raise 0x4A
  else onRegs fun r => { r with wtab := BitVec.ofNat 64 (n.toNat % 2 ^ 13 * 2 ^ 51 + fld a 56 12) }

/-- WLOAD: set up the weave context (R228). -/
def execWload (f : MF) (s : State) : Host.Outcome State Fault Refusal := issue (wloadAct f) s

/-- WSEED: the context seed (R229). -/
def execWseed (f : TF) (s : State) : Host.Outcome State Fault Refusal :=
  issue (do
    let x ← readS f.x f.xw
    onRegs fun r => { r with wseed := BitVec.ofNat 64 (fld x 31 0) }) s

/-- WSEED_H: the hashed seed (R229). -/
def execWseedH (f : TF) (s : State) : Host.Outcome State Fault Refusal :=
  issue (do
    let x ← readS f.x f.xw
    let y ← readS f.y f.yw
    onRegs fun r => { r with wseed := (hash32 (x.extractLsb' 0 32) (y.extractLsb' 0 32)).setWidth 64 }) s

/-- The window that a core waits for is loaded into its cell's weave store, and the core's WIN names it (R230). What cannot be read
now raises its fault in the operation that needs it, or makes it ask again for a line of another package. -/
def execWeaveWindowLoad (core : Nat) (s : State) : Host.Outcome State Fault Refusal :=
  match (s.core core).need, (s.core core).run with
  | .weave d, some k =>
    let w := (s.core core).src.wtab
    let c := s.cell (cellOf core)
    let again := s.modCore core fun c => { c with need := .none }
    if (s.linesAt (s.ctx core) (windowAddr w (d / 64)) windowBytes).any fun l => isRemote l && (k.remote.find l).isNone then
      event (!s.paused) again
    else match s.readNowFrom k.remote (s.ctx core) (windowAddr w (d / 64)) windowBytes with
    | (_, .error _) => event (!s.paused) again
    | (s, .ok bs) =>
      event (!s.paused) ((s.setCell (cellOf core) { c with weave := some ((s.ctx core).kid, fld w 44 0, d / 64, bs) }).modCore core
        fun c => { c with weaveGot := c.weaveGot.put (d / 64) bs, need := .none,
                          regs := { c.regs with wtab := setFld c.regs.wtab 50 45 (d / 64) } })
  | _, _ => .fault .notEnabled

end Sys2Proof.Machine
end

