-- ==== Sys2Proof/Machine/Context.lean ====
section
/-!
DEFINITION. The saved context (R128-R130, R281): the bytes of a save area, a save as one commit, and the registers that a
resume reads back.
-/
namespace Sys2Proof.Machine

/-- Bytes of a save area (R128). -/
def saveSize : Nat := 29184

/-- A loop-level word (R281): the level in a slot, or the inactive word. -/
def levelWord : Option LoopLevel → Word64
  | some l => BitVec.ofNat 64 (fld l.start 56 3 * 2 ^ 10 + l.lcr.toNat * 2 ^ 8 + (l.len - 1))
  | none => 0x300

/-- The 64 bytes of a stream record (R129). -/
def streamRecord : Option Stream → List Byte
  | none => bytesOf 64 0
  | some st =>
    let d0 := if st.c0 = 0 then 1 else st.c0
    let d1 := if st.c1 = 0 then 1 else st.c1
    (([st.base.toNat, st.s0.toNat + st.s1.toNat * 2 ^ 32,
      st.s2.toNat + st.c0 % 2 ^ 16 * 2 ^ 32 + st.c1 % 2 ^ 16 * 2 ^ 48,
      st.c2 % 2 ^ 16 + bit st.write * 2 ^ 19 + st.pane * 2 ^ 20 + st.esz * 2 ^ 23,
      st.pos % d0, st.pos / d0 % d1, st.pos / (d0 * d1),
      st.c0 / 2 ^ 16 % 2 ^ 16 + st.c1 / 2 ^ 16 % 2 ^ 16 * 2 ^ 16 + st.c2 / 2 ^ 16 % 2 ^ 16 * 2 ^ 32] : List Nat).map
        (bytesOf 8)).flatten

/-- The 32 control words of a save area (R129). -/
def controlWords (c : Core) : List Word64 :=
  let r := c.regs
  [r.pc] ++ r.lc.toList ++ [levelWord r.levels[0]?, levelWord r.levels[1]?, levelWord r.levels[2]?] ++
    [r.g, r.frm, r.sidx, r.fstat, r.msel, r.vshare, c.stalls] ++ r.pane.toList ++ [r.wseed, r.wtab] ++ List.replicate 9 0

/-- The contents of a save area (R129): handles as `sth` stores them. -/
def State.saveBytes (s : State) (i : Nat) : List Byte :=
  let c := s.core i
  let r := (List.finRange 16).foldl (fun r j => s.freshH i r j) c.regs
  (r.v.toList.map fun x => bytesOf 512 x.toNat).flatten ++
  ((List.zip r.asum.toList r.aerr.toList).map fun p => bytesOf 1024 p.1.toNat ++ bytesOf 1024 p.2.toNat).flatten ++
  (r.e.toList.map fun x => bytesOf 512 x.toNat).flatten ++
  bytesOf 128 (2 ^ 1024 - 1) ++ ((r.m.toList.drop 1).map fun x => bytesOf 128 x.toNat).flatten ++
  (r.s.toList.map fun x => bytesOf 8 x.toNat).flatten ++
  (r.k.toList.map fun x => bytesOf 8 x.toNat).flatten ++
  (r.h.toList.map fun x => bytesOf 8 x.toNat).flatten ++
  ((controlWords c).map fun x => bytesOf 8 x.toNat).flatten ++
  (r.q.toList.map streamRecord).flatten ++ bytesOf 128 0

/-- The address of the first poisoned line that a save of the context would meet under the task's key ID (R367, R374). -/
def State.savePoison (s : State) (kid : Nat) (a : Word64) (ps : List (Nat × Nat)) : Option Word64 :=
  (List.zip ps (addrPieces a saveSize)).findSome? fun p =>
    if !isRemote (p.1.1 / 128) && (s.readLine kid (p.1.1 / 128)).2.2 then some p.2.1 else none

/-- The held bytes of a context save, or the code and address of the fault it meets (R128, R367): a save at the delivery of a
fault also stops at a poisoned line, which any other save writes whole (R46). -/
def State.saveCells (s : State) (i : Nat) (a : Word64) (delivery : Bool) : Except (Code × Word64) (NMap (BitVec 8 × BitVec 8)) :=
  if 0xFFC ≤ apertureOf a then .error (0x11, a)
  else match (s.locateW (s.ctx i) .write a saveSize).2 with
    | .error (.fault code x _) => .error (code, x)
    | .error _ => .error (0x14, a)
    | .ok ps => match if delivery then s.savePoison (s.ctx i).kid a ps else none with
      | some x => .error (0x20, x)
      | none => .ok (cellsAt ps (s.saveBytes i))

/-- Whether every message that a core's task has sent has left its cell (R254). -/
def State.sentAll (s : State) (i : Nat) : Bool := !(s.cell (cellOf i)).inject.any (·.core == i)

/-- Whether a save can be granted now: no engine or transit on its lines, the priority token does not hold it back, and the
log admits it (R99, R247, R416); messages that the core's task has sent leave before it may go on elsewhere (R254), and the
batches of windows that closed during a pause come first (R384). -/
def State.saveReady (s : State) (i : Nat) (m : NMap (BitVec 8 × BitVec 8)) : Bool :=
  s.sentAll i && !s.batchesFirst && !s.heldBack m && !s.tokenBlocks (cellsSig m) (some i) && s.admits (((s.core i).owedValues.map (·.vals.length)).sum + 1) 5 (fun w => entryCore w == i % 2 ^ 16) && !s.paused

/-- What the walks of a save's area leave (R32). -/
def State.saveWalk (s : State) (i : Nat) (a : Word64) : State :=
  if 0xFFC ≤ apertureOf a then s else (s.locateW (s.ctx i) .write a saveSize).1

/-- The context of a core is written at an address, as one commit (R128): its walks set their accessed bits, and its pages their dirty
bits (R32); values that no entry of the task has carried into a log go with it (R416). -/
def State.saveContext (s : State) (i kid : Nat) (a : Word64) (m : NMap (BitVec 8 × BitVec 8)) : State :=
  let s := (s.saveWalk i a).dirtyAt (s.ctx i) a saveSize
  s.commitBytes kid (i % 2 ^ 16) (s.core i).owedValues (5 * 2 ^ 60 + i % 2 ^ 16 * 2 ^ 44) m

/-! ## Reading a save area back -/

/-- Word j at an offset of a save area's bytes, as one number. -/
def areaWord (x : Nat) (off j : Nat) : Word64 := BitVec.ofNat 64 (x >>> (8 * (off + 8 * j)))

/-- A loop level from its word: none where the word breaks R281, and within, none for an inactive level. -/
def levelOf (w : Word64) : Option (Option LoopLevel) :=
  if fld w 9 8 = 3 then (if w = 0x300 then some none else none)
  else some (some { start := ((w.extractLsb' 10 54) ++ (0 : BitVec 3)).signExtend 64, lcr := w.extractLsb' 8 2,
                    len := fld w 7 0 + 1 })

/-- The loop levels from three words, outermost first, or none where R281 refuses them. -/
def levelsOf (ws : List Word64) : Option (List LoopLevel) :=
  match ws.map levelOf with
  | [some a, some b, some c] =>
    let l := [a, b, c].filterMap id
    if (a.isNone && (b.isSome || c.isSome)) || (b.isNone && c.isSome) then none
    else if (l.map (·.lcr)).eraseDups.length ≠ l.length then none
    else some l
  | _ => none

/-- A stream from its record under the saved pane descriptors: none where R116 or R130 refuses the record, and within, none
for an unbound stream. A nonzero LCF field is refused and a position beyond its count accepted, on which R130 is silent (log 58). -/
def streamOf (pane : Nat → Word64) (x off : Nat) : Option (Option Stream) :=
  let w (j : Nat) := areaWord x off j
  if (List.range 8).all fun j => w j == 0 then some none
  else
    let c0 := fld (w 2) 47 32 + fld (w 7) 15 0 * 2 ^ 16
    let c1 := fld (w 2) 63 48 + fld (w 7) 31 16 * 2 ^ 16
    let c2 := fld (w 3) 15 0 + fld (w 7) 47 32 * 2 ^ 16
    let p := fld (w 3) 22 20
    let scl := if p = 0 then 0 else fld (pane p) 9 8
    if fld (w 7) 63 48 ≠ 0 ∨ fld (w 3) 63 26 ≠ 0 ∨ fld (w 3) 18 16 ≠ 0 ∨ 4 ≤ fld (w 3) 25 23 then none
    else if scl ≠ 0 ∧ (fld (w 1) 31 0 ≠ 1 ∨ c0 % 32 ≠ 0 ∨ fld (w 0) 17 0 % 32 ≠ 0) then none
    else
      let d0 := if c0 = 0 then 1 else c0
      let d1 := if c1 = 0 then 1 else c1
      some (some { base := w 0, s0 := BitVec.ofNat 32 (fld (w 1) 31 0), s1 := BitVec.ofNat 32 (fld (w 1) 63 32),
                   s2 := BitVec.ofNat 32 (fld (w 2) 31 0), c0 := c0, c1 := c1, c2 := c2, esz := fld (w 3) 25 23,
                   pane := p, write := bitAt (w 3) 19, bid := 0,
                   pos := (w 4).toNat + d0 * ((w 5).toNat + d1 * (w 6).toNat), ahead := 0, buf := 0 })

/-- The words of a save area in which a resume may find what R130, R281 or R116 forbids, in ascending order, and whether it
does. -/
def areaChecks (x : Nat) : List (Nat × Bool) :=
  let cw (j : Nat) := areaWord x 0x6E80 j
  let pane (p : Nat) := cw (13 + p)
  let at_ (j : Nat) (bad : Bool) : Nat × Bool := (0x6E80 + 8 * j, bad)
  let levels := [4, 5, 6].map fun j => at_ j (levelsOf ([4, 5, 6].map fun i => if i ≤ j then cw i else 0x300)).isNone
  levels ++
    [at_ 7 (fld (cw 7) 63 45 != 0), at_ 8 (cw 8 &&& 0xFFFFFFFFF000FFE0 != 0), at_ 9 (fld (cw 9) 63 32 != 0),
     at_ 10 (fld (cw 10) 63 5 != 0), at_ 11 (fld (cw 11) 63 3 != 0), at_ 12 (fld (cw 12) 63 4 != 0)] ++
    ((List.range 7).map fun j => at_ (14 + j) (cw (14 + j) &&& ~~~paneMask != 0)) ++ [at_ 21 (fld (cw 21) 63 32 != 0)] ++
    ((List.range 9).map fun j => at_ (23 + j) (cw (23 + j) != 0)) ++
    ((List.range 8).map fun q => (0x6F80 + 64 * q, (streamOf pane x (0x6F80 + 64 * q)).isNone)) ++
    ((List.range 16).map fun j => (0x7180 + 8 * j, areaWord x 0x7180 j != 0))

/-- The place of the first word of a save area that a resume refuses (R130, R367); of a stream record its first word. -/
def areaFault (x : Nat) : Option Nat := ((areaChecks x).find? (·.2)).map (·.1)

/-- The registers of a save area and its STALLS word, or none where R130 or R281 refuses it. Handles are settled by the
caller (R108). -/
def regsOf (x : Nat) : Option (Regs × Word64) :=
  let cw (j : Nat) := areaWord x 0x6E80 j
  let pane (p : Nat) := cw (13 + p)
  let qs := (List.range 8).map fun q => streamOf pane x (0x6F80 + 64 * q)
  match levelsOf [cw 4, cw 5, cw 6] with
  | none => none
  | some ls =>
    if (areaFault x).isSome then none
    else
      some ({ Regs.reset with
        pc := cw 0
        v := Vector.ofFn fun j => BitVec.ofNat 4096 (x >>> (4096 * j.val))
        asum := Vector.ofFn fun j => BitVec.ofNat 8192 (x >>> (8 * (0x4000 + 2048 * j.val)))
        aerr := Vector.ofFn fun j => BitVec.ofNat 8192 (x >>> (8 * (0x4400 + 2048 * j.val)))
        e := Vector.ofFn fun j => BitVec.ofNat 4096 (x >>> (8 * (0x6000 + 512 * j.val)))
        m := Vector.ofFn fun j => if j.val = 0 then 0 else BitVec.ofNat 1024 (x >>> (8 * (0x6800 + 128 * j.val)))
        s := Vector.ofFn fun j => areaWord x 0x6C00 j.val
        k := Vector.ofFn fun j => areaWord x 0x6D00 j.val
        h := Vector.ofFn fun j => areaWord x 0x6E00 j.val
        lc := Vector.ofFn fun j => cw (1 + j.val)
        levels := ls
        g := cw 7, frm := cw 8, sidx := cw 9, fstat := cw 10, msel := cw 11, vshare := cw 12
        pane := Vector.ofFn fun j => cw (14 + j.val)
        wseed := cw 21, wtab := cw 22
        q := Vector.ofFn fun j => (qs.getD j.val none).getD none }, cw 13)

/-- Settle every handle of registers restored on a core (R108, R130). -/
def Regs.settleAll (s : State) (core : Nat) (r : Regs) : Regs :=
  (List.finRange 16).foldl (fun r j => r.enterH s core j (r.h.get j)) r

end Sys2Proof.Machine
end

