-- ==== Sys2Proof/Machine/Tasks.lean ====
section
/-!
DEFINITION. Creating and ending tasks (R301-R304, R319), and a task's start, save and resume on its core (R128-R130, R302,
R327, R328, R342, R349, R458).
-/
namespace Sys2Proof.Machine

/-! ## Instructions -/

/-- The checks at issue of an address that names a record (R301, R303, R315, R321): alignment, then addressing. -/
def checkRecord (a : Word64) : Act Unit := do
  checkAlign a 64
  let s ← get
  let _ ← liftStop (locate s (s.ctx s.cur) .read a 64)
  pure ()

/-- TSPAWN (R301). -/
def tspawnAct (f : MF) : Act Unit := do
  let a ← addrM f 64
  checkRecord a
  holdWithLine (.tspawn a)

/-- TSPAWN: hold the enqueueing of a task record (R301). -/
def execTspawn (f : MF) (s : State) : Host.Outcome State Fault Refusal := issue (tspawnAct f) s

/-- TSPAWNC (R302): s0 to s7 of the continuation go into its save area. -/
def tspawncAct (f : MF) : Act Unit := do
  let a ← addrM f 64
  let xs ← (List.range 8).mapM fun j => readS (f.x + BitVec.ofNat 5 j) f.xw
  checkRecord a
  let b ← chunkRead (a + 16) 8
  let save : Word64 := BitVec.ofNat 64 (ofBytes b)
  chunkWrite (save + 0x6C00) (xs.map fun x => bytesOf 8 x.toNat).flatten
  holdWithLine (.tspawnc a save)

/-- TSPAWNC: hold the enqueueing of a continuation (R302). -/
def execTspawnc (f : MF) (s : State) : Host.Outcome State Fault Refusal := issue (tspawncAct f) s

/-- Fault 0x34 of an instruction that ends a task inside a shutter routine (R349); inside a span 0x39 comes first. -/
def endsOutside : Act Unit := do
  let s ← get
  faultIf s.chunk.span.isSome 0x39
  faultIf (s.shutGang s.cur).isSome 0x34

/-- SUSPEND (R303). -/
def suspendAct (f : TF) : Act Unit := do
  endsOutside
  let a ← readS f.x f.xw
  checkRecord a
  hold (.suspend a)
  cutChunk .suspend

/-- SUSPEND: end the task and register its continuation (R303). -/
def execSuspend (f : TF) (s : State) : Host.Outcome State Fault Refusal := issue (suspendAct f) s

/-- DONE (R304). -/
def doneAct : Act Unit := do
  endsOutside
  hold .done
  cutChunk .done

/-- DONE: end the task (R304). -/
def execDone (_p : Bool) (s : State) : Host.Outcome State Fault Refusal := issue doneAct s

/-- TRAP (R319). -/
def trapAct (f : TF) : Act Unit := do
  endsOutside
  let x ← readS f.x f.xw
  let s ← get
  hold (.trap f.f7 x s.src.pc)
  cutChunk .trap

/-- TRAP: a software trap after the chunk's commit (R319). -/
def execTrap (f : TF) (s : State) : Host.Outcome State Fault Refusal := issue (trapAct f) s

/-! ## Gangs -/

/-- A task leaves its core for good: its gang, its core, its priority token. -/
def State.taskEnds (s : State) (i : Nat) (t : Task) : State := (s.freeCore i).leaveGang t

/-- A task that cannot start or resume ends abandoned (R327, R367); a handler fails (R370). -/
def State.cannotRun (s : State) (i : Nat) (t : Task) (code : Code) (a : Word64) : State :=
  let s := (s.taskError i code a t.kid).taskEnds i t
  if t.handlerOf.isSome then s.handlerFails i t else s.abandon t

/-! ## Starting -/

/-- The reads of a fresh start (R119, R302): address and length, with the code of a failure. -/
def Task.startReads (t : Task) : List (Word64 × Nat × Code) :=
  (if recW t.words 1 = 0 then [] else [(recW t.words 1, 256, (0x0A : Code))]) ++
    (match t.contSave with
      | some a => [(a + 0x6C00, 64, (0x0B : Code))]
      | none => [])

/-- Make reads in order, up to the first that fails. -/
def State.readAll (s : State) (c : Ctx) : List (Word64 × Nat × Code) → State × Except (Code × Word64) (List (List Byte))
  | [] => (s, .ok [])
  | (a, n, code) :: t =>
    match s.readNow c a n with
    | (s, .error (_, x)) => (s, .error (code, x))
    | (s, .ok b) =>
      match s.readAll c t with
      | (s, .error e) => (s, .error e)
      | (s, .ok bs) => (s, .ok (b :: bs))

/-- The registers of a fresh start (R327): the constant bank, and s0 to s7 as the scheduler gives them. -/
def startRegs (t : Task) (k s0 : Nat) : Regs :=
  { Regs.reset with
    pc := recW t.words 0
    k := Vector.ofFn fun j => BitVec.ofNat 64 (k >>> (64 * j.val))
    s := Vector.ofFn fun j => if j.val < 8 then BitVec.ofNat 64 (s0 >>> (64 * j.val)) else 0
    entry := true }

/-- A core with a task that begins or resumes on it (R237, R327, R328). A save that has been asked for meanwhile is still to come (R384). -/
def Core.begin (c : Core) (t : Task) (r : Regs) (stalls : Word64) (w : CoreWait) : Core :=
  { Core.reset with task := some t, regs := r, src := r, stalls := stalls, wait := w, deficit := c.deficit,
                    since := c.since, sliceFrom := c.sliceFrom, fromUrgent := c.fromUrgent, saveWhy := c.saveWhy,
                    lastPart := t.lastPart, redo := t.redo }

/-- Whether a unit's reads may go on: nothing is missing, or something has not been asked for yet. -/
def State.mayRead (s : State) (ls : List Nat) : Bool := ls.isEmpty || ls.any fun l => !s.asked.contains l

/-- The cores on which the members of a core's gang wait as it does: they start in one cycle (R338). -/
def State.mates (s : State) (core : Nat) (t : Task) : List Nat :=
  if t.gang.isNone then [core]
  else (s.cores.filter fun p => p.2.wait == (s.core core).wait && (match p.2.task with
    | some u => u.gang == t.gang
    | none => false)).map (·.1)

/-- A placed task starts fresh on its core (R327). The members of a shutter gang have their number in s0, whatever else s0 to s7 are to
hold, and wait for their phase (R347). -/
def State.startTask (s : State) (core : Nat) : State :=
  match (s.core core).task with
  | none => s
  | some t =>
    match s.readAll (s.ctx core) t.startReads with
    | (s, .error (code, a)) => s.cannotRun core t code a
    | (s, .ok bs) =>
      let k := if recW t.words 1 = 0 then 0 else ofBytes (bs.headD [])
      let s0 := if t.contSave.isSome then ofBytes (bs.getLastD []) else t.s0.toNat
      let s0 := if recShut t.words then s0 / 2 ^ 64 * 2 ^ 64 + t.member else s0
      let t := { t with started := true, s0 := BitVec.ofNat 512 s0, contSave := none }
      s.modCore core fun c => c.begin t (startRegs t k s0) 0 (if (s.shutGang core).isSome then .shutter else .none)

/-- The lines that the starts of tasks on some cores read. -/
def State.startLines (s : State) (l : List Nat) : List Nat :=
  (l.map fun i => match (s.core i).task with
    | some t => (t.startReads.map fun r => s.linesAt (s.ctx i) r.1 r.2.1).flatten
    | none => []).flatten.eraseDups

/-- TASK_START: a placed task starts fresh, with the other members of its gang (R327, R338). What it reads that lies on another package is
asked for first (R40), and what a copy command is still to write is waited for (R98). -/
def execTaskStart (core : Nat) (s : State) : Host.Outcome State Fault Refusal :=
  match (s.core core).task with
  | none => .fault .notEnabled
  | some t =>
    let l := s.mates core t
    let used := s.startLines l
    let ls := s.notHere used
    event ((s.core core).wait == .start && !s.paused && !s.anyClaimed used && s.mayRead ls)
      (if !ls.isEmpty then s.ask t.kid ls else (l.foldl State.startTask s).dropFar used)

/-! ## Saving -/

/-- A save whose area lies on another package is a commit of its task that sends parts (R128, R261). -/
def Core.notesParts (c : Core) (m : NMap (BitVec 8 × BitVec 8)) (win : Nat) : Core :=
  if sendsParts m then { c with lastPart := some win } else c

/-- A saved task as it returns to a queue (R128, R290). -/
def Core.savedTask (c : Core) (t : Task) (why : SaveWhy) : Task :=
  { t with resume := true, atClosure := why == .shutter, entryAt := if c.regs.entry then some c.regs.pc else none,
           lastPart := c.lastPart, redo := c.redo }

/-- A saved task goes back to its cluster's ready queue (R342, R345); the members of a gang together once all are saved, to
the gang's home cluster (R349, R458), or all wait for its restart (R377). -/
def State.requeue (s : State) (i : Nat) (t : Task) : State :=
  match t.gang with
  | none => (s.enqueue (clusterOf i) [t] false).freeCore i
  | some g =>
    match s.gangs.find g with
    | none => (s.enqueue (clusterOf i) [t] false).freeCore i
    | some x =>
      let s := s.freeCore i
      ({ s with gangs := s.gangs.put g { x with saved := x.saved ++ [t] } } : State).regang g

/-- CONTEXT_SAVE: a task is saved at a chunk boundary and leaves its core (R128, R342); a save that faults abandons it
(R367). A handler that has run longer than its job's SLICE fails there instead (R370), and a member of a gang that restarts
leaves its core unsaved (R377), once the messages that it has sent have left (R254). One that yields goes back to its core if nothing
else can take it (R345). -/
def execContextSave (core : Nat) (s : State) : Host.Outcome State Fault Refusal :=
  let c := s.core core
  match c.task, c.saveWhy with
  | some t, some why =>
    let ok := c.atRest && c.fault.isNone &&
      ((c.wait == .none && (s.shutGang core).isNone) || (c.wait == .shutter && why == .shutter))
    if why == .restart then
      event (c.atRest && c.fault.isNone && (c.wait == .none || c.wait == .shutter) && !s.paused && s.sentAll core)
        (s.requeue core { t with lastPart := c.lastPart })
    else if t.handlerOf.isSome && why == .slice then event (ok && !s.paused) ((s.taskEnds core t).handlerFails core t)
    else match s.saveCells core t.save false with
    | .error (_, a) => event (ok && !s.paused) ((s.saveWalk core t.save).cannotRun core t 0x0B a)
    | .ok m =>
      event (ok && s.saveReady core m) ((s.saveContext core t.kid t.save m).requeue core
        { (c.notesParts m s.window).savedTask t why with keep := if why == .spin then some core else t.keep })
  | _, _ => .fault .notEnabled

/-! ## Resuming -/

/-- The registers that a resume finds, or the failing address (R130, R367). -/
def State.resumeRegs (s : State) (core : Nat) (t : Task) : State × Except Word64 (Regs × Word64) :=
  match s.readNow (s.ctx core) t.save saveSize with
  | (s, .error (_, a)) => (s, .error a)
  | (s, .ok bs) =>
    match regsOf (ofBytes bs) with
    | none => (s, .error (t.save + BitVec.ofNat 64 ((areaFault (ofBytes bs)).getD 0)))
    | some (r, st) => (s, .ok ({ r.settleAll s core with entry := t.entryAt == some r.pc }, st))

/-- Whether a WTAB word names a window that a resume loads: a task that has no table has none (log 55). -/
def windowNamed (w : Word64) : Bool := decide (fld w 63 51 ≤ 4096 ∧ 64 * fld w 50 45 < fld w 63 51)

/-- At a resume the weave unit loads the saved window; a load that faults leaves the store empty (R230). -/
def State.reloadWeave (s : State) (core : Nat) (w : Word64) : State :=
  if !windowNamed w then s
  else
    let c := s.ctx core
    let (s, r) := s.readNow c (windowAddr w (fld w 50 45)) windowBytes
    let cell := s.cell (cellOf core)
    match r with
    | .ok bs => s.setCell (cellOf core) { cell with weave := some (c.kid, fld w 44 0, fld w 50 45, bs) }
    | .error _ => s.setCell (cellOf core) { cell with weave := none }

/-- A saved task continues on its core (R128, R130, R328). -/
def State.resumeTask (s : State) (core : Nat) : State :=
  match (s.core core).task with
  | none => s
  | some t =>
    match s.resumeRegs core t with
    | (s, .error a) => s.cannotRun core t 0x0B a
    | (s, .ok (r, stalls)) =>
      let u := { t with entryAt := none, atClosure := false }
      (s.modCore core fun c => c.begin u r stalls (if t.atClosure then .shutter else .none)).reloadWeave core r.wtab

/-- The lines that the resume of a task on a core reads: its save area, and as soon as that can be read the weave window that it
names. -/
def State.resumeLinesOf (s : State) (core : Nat) (t : Task) : List Nat :=
  let c := s.ctx core
  let ls := s.linesAt c t.save saveSize
  if s.anyClaimed ls ∨ !(s.notHere ls).isEmpty then ls
  else match (s.readNow c t.save saveSize).2 with
    | .error _ => ls
    | .ok bs =>
      let w := areaWord (ofBytes bs) 0x6E80 22
      if windowNamed w then ls ++ s.linesAt c (windowAddr w (fld w 50 45)) windowBytes else ls

/-- The same of the tasks on some cores. -/
def State.resumeLines (s : State) (l : List Nat) : List Nat :=
  (l.map fun i => match (s.core i).task with
    | some t => s.resumeLinesOf i t
    | none => []).flatten.eraseDups

/-- CONTEXT_RESUME: a saved task continues on the core that the scheduler gave it, with the other members of its gang (R128,
R130, R328, R338). -/
def execContextResume (core : Nat) (s : State) : Host.Outcome State Fault Refusal :=
  match (s.core core).task with
  | none => .fault .notEnabled
  | some t =>
    let l := s.mates core t
    let used := s.resumeLines l
    let ls := s.notHere used
    event ((s.core core).wait == .resume && !s.paused && !s.anyClaimed used && s.mayRead ls)
      (if !ls.isEmpty then s.ask t.kid ls else (l.foldl State.resumeTask s).dropFar used)

end Sys2Proof.Machine
end

