-- ==== Sys2Proof/Machine/Messages.lean ====
section
/-!
DEFINITION. Messages (R254, R308, R309, R389, R390): `send`, `recv`, the injection and receive queues, and the error
messages of what cannot be delivered.
-/
namespace Sys2Proof.Machine

/-- SEND (R308). -/
def sendAct (f : TF) : Act Unit := do
  let d ← readS f.x f.xw
  faultIf (fld d 63 26 != 0 || decide (48 ≤ fld d 12 7)) 0x53
  let v ← readV f.y.toNat f.yw
  holdWithLine (.send d (v.extractLsb' 0 512))
  settleFlags

/-- SEND: hold a message until the grant (R295, R308). -/
def execSend (f : TF) (s : State) : Host.Outcome State Fault Refusal := issue (sendAct f) s

/-- The header word of a popped message (R309). -/
def msgHeader (m : Msg) : Nat :=
  (if m.code = 0 then 0 else 2 ^ 63) + m.code.toNat * 2 ^ 55 + 2 ^ 54 + m.src.toNat

/-- The 512 bytes that a popped message gives (R309): payload, header, zeros. -/
def msgVReg (m : Msg) : VReg := BitVec.ofNat 4096 ((if m.code = 0 then m.body.toNat else 0) + msgHeader m * 2 ^ 512)

/-- The core of this package that a message is addressed to. -/
def msgCore (m : Msg) : Nat := (coreOfId (m.dst.toNat % 2 ^ 16)).getD 0

/-- The oldest message that a core's task may pop (R309); in replay the logged one, by source and ordinal (R418). -/
def State.nextMsg (s : State) (i kid : Nat) (want : Option (Nat × Nat)) : Option QMsg :=
  (s.cell (cellOf i)).recvQ.find? fun q => !q.taken && msgCore q.msg == i && q.msg.kid == kid &&
    (match want with
      | some (src, ord) => q.msg.src.toNat == src && q.ord == ord
      | none => true)

/-- Mark a message as popped, provisionally (R254). -/
def Cell.take (c : Cell) (id : Nat) : Cell :=
  { c with recvQ := c.recvQ.map fun q => if q.id = id then { q with taken := true } else q }

/-- Write 512 bytes to the destination of a `recv`: a push where it is bound to a write stream (R112, R114). -/
def recvWrite (x : BitVec 5) (d : VReg) : Act Unit := do
  let s ← get
  match s.bound x.toNat with
  | some st => do
    pushStream x.toNat st d (2 ^ 4096 - 1)
    settleFlags
  | none => onRegs (·.putV x d)

/-- What a logged message entry names (R416): nothing for an empty poll. -/
def loggedMsg (e : Word64 × Word64) : Option (Nat × Nat) :=
  if bitAt e.2 63 then none else some (fld e.2 25 0, fld e.1 31 0)

/-- RECV (R309). -/
def recvAct (poll : Bool) (f : TF) : Act Unit := do
  let s0 ← get
  match s0.bound f.x.toNat with
  | some st => faultIf (!st.write) 0x51
  | none => waitOn (1, f.x.toNat)
  let r ← replayed 4 1
  let s ← get
  let want := match r with
    | some (e :: _) => loggedMsg e
    | _ => none
  let empty := r.isSome && want.isNone
  match (if empty then none else s.nextMsg s.cur (s.ctx s.cur).kid want) with
  | some q =>
    if r.isNone then noteValue 4 q.ord [BitVec.ofNat 64 q.msg.src.toNat] else pure ()
    change fun s => s.setCell (cellOf s.cur) ((s.cell (cellOf s.cur)).take q.id)
    onChunk fun k => { k with pops := k.pops ++ [q.id] }
    recvWrite f.x (msgVReg q.msg)
  | none =>
    if poll then
      waitIf (want.isSome) .msg
      if r.isNone then noteValue 4 0 [BitVec.ofNat 64 (2 ^ 63)] else pure ()
      recvWrite f.x 0
    else
      waitIf (s.bound f.x.toNat).isSome .msg
      let id ← fresh
      if r.isNone then noteValue 4 id [] else pure ()
      let k := s.chunk.seq
      let pc := s.src.pc
      let href : Word64 := match want with
        | some (src, ord) => BitVec.ofNat 64 (2 ^ 63 + src + ord % 2 ^ 32 * 2 ^ 26)
        | none => 0
      onRegs fun r => { r.emptyV f.x with flights := r.flights ++
        [{ id := id, chunk := k, kind := .recv, writes := [], pc := pc, poison := none, todo := [], got := [], dst := f.x,
           code := 0, href := href }] }

/-- RECV: pop a message, or wait for one (R309). -/
def execRecv (f : TF) (s : State) : Host.Outcome State Fault Refusal := issue (recvAct false f) s
/-- RECV_POLL: pop a message, or write zeros (R309). -/
def execRecvPoll (f : TF) (s : State) : Host.Outcome State Fault Refusal := issue (recvAct true f) s

/-! ## Flights that complete -/

/-- Change the chunk of a core that a flight belongs to. -/
def Core.onChunkOf (c : Core) (seq : Nat) (f : Chunk → Chunk) : Core :=
  match c.pend with
  | some k => if k.seq = seq then { c with pend := some (f k) }
    else { c with run := c.run.map fun k => if k.seq = seq then f k else k }
  | none => { c with run := c.run.map fun k => if k.seq = seq then f k else k }

/-- Give the values of a read in flight to its place among the values of its chunk (R416). -/
def Chunk.fillValue (vk id ord : Nat) (vals : List Word64) (k : Chunk) : Chunk :=
  { k with values := k.values.map fun v => if v.vk = vk ∧ v.ord = id ∧ v.vals = [] then ⟨vk, ord, vals⟩ else v }

/-- End a flight wherever it is in progress, with a change of the registers (R124, R158). -/
def Regs.endFlight (id : Nat) (f : Regs → Regs) (r : Regs) : Regs :=
  if r.flights.any (·.id == id) then f { r with flights := r.flights.filter (·.id != id) } else r

/-! ## The queues -/

/-- Whether a receive queue has an entry for a message to a core (R390): one of the core's eight, or a shared one. -/
def Cell.hasEntry (c : Cell) (core : Nat) : Bool :=
  let of (j : Nat) : Nat := (c.recvQ.filter fun q => msgCore q.msg % 4 == j).length
  let extra (n : Nat) : Nat := n - 8
  decide (of (core % 4) < 8) || decide (extra (of 0) + extra (of 1) + extra (of 2) + extra (of 3) < 32)

/-- Send a message on its way: to a core of this package, or out (R308). -/
def State.dispatchMsg (s : State) (m : Msg) : State :=
  if m.dst.toNat / 2 ^ 16 = s.pkg then { s with mail := s.mail ++ [.messageArrival m] } else { s with outs := s.outs ++ [.msg m] }

/-- The error message for a message that cannot be delivered (R308, R309); an error message has none. -/
def State.undeliverable (s : State) (m : Msg) : State :=
  if m.code ≠ 0 then s
  else s.dispatchMsg { dst := m.src, src := m.dst, kid := m.kid, code := 0x55, body := 0 }

/-- Whether a package exists in the domain (R308, R351). -/
def State.packageExists (s : State) (p : Nat) : Bool := p == s.pkg || (s.domain && decide (p < s.npkg))

/-- Whether stage 0 may hold a request to combine it with others (R358, R391): a vote, or a far fetch-and-add. -/
def Out.combines : Out → Bool
  | .vote _ _ => true
  | .atomic _ r => r.op == 0
  | _ => false

/-- A request leaves stage 0 alone: a vote or a drop for a slot of this package reaches it. -/
def State.letGo (s : State) (o : Out) : State :=
  match o with
  | .vote p v => if p = s.pkg then { s with mail := s.mail ++ [.voteArrival v] } else { s with outs := s.outs ++ [o] }
  | .drop p d => if p = s.pkg then { s with mail := s.mail ++ [.hoopdropArrival d] } else { s with outs := s.outs ++ [o] }
  | _ => { s with outs := s.outs ++ [o] }

/-- A request reaches stage 0 from a core (R358, R387, R391): one that may be combined is held there, with the core's die as its
input port (log 60). -/
def State.stage0 (s : State) (i : Nat) (o : Out) : State :=
  if o.combines then { s with holds := s.holds ++ [{ out := o, port := dieOf i, since := s.dt }] }
  else s.letGo o

/-- Whether a hoop join that was granted before a CSN waits in some injection queue. -/
def State.joinWaits (s : State) (csn : Nat) : Bool := s.cells.any fun p => p.2.inject.any fun x => match x with
  | .req (.join _ _) _ n => decide (n < csn)
  | _ => false

/-- Whether the oldest entry of an injection queue may leave: a vote comes after every join that was granted before it (R315,
R352). -/
def State.mayInject (s : State) : Inject → Bool
  | .req (.vote _ _) _ n => !s.joinWaits n
  | _ => true

/-- INJECTION_SEND: the oldest entry of a cell's injection queue leaves it (R389). -/
def execInjectionSend (cell : Nat) (s : State) : Host.Outcome State Fault Refusal :=
  match (s.cell cell).inject with
  | [] => .fault .notEnabled
  | x :: t =>
    let s' := s.setCell cell { s.cell cell with inject := t }
    event (!s.paused && s.mayInject x)
      (match x with
        | .msg m _ => if s.packageExists (m.dst.toNat / 2 ^ 16) then s'.dispatchMsg m else s'.undeliverable m
        | .req o i _ => s'.stage0 i o)

/-- The oldest `recv` of a core that waits for a message with this key ID, source and ordinal. -/
def State.waitingRecv (s : State) (i : Nat) (m : Msg) (ord : Nat) : Option Flight :=
  if (s.ctx i).kid ≠ m.kid ∨ (s.core i).task.isNone then none
  else (s.core i).regs.flights.find? fun f => f.kind == .recv &&
    (!bitAt f.href 63 || (fld f.href 25 0 == m.src.toNat && fld f.href 57 26 == ord % 2 ^ 32))

/-- A message enters its receive queue; the oldest `recv` that waits for it takes it (R124, R309). -/
def State.acceptMsg (s : State) (m : Msg) : State :=
  let i := msgCore m
  let key := m.src.toNat * 2 ^ 16 + i
  let ord := s.msgOrd.get key 0
  let id := s.moment
  let s := { s with moment := s.moment + 1, msgOrd := s.msgOrd.put key (ord + 1) }
  let c := s.cell (cellOf i)
  match s.waitingRecv i m ord with
  | none => s.setCell (cellOf i) { c with recvQ := c.recvQ ++ [⟨id, m, ord, false⟩] }
  | some f =>
    let s := s.setCell (cellOf i) { c with recvQ := c.recvQ ++ [⟨id, m, ord, true⟩] }
    s.modCore i fun c =>
      (c.onChunkOf f.chunk fun k =>
        { k.fillValue 4 f.id ord [BitVec.ofNat 64 m.src.toNat] with pops := k.pops ++ [id] }).onAll
          (Regs.endFlight f.id fun r => r.putV f.dst (msgVReg m))

/-- MESSAGE_ARRIVAL: a message reaches the receive queue of its cell (R309, R390): it waits while it finds no entry; at a
sealed cell it is discarded, and its sender told (R308); under a key ID that is not Installed it is dropped. -/
def execMessageArrival (m : Msg) (s : State) : Host.Outcome State Fault Refusal :=
  match coreOfId (m.dst.toNat % 2 ^ 16) with
  | none => .next (s.undeliverable m)
  | some i =>
    let c := s.cell (cellOf i)
    if m.dst.toNat / 2 ^ 16 ≠ s.pkg then .fault .notEnabled
    else if c.sealed_ then .next (s.undeliverable m)
    else if s.keyGone m.kid then .next s
    else event (c.hasEntry i && !s.paused) (s.acceptMsg m)

end Sys2Proof.Machine
end

