-- ==== Sys2Proof/Machine/Atomics.lean ====
section
/-!
DEFINITION. Far atomics, counter increments and range grabs (R252, R296, R305, R307, R310, R311): their checks at issue, the
operation at the home, and the handles of its result.
-/
namespace Sys2Proof.Machine

/-- A far atomic is a chunk of its own: the chunk is cut before it (R236, R296); in a span it is fault 0x39. -/
def alone : Act Unit := do
  let s ← get
  faultIf s.chunk.span.isSome 0x39
  if s.chunk.n ≠ 0 then cutHere else pure ()

/-- The value of a pending half of a far-atomic handle pair (R311). -/
def atomicPending (half : Nat) : Word64 := BitVec.ofNat 64 ((2 + half) * 2 ^ 60)
/-- A resolved half (R311): the old value's 32 bits and the CSN's 20, or the code alone. -/
def atomicValue (half : Nat) (code : Code) (csn old : Nat) : Word64 :=
  if code = 0 then
    BitVec.ofNat 64 (2 ^ 62 + (2 + half) * 2 ^ 60 + csn % 2 ^ 20 * 2 ^ 32 + old / 2 ^ (32 * half) % 2 ^ 32)
  else BitVec.ofNat 64 (2 ^ 63 + (2 + half) * 2 ^ 60 + code.toNat * 2 ^ 52)

/-- The second h register of a pair. -/
def hNext (i : BitVec 5) : Fin 16 := hIdx (i + 1)

/-- Both handles of a pair are set pending and empty (R311). -/
def Regs.atomicIssues (h : BitVec 5) (r : Regs) : Regs :=
  (r.putH (hIdx h) (atomicPending 0) .atomic false).putH (hNext h) (atomicPending 1) .atomic false

/-- Both handles of a pair resolve (R311). -/
def Regs.atomicResolves (h : BitVec 5) (code : Code) (csn old : Nat) (r : Regs) : Regs :=
  (r.atomicLands (hIdx h) (atomicValue 0 code csn old)).atomicLands (hNext h) (atomicValue 1 code csn old)

/-- The first byte's key of a located access. -/
def firstKey : List (Nat × Nat) → Nat
  | [] => 0
  | p :: _ => p.1

/-- FATOM (R310, R311). -/
def fatomAct (op : BitVec 3) (f : MF) : Act Unit := do
  alone
  let a ← addrM f 8
  let x ← readS (f.b + 1) false
  let y ← if op = 4 then readS (f.b + 2) false else pure 0
  waitOn (3, (hIdx f.x).val)
  waitOn (3, (hNext f.x).val)
  checkAlign a 8
  if 0xFFC ≤ apertureOf a ∧ apertureOf a ≠ 0xFFD then faultWith 0x11 a 0 else pure ()
  let s ← get
  let ps ← liftStop (locate s (s.ctx s.cur) .write a 8)
  if apertureOf a < 0xFFC then noteDirty a 8 else pure ()
  let k := firstKey ps
  if isRemote (k / 128) then pure () else enterWrite (k / 128)
  onChunk fun c => { c with atomic := some (.fatom op x y f.x k) }
  onRegs (Regs.atomicIssues f.x)
  cutChunk .atomic

/-- FATOM_ADD (R310). -/
def execFatomAdd (f : MF) (s : State) : Host.Outcome State Fault Refusal := issue (fatomAct 0 f) s
/-- FATOM_MIN (R310). -/
def execFatomMin (f : MF) (s : State) : Host.Outcome State Fault Refusal := issue (fatomAct 1 f) s
/-- FATOM_MAX (R310). -/
def execFatomMax (f : MF) (s : State) : Host.Outcome State Fault Refusal := issue (fatomAct 2 f) s
/-- FATOM_SWAP (R310). -/
def execFatomSwap (f : MF) (s : State) : Host.Outcome State Fault Refusal := issue (fatomAct 3 f) s
/-- FATOM_CAS (R310). -/
def execFatomCas (f : MF) (s : State) : Host.Outcome State Fault Refusal := issue (fatomAct 4 f) s
/-- FATOM_AND (R310). -/
def execFatomAnd (f : MF) (s : State) : Host.Outcome State Fault Refusal := issue (fatomAct 5 f) s
/-- FATOM_OR (R310). -/
def execFatomOr (f : MF) (s : State) : Host.Outcome State Fault Refusal := issue (fatomAct 6 f) s

/-- EVINC (R305). -/
def evincAct (f : MF) : Act Unit := do
  alone
  let a ← addrM f 8
  let x ← readS f.x f.xw
  if apertureOf a ≠ 0xFFD then faultWith 0x11 a 0 else pure ()
  let s ← get
  let ps ← liftStop (locate s (s.ctx s.cur) .write a 8)
  let k := firstKey ps
  enterWrite (k / 128)
  onChunk fun c => { c with atomic := some (.evinc x k) }
  cutChunk .atomic

/-- EVINC: add to an event counter (R305). -/
def execEvinc (f : MF) (s : State) : Host.Outcome State Fault Refusal := issue (evincAct f) s

/-- RGRAB (R307). -/
def rgrabAct (f : TF) : Act Unit := do
  alone
  let n ← readS f.y f.yw
  waitOn (0, f.x.toNat)
  waitOn (0, f.x.toNat + 1)
  let s ← get
  faultIf (decide (16 ≤ n.toNat) || ((s.job (s.ctx s.cur).kid).ranges.find n.toNat).isNone) 0x4B
  onChunk fun c => { c with atomic := some (.rgrab n.toNat f.x) }
  cutChunk .atomic

/-- RGRAB: take the next piece of a range (R307). -/
def execRgrab (f : TF) (s : State) : Host.Outcome State Fault Refusal := issue (rgrabAct f) s

/-! ## At the home -/

/-- The new value of the word (R310). -/
def atomicNew (op : BitVec 3) (m a b : Word64) : Word64 :=
  match op.toNat with
  | 0 => m + a
  | 1 => if a.slt m then a else m
  | 2 => if m.slt a then a else m
  | 3 => a
  | 4 => if m = a then b else m
  | 5 => m &&& a
  | _ => m ||| a

/-- PASID of a job (R27). -/
def State.pasid (s : State) (kid : Nat) : Nat := fld (s.job kid).trans1 63 44

/-- Perform a far atomic on a word (R252, R310, R311): the old value, and the code where the host returns an error for its
memory, so that the word stays as it is, or where the line is poisoned. -/
def State.performAtomic (s : State) (kid : Nat) (op : BitVec 3) (a b : Word64) (k : Nat) : State × Word64 × Code :=
  if isHost (k / 128) ∧ Config.hostFails s.moment (s.pasid kid) then ({ s with moment := s.moment + 1 }, 0, 0x19)
  else
  let (s, m, po) := s.readWord kid k
  if po then (s, 0, 0x20)
  else (s.writeWord kid k (atomicNew op (BitVec.ofNat 64 m) a b).toNat, BitVec.ofNat 64 m, 0)

/-- Take a piece of a range (R307): where it begins and ends. -/
def State.grab (s : State) (kid n : Nat) : State × Nat × Nat :=
  let j := s.job kid
  match j.ranges.find n with
  | none => (s, 0, 0)
  | some r =>
    let left := r.end_ - r.next
    let part := if r.div = 0 then left else (left + r.div - 1) / r.div
    let want := if part < r.min then r.min else part
    let size := if left < want then left else want
    (s.setJob kid { j with ranges := j.ranges.put n { r with next := r.next + size } }, r.next, r.next + size)

/-- A reply to one of the requests that stage 0 combined has been split off; an entry of the wait buffer goes with its last one
(R391). -/
def State.splitReply (s : State) (core : Nat) : State :=
  let rec drop : List (List Nat) → List (List Nat)
    | [] => []
    | l :: t => if l.contains core then (if l.length ≤ 1 then t else l.erase core :: t) else l :: drop t
  { s with splits := drop s.splits }

/-- FAR_ATOMIC_REPLY: the old value of a far atomic at another package comes back (R261, R311), split from those that stage 0
combined it with (R391). What came back for a counter
of this package's units, which wait for no handle, changes nothing more. -/
def execFarAtomicReply (r : AtomicReply) (s : State) : Host.Outcome State Fault Refusal :=
  match (s.core r.core).atomicOut with
  | none => if r.core = unitCore then .next (s.splitReply r.core) else .fault .notEnabled
  | some h =>
    event (!s.paused) ((s.splitReply r.core).modCore r.core fun c => { c.onAll (Regs.atomicResolves h r.code r.csn r.old.toNat) with atomicOut := none })

end Sys2Proof.Machine
end

