-- ==== Sys2Proof/WellFormed.lean ====
section
/-!
DEFINITION. Well-formed bundles: what the decoder accepts, said without the decoder. The checks themselves are those of
Machine/Forms.lean.
-/
namespace Sys2Proof

/-- A bundle (R131): its control word and, when it is paired, its arithmetic word. -/
structure Bundle where
  ctl : Instr
  arith : Option Instr
  deriving DecidableEq, Repr

/-- P of a control word (R132): some true where the instruction is written as the control half of a pair. An event or
an arithmetic word is no control word. -/
def Instr.paired (i : Instr) : Option Bool :=
  match i with
  | .nop p | .cut p | .wfence p | .done p | .shut p => some p
  | .blk _ | .span _ | .jmp _ | .jtab _ | .bs _ | .bm _ | .loop _ | .cbr _ => some false
  | .xlit _ _ => some true
  | .setm f | .setrm f | .setrmMode f | .setrmImm f | .setlc f | .setlcImm f | .gath f | .scat f | .strmqLeft f
  | .strmqPos f | .strmqState f | .strmqRegs f | .strmx f | .htest f | .hcancel f | .mma f | .mmas f | .mzero f
  | .mreadF32 f | .mreadBf16 f | .mreadF16 f | .mreadSum f | .mreadErr f | .accaddF32 f | .accaddI32 f | .wseed f
  | .wseedH f | .cregRd f | .cregWr f | .seal f | .unseal f | .hoopdrop f | .tlbinv f | .keyset f | .keyret f
  | .suspend f | .rgrab f | .send f | .recv f | .recvPoll f | .hoopj f | .hoopqRes f | .hoopqEpoch f | .hoopqArr f
  | .hoopqState f | .shutv f | .trap f => some f.p
  | .lds f | .sts f | .ldv f | .stv f | .ldp f | .stp f | .ldx f | .ldreq f | .strm f | .cpy f | .tfetch f | .ldh f
  | .sth f | .msave f | .mrest f | .wload f | .tspawn f | .tspawnc f | .evinc f | .fatomAdd f | .fatomMin f
  | .fatomMax f | .fatomSwap f | .fatomCas f | .fatomAnd f | .fatomOr f => some f.p
  | _ => none

/-- Legality of both words (R146, step 4). -/
def Bundle.legal (b : Bundle) : Bool :=
  Machine.ctlLegal b.ctl &&
    match b.arith with
    | none => true
    | some a =>
      match Machine.arithOf a with
      | none => false
      | some (op, f) =>
        Machine.arithLegal op f &&
          match b.ctl with
          | .xlit f _ => Machine.xlitLegal f op
          | _ => true

/-- The two words write different registers (R133; R146, step 5). -/
def Bundle.disjoint (b : Bundle) : Bool :=
  match b.arith with
  | none => true
  | some a =>
    match Machine.arithOf a with
    | none => true
    | some (op, f) => !Machine.overlap b.ctl op f

/-- Reserved fields of both words are zero (R146, step 6). -/
def Bundle.reserved (b : Bundle) : Bool :=
  Machine.ctlReserved b.ctl &&
    match b.arith with
    | none => true
    | some a =>
      match Machine.arithOf a with
      | none => false
      | some (op, f) =>
        Machine.arithReserved op f &&
          match b.ctl with
          | .xlit _ _ => Machine.xlitReserved op f
          | _ => true

/-- A word by itself is well formed: its operands are legal and its reserved fields zero. -/
def Instr.wf (i : Instr) : Bool := Machine.ctlLegal i && Machine.ctlReserved i

/-- A well-formed bundle: a control word, an arithmetic word exactly when it is paired, and every check of R146 passed. -/
def Bundle.wf (b : Bundle) : Bool :=
  b.ctl.paired == some b.arith.isSome && b.legal && b.disjoint && b.reserved

end Sys2Proof
end

