-- ==== Sys2Proof/Decode.lean ====
section
/-!
DEFINITION. The bundle's encoding (R131, R132, R134, R139, R141-R143): the decoder, total on every 64-bit value, which
refuses by fault code in the order of R146, and the encoder written from the same tables.
-/
namespace Sys2Proof

/-- Format M of word 0 and word 1 (R139). Word 1 of a paired bundle is the arithmetic word's. -/
def MF.ofWord (w0 w1 : Word) : MF :=
  let p := w0.getLsbD 31
  { p := p, x := w0.extractLsb' 20 5, b := w0.extractLsb' 15 5, xw := w0.getLsbD 14, bw := w0.getLsbD 13,
    f3 := w0.extractLsb' 10 3, off10 := w0.extractLsb' 0 10, ext := if p then 0 else w1 }

/-- Format T of word 0 and word 1 (R139). -/
def TF.ofWord (w0 w1 : Word) : TF :=
  let p := w0.getLsbD 31
  { p := p, x := w0.extractLsb' 20 5, y := w0.extractLsb' 15 5, z := w0.extractLsb' 10 5, xw := w0.getLsbD 9,
    yw := w0.getLsbD 8, zw := w0.getLsbD 7, f7 := w0.extractLsb' 0 7, ext := if p then 0 else w1 }

/-- Format J of word 0 and word 1 (R139). -/
def JF.ofWord (w0 w1 : Word) : JF :=
  { x := w0.extractLsb' 20 5, y := w0.extractLsb' 15 5, xw := w0.getLsbD 14, yw := w0.getLsbD 13,
    c := w0.extractLsb' 9 4, f9 := w0.extractLsb' 0 9, off := w1 }

/-- The fields of an arithmetic word (R134). -/
def Arith.ofWord (w : Word) : Arith :=
  { ty := w.extractLsb' 22 3, d := w.extractLsb' 17 5, dk := w.getLsbD 16, ak := w.extractLsb' 14 2,
    a := w.extractLsb' 9 5, aw := w.getLsbD 8, bk := w.extractLsb' 6 2, b := w.extractLsb' 1 5, bw := w.getLsbD 0 }

/-- One bit of a word. -/
def bit1 (b : Bool) : BitVec 1 := BitVec.ofBool b

/-- Word 0 of a format-M instruction with control opcode op (R139, R141). -/
def MF.toWord (op : BitVec 6) (f : MF) : Word :=
  bit1 f.p ++ op ++ f.x ++ f.b ++ bit1 f.xw ++ bit1 f.bw ++ f.f3 ++ f.off10

/-- Word 0 of a format-T instruction with control opcode op (R139, R141). -/
def TF.toWord (op : BitVec 6) (f : TF) : Word :=
  bit1 f.p ++ op ++ f.x ++ f.y ++ f.z ++ bit1 f.xw ++ bit1 f.yw ++ bit1 f.zw ++ f.f7

/-- Word 0 of a format-J instruction with control opcode op (R139, R141). -/
def JF.toWord (op : BitVec 6) (f : JF) : Word :=
  bit1 false ++ op ++ f.x ++ f.y ++ bit1 f.xw ++ bit1 f.yw ++ f.c ++ f.f9

/-- The arithmetic word with opcode op (R134). -/
def Arith.toWord (op : BitVec 7) (f : Arith) : Word :=
  op ++ f.ty ++ f.d ++ bit1 f.dk ++ f.ak ++ f.a ++ bit1 f.aw ++ f.bk ++ f.b ++ bit1 f.bw

/-- The control opcode of an instruction (R141); 0 for what is no control word. -/
def ctlOp (i : Instr) : BitVec 6 :=
  match i with
  | .nop _ => 0x00
  | .cut _ => 0x03
  | .wfence _ => 0x21
  | .done _ => 0x33
  | .shut _ => 0x3C
  | .blk _ => 0x01
  | .span _ => 0x04
  | .xlit _ _ => 0x02
  | .setm _ => 0x05
  | .setrm _ => 0x06
  | .setrmMode _ => 0x06
  | .setrmImm _ => 0x06
  | .setlc _ => 0x07
  | .setlcImm _ => 0x07
  | .gath _ => 0x16
  | .scat _ => 0x17
  | .strmqLeft _ => 0x1B
  | .strmqPos _ => 0x1B
  | .strmqState _ => 0x1B
  | .strmqRegs _ => 0x1B
  | .strmx _ => 0x1C
  | .htest _ => 0x1F
  | .hcancel _ => 0x20
  | .mma _ => 0x24
  | .mmas _ => 0x25
  | .mzero _ => 0x26
  | .mreadF32 _ => 0x27
  | .mreadBf16 _ => 0x27
  | .mreadF16 _ => 0x27
  | .mreadSum _ => 0x27
  | .mreadErr _ => 0x27
  | .accaddF32 _ => 0x2A
  | .accaddI32 _ => 0x2A
  | .wseed _ => 0x2C
  | .wseedH _ => 0x2C
  | .cregRd _ => 0x2E
  | .cregWr _ => 0x2E
  | .seal _ => 0x2F
  | .unseal _ => 0x2F
  | .hoopdrop _ => 0x2F
  | .tlbinv _ => 0x2F
  | .keyset _ => 0x2F
  | .keyret _ => 0x2F
  | .suspend _ => 0x32
  | .rgrab _ => 0x35
  | .send _ => 0x36
  | .recv _ => 0x37
  | .recvPoll _ => 0x37
  | .hoopj _ => 0x3A
  | .hoopqRes _ => 0x3B
  | .hoopqEpoch _ => 0x3B
  | .hoopqArr _ => 0x3B
  | .hoopqState _ => 0x3B
  | .shutv _ => 0x3D
  | .trap _ => 0x3E
  | .lds _ => 0x10
  | .sts _ => 0x11
  | .ldv _ => 0x12
  | .stv _ => 0x13
  | .ldp _ => 0x14
  | .stp _ => 0x15
  | .ldx _ => 0x18
  | .ldreq _ => 0x19
  | .strm _ => 0x1A
  | .cpy _ => 0x1D
  | .tfetch _ => 0x1E
  | .ldh _ => 0x22
  | .sth _ => 0x23
  | .msave _ => 0x28
  | .mrest _ => 0x29
  | .wload _ => 0x2B
  | .tspawn _ => 0x30
  | .tspawnc _ => 0x31
  | .evinc _ => 0x34
  | .fatomAdd _ => 0x38
  | .fatomMin _ => 0x38
  | .fatomMax _ => 0x38
  | .fatomSwap _ => 0x38
  | .fatomCas _ => 0x38
  | .fatomAnd _ => 0x38
  | .fatomOr _ => 0x38
  | .jmp _ => 0x08
  | .jtab _ => 0x09
  | .bs _ => 0x0A
  | .bm _ => 0x0B
  | .loop _ => 0x0C
  | .cbr _ => 0x39
  | _ => 0

/-- Word 0 and, for a lone bundle, word 1 of a control instruction (R139, R141). -/
def encodeCtl (i : Instr) : Word × Word :=
  match i with
  | .nop p | .cut p | .wfence p | .done p | .shut p => (bit1 p ++ ctlOp i ++ (0 : BitVec 25), 0)
  | .blk f => (bit1 false ++ ctlOp i ++ bit1 f.mrg ++ f.sig ++ f.dif, (0 : BitVec 16) ++ f.dig)
  | .xlit f lit => (bit1 true ++ ctlOp i ++ bit1 f ++ lit, 0)
  | .span n => (bit1 false ++ ctlOp i ++ (0 : BitVec 25), n)
  | .setm f | .setrm f | .setrmMode f | .setrmImm f | .setlc f | .setlcImm f | .gath f | .scat f
    | .strmqLeft f | .strmqPos f | .strmqState f | .strmqRegs f | .strmx f | .htest f | .hcancel f | .mma f
    | .mmas f | .mzero f | .mreadF32 f | .mreadBf16 f | .mreadF16 f | .mreadSum f | .mreadErr f | .accaddF32 f
    | .accaddI32 f | .wseed f | .wseedH f | .cregRd f | .cregWr f | .seal f | .unseal f | .hoopdrop f
    | .tlbinv f | .keyset f | .keyret f | .suspend f | .rgrab f | .send f | .recv f | .recvPoll f | .hoopj f
    | .hoopqRes f | .hoopqEpoch f | .hoopqArr f | .hoopqState f | .shutv f | .trap f => (TF.toWord (ctlOp i) f, f.ext)
  | .lds f | .sts f | .ldv f | .stv f | .ldp f | .stp f | .ldx f | .ldreq f | .strm f | .cpy f | .tfetch f
    | .ldh f | .sth f | .msave f | .mrest f | .wload f | .tspawn f | .tspawnc f | .evinc f | .fatomAdd f
    | .fatomMin f | .fatomMax f | .fatomSwap f | .fatomCas f | .fatomAnd f | .fatomOr f => (MF.toWord (ctlOp i) f, f.ext)
  | .jmp f | .jtab f | .bs f | .bm f | .loop f | .cbr f => (JF.toWord (ctlOp i) f, f.off)
  | _ => (0, 0)

/-- The arithmetic word of an arithmetic instruction (R134, R143). -/
def encodeArith (i : Instr) : Word :=
  match Machine.arithOf i with
  | some (op, f) => Arith.toWord (BitVec.ofNat 7 op) f
  | none => 0

/-- The bundle as one 64-bit value: word 1 above word 0 (R131). -/
def encode (b : Bundle) : Word64 :=
  match b.arith with
  | some a => encodeArith a ++ (encodeCtl b.ctl).1
  | none => (encodeCtl b.ctl).2 ++ (encodeCtl b.ctl).1

/-- Step 1 of R146 for the opcodes whose function value selects a row, and the rest by opcode (R141, R142, R144).
The function values that an instruction's own description leaves unassigned are fault 0x01 as well. The pairing class
is checked between the two. -/
def decodeCtl (w0 w1 : Word) : Except Code Instr :=
  let f3 := (w0.extractLsb' 10 3).toNat
  let f7 := (w0.extractLsb' 0 7).toNat
  let p := w0.getLsbD 31
  let t := TF.ofWord w0 w1
  let m := MF.ofWord w0 w1
  match (w0.extractLsb' 25 6).toNat with
  | 0x00 => .ok (.nop p)
  | 0x01 => .ok (.blk { mrg := w0.getLsbD 24, sig := w0.extractLsb' 12 12, dif := w0.extractLsb' 0 12,
                        dig := w1.extractLsb' 0 16 })
  | 0x02 => .ok (.xlit (w0.getLsbD 24) (w0.extractLsb' 0 24))
  | 0x03 => .ok (.cut p)
  | 0x04 => .ok (.span w1)
  | 0x06 => match f7 with
    | 0 => .ok (.setrm t)
    | 1 => .ok (.setrmMode t)
    | 2 => .ok (.setrmImm t)
    | _ => .error 0x01
  | 0x07 => match f7 with
    | 0 => .ok (.setlc t)
    | 1 => .ok (.setlcImm t)
    | _ => .error 0x01
  | 0x1B => match f7 with
    | 0 => .ok (.strmqLeft t)
    | 1 => .ok (.strmqPos t)
    | 2 => .ok (.strmqState t)
    | 3 => .ok (.strmqRegs t)
    | _ => .error 0x01
  | 0x21 => .ok (.wfence p)
  | 0x27 => match f7 % 8 with
    | 0 => .ok (.mreadF32 t)
    | 1 => .ok (.mreadBf16 t)
    | 2 => .ok (.mreadF16 t)
    | 3 => .ok (.mreadSum t)
    | 4 => .ok (.mreadErr t)
    | _ => .error 0x01
  | 0x2A => if f7 % 2 = 0 then .ok (.accaddF32 t) else .ok (.accaddI32 t)
  | 0x2C => match f7 with
    | 0 => .ok (.wseed t)
    | 1 => .ok (.wseedH t)
    | _ => .error 0x01
  | 0x2E => if f7 < 64 then .ok (.cregRd t) else .ok (.cregWr t)
  | 0x2F => match f7 with
    | 0 => .ok (.seal t)
    | 1 => .ok (.unseal t)
    | 2 => .ok (.hoopdrop t)
    | 3 => .ok (.tlbinv t)
    | 4 => .ok (.keyset t)
    | 5 => .ok (.keyret t)
    | _ => .error 0x01
  | 0x33 => .ok (.done p)
  | 0x37 => if f7 % 2 = 0 then .ok (.recv t) else .ok (.recvPoll t)
  | 0x38 => match f3 with
    | 0 => .ok (.fatomAdd m)
    | 1 => .ok (.fatomMin m)
    | 2 => .ok (.fatomMax m)
    | 3 => .ok (.fatomSwap m)
    | 4 => .ok (.fatomCas m)
    | 5 => .ok (.fatomAnd m)
    | 6 => .ok (.fatomOr m)
    | _ => .error 0x01
  | 0x3B => match f7 with
    | 0 => .ok (.hoopqRes t)
    | 1 => .ok (.hoopqEpoch t)
    | 2 => .ok (.hoopqArr t)
    | 3 => .ok (.hoopqState t)
    | _ => .error 0x01
  | 0x3C => .ok (.shut p)
  | 0x05 => .ok (.setm (TF.ofWord w0 w1))
  | 0x16 => .ok (.gath (TF.ofWord w0 w1))
  | 0x17 => .ok (.scat (TF.ofWord w0 w1))
  | 0x1C => .ok (.strmx (TF.ofWord w0 w1))
  | 0x1F => .ok (.htest (TF.ofWord w0 w1))
  | 0x20 => .ok (.hcancel (TF.ofWord w0 w1))
  | 0x24 => .ok (.mma (TF.ofWord w0 w1))
  | 0x25 => .ok (.mmas (TF.ofWord w0 w1))
  | 0x26 => .ok (.mzero (TF.ofWord w0 w1))
  | 0x32 => .ok (.suspend (TF.ofWord w0 w1))
  | 0x35 => .ok (.rgrab (TF.ofWord w0 w1))
  | 0x36 => .ok (.send (TF.ofWord w0 w1))
  | 0x3A => .ok (.hoopj (TF.ofWord w0 w1))
  | 0x3D => .ok (.shutv (TF.ofWord w0 w1))
  | 0x3E => .ok (.trap (TF.ofWord w0 w1))
  | 0x10 => .ok (.lds (MF.ofWord w0 w1))
  | 0x11 => .ok (.sts (MF.ofWord w0 w1))
  | 0x12 => .ok (.ldv (MF.ofWord w0 w1))
  | 0x13 => .ok (.stv (MF.ofWord w0 w1))
  | 0x14 => .ok (.ldp (MF.ofWord w0 w1))
  | 0x15 => .ok (.stp (MF.ofWord w0 w1))
  | 0x18 => .ok (.ldx (MF.ofWord w0 w1))
  | 0x19 => .ok (.ldreq (MF.ofWord w0 w1))
  | 0x1A => .ok (.strm (MF.ofWord w0 w1))
  | 0x1D => .ok (.cpy (MF.ofWord w0 w1))
  | 0x1E => .ok (.tfetch (MF.ofWord w0 w1))
  | 0x22 => .ok (.ldh (MF.ofWord w0 w1))
  | 0x23 => .ok (.sth (MF.ofWord w0 w1))
  | 0x28 => .ok (.msave (MF.ofWord w0 w1))
  | 0x29 => .ok (.mrest (MF.ofWord w0 w1))
  | 0x2B => .ok (.wload (MF.ofWord w0 w1))
  | 0x30 => .ok (.tspawn (MF.ofWord w0 w1))
  | 0x31 => .ok (.tspawnc (MF.ofWord w0 w1))
  | 0x34 => .ok (.evinc (MF.ofWord w0 w1))
  | 0x08 => .ok (.jmp (JF.ofWord w0 w1))
  | 0x09 => .ok (.jtab (JF.ofWord w0 w1))
  | 0x0A => .ok (.bs (JF.ofWord w0 w1))
  | 0x0B => .ok (.bm (JF.ofWord w0 w1))
  | 0x0C => .ok (.loop (JF.ofWord w0 w1))
  | 0x39 => .ok (.cbr (JF.ofWord w0 w1))
  | _ => .error 0x01

/-- Bits of word 0 and word 1 that formats N, I and B leave no field for (R139): nonzero is fault 0x02. -/
def spareBitsOk (i : Instr) (w0 w1 : Word) : Bool :=
  match i with
  | .nop p | .cut p | .wfence p | .done p | .shut p => w0.extractLsb' 0 25 == 0 && (p || w1 == 0)
  | .blk _ => w1.extractLsb' 16 16 == 0
  | .span _ => w0.extractLsb' 0 25 == 0
  | _ => true

/-- The pairing class of R132 and R141, with the lone-only forms of R277 and R284. -/
def pairOk (i : Instr) (p : Bool) : Bool :=
  match i with
  | .xlit _ _ => p
  | .blk _ | .span _ | .jmp _ | .jtab _ | .bs _ | .bm _ | .loop _ | .cbr _ | .setrmImm _ | .setlcImm _ => !p
  | _ => true

/-- The checks of R146 after the opcodes: legality of both words, overlap, reserved fields. -/
def checkBundle (b : Bundle) (w0 w1 : Word) : Except Code Bundle :=
  if !b.legal then .error 0x01
  else if !b.disjoint then .error 0x01
  else if !(b.reserved && spareBitsOk b.ctl w0 w1) then .error 0x02
  else .ok b

/-- The bundle that word 0 and word 1 stand for, or the decoding fault of R145 in the order of R146. -/
def decodeWords (w0 w1 : Word) : Except Code Bundle :=
  match decodeCtl w0 w1 with
  | .error c => .error c
  | .ok i =>
    let p := w0.getLsbD 31
    if !pairOk i p then .error 0x03
    else if p then
      match Machine.arithMk (w1.extractLsb' 25 7).toNat (Arith.ofWord w1) with
      | none => .error 0x01
      | some a => checkBundle ⟨i, some a⟩ w0 w1
    else checkBundle ⟨i, none⟩ w0 w1

/-- The bundle of a 64-bit value (R131). -/
def decode (w : Word64) : Except Code Bundle := decodeWords (w.extractLsb' 0 32) (w.extractLsb' 32 32)

/-- Control instructions whose table row gives no bits: a word of the table never stands for one of them. -/
def untabled (i : Instr) : Bool :=
  match i with
  | .blk _ | .span _ | .setrmImm _ | .setlcImm _ | .jmp _ | .jtab _ | .bs _ | .bm _ | .loop _ | .cbr _ => true
  | _ => false

/-- The bundle that the host's table word stands for. A word of up to 32 bits is laid out as word 0 of a bundle whose
word 1 is zero; where the decoder refuses that bundle, or it is one that no table row names, the word is laid out as the
arithmetic word of a bundle whose word 0 is a paired `nop`. A longer word is the bundle itself. -/
def tableBundle (nbits w : Nat) : Word64 :=
  let asArith : Word64 := BitVec.ofNat 32 w ++ (0x80000000#32 : Word)
  match decode (BitVec.ofNat 64 w), decode asArith with
  | .ok b, .ok _ => if nbits ≤ 32 && untabled b.ctl then asArith else BitVec.ofNat 64 w
  | .error _, .ok _ => if nbits ≤ 32 then asArith else BitVec.ofNat 64 w
  | _, .error _ => BitVec.ofNat 64 w

/-- The instruction that the host's table word stands for: the arithmetic word of a bundle that `tableBundle` lays out
under a paired `nop`, otherwise the control word. -/
def decodeTableWord (nbits w : Nat) : Option Instr :=
  match decode (tableBundle nbits w) with
  | .ok b => if nbits ≤ 32 && tableBundle nbits w != BitVec.ofNat 64 w then b.arith else some b.ctl
  | .error _ => none

end Sys2Proof
end

