-- ==== Sys2Proof/Machine/Checker.lean ====
section
/-!
DEFINITION. The block checker (R287-R291): the digest tokens of a bundle (R154, R267, R298) and what a mismatch does.
-/
namespace Sys2Proof.Machine

/-- Read and write tokens of a register (R154). -/
def tokR (kind : Nat) (i : BitVec 5) : Nat := kind * 32 + i.toNat
def tokW (kind : Nat) (i : BitVec 5) : Nat := 256 + kind * 32 + i.toNat

/-- Tokens of an operand of `mma`: a register, an operand buffer's scalar, or a tile slot, which has none (R154). -/
def tokLoc (loc : Nat) (i : BitVec 5) : List Nat := if loc = 0 then [tokR 1 i] else if loc = 2 then [tokR 0 i] else []

/-- The tokens of a control word, in assembly operand order (R154, R267, R298). -/
def ctlTokens (i : Instr) : List Nat :=
  match i with
  | .setm f => [tokR 2 f.x]
  | .setrm f => [tokR 0 f.y]
  | .setlc f => [tokW 5 f.x, tokR 0 f.y]
  | .setlcImm f => [tokW 5 f.x]
  | .jtab f => [tokR 0 f.x, tokR 0 f.y]
  | .bs f => if f.c.toNat < 8 then [tokR 0 f.x, tokR 0 f.y] else [tokR 0 f.x]
  | .bm f => [tokR 2 f.x]
  | .loop f => [tokR 5 (f.c.setWidth 5 &&& 3), tokW 5 (f.c.setWidth 5 &&& 3)]
  | .lds f | .ldx f | .ldreq f => [tokW 0 f.x, tokR 0 f.b]
  | .sts f => [tokR 0 f.x, tokR 0 f.b]
  | .ldv f | .ldp f | .strm f => [tokW 1 f.x, tokR 0 f.b]
  | .stv f | .stp f => [tokR 1 f.x, tokR 0 f.b]
  | .gath f => [tokW 1 f.x, tokR 0 f.y, tokR 1 f.z]
  | .scat f => [tokR 1 f.x, tokR 0 f.y, tokR 1 f.z]
  | .strmqLeft f | .strmqPos f | .strmqState f | .strmqRegs f => [tokW 0 f.x, tokR 1 f.y]
  | .strmx f => [tokW 1 f.y]
  | .cpy f | .ldh f => [tokW 3 f.x, tokR 0 f.b]
  | .tfetch f => [tokR 0 f.x, tokR 0 f.b]
  | .htest f => [tokW 0 f.x, tokR 3 f.y]
  | .hcancel f => [tokR 3 f.y, tokW 3 f.y]
  | .sth f => [tokR 3 f.x, tokR 0 f.b]
  | .mma f | .mmas f =>
    let acc : BitVec 5 := BitVec.ofNat 5 (f.f7.toNat / 2 % 4)
    [tokR 7 acc, tokW 7 acc] ++ tokLoc (f.f7.toNat / 32) f.x ++ tokLoc (f.f7.toNat / 8 % 4) f.y ++ [tokR 1 f.z]
  | .mzero f => [tokW 7 f.x]
  | .mreadF32 f | .mreadBf16 f | .mreadF16 f | .mreadSum f | .mreadErr f => [tokW 1 f.x, tokR 7 f.y]
  | .msave f => [tokR 7 f.x, tokR 0 f.b]
  | .mrest f => [tokW 7 f.x, tokR 0 f.b]
  | .accaddF32 f | .accaddI32 f => [tokR 7 f.x, tokW 7 f.x, tokR 7 f.y]
  | .wload f => [tokR 0 f.x, tokR 0 f.b]
  | .wseed f => [tokR 0 f.x]
  | .wseedH f => [tokR 0 f.x, tokR 0 f.y]
  | .cregRd f => [tokW 0 f.x]
  | .cregWr f => [tokR 0 f.y]
  | .seal f | .unseal f | .hoopdrop f | .keyret f => [tokR 0 f.x, tokR 0 f.z]
  | .tlbinv f | .keyset f => [tokR 0 f.x, tokR 0 f.y, tokR 0 f.z]
  | .tspawn f => [tokR 0 f.b]
  | .tspawnc f => [tokR 0 f.x, tokR 0 f.b]
  | .suspend f | .trap f => [tokR 0 f.x]
  | .evinc f => [tokR 0 f.b, tokR 0 f.x]
  | .rgrab f => [tokW 0 f.x, tokR 0 f.y]
  | .send f => [tokR 0 f.x, tokR 1 f.y]
  | .recv f | .recvPoll f => [tokW 1 f.x]
  | .fatomAdd f | .fatomMin f | .fatomMax f | .fatomSwap f | .fatomAnd f | .fatomOr f =>
    [tokW 3 f.x, tokR 0 f.b, tokR 0 (f.b + 1)]
  | .fatomCas f => [tokW 3 f.x, tokR 0 f.b, tokR 0 (f.b + 1), tokR 0 (f.b + 2)]
  | .cbr f => [tokR 0 f.x, tokR 0 f.y]
  | .hoopj f => [tokR 0 f.y]
  | .hoopqRes f | .hoopqEpoch f | .hoopqArr f | .hoopqState f => [tokW 0 f.x, tokR 0 f.y]
  | .shutv f => if f.f7 = 3 then [tokR 0 f.x, tokW 0 f.y, tokR 0 f.z] else [tokR 0 f.x, tokW 0 f.y]
  | _ => []

/-- The token of one arithmetic source; literals have none (R154). -/
def srcToken (mask : Bool) (k : BitVec 2) (i : BitVec 5) : List Nat :=
  if k = 0 then [tokR (if mask then 2 else 1) i] else if k = 1 then [tokR 0 i] else if k = 2 then [tokR 4 i] else []

/-- The tokens of an arithmetic word (R154): A, B, D as a read for form T, D as a write. -/
def arithTokens (op : Nat) (f : Arith) : List Nat :=
  let inf := aInfo op
  let d : Nat × BitVec 5 := match (arithDest op f).head? with
    | some n => (n.1, BitVec.ofNat 5 n.2)
    | none => (0, 0)
  srcToken (maskSrc op) f.ak f.a ++
    (if inf.unary || inf.form == .f then [] else srcToken (maskSrc op) f.bk f.b) ++
    (if inf.form == .t then [tokR d.1 d.2] else []) ++ [tokW d.1 d.2]

/-- The tokens of a bundle (R154). -/
def bundleTokens (b : Bundle) : List Nat :=
  ctlTokens b.ctl ++ (match b.arith with
    | some a => match arithOf a with
      | some (op, f) => arithTokens op f
      | none => []
    | none => [])

/-- Fields of G (R287). -/
def gSig (g : Word64) : Nat := fld g 11 0
def gAcc (g : Word64) : Nat := fld g 27 12
def gExp (g : Word64) : Nat := fld g 43 28
def gOpen (g : Word64) : Bool := bitAt g 44

/-- Fold a bundle's tokens into G.DACC while a block is open (R289). -/
def foldTokens (g : Word64) (ts : List Nat) : Word64 :=
  if gOpen g then setFld g 27 12 (digest (BitVec.ofNat 16 (gAcc g)) ts).toNat else g

/-- A detected error in the running chunk of core i (R291, R373): the chunk is squashed and runs again, an error record
names the core, and the fourth squash rule of R247 counts it. A third mismatch in a row of a chunk that begins at one
bundle requests the seal of the cell. -/
def detectedInChunk (code : Code) (i : Nat) (s : State) : State :=
  let c := s.core i
  let start := c.chunk.start.pc
  let n := (c.mismatch (bit c.pend.isSome) start).1
  let s := squashRun s i
  let l := c.squashed false
  let s := (s.modCore i fun c =>
    { ((c.mismatch (bit c.pend.isSome) start).2).afterSquash l with redo := true, phase := .faulted }).askToken i
  let s := s.coreError i code 0 0 0 (match c.task with
    | some t => t.kid
    | none => 0)
  let cell := s.cell (cellOf i)
  s.setCell (cellOf i) { cell with recoveries := cell.recoveries + 1, sealing := cell.sealing || decide (3 ≤ n) }

end Sys2Proof.Machine
end

