-- ==== Sys2Proof/Machine/Fetch.lean ====
section
/-!
DEFINITION. Around one bundle: what stands before it (R133, R270), the fetch of its bytes (R24, R131, R282), and what
follows it: the checker's tokens, the next program counter with the loop rules (R268, R280), and the end of a span or chunk.
-/
namespace Sys2Proof.Machine

/-- Make core i the current one and note the registers as they stand before its bundle. -/
def beginBundle (i : Nat) (s : State) : State :=
  { s with cur := i }.modCore i fun c =>
    { c with src := c.regs, next := .seq, lit := none, cutAfter := none, phase := .idle }

/-- First address past the body of a loop level (R278). -/
def LoopLevel.stop (l : LoopLevel) : Word64 := l.start + BitVec.ofNat 64 (8 * l.len)

/-- Whether an address lies in the body of a level. -/
def LoopLevel.holds (l : LoopLevel) (a : Word64) : Bool :=
  (a - l.start).toNat < 8 * l.len

/-- A loop register. -/
def lcIdx (r : BitVec 2) : Fin 3 := ⟨r.toNat % 3, Nat.mod_lt _ (by decide)⟩
def Regs.getLc (r : Regs) (i : BitVec 2) : Word64 := r.lc.get (lcIdx i)
def Regs.setLc (r : Regs) (i : BitVec 2) (v : Word64) : Regs :=
  { r with lc := r.lc.set (lcIdx i).val v (lcIdx i).isLt }

/-- The end rule of R280 for control that arrives at an address by falling through: levels innermost first. -/
def loopEnd (r : Regs) (a : Word64) : List LoopLevel → Regs × List LoopLevel × Word64
  | [] => (r, [], a)
  | l :: t =>
    if l.stop ≠ a then (r, l :: t, a)
    else if (r.getLc l.lcr).toNat ≤ 1 then loopEnd (r.setLc l.lcr 0) a t
    else (r.setLc l.lcr (r.getLc l.lcr - 1), l :: t, l.start)

/-- The levels that a taken transfer leaves open (R280), innermost first. -/
def leaveLoops (a : Word64) : List LoopLevel → List LoopLevel
  | [] => []
  | l :: t => if l.holds a then l :: t else leaveLoops a t

/-- Control after a bundle (R268, R280). -/
def Regs.advancePc (r : Regs) (n : NextPc) : Regs :=
  match n with
  | .jump t => { r with pc := t, levels := (leaveLoops t r.levels.reverse).reverse }
  | .seq =>
    let (r, ls, a) := loopEnd r (r.pc + 8) r.levels.reverse
    { r with pc := a, levels := ls.reverse }
  | .skip t =>
    let (r, ls, a) := loopEnd r t r.levels.reverse
    { r with pc := a, levels := ls.reverse }

/-- The bundle in a committed line at a byte key. -/
def bundleIn (d : Line) (k : Nat) : Word64 := BitVec.ofNat 64 (d.toNat >>> (8 * (k % 128)))

/-- Whether this package cannot read a line of code at once: another package holds it, or a copy or a move writes it. -/
def State.codeAway (s : State) (line : Nat) : Bool := isRemote line || s.claimed line || s.inTransit line

/-- Where the bundle at an address lies, by a walk of the tables as they stand. -/
def State.codeKey (s : State) (a : Word64) : Option Nat :=
  match locateNow s (s.ctx s.cur) .fetch a 8 with
  | .ok ((k, _) :: _) => some k
  | _ => none

/-- What code memory of this package holds at an address now, where a fetch would find it without a wait or a fault. -/
def State.codeNow (s : State) (a : Word64) : Option Word64 :=
  match s.codeKey a with
  | some k =>
    if s.codeAway (k / 128) || s.poisoned (k / 128) then none else some (bundleIn (s.lineData (s.ctx s.cur).kid (k / 128)) k)
  | none => none

/-- Whether software may have written the bundle that the loop buffer holds for an address since it was fetched: memory holds
another one, or a line that this package cannot read at once. -/
def State.codeChanged (s : State) (a old : Word64) : Bool :=
  match s.codeNow a with
  | some w => old != w
  | none => match s.codeKey a with
    | some k => s.codeAway (k / 128)
    | none => false

/-- The bundles of a body that its first iteration did not execute come into the loop buffer with the others (R282). -/
def State.fillBody (s : State) (l : LoopLevel) : State :=
  (List.range l.len).foldl (fun s j =>
    let a := l.start + BitVec.ofNat 64 (8 * j)
    if (s.me.loopBuf.find a.toNat).isSome then s
    else match s.codeNow a with
      | some w => s.modMe fun c => { c with loopBuf := c.loopBuf.put a.toNat w }
      | none => s) s

/-- Fetch a bundle from memory (R24, R131). The first iteration of a body fills the loop buffer (R282). -/
def fetchBundle (a : Word64) : Act Word64 := do
  let s ← get
  let ps ← liftStop (locate s (s.ctx s.cur) .fetch a 8)
  match ps with
  | (k, _) :: _ =>
    let d ← readLineAct k 8 a
    let w := bundleIn d k
    if s.regs.levels.any (·.holds a) then
      onMe fun c => { c with loopBuf := c.loopBuf.put a.toNat w }
      pure w
    else
      onMe fun c => { c with loopBuf := if s.regs.levels.isEmpty then [] else c.loopBuf }
      pure w
  | [] => faultWith 0x14 a 0

/-- A later iteration of a body takes its bundles from the loop buffer, with no fetch; one that software may have written meanwhile
is the old one or the new one (R282). -/
def bufferedBundle (a old : Word64) : Act Word64 := do
  let s ← get
  match s.regs.levels.getLast? with
  | some l => if l.start = a then change (·.fillBody l)
  | none => pure ()
  if s.codeChanged a old then do
    change fun s => { s with moment := s.moment + 1 }
    if Config.staleFetch s.moment then pure old else fetchBundle a
  else pure old

/-- Fetch the bundle at the program counter: checks of its address (R24, R131), then the loop buffer, where a level is open over
it and holds it (R282), or memory. -/
def fetchAct : Act Word64 := do
  let s ← get
  let a := s.regs.pc
  if a.toNat % 8 ≠ 0 then faultWith 0x13 a 0
  else if 0xFFC ≤ apertureOf a then faultWith 0x16 a 0
  else
    match (if s.regs.levels.any (·.holds a) then s.me.loopBuf.find a.toNat else none) with
    | some old => bufferedBundle a old
    | none => fetchBundle a

/-- Whether a control word is a `blk` with MRG = 1 (R290). -/
def isMerge : Instr → Bool
  | .blk f => f.mrg
  | _ => false
/-- Whether a control word ends its block without a following `blk` (R289). -/
def endsBlock : Instr → Bool
  | .done _ | .suspend _ | .trap _ => true
  | _ => false
/-- `blk` folds no tokens (R289). -/
def isBlk : Instr → Bool
  | .blk _ => true
  | _ => false

/-- One executed bundle more in a chunk and in its span (R235, R286). -/
def Chunk.count (k : Chunk) : Chunk :=
  match k.span with
  | none => { k with n := k.n + 1 }
  | some m => if m ≤ 1 then { k with n := k.n + 1, span := none, spanLines := [] } else { k with n := k.n + 1, span := some (m - 1) }

/-- After both words of a bundle: the checker folds its tokens and compares at the end of a block that no `blk` follows
(R289); control moves on; the bundle counts; a chunk that the bundle cuts ends (R236). -/
def endBundle (b : Bundle) (s : State) : State :=
  let g := if isBlk b.ctl then s.regs.g else foldTokens s.regs.g (bundleTokens b)
  if endsBlock b.ctl && gOpen g && gAcc g != gExp g then detectedInChunk 0 s.cur s
  else
    let s := s.modMe fun c =>
      { c with regs := { c.regs with g := g }.advancePc c.next, run := some c.chunk.count, need := .none, weaveGot := [] }
    match s.me.cutAfter with
    | some why => endChunk why s
    | none => s

/-- The arithmetic word has waited or been cut: nothing of the bundle has happened, the core waits or the chunk ends before
it (R133). Requests that the wait has sent stay sent. -/
def unissue (before after : State) : State :=
  match after.me.phase with
  | .waiting =>
    { before with clusters := after.clusters, outs := after.outs }.modMe fun c =>
      { c with need := after.me.need, phase := .waiting }
  | .cutting => cutBefore before
  | _ => after

end Sys2Proof.Machine
end

