-- ==== Sys2Proof/Machine/Control.lean ====
section
/-!
DEFINITION. The instructions that steer a task (R267-R294): branches, loops, chunk control, the block checker's `blk`, the
mask and rounding selections, and a bundle that does not decode (R144, R145).
-/
namespace Sys2Proof.Machine

/-- NOP: no effect (R271). -/
def execNop (_p : Bool) (s : State) : Host.Outcome State Fault Refusal := issue (pure ()) s

/-- XLIT: the literal of the paired arithmetic word (R272). -/
def execXlit (f : Bool) (lit : BitVec 24) (s : State) : Host.Outcome State Fault Refusal :=
  issue (onMe fun c => { c with lit := some (f, lit) }) s

/-- The checker's test at a `blk` (R288): the exit check of the open block and the signature check. -/
def blkMismatch (g : Word64) (f : BlkF) : Bool :=
  (gOpen g && gAcc g != gExp g) ||
    (!f.mrg && BitVec.ofNat 12 (gSig g) ^^^ f.dif != f.sig)

/-- G after a `blk` that matches (R288). -/
def blkG (f : BlkF) : Word64 := BitVec.ofNat 64 (2 ^ 44 + f.dig.toNat * 2 ^ 28 + f.sig.toNat)

/-- BLK: exit check, signature, new block (R288); a mismatch squashes the chunk and runs it again (R291). -/
def execBlk (f : BlkF) (s : State) : Host.Outcome State Fault Refusal :=
  match s.me.task with
  | none => .fault .notEnabled
  | some _ =>
    if blkMismatch s.regs.g f then .next (detectedInChunk 0 s.cur (openChunk s))
    else issue (onRegs fun r => { r with g := blkG f }) s

/-- CUT: the chunk ends after this bundle (R285). -/
def execCut (_p : Bool) (s : State) : Host.Outcome State Fault Refusal := issue (cutChunk .plain) s

/-- Uncommitted lines the current core may still take (R59, R248). -/
def State.freeLines (s : State) : Nat := s.capacity s.cur - s.coreLines s.cur

/-- SPAN: the next n bundles stay in one chunk (R248, R286); the target T counts for nothing in replay (R418). -/
def spanAct (n : BitVec 32) : Act Unit := do
  let s ← get
  let k := s.chunk
  faultIf k.span.isSome 0x39
  faultIf (n.toNat = 0 || 256 < n.toNat) 0x3A
  if k.n = 0 then waitIf (s.freeLines < 64) .pend
  else if (s.svc.logMode ≠ 2 ∧ s.me.target < k.n + 1 + n.toNat) ∨ 4096 < k.n + 1 + n.toNat ∨ s.freeLines < 64 then cutHere
  else pure ()
  onChunk fun k => { k with span := some (n.toNat + 1), spanLines := [] }

/-- SPAN (R286). -/
def execSpan (n : BitVec 32) (s : State) : Host.Outcome State Fault Refusal := issue (spanAct n) s

/-- SETM: MSEL.SEL (R283). -/
def execSetm (f : TF) (s : State) : Host.Outcome State Fault Refusal :=
  issue (onRegs fun r => { r with msel := setFld r.msel 2 0 f.x.toNat }) s

/-- The bits of FRM that hold fields (R77). -/
def frmMask : Word64 := 0x0FFF001F

/-- SETRM: FRM from a scalar register (R284). -/
def execSetrm (f : TF) (s : State) : Host.Outcome State Fault Refusal :=
  issue (do
    let v ← readS f.y f.yw
    onRegs fun r => { r with frm := v &&& frmMask }) s
/-- SETRM_MODE: FRM.MODE alone (R284). -/
def execSetrmMode (f : TF) (s : State) : Host.Outcome State Fault Refusal :=
  issue (onRegs fun r => { r with frm := setFld r.frm 2 0 f.y.toNat }) s
/-- SETRM_IMM: FRM from word 1 (R284). -/
def execSetrmImm (f : TF) (s : State) : Host.Outcome State Fault Refusal :=
  issue (onRegs fun r => { r with frm := f.ext.setWidth 64 &&& frmMask }) s

/-- SETLC: a loop register from a scalar register (R277). -/
def execSetlc (f : TF) (s : State) : Host.Outcome State Fault Refusal :=
  issue (do
    let v ← readS f.y f.yw
    onRegs (·.setLc (f.x.extractLsb' 0 2) v)) s
/-- SETLC_IMM: a loop register from word 1 (R277). -/
def execSetlcImm (f : TF) (s : State) : Host.Outcome State Fault Refusal :=
  issue (onRegs (·.setLc (f.x.extractLsb' 0 2) (f.ext.setWidth 64))) s

/-- The target of a format-J transfer (R140). -/
def jTarget (pc : Word64) (off : BitVec 32) : Word64 := pc + 8 * sext64 off

/-- JMP (R273). -/
def execJmp (f : JF) (s : State) : Host.Outcome State Fault Refusal :=
  issue (setNext (.jump (jTarget s.src.pc f.off))) s

/-- JTAB: the bounded indirect jump (R276); the target reached through the table must be a merging `blk` (R290). -/
def jtabAct (f : JF) : Act Unit := do
  let s ← get
  let i ← readS f.x f.xw
  let t ← readS f.y f.yw
  if f.f9.toNat + 1 ≤ i.toNat then setNext (.jump (jTarget s.src.pc f.off))
  else
    if t.toNat % 8 ≠ 0 then faultWith 0x13 (t + 8 * i) 0
    else
      let b ← chunkRead (t + 8 * i) 8
      setNext (.jump (BitVec.ofNat 64 (ofBytes b)))
      onRegs fun r => { r with entry := true }

/-- JTAB (R276). -/
def execJtab (f : JF) (s : State) : Host.Outcome State Fault Refusal := issue (jtabAct f) s

/-- The conditions of `bs` (R274). -/
def bsTaken (c : BitVec 4) (bitNo : Nat) (x y : Word64) : Bool :=
  match c.toNat with
  | 0 => x == y
  | 1 => x != y
  | 2 => x.slt y
  | 3 => !x.slt y
  | 4 => x.ult y
  | 5 => !x.ult y
  | 8 => x == 0
  | 9 => x != 0
  | 10 => x.getLsbD 63
  | 11 => !x.getLsbD 63
  | 12 => x.getLsbD bitNo
  | 13 => !x.getLsbD bitNo
  | _ => false

/-- BS: a branch on scalar registers (R274). -/
def execBs (f : JF) (s : State) : Host.Outcome State Fault Refusal :=
  issue (do
    let x ← readS f.x f.xw
    let y ← if f.c.toNat < 8 then readS f.y f.yw else pure 0
    if bsTaken f.c (f.f9.toNat % 64) x y then setNext (.jump (jTarget s.src.pc f.off)) else setNext .seq) s

/-- The conditions of `bm` (R275) on the first w bits of a mask. -/
def bmTaken (c : BitVec 4) (w m : Nat) : Bool :=
  let x := m % 2 ^ w
  match c.toNat % 4 with
  | 0 => x != 0
  | 1 => x == 0
  | 2 => x == 2 ^ w - 1
  | _ => x != 2 ^ w - 1

/-- BM: a branch on a mask (R275). -/
def execBm (f : JF) (s : State) : Host.Outcome State Fault Refusal :=
  issue (do
    let m ← readM (f.x.extractLsb' 0 3)
    if bmTaken f.c (1024 >>> (f.f9.toNat % 8)) m.toNat then setNext (.jump (jTarget s.src.pc f.off)) else setNext .seq) s

/-- The structure check of R279 for a new level. -/
def loopBad (levels : List LoopLevel) (lcr : BitVec 2) (stop : Word64) (o : Int) : Bool :=
  decide (o < 2) || decide (257 < o) || decide (3 ≤ levels.length) || levels.any (·.lcr == lcr) ||
    (match levels.getLast? with
      | some l => decide (8 * l.len < (stop - l.start).toNat)
      | none => false)

/-- LOOP: open a level over the bundles that follow (R278). -/
def loopAct (f : JF) : Act Unit := do
  let s ← get
  let r := f.c.extractLsb' 0 2
  let stop := jTarget s.src.pc f.off
  faultIf (loopBad s.src.levels r stop f.off.toInt) 0x05
  if s.src.getLc r = 0 then setNext (.skip stop)
  else onRegs fun g => { g with levels := g.levels ++ [{ start := s.src.pc + 8, lcr := r, len := f.off.toNat - 1 }] }

/-- LOOP (R278). -/
def execLoop (f : JF) (s : State) : Host.Outcome State Fault Refusal := issue (loopAct f) s

/-- The fault of a bundle that does not decode (R145, R146). -/
def decodeFault (w : Word64) : Code := match decode w with
  | .error c => c
  | .ok _ => 0x01

/-- ILLEGAL_ENCODING: the bundle takes its decoding fault before it has any effect (R144, R145). -/
def execIllegalEncoding (w : BitVec 64) (s : State) : Host.Outcome State Fault Refusal := issue (raise (decodeFault w)) s

end Sys2Proof.Machine
end

