-- ==== Sys2Proof/Machine/Hinge.lean ====
section
/-!
DEFINITION. Hoops and collective branches (R313-R317, R350-R361): `cbr`, `hoopj`, `hoopq`, the slots of this package's
stage-0 switch, votes, rounds, drops and results.
-/
namespace Sys2Proof.Machine

/-! ## Instructions -/

/-- CBR (R317): the vote is held, and the next chunk runs ahead by the guess. -/
def cbrAct (f : JF) : Act Unit := do
  let s ← get
  faultIf s.chunk.span.isSome 0x39
  let x ← readS f.x f.xw
  let y ← readS f.y f.yw
  let pred := bitAt x 0
  let guess := if f.c.getLsbD 2 then f.c.getLsbD 3 else pred
  let tgt := jTarget s.src.pc f.off
  let other := s.src.advancePc (if guess then .seq else .jump tgt)
  hold (.vote y pred (f.c.extractLsb' 0 2))
  onChunk fun k => { k with after := some { guess := guess, alt := (other.pc, other.levels, other.lc), cbr := s.src.pc,
                                            resolved := false, word := 0, tag := 0 } }
  if guess then setNext (.jump tgt) else setNext .seq
  cutChunk .cbr

/-- CBR: a collective branch (R317). -/
def execCbr (f : JF) (s : State) : Host.Outcome State Fault Refusal := issue (cbrAct f) s

/-- HOOPJ: hold the attachment of a hoop descriptor (R315). -/
def execHoopj (f : TF) (s : State) : Host.Outcome State Fault Refusal :=
  issue (do
    let a ← readS f.y f.yw
    checkRecord a
    hold (.hoopj a)) s

/-- SLOT and MIDX of a hoop reference (R313). -/
def hrefSlot (h : Word64) : Nat := fld h 11 0
def hrefMidx (h : Word64) : Nat := fld h 37 12

/-- The package at which a slot lives (R351). -/
def State.slotHome (s : State) (slot : Nat) : Nat := if s.domain && s.npkg != 0 then slot % s.npkg else s.pkg

/-- HOOPQ (R316): the value comes as a load's does; in replay it is the logged one. -/
def hoopqAct (q : Nat) (f : TF) : Act Unit := do
  let y ← readS f.y f.yw
  waitOn (0, f.x.toNat)
  match ← replayed 2 1 with
  | some (e :: _) => startFlight .load [.s f.x e.2]
  | _ => do
    let id ← fresh
    noteValue 2 id []
    let s ← get
    let k := s.chunk.seq
    let pc := s.src.pc
    onRegs fun r => { r with flights := r.flights ++
      [{ id := id, chunk := k, kind := .hoopq, writes := [], pc := pc, poison := none, todo := [], got := [], dst := f.x,
         code := BitVec.ofNat 3 q, href := y }] }
    if s.slotHome (hrefSlot y) = s.pkg then pure ()
    else change fun s => s.inject s.cur (.query (s.slotHome (hrefSlot y)) s.cur (s.ctx s.cur).kid y q)

/-- HOOPQ_RES: the latest result (R316). -/
def execHoopqRes (f : TF) (s : State) : Host.Outcome State Fault Refusal := issue (hoopqAct 0 f) s
/-- HOOPQ_EPOCH: the epoch (R316). -/
def execHoopqEpoch (f : TF) (s : State) : Host.Outcome State Fault Refusal := issue (hoopqAct 1 f) s
/-- HOOPQ_ARR: the arrivals (R316). -/
def execHoopqArr (f : TF) (s : State) : Host.Outcome State Fault Refusal := issue (hoopqAct 2 f) s
/-- HOOPQ_STATE: the slot's state (R316). -/
def execHoopqState (f : TF) (s : State) : Host.Outcome State Fault Refusal := issue (hoopqAct 3 f) s

/-! ## The arrival map (R353) -/

/-- The byte of a member in the arrival map. -/
def Hoop.mapByte (h : Hoop) (i : Nat) : Word64 := h.amap + BitVec.ofNat 64 (i / 4)

/-- V and D of a member; a map that cannot be read gives zeros and an error record where `note` asks for one. -/
def State.mapBits (s : State) (h : Hoop) (i : Nat) (note : Bool) : State × Bool × Bool :=
  match s.readNow (s.jobCtx h.kid 0) (h.mapByte i) 1 with
  | (s, .ok b) =>
    let x := ofBytes b >>> (2 * (i % 4))
    (s, x % 2 == 1, x / 2 % 2 == 1)
  | (s, .error (_, a)) => (if note then s.packageError 0 6 a h.kid else s, false, false)

/-- Change a member's two bits; a map that cannot be read keeps its bytes, as the read before it has recorded, and
one that cannot be written too, with an error record (R353). -/
def State.setMap (s : State) (h : Hoop) (i : Nat) (f : Nat → Nat) : State :=
  let c := s.jobCtx h.kid 0
  match s.readNow c (h.mapByte i) 1 with
  | (_, .error _) => s
  | (s, .ok bs) =>
    let b := ofBytes bs
    let sh := 2 * (i % 4)
    let x := b - b >>> sh % 4 * 2 ^ sh + f (b >>> sh % 4) % 4 * 2 ^ sh
    match s.writeNow c (h.mapByte i) (bytesOf 1 x) with
    | (s, none) => s
    | (s, some (_, a)) => s.packageError 0 6 a h.kid

/-! ## Attachment (R315, R350, R352) -/

/-- The format checks of a descriptor (R352). -/
def hoopBad (d : BitVec 512) : Bool :=
  let w := word512 d
  fld (w 1) 63 38 != 0 || fld (w 2) 63 38 != 0 || fld (w 2) 11 2 != 0 || fld (w 3) 31 16 != 0 || w 4 != 0 || w 5 != 0 ||
    w 6 != 0 || w 7 != 0 || fld (w 1) 37 12 == 0 || decide (fld (w 1) 37 12 < fld (w 2) 37 12) || fld (w 3) 63 32 == 0 ||
    (w 0).toNat % 64 != 0 || decide (0xFFC ≤ apertureOf (w 0))

/-- Whether every page of an arrival map is a writable page of local HBM under the job's tables (R352), with what the walks leave
(R32). -/
def State.mapOk (s : State) (kid : Nat) (a : Word64) (n : Nat) : State × Bool :=
  match s.locateW (s.jobCtx kid 0) .write a n with
  | (s, .error _) => (s, false)
  | (s, .ok ps) => (s, ps.all fun p => isHbm (p.1 / 128))

/-- The slot that a descriptor attaches. -/
def newHoop (kid : Nat) (addr : Word64) (d : BitVec 512) : Hoop :=
  let w := word512 d
  { kid := kid, addr := addr, amap := w 0, nmem := fld (w 1) 37 12, k := fld (w 2) 37 12, opr := (w 2).extractLsb' 0 2,
    tmo := fld (w 3) 63 32, epoch := (w 3).extractLsb' 0 16, round := 0, shrunk := false, live := fld (w 1) 37 12, arr := 0,
    truth := 0, timer := none, fixed := none, last := 0, voters := [], leaving := 0 }

/-- A join at its slot home (R315, R352): a refused one writes an error record, and the slot stays as it was; for the same
descriptor under the same key ID nothing changes. -/
def State.joinSlot (s : State) (j : Join) : State :=
  match j.desc with
  | none => s.packageError 0 6 j.addr j.kid
  | some d =>
    let slot := fld (word512 d 1) 11 0
    let (t, ok) := s.mapOk j.kid (word512 d 0) ((fld (word512 d 1) 37 12 + 255) / 256 * 64)
    if hoopBad d then s.packageError 0 6 j.addr j.kid
    else
    let s := t
    if !ok then s.packageError 0 6 j.addr j.kid
    else match s.hoops.find slot with
      | some h => if h.addr = j.addr ∧ h.kid = j.kid then s else s.packageError 0 6 j.addr j.kid
      | none => { s with hoops := s.hoops.put slot (newHoop j.kid j.addr d) }

/-- HOOP_JOIN_ARRIVAL: a join from another package reaches its slot home (R315, R352). -/
def execHoopJoinArrival (j : Join) (s : State) : Host.Outcome State Fault Refusal := .next (s.joinSlot j)

/-! ## Rounds (R354-R356) -/

/-- A result word (R314). -/
def resultWord (round : Nat) (code : Nat) (shrunk out : Bool) : Word64 :=
  BitVec.ofNat 64 (round % 2 ^ 24 * 2 ^ 16 + code * 2 ^ 8 + (if code = 0 then 0 else 4) + bit shrunk * 2 + bit out)

/-- The reduced predicate of n members and t true ones (R314). -/
def reduceVotes (opr : BitVec 2) (k n t : Nat) : Bool :=
  match opr.toNat with
  | 0 => t == n
  | 1 => decide (1 ≤ t)
  | 2 => decide (n < 2 * t)
  | _ => decide (k ≤ n ∧ k ≤ t)

/-- Send a result word to the core that cast a vote (R358). -/
def State.sendResult (s : State) (slot : Nat) (w : Word64) (v : Nat × Nat × Nat) : State :=
  if v.1 = s.pkg then { s with mail := s.mail ++ [.voteResultArrival v.2.1 v.2.2 w] }
  else { s with outs := s.outs ++ [.result v.1 slot v.2.1 v.2.2 w] }

/-- Complete a round once its arrivals equal the live count (R355, R356); a slot without a live member is released (R352). -/
def State.checkRound (s : State) (slot : Nat) : State :=
  match s.hoops.find slot with
  | none => s
  | some h =>
    if h.arr < h.live then s
    else if h.live = 0 then { s with hoops := s.hoops.del slot }
    else
      let w := h.fixed.getD (resultWord h.round 0 h.shrunk (reduceVotes h.opr h.k h.live h.truth))
      let s := if h.fixed.isSome then s else h.voters.foldl (fun s v => s.sendResult slot w v) s
      if h.live - h.leaving = 0 then { s with hoops := s.hoops.del slot }
      else { s with hoops := s.hoops.put slot { h with
        round := (h.round + 1) % 2 ^ 24, live := h.live - h.leaving, leaving := 0, arr := 0, truth := 0, timer := none,
        fixed := none, last := w, voters := [] } }

/-- A round expires (R356): its word becomes fixed and goes to every member counted. -/
def State.expire (s : State) (slot : Nat) (h : Hoop) : State :=
  let w := resultWord h.round 0x31 h.shrunk false
  h.voters.foldl (fun s v => s.sendResult slot w v)
    { s with hoops := s.hoops.put slot { h with timer := none, fixed := some w } }

/-- Whether a round's time has passed (R356). -/
def State.roundOver (s : State) (h : Hoop) : Bool := match h.timer with
  | some t => decide (t ≤ s.dt)
  | none => false

/-- A round whose time has passed expires before anything more reaches its slot (R356). -/
def State.expireFirst (s : State) (slot : Nat) : State :=
  match s.hoops.find slot with
  | none => s
  | some h => if s.roundOver h then s.expire slot h else s

/-- VOTE_ARRIVAL: a slot home examines a vote (R354). -/
def execVoteArrival (v : Vote) (s : State) : Host.Outcome State Fault Refusal :=
  let slot := hrefSlot v.href
  let s := s.expireFirst slot
  let i := hrefMidx v.href
  let back := (v.pkg, v.core, v.tag)
  match s.hoops.find slot with
  | none => .next (s.sendResult slot (resultWord 0 0x30 false false) back)
  | some h =>
    let refuse (s : State) (code : Nat) : State := s.sendResult slot (resultWord h.round code h.shrunk false) back
    if h.kid ≠ v.kid then .next (refuse s 0x30)
    else if fld v.href 63 38 ≠ 0 ∨ h.nmem ≤ i then .next (refuse s 0x30)
    else
      let (s, vb, d) := s.mapBits h i true
      if d then .next (refuse s 0x30)
      else if v.opr ≠ h.opr then .next (refuse s 0x32)
      else if vb ≠ (h.round % 2 == 1) then .next (refuse s 0x33)
      else
        let s := s.setMap h i fun x => x ^^^ 1
        let h := { h with arr := h.arr + 1, truth := h.truth + bit v.pred,
                          timer := if h.arr = 0 ∧ h.fixed.isNone then some (s.dt + 1000 * h.tmo) else h.timer,
                          voters := h.voters ++ [back] }
        let s : State := { s with hoops := s.hoops.put slot h }
        let s := match h.fixed with
          | some w => s.sendResult slot w back
          | none => s
        .next (s.checkRound slot)

/-- HOOP_ROUND_TIMEOUT: a round expires (R356). -/
def execHoopRoundTimeout (slot : Nat) (s : State) : Host.Outcome State Fault Refusal :=
  match s.hoops.find slot with
  | none => .fault .notEnabled
  | some h => event (s.roundOver h) (s.expire slot h)

/-! ## Drops (R320, R357) -/

/-- The completion of a `sys` function is reported to its counter (R320): 1 if it acted, 2^32 if it was refused. The counter
lies at package `p`; all ones is no counter. -/
def State.report (s : State) (p : Nat) (ctr : Word64) (acted : Bool) : State :=
  if ctr = BitVec.allOnes 64 then s
  else
    let v : Word64 := if acted then 1 else BitVec.ofNat 64 (2 ^ 32)
    if p = s.pkg then { s with items := s.items ++ [.evinc 0 unitCore ctr.toNat v] }
    else { s with outs := s.outs ++ [.atomic p { pkg := s.pkg, core := unitCore, kid := 0, op := 0, a := v, b := 0,
                                                 addr := ctr.toNat }] }

/-- HOOPDROP_ARRIVAL: a drop reaches its slot home (R320, R357). -/
def execHoopdropArrival (d : Drop) (s : State) : Host.Outcome State Fault Refusal :=
  let slot := hrefSlot d.href
  let s := s.expireFirst slot
  let i := hrefMidx d.href
  match s.hoops.find slot with
  | none => .next (s.report d.pkg d.ctr false)
  | some h =>
    if h.nmem ≤ i then .next (s.report d.pkg d.ctr false)
    else
      let (s, v, dr) := s.mapBits h i true
      if dr then .next (s.report d.pkg d.ctr false)
      else
        let arrived := v != (h.round % 2 == 1)
        let s := (s.setMap h i fun x => x ||| 2).report d.pkg d.ctr true
        let h := { h with epoch := h.epoch + 1, shrunk := true, live := if arrived then h.live else h.live - 1,
                          leaving := if arrived then h.leaving + 1 else h.leaving }
        .next (({ s with hoops := s.hoops.put slot h } : State).checkRound slot)

/-! ## Queries (R316) -/

/-- What a query of a slot of this package reads now (R316). -/
def State.hoopValue (s : State) (kid : Nat) (href : Word64) (q : Nat) : Word64 :=
  match s.hoops.find (hrefSlot href) with
  | none => 0
  | some h =>
    match q with
    | 0 => if h.kid = kid then h.last else 0
    | 1 => h.epoch.setWidth 64
    | 2 => BitVec.ofNat 64 h.arr
    | _ =>
      if h.kid ≠ kid then 2
      else if h.nmem ≤ hrefMidx href ∨ (s.mapBits h (hrefMidx href) false).2.2 then 3 else 1

/-- The oldest `hoopq` of a core that waits. -/
def Core.hoopqFlight (c : Core) : Option Flight := c.regs.flights.find? (·.kind == .hoopq)

/-- HOOPQ_REPLY: the value of a `hoopq` arrives (R316); of a slot of this package it is the value that the slot holds now. -/
def execHoopqReply (core : Nat) (value : Word64) (s : State) : Host.Outcome State Fault Refusal :=
  match (s.core core).hoopqFlight with
  | none => .fault .notEnabled
  | some f =>
    event (!s.paused && (s.slotHome (hrefSlot f.href) != s.pkg || value == s.hoopValue (s.ctx core).kid f.href f.code.toNat))
      (s.modCore core fun c =>
        (c.onChunkOf f.chunk (Chunk.fillValue 2 f.id 0 [value])).onAll (Regs.endFlight f.id fun r => r.putS f.dst value))

/-! ## Results (R317, R360, R361) -/

/-- Control as a `cbr` leaves it in the direction that was not guessed. -/
def Regs.redirect (r : Regs) (a : Word64 × List LoopLevel × Vector Word64 3) : Regs :=
  { r with pc := a.1, levels := a.2.1, lc := a.2.2 }

/-- A speculative chunk is squashed whole, and the core stands at its start (R317, R361). -/
def State.dropAhead (s : State) (i : Nat) : State :=
  let s := (squashPend s i).dropOffer i
  s.modCore i fun c => { c with again := 0, wait := .none, fault := none, phase := .idle, mismatches := [] }

/-- A fault waits for its delivery on a core (R365). -/
def Core.awaitDelivery (f : FaultRec) (c : Core) : Core :=
  { c with fault := some f, wait := .deliver, phase := .faulted, mismatches := [] }

/-- In replay a vote's result is the logged one (R418). -/
def State.replayVote (s : State) (core : Nat) (w : Word64) : State × Word64 :=
  if s.svc.logMode ≠ 2 then (s, w)
  else match s.scanLog (fun x => entryKind x == 6 && entryCore x == core) (s.logLim - s.logIdx) s.logIdx 1 with
    | e :: _ => if fld e.1 43 40 = 5 then (s, e.2) else (s.diverge, w)
    | [] => (s.diverge, w)

/-- The fault that a speculative chunk holds (R361). -/
def Core.heldFault (c : Core) : Option FaultRec :=
  match c.pend.bind (·.fault) with
  | some f => some f
  | none => c.run.bind (·.fault)

/-- A speculative chunk is squashed by a fault, which releases the priority token that a chunk of its core may hold (R247). -/
def State.faultAhead (s : State) (i : Nat) : State := ((s.dropAhead i).dropToken i false).dropToken i true

/-- A result word at the core that waits for it (R317, R361). A word with ERR = 1 has no chunk after it to be logged with, and goes with
the task's next entry (R416). -/
def State.resolve (s : State) (i : Nat) (p : Spec) (w : Word64) : State :=
  if bitAt w 2 then
    let s := s.faultAhead i
    s.modCore i fun c =>
      let r := if p.guess then c.regs.redirect p.alt else c.regs
      { c with regs := r, spec := none, carry := c.carry ++ [(⟨5, 0, [w]⟩ : LogValue)] }.awaitDelivery
        { code := w.extractLsb' 8 8, pc := r.pc, fpc := p.cbr, addr := 0, aux := 0, trapNo := 0 }
  else
    let q := { p with resolved := true, word := w }
    if bitAt w 0 = p.guess then
      match (s.core i).heldFault with
      | none => s.modCore i fun c => { c with spec := some q }
      | some f => (s.faultAhead i).modCore i fun c => { c with spec := some q }.awaitDelivery f
    else
      (s.dropAhead i).modCore i fun c =>
        { c with regs := c.regs.redirect p.alt, spec := some { q with guess := bitAt w 0 } }

/-- VOTE_RESULT_ARRIVAL: a result word reaches the core that cast the vote; a core that no longer waits discards it (R317,
R358). -/
def execVoteResultArrival (core tag : Nat) (word : Word64) (s : State) : Host.Outcome State Fault Refusal :=
  match (s.core core).spec with
  | none => .next s
  | some p =>
    if p.resolved ∨ p.tag ≠ tag then .next s
    else
      let (s', w) := s.replayVote core word
      event (!s.paused) (s'.resolve core p w)

/-! ## Combining in stage 0 (R358, R391) -/

/-- Whether two held requests may leave as one: votes for one slot, or far fetch-and-adds to one 8-byte address. -/
def Out.joins : Out → Out → Bool
  | .vote _ v, .vote _ w => hrefSlot v.href == hrefSlot w.href
  | .atomic p r, .atomic q t => p == q && r.addr == t.addr
  | _, _ => false

/-- Put a held request in its place by input port, after those of its own port (R358). -/
def insertHold (h : Hold) : List Hold → List Hold
  | [] => [h]
  | x :: t => if h.port < x.port then h :: x :: t else x :: insertHold h t

/-- The far fetch-and-adds among held requests. -/
def heldAtomics (l : List Hold) : List RemoteAtomic := l.filterMap fun h => match h.out with
  | .atomic _ r => some r
  | _ => none

/-- Stage 0 lets go of a held request with those that it combines it with (R358, R391): at most 64 votes in one message, each its
own entry, ordered by input port; fetch-and-adds as one request, while the wait buffer of 256 entries has room to split its
reply. -/
def State.release (s : State) (h : Hold) : State :=
  let mine := ((s.holds.filter fun x => x.out.joins h.out).foldl (fun l x => insertHold x l) []).take 64
  let s : State := { s with holds := s.holds.filter fun x => !mine.contains x }
  match h.out, heldAtomics mine with
  | .atomic p _, r :: t =>
    if t.isEmpty ∨ 256 ≤ s.splits.length then mine.foldl (fun s x => s.letGo x.out) s
    else { s with outs := s.outs ++ [.atomics p (r :: t)], splits := s.splits ++ [(r :: t).map (·.core)] }
  | _, _ => mine.foldl (fun s x => s.letGo x.out) s

/-- What has been held for 50 ns leaves (R358, R391); the number bounds how often. -/
def State.releaseDue : Nat → State → State
  | 0, s => s
  | n + 1, s => match s.holds.find? fun h => decide (h.since + 50 ≤ s.dt) with
    | none => s
    | some h => releaseDue n (s.release h)

/-- COMBINE_HOLD_EXPIRY: stage 0 lets go of what it has held longest, with what it combines it with (R358, R391). -/
def execCombineHoldExpiry (s : State) : Host.Outcome State Fault Refusal :=
  match s.holds with
  | [] => .fault .notEnabled
  | h :: _ => .next (s.release h)

end Sys2Proof.Machine
end

