-- ==== Sys2Proof/Machine/Shutter.lean ====
section
/-!
DEFINITION. Shutter mode (R318, R347-R349, R362, R412): `shut` and `shutv`, the closure of a phase with its votes and
transfers, and the opening of the next phase.
-/
namespace Sys2Proof.Machine

/-- The checks of `shut` and `shutv` (R318): 0x39 in a span comes first, then 0x34 outside shutter mode. -/
def inShutter : Act Unit := do
  let s ← get
  faultIf s.chunk.span.isSome 0x39
  faultIf (s.shutGang s.cur).isNone 0x34

/-- SHUT: close the shutter (R318). -/
def execShut (_p : Bool) (s : State) : Host.Outcome State Fault Refusal :=
  issue (do
    inShutter
    hold (.shut none)
    cutChunk .shut) s

/-- SHUTV: close the shutter with a vote (R318). -/
def execShutv (f : TF) (s : State) : Host.Outcome State Fault Refusal :=
  issue (do
    inShutter
    let x ← readS f.x f.xw
    let opr : BitVec 2 := f.f7.extractLsb' 0 2
    let k ← if opr = 3 then readS f.z f.zw else pure 0
    waitOn (0, f.y.toNat)
    hold (.shut (some (bitAt x 0, opr, k, f.y)))
    cutChunk .shut) s

/-! ## The shutter list (R347) -/

/-- A word of memory that a unit reads through a task's tables, or the failing address. -/
def State.listWord (s : State) (c : Ctx) (a : Word64) : State × Except Word64 Word64 :=
  match s.readNow c a 8 with
  | (s, .ok b) => (s, .ok (BitVec.ofNat 64 (ofBytes b)))
  | (s, .error (_, x)) => (s, .error x)

/-- Several such words, in order. -/
def State.listWords (s : State) (c : Ctx) : List Word64 → State × Except Word64 (List Word64)
  | [] => (s, .ok [])
  | a :: t => match s.listWord c a with
    | (s, .error x) => (s, .error x)
    | (s, .ok w) => match s.listWords c t with
      | (s, .error x) => (s, .error x)
      | (s, .ok ws) => (s, .ok (w :: ws))

/-- The address of a phase's two words. -/
def phaseAddr (list : Word64) (p : Nat) : Word64 := list + BitVec.ofNat 64 (16 + 16 * p)

/-- The number of phases, or the failing address: the header must fit the gang (R347). -/
def State.shutPhases (s : State) (c : Ctx) (g : Gang) : State × Except Word64 Nat :=
  match s.listWord c g.list with
  | (s, .error x) => (s, .error x)
  | (s, .ok w) =>
    (s, if fld w 23 16 + 1 ≠ g.size ∨ fld w 15 0 = 0 ∨ fld w 15 0 = 65535 then .error g.list else .ok (fld w 15 0))

/-- The descriptor addresses of the transfer list of a gang's phase (R347), or the failing address. -/
def State.transferList (s : State) (c : Ctx) (g : Gang) : State × Except Word64 (List Word64) :=
  match s.listWord c (phaseAddr g.list g.phase) with
  | (s, .error x) => (s, .error x)
  | (s, .ok x) =>
    if x = 0 then (s, .ok [])
    else match s.listWord c x with
      | (s, .error y) => (s, .error y)
      | (s, .ok n) => s.listWords c ((List.range n.toNat).map fun j => x + BitVec.ofNat 64 (8 + 8 * j))

/-- Whether lines can be read now: a copy command is to write none of them (R98), and those of other packages have come (R40). -/
def State.canRead (s : State) (ls : List Nat) : Bool := !s.anyClaimed ls && (s.notHere ls).isEmpty

/-- The lines of the shutter list that a closure reads: XLIST of the phase, and as soon as that can be read its list. -/
def State.closureLines (s : State) (c : Ctx) (g : Gang) : List Nat :=
  let l := s.linesAt c (phaseAddr g.list g.phase) 8
  if !s.canRead l then l
  else match (s.listWord c (phaseAddr g.list g.phase)).2 with
    | .error _ => l
    | .ok x =>
      if x = 0 then l
      else
        let l := l ++ s.linesAt c x 8
        if !s.canRead l then l
        else match (s.listWord c x).2 with
          | .error _ => l
          | .ok n => l ++ s.linesAt c (x + 8) (8 * n.toNat)

/-! ## Closing (R348) -/

/-- The result word of a closure (R314, R318, R362), its OUT, for members with these votes. -/
def closureResult (g : Gang) (votes : List (Option (Bool × BitVec 2 × Word64 × BitVec 5))) : Word64 × Bool :=
  match votes.filterMap id with
  | [] => (0, false)
  | v :: t =>
    let n := votes.length
    if t.length + 1 < n ∨ t.any (fun u => u.2.1 != v.2.1 || u.2.2.1 != v.2.2.1) then
      (resultWord g.closures 0x32 false false, false)
    else
      let out := reduceVotes v.2.1 v.2.2.1.toNat n ((v :: t).filter (·.1)).length
      (resultWord g.closures 0 false out, out)

/-- Start transfer j of a closure on the copy engine of its member's cluster (R348, R82). -/
def State.startTransfer (s : State) (gid : Nat) (g : Gang) (d : Word64) (j : Nat) : State :=
  match g.members[j % g.members.length]? with
  | none => s
  | some (_, core) =>
    let cl := clusterOf core
    let c := s.ctx core
    let r := (s.core core).regs
    let (s, x) := s.readOnce c d 64
    let b := match x with
      | .ok bs => .ok (BitVec.ofNat 512 (ofBytes bs))
      | .error (code, _) => .error code
    let n := match b with
      | .ok x => (copyDesc x).total
      | .error _ => 0
    let idx := fld r.sidx 31 0
    let s := if fld r.frm 2 0 = 5 then s.modCore core fun c =>
        { c with regs := { c.regs with sidx := setFld c.regs.sidx 31 0 (idx + n) } } else s
    let x := s.makeCopy cl (newCopy (nextSeq (s.cluster cl).copySeq) c.kid s.csn s.moment core r.frm (BitVec.ofNat 32 idx)
      r.wseed r.wtab c (some (gid, core))) b
    (s.queueCopy cl x).broadcast (linesSig x.claims) none

/-- The lines of the descriptor of a transfer, and whether the engine of its member has room for it (R96, R102). -/
def State.transferNeeds (s : State) (g : Gang) (d : Word64) (j : Nat) : List Nat × Bool :=
  match g.members[j % g.members.length]? with
  | none => ([], false)
  | some (_, core) => (s.linesAt (s.ctx core) d 64, decide ((s.cluster (clusterOf core)).copyQ.length < 64))

/-- Start the transfers of closures in the order of their lists, as far as the engines have room and their descriptors can be read;
descriptors on another package are asked for (R40, R98, R102, R348). The number bounds how many. -/
def State.startTodo : Nat → State → State
  | 0, s => s
  | fuel + 1, s =>
    let first (p : Nat × Gang) : Option (Nat × Gang × Nat × Word64 × List (Nat × Word64)) := match p.2.todo with
      | (j, d) :: t => if (s.transferNeeds p.2 d j).2 && s.canRead (s.transferNeeds p.2 d j).1 then some (p.1, p.2, j, d, t) else none
      | [] => none
    match s.gangs.findSome? first with
    | some (gid, g, j, d, t) => startTodo fuel (({ s with gangs := s.gangs.put gid { g with todo := t } } : State).startTransfer gid g d j)
    | none => s.gangs.foldl (fun (s : State) p => match p.2.todo, p.2.members with
        | (j, d) :: _, (_, core) :: _ => s.ask (s.ctx core).kid (s.notHere (s.transferNeeds p.2 d j).1)
        | _, _ => s) s

/-- A fault of a shutter list or of its transfer list: an error record, and the job tainted (R348). -/
def State.listFault (s : State) (core : Nat) (a : Word64) : State :=
  match (s.core core).task with
  | none => s
  | some t => (s.taskError core 0x0A a t.kid).raiseVerdict t.kid t.launch 2

/-- Close a phase whose members have all ended it (R348): the votes' result, and the phase's transfers. NEXT is read once the transfers
have completed, for which the first part of `out` stands. -/
def State.closePhase (s : State) (gid : Nat) (g : Gang) (c : Ctx) : State :=
  let votes := g.members.map fun m => ((g.ended.find? (·.1 == m.1)).map (·.2)).getD none
  let (w, out) := closureResult g votes
  let used := s.closureLines c g
  let s := (List.zip g.members votes).foldl (fun s p => match p.2 with
    | some v => s.modCore p.1.2 fun c => { c with regs := c.regs.putS v.2.2.2 w }
    | none => s) s
  let (s, ds) := s.transferList c g
  let (s, todo) := match ds with
    | .ok ds => (s, List.zip (List.range ds.length) ds)
    | .error a => (s.listFault c.core a, [])
  let g' : Gang := { g with closures := g.closures + 1, ended := [], out := some (true, out), transfers := todo.length, todo := todo }
  ({ s.dropFar used with gangs := s.gangs.put gid g' } : State).startTodo (todo.length + 1)

/-- SHUTTER_CLOSE: every member has ended the phase (R348). -/
def execShutterClose (gang : Nat) (s : State) : Host.Outcome State Fault Refusal :=
  match s.gangs.find gang with
  | none => .fault .notEnabled
  | some g =>
    match g.members with
    | [] => .fault .notEnabled
    | (_, core) :: _ =>
      let c := s.ctx core
      let used := (s.closureLines c g).eraseDups
      let ls := s.notHere used
      event (g.shut && g.out.isNone && !g.restart && !s.paused && (g.members.all fun m => g.ended.any (·.1 == m.1)) &&
          !s.anyClaimed used && s.mayRead ls)
        (if !ls.isEmpty then s.ask c.kid ls else s.closePhase gang g c)

/-! ## Opening (R348, R349) -/

/-- A member ends as by `done` when the gang's last phase has closed (R349). -/
def State.shutEnds (s : State) (m : Nat × Nat) : State :=
  match (s.core m.2).task with
  | none => s
  | some t => (s.taskEnds m.2 t).retire t m.2

/-- The phase that a closure has chosen, by NEXT0 or NEXT1 (R347, R348), or the failing address. -/
def State.nextPhase (s : State) (c : Ctx) (g : Gang) : State × Except Word64 Nat :=
  match g.out with
  | some (true, out) =>
    let used := s.linesAt c (phaseAddr g.list g.phase + 8) 8
    match s.listWord c (phaseAddr g.list g.phase + 8) with
    | (s, .error x) => (s.dropFar used, .error x)
    | (s, .ok x) => (s.dropFar used, .ok (if out then fld x 31 16 else fld x 15 0))
  | _ => (s, .ok g.phase)

/-- The routine of each member in a phase (R347), or the failing address. -/
def State.routines (s : State) (c : Ctx) (g : Gang) : State × Except Word64 (List Word64) :=
  match s.shutPhases c g with
  | (s, .error x) => (s, .error x)
  | (s, .ok n) =>
    if n ≤ g.phase then (s, .error g.list)
    else s.listWords c (g.members.map fun m =>
      let k := match (s.core m.2).task with
        | some t => t.member
        | none => 0
      g.list + BitVec.ofNat 64 (16 + 16 * n + 8 * (g.phase * g.size + k)))

/-- Open a phase: every member with a routine begins it in one cycle, a member without one closes at once (R347, R348). The first bundle
of every routine passes the entry check (R290, R347). -/
def State.openPhase (s : State) (gid : Nat) (g : Gang) (rs : List Word64) : State :=
  let ps := List.zip g.members rs
  let s := ps.foldl (fun s p =>
    if p.2 = 0 then s
    else s.modCore p.1.2 fun c =>
      { c with regs := { c.regs with pc := p.2, entry := true, levels := [] }, wait := .none }) s
  { s with gangs := s.gangs.put gid { g with out := none, ended := (ps.filter (·.2 == 0)).map fun p => (p.1.1, none) } }

/-- Whether every member of a gang stands at the barrier on its core, at rest. -/
def State.allAtBarrier (s : State) (g : Gang) : Bool := g.members.all fun m =>
  let c := s.core m.2
  c.wait == .shutter && c.atRest && (match c.task with
    | some t => t.id == m.1
    | none => false)

/-- Whether the messages that members have sent one another have reached the receive queues, as far as those have entries (R308, R348). -/
def State.sentWithin (s : State) (g : Gang) : Bool :=
  let mine (i : Nat) : Bool := g.members.any (·.2 == i)
  let between (m : Msg) : Bool := m.code == 0 && m.dst.toNat / 2 ^ 16 == s.pkg && mine (msgCore m) &&
    g.members.any fun x => (s.coreId x.2).setWidth 26 == m.src
  !(s.cells.any fun p => p.2.inject.any fun x => match x with
      | .msg m _ => between m
      | .req _ _ _ => false) &&
    !(s.mail.any fun i => match i with
      | .messageArrival m => between m && (s.cell (cellOf (msgCore m))).hasEntry (msgCore m)
      | _ => false)

/-- The lines that the opening of a phase reads: NEXT while it has still to be read, or the header and the routines. -/
def State.openingLines (s : State) (c : Ctx) (g : Gang) : List Nat :=
  match g.out with
  | some (true, _) => s.linesAt c (phaseAddr g.list g.phase + 8) 8
  | _ =>
    if g.phase = 0xFFFF then []
    else
      let l := s.linesAt c g.list 8
      if !s.canRead l then l
      else match (s.shutPhases c g).2 with
        | .error _ => l
        | .ok n => l ++ s.linesAt c (g.list + BitVec.ofNat 64 (16 + 16 * n + 8 * (g.phase * g.size))) (8 * g.size)

/-- The shutter list of a gang cannot be read or does not fit: its members cannot go on (log 26). -/
def State.shutFails (s : State) (g : Gang) (a : Word64) : State :=
  g.members.foldl (fun s m => match (s.core m.2).task with
    | some t => s.cannotRun m.2 t 0x0A a
    | none => s) s

/-- What follows once the next phase is known: the gang ends, is saved whole, or begins the phase (R348, R349). -/
def State.enterPhase (s : State) (gid : Nat) (g : Gang) (c : Ctx) : State :=
  let used := (s.openingLines c g).eraseDups
  if g.phase = 0xFFFF then g.members.foldl State.shutEnds s
  else if g.members.any fun m => (s.core m.2).saveWhy.isSome then
    g.members.foldl (fun s m => s.modCore m.2 fun c => { c with saveWhy := some .shutter }) s
  else if s.anyClaimed used then s
  else if !(s.notHere used).isEmpty then s.ask c.kid (s.notHere used)
  else match s.routines c g with
    | (s, .ok rs) => (s.dropFar used).openPhase gid g rs
    | (s, .error a) => (s.dropFar used).shutFails g a

/-- SHUTTER_REOPEN: the transfers have completed and messages between members have arrived; the next phase is read and opens, or the gang
is saved whole, or ends (R348, R349). -/
def execShutterReopen (gang : Nat) (s : State) : Host.Outcome State Fault Refusal :=
  match s.gangs.find gang with
  | none => .fault .notEnabled
  | some g =>
    match g.members with
    | [] => .fault .notEnabled
    | (_, core) :: _ =>
      let c := s.ctx core
      let wanted := g.members.any fun m => (s.core m.2).saveWhy.isSome
      let pending := (g.out.map (·.1)) == some true
      let used := if wanted && !pending then [] else (s.openingLines c g).eraseDups
      event (g.shut && g.out.isSome && !g.restart && g.transfers == 0 && s.allAtBarrier g && !s.paused && s.sentWithin g &&
          !s.anyClaimed used && s.mayRead (s.notHere used) &&
          !(g.members.all fun m => (s.core m.2).saveWhy == some .shutter))
        (if !(s.notHere used).isEmpty then s.ask c.kid (s.notHere used)
         else match s.nextPhase c g with
          | (s, .error a) => s.shutFails g a
          | (s, .ok n) =>
            let g' : Gang := { g with phase := n, out := g.out.map fun o => (false, o.2) }
            ({ s with gangs := s.gangs.put gang g' } : State).enterPhase gang g' c)

end Sys2Proof.Machine
end

