-- ==== Sys2Proof/Machine/Supervise.lean ====
section
/-!
DEFINITION. What the six `sys` functions do once their chunk is granted (R43, R320, R375, R426): physical cells and the
pools of spares, keys and their states, TLB invalidation; and the completions KEY_RETIRE_COMPLETE and
TLB_INVALIDATION_COMPLETE.
-/
namespace Sys2Proof.Machine

/-! ## Physical cells (R320, R383) -/

/-- Die, and physical cluster and cell as one number, of a PPATH word. -/
def ppathDie (x : Word64) : Nat := fld x 14 12
def ppathCell (x : Word64) : Nat := fld x 11 0

/-- The spare cells that a physical cluster has (R383). -/
def Die.spares (d : Die) (pclu : Nat) : List Nat := d.spareCells.get pclu [32, 33]

/-- The logical cell (package cell number) whose place a physical cell has, if any. -/
def State.logicalOf (s : State) (die path : Nat) : Option Nat :=
  (List.range 1536).map (die * 1536 + ·) |>.find? fun c => s.physCluster (c / 32) * 64 + s.physCell c == path

/-- Take a physical cell out of the spares and mark it sealed (R320, R375). -/
def Die.sealPath (d : Die) (path : Nat) : Die :=
  { d with spareCells := d.spareCells.put (path / 64) ((d.spares (path / 64)).filter (· != path % 64)),
           sealedCells := path :: d.sealedCells.filter (· != path), tested := d.tested.filter (· != path) }

/-- The place of the supervisor firmware's completion counter, all ones for none (R320, R322); a counter that the supervisor context
does not give is none (R4, log 63). -/
def State.sysCounterKey (s : State) (z : Word64) : Word64 :=
  if z = 0 ∨ ecCountOf s.supTrans1 ≤ fld z 22 3 then BitVec.allOnes 64
  else BitVec.ofNat 64 (ecBaseOf s.supTrans1 + 8 * fld z 22 3)

/-- Report a `sys` function of this package to its counter (R320). -/
def State.reportHere (s : State) (z : Word64) (acted : Bool) : State := s.report s.pkg (s.sysCounterKey z) acted

/-- `seal` acts (R320, R375): a cell in use asks for its seal, a spare leaves the pool and is sealed at once. -/
def State.actSeal (s : State) (j : SysJob) : State :=
  let d := s.die (ppathDie j.x)
  if d.sealedCells.contains (ppathCell j.x) then s.reportHere j.z false
  else match s.logicalOf (ppathDie j.x) (ppathCell j.x) with
    | some c => { s.setCell c { s.cell c with sealing := true } with sysJobs := s.sysJobs ++ [j] }
    | none => (s.setDie (ppathDie j.x) (d.sealPath (ppathCell j.x))).reportHere j.z true

/-- `unseal` acts (R320, R426): a sealed cell whose latest test passed joins the spares. -/
def State.actUnseal (s : State) (j : SysJob) : State :=
  let d := s.die (ppathDie j.x)
  let p := ppathCell j.x
  if d.sealedCells.contains p && d.tested.contains p then
    (s.setDie (ppathDie j.x) { d with
      sealedCells := d.sealedCells.filter (· != p)
      spareCells := d.spareCells.put (p / 64) ((d.spares (p / 64)).filter (· != p % 64) ++ [p % 64]) }).reportHere j.z true
  else s.reportHere j.z false

/-! ## Keys (R43) -/

/-- What HBM holds under a key ID when another key is installed under it: ciphertext of the old key, which reads through
the new one as it decrypts (R45). -/
def State.rekey (s : State) (kid : Nat) (key : BitVec 512) : State :=
  let old := s.keyOf kid
  let s' : State := if old = key then s
    else (s.lineKey.filter fun p => p.2 == kid && isHbm p.1).foldl (fun (s : State) p =>
      { s with mem := memWriteN s.mem (p.1 * 128) (bytesOf 128 (Config.decrypt p.1 old (s.rawLine p.1) key).toNat) }) s
  { s' with keys := s'.keys.put kid (.installed, key) }

/-- `keyset` installs a key (R320): 64 bytes at the address, data key then tweak key, by a committed read. A read that
meets a poisoned line or no memory installs nothing and reports a refusal. -/
def State.actKeyset (s : State) (core : Nat) (j : SysJob) : State :=
  match (s.keys.get j.x.toNat (.free, 0)).1 with
  | .installed => s.reportHere j.z false
  | .retiring => { s with sysJobs := s.sysJobs ++ [j] }
  | .free =>
    match s.readNow (s.ctx core) j.y 64 with
    | (s, .ok b) => (s.rekey j.x.toNat (BitVec.ofNat 512 (ofBytes b))).reportHere j.z true
    | (s, .error _) => s.reportHere j.z false

/-- Whether an entry of an injection queue is a message under a key ID. -/
def Inject.under (kid : Nat) : Inject → Bool
  | .msg m _ => m.kid == kid
  | .req _ _ _ => false

/-- Messages under a key ID, and the hoop slots of its job, go (R309, R352). -/
def State.dropJob (s : State) (kid : Nat) : State :=
  { s with
    cells := s.cells.map fun p => (p.1, { p.2 with
      recvQ := p.2.recvQ.filter (·.msg.kid != kid)
      inject := p.2.inject.filter fun x => !Inject.under kid x })
    mail := s.mail.filter fun i => match i with
      | .messageArrival m => m.kid != kid
      | _ => true
    hoops := s.hoops.filter (·.2.kid != kid) }

/-- `keyret` begins (R43, R320): Installed becomes Retiring. -/
def State.actKeyret (s : State) (j : SysJob) : State :=
  let k := j.x.toNat
  match s.keys.get k (.free, 0) with
  | (.installed, key) => { s.dropJob k with keys := s.keys.put k (.retiring, key), sysJobs := s.sysJobs ++ [j] }
  | _ => s.reportHere j.z false

/-- KEY_RETIRE_COMPLETE: every line and entry under a Retiring key ID is gone, the key ID becomes Free, and a waiting
`keyset` acts (R43, R320). -/
def execKeyRetireComplete (kid : Nat) (s : State) : Host.Outcome State Fault Refusal :=
  let st := s.keys.get kid (.free, 0)
  let done := s.sysJobs.filter fun j => j.f == 5 && j.x.toNat == kid
  let waits := s.sysJobs.filter fun j => j.f == 4 && j.x.toNat == kid
  let s1 := s.dropKey kid
  let s2 : State := { s1 with
    keys := s1.keys.put kid (.free, st.2)
    dies := s1.dies.map fun p => (p.1, { p.2 with walkCache := p.2.walkCache.filter (·.kid != kid) })
    clusters := s1.clusters.map fun p => (p.1, { p.2 with
      tlb := p.2.tlb.filter (·.kid != kid)
      walks := p.2.walks.map fun w => if w.kid = kid then { w with void_ := true } else w })
    sysJobs := s1.sysJobs.filter fun j => !(done.contains j || waits.contains j) }
  let s3 := done.foldl (fun (s : State) j => s.reportHere j.z true) s2
  event (st.1 == .retiring && !s.paused) (waits.foldl (fun (s : State) j => s.actKeyset firstSup j) s3)

/-! ## TLB invalidation (R39, R320) -/

/-- Whether `tlbinv` covers a page: TLBARG's key ID, and a range of pages or all. -/
def tlbMatches (x y : Word64) (kid va size : Nat) : Bool :=
  let lo := x.toNat / 4096 * 4096 % 2 ^ 57
  kid == fld y 9 0 && (bitAt y 10 || decide (va < lo + 4096 * fld y 31 12 ∧ lo < va + size))

/-- Every matching TLB entry goes and every walk-cache entry that leads to a matching page, and every matching walk in flight
installs nothing (R39). -/
def State.invalidate (s : State) (hit : Nat → Nat → Nat → Bool) : State :=
  let gone (e : WalkEntry) : Bool := hit e.kid (e.va * 2 ^ (12 + 9 * e.level) % 2 ^ 57) (2 ^ (12 + 9 * e.level))
  { s with
    dies := s.dies.map fun p => (p.1, { p.2 with walkCache := p.2.walkCache.filter fun e => !gone e })
    clusters := s.clusters.map fun p => (p.1, { p.2 with
      tlb := p.2.tlb.filter fun e => !hit e.kid e.va e.size
      walks := p.2.walks.map fun w => if hit w.kid (w.va * 4096) 4096 then { w with void_ := true } else w }) }

/-- TLB_INVALIDATION_COMPLETE: every TLB, walk cache and miss table has dropped what a `tlbinv` names (R39, R320). -/
def execTlbInvalidationComplete (job : Nat) (s : State) : Host.Outcome State Fault Refusal :=
  match s.sysJobs.find? (fun j => j.id == job && j.f == 3) with
  | none => .fault .notEnabled
  | some j =>
    event (!s.paused)
      ((({ s with sysJobs := s.sysJobs.filter (·.id != job) } : State).invalidate (tlbMatches j.x j.y)).reportHere j.z true)

/-! ## At the grant -/

/-- A held `sys` function acts (R320); function 2 sends its drop to the slot's home, by the injection queue of its cell (R389). -/
def State.actSys (s : State) (core f : Nat) (x y z : Word64) : State :=
  let j : SysJob := { id := s.moment, f := f, x := x, y := y, z := z }
  let s : State := { s with moment := s.moment + 1 }
  match f with
  | 0 => s.actSeal j
  | 1 => s.actUnseal j
  | 2 =>
    let d : Drop := { pkg := s.pkg, href := x, ctr := s.sysCounterKey z }
    s.inject core (.drop (s.slotHome (hrefSlot x)) d)
  | 3 => { s with sysJobs := s.sysJobs ++ [j] }
  | 4 => s.actKeyset core j
  | _ => s.actKeyret j

end Sys2Proof.Machine
end

