-- ==== Sys2Proof/Machine/Commit.lean ====
section
/-!
DEFINITION. Ends of chunks that no instruction causes (R235, R237, R418), requests for commit (R242), the cluster and die
latches (R243), and what the grant of a chunk does (R244, R295, R319, R345, R369).
-/
namespace Sys2Proof.Machine

/-! ## Ends of chunks -/

/-- Whether the running chunk of a core can end where it stands: a bundle boundary outside a span. -/
def Core.canEnd (c : Core) (p : Chunk → Bool) : Bool :=
  c.wait == .none && match c.run with
    | some k => k.span.isNone && k.ended.isNone && k.fault.isNone && p k
    | none => false

/-- Bundles of a chunk at which the target T ends it (R237): never in replay (R418), nor in a speculative chunk (R360). -/
def State.atTarget (s : State) (core : Nat) : Bool :=
  let c := s.core core
  s.svc.logMode != 2 && !c.speculating && c.canEnd fun k => decide (c.target ≤ k.n ∧ k.n < 4096)

/-- CHUNK_TARGET_REACHED: the bundle count has reached T, and the chunk ends (R237). -/
def execChunkTargetReached (core : Nat) (s : State) : Host.Outcome State Fault Refusal :=
  event (s.atTarget core) (s.cutNow core)

/-- Whether the running chunk has 4,096 bundles (R235). -/
def State.atLimit (s : State) (core : Nat) : Bool := (s.core core).canEnd fun k => decide (4096 ≤ k.n)

/-- CHUNK_LIMIT_REACHED: the bundle count has reached 4,096, and the chunk ends (R235). -/
def execChunkLimitReached (core : Nat) (s : State) : Host.Outcome State Fault Refusal :=
  event (s.atLimit core) (s.cutNow core)

/-- Whether replay ends the running chunk here: LEN + 1 bundles (R418). -/
def State.atReplayLen (s : State) (core : Nat) : Bool :=
  let c := s.core core
  let n := match c.pend with
    | some k => if k.atomic.isNone then 1 else 0
    | none => 0
  s.svc.logMode == 2 && match s.loggedLen (core % 2 ^ 16) n with
    | some len => c.canEnd fun k => k.n == len + 1
    | none => false

/-- REPLAY_CHUNK_CUT: in replay a chunk ends after its logged LEN + 1 bundles (R418). -/
def execReplayChunkCut (core : Nat) (s : State) : Host.Outcome State Fault Refusal :=
  event (s.atReplayLen core) (s.cutNow core)

/-! ## Requests (R242) -/

/-- Whether everything that a chunk started has written its destination (R125, R242). -/
def Core.chunkDone (c : Core) (k : Chunk) : Bool :=
  !(c.regs.flights.any (·.chunk == k.seq)) && !(c.regs.vq.any (·.chunk == k.seq)) &&
    !(c.regs.mq.any fun o => o.chunk == k.seq && (match o.kind with
      | .read _ _ _ _ => true
      | _ => false))

/-- Whether an atomic goes to another package (R261). -/
def AtomicOp.remote : AtomicOp → Bool
  | .fatom _ _ _ _ at_ => isRemote (at_ / 128)
  | _ => false

/-- Whether the copy queue of a core's cluster has room for the commands that a chunk holds (R96, R102). -/
def State.copyRoom (s : State) (core : Nat) (k : Chunk) : Bool :=
  decide ((s.cluster (clusterOf core)).copyQ.length + k.commands ≤ 64)

/-- Whether the pending chunk of a core may request its grant (R96, R99, R125, R238, R242). -/
def State.mayRequest (s : State) (core : Nat) (k : Chunk) : Bool :=
  let c := s.core core
  c.chunkDone k && k.fault.isNone && c.atomicOut.isNone &&
    s.copyRoom core k && !s.heldBack k.stores &&
    (match c.spec with
      | some p => p.resolved
      | none => true)

/-- Host pages that a chunk writes first get their dirty bits (R32). -/
def State.setDirties (s : State) (kid cl : Nat) (vas : List Nat) : State := vas.foldl (fun s va => s.setDirty kid cl va) s

/-- COMMIT_REQUEST: a pending chunk requests its commit once every condition holds (R242). Lines of other packages that its held
work needs at the grant and that it has not are asked for first (R40). -/
def execCommitRequest (core : Nat) (s : State) : Host.Outcome State Fault Refusal :=
  let c := s.core core
  match c.pend with
  | none => .fault .notEnabled
  | some k =>
    let kid := (s.ctx core).kid
    let ls := s.heldMissing core k
    let s' := s.setDirties kid (clusterOf core) k.dirty
    event ((!c.requested || !ls.isEmpty) && !s.paused && s.mayRequest core k && s.mayRead ls &&
        (match k.atomic with
          | some a => !a.remote
          | none => true))
      (if !ls.isEmpty then s.ask kid ls else s'.modCore core fun c => { c with requested := true })

/-! ## The cluster and die latches (R243) -/

/-- Whether a core's requested chunk passes the cluster and die latches: a far atomic is granted at its home slice, and a chunk
for whose copy commands the queue has no room is not offered (R96). -/
def State.asksLatch (s : State) (i : Nat) : Bool := (s.core i).requested && match (s.core i).pend with
  | some k => k.atomic.isNone && s.copyRoom i k
  | none => false

/-- The cores of a cluster in package core index order. -/
def coresOf (cl : Nat) : List Nat :=
  if 384 ≤ cl then (List.range 4).map (firstSup + 4 * (cl - 384) + ·) else (List.range 128).map (128 * cl + ·)

/-- CLUSTER_LATCH_OFFER: a cluster latch that holds no offer chooses a requesting core (R243). -/
def execClusterLatchOffer (cluster : Nat) (s : State) : Host.Outcome State Fault Refusal :=
  let c := s.cluster cluster
  match roundRobin (coresOf cluster) c.ptr s.asksLatch with
  | none => .fault .notEnabled
  | some i => event (c.offer.isNone && !s.paused) (s.setCluster cluster { c with offer := some i })

/-- The place of a core in its cluster's round robin. -/
def corePlace (i : Nat) : Nat := if isSup i then (i - firstSup) % 4 else i % 128

/-- DIE_LATCH_OFFER: a die latch that holds no offer chooses among its clusters' offers (R243). -/
def execDieLatchOffer (die : Nat) (s : State) : Host.Outcome State Fault Refusal :=
  let d := s.die die
  match roundRobin (clustersOf die) d.ptr fun cl => (s.cluster cl).offer.isSome with
  | none => .fault .notEnabled
  | some cl => event (d.offer.isNone && !s.paused) (s.setDie die { d with offer := some cl })

/-- A chunk is granted: where it was offered, the offers go and the pointers of the stages that chose it move past it
(R243). -/
def State.passOffers (s : State) (i : Nat) (chosen : Bool) : State :=
  let cl := clusterOf i
  let c := s.cluster cl
  if c.offer ≠ some i then s
  else
    let s := s.setCluster cl { c with offer := none, ptr := (corePlace i + 1) % (coresOf cl).length }
    let d := s.die (dieOf i)
    if d.offer ≠ some cl then s
    else
      let s := s.setDie (dieOf i) { d with offer := none, ptr := (clusterPlace cl + 1) % 49 }
      if chosen then { s with latchPtr := (dieOf i + 1) % 8 } else s

/-! ## What a chunk holds (R295) -/

/-- A record named at a grant: its tasks enter the scheduler, or it is malformed (R301, R325, R330, R333). -/
def State.spawnAt (s : State) (i : Nat) (t : Task) (a : Word64) (cont : Option Word64) : State :=
  match s.readGang (s.ctx i) a with
  | (s, .error x) => s.malformed i t.kid t.launch x
  | (s, .ok ws) =>
    let (s, ts) := s.makeTasks t.kid t.launch (clusterOf i) a cont ws
    (s.liveUp t.launch ts.length).enter (clusterOf i) ts

/-- A continuation registered by `suspend` stands for its task (R303); a malformed one ends it (R325). A gang of g records
stands for one task more in the live count with each member after the first. -/
def State.suspendAt (s : State) (i : Nat) (t : Task) (a : Word64) : State :=
  match s.readGang (s.ctx i) a with
  | (s, .error x) => (s.malformed i t.kid t.launch x).liveDown t.launch 1 0
  | (s, .ok ws) =>
    let (s, ts) := s.makeTasks t.kid t.launch (clusterOf i) a none ws
    (s.liveUp t.launch (ts.length - 1)).enter (clusterOf i) ts

/-- A `hoopj` acts on its slot at its grant, or leaves for the home of the slot that its descriptor names (R315, R352). -/
def State.joinAt (s : State) (i : Nat) (t : Task) (a : Word64) : State :=
  match s.readNow (s.ctx i) a 64 with
  | (s, .error _) => s.joinSlot { kid := t.kid, addr := a, desc := none }
  | (s, .ok b) =>
    let d := BitVec.ofNat 512 (ofBytes b)
    let j : Join := { kid := t.kid, addr := a, desc := some d }
    let home := s.slotHome (fld (word512 d 1) 11 0)
    if home = s.pkg then s.joinSlot j else s.inject i (.join home j)

/-- One piece of held work acts at the grant (R295, R301-R303, R308, R315, R320, R358): the new state, and the lines that a
copy command claims. -/
def State.actHeld (s : State) (i : Nat) (t : Task) : Held → State × List Nat
  | .copy id h desc frm sidx wseed wtab => s.issueCopy i id h desc frm sidx wseed wtab
  | .cancel v _ => (s.cancelOp v, [])
  | .tspawn a => (s.spawnAt i t a none, [])
  | .tspawnc a save => (s.spawnAt i t a (some save), [])
  | .suspend a => (if t.handlerOf.isSome then s else s.suspendAt i t a, [])
  | .send dst body =>
    let m : Msg := { dst := dst.setWidth 26, src := (s.coreId i).setWidth 26, kid := t.kid, code := 0, body := body }
    let c := s.cell (cellOf i)
    (s.setCell (cellOf i) { c with inject := c.inject ++ [.msg m i] }, [])
  | .hoopj a => (s.joinAt i t a, [])
  | .vote href pred opr =>
    let v : Vote := { kid := t.kid, href := href, opr := opr, pred := pred, pkg := s.pkg, core := i, tag := s.csn }
    (s.inject i (.vote (s.slotHome (hrefSlot href)) v), [])
  | .sys f x y z => (s.actSys i f x y z, [])
  | .sup num v => ((s.writeSup num v).getD s, [])
  | .done | .trap _ _ _ | .shut _ | .fence => (s, [])

/-- All held work, in issue order (R295), with the lines that its copy commands claim. -/
def State.actAll (s : State) (i : Nat) (t : Task) : List Held → State × List Nat
  | [] => (s, [])
  | h :: r =>
    let (s, ls) := s.actHeld i t h
    let (s, more) := s.actAll i t r
    (s, ls ++ more)

/-- The lines that a chunk's copy commands will claim at its grant (R98). -/
def State.claimsOf (s : State) (i : Nat) (k : Chunk) : List Nat :=
  let t := s.afterStores i k
  (k.held.map fun h => match h with
    | .copy _ _ desc frm sidx wseed wtab => (t.copyOf i desc frm sidx wseed wtab).2.claims
    | _ => []).flatten

/-! ## The core after its chunk's grant -/

/-- The tile slots of a committed chunk are emptied (R111). -/
def Regs.freeSlots (seq : Nat) (r : Regs) : Regs :=
  { r with slots := r.slots.map fun t => if t.chunk = some seq then ⟨.empty, 0, none, 0, [], 0⟩ else t }

/-- Fetches of a committed chunk that are still under way resolve as their slots let them go (R106, R111). -/
def State.resolveSlots (s : State) (i seq : Nat) : State :=
  (s.core i).regs.slots.toList.foldl (fun s t => if t.chunk = some seq then s.giveUpSlot i t else s) s

/-- Lines of other packages that a chunk has read take the stores that its task's earlier chunk has now committed to them (R238,
R260): a line wholly written carries no poison (R46). -/
def Chunk.mergeStores (m : NMap (BitVec 8 × BitVec 8)) (k : Chunk) : Chunk :=
  let g := groupLines m
  { k with remote := k.remote.map fun p => match g.find p.1 with
      | none => p
      | some (mask, data) =>
        (p.1, (p.2.1 &&& ~~~mask) ||| (data &&& mask), p.2.2 && mask != BitVec.allOnes 1024) }

/-- The cell of a core whose chunk has been granted holds the lines that it has written (R48, R51). -/
def State.holdWritten (s : State) (kid cell : Nat) (m : NMap (BitVec 8 × BitVec 8)) : State :=
  (groupLines m).foldl (fun s p =>
    s.holdDirty kid cell p.1 (BitVec.ofNat 4 (packN 1 ((List.range 4).map fun j =>
      if p.2.1.extractLsb' (256 * j) 256 = 0 then 0 else 1)))) s

/-- Whether a chunk did nothing that another could see (R345). -/
def Chunk.idle (k : Chunk) : Bool := k.wsig == 0 && k.held.isEmpty && k.atomic.isNone && k.after.isNone

/-- The chunks in a row that began at one bundle, did nothing, and saw the same values (R345). -/
def Core.nextSpin (c : Core) (k : Chunk) : Spin :=
  let vs := k.values.filter fun v => v.vk == 0 || v.vk == 2
  if !k.idle then ⟨0, 0, [], []⟩
  else if c.spin.count ≠ 0 ∧ c.spin.pc = k.start.pc ∧ (c.spin.values.map (·.vals)) = (vs.map (·.vals)) then
    ⟨k.start.pc, c.spin.count + 1, vs, k.rsig :: c.spin.rsigs⟩
  else ⟨k.start.pc, 1, vs, [k.rsig]⟩

/-- A core whose pending chunk has been granted (R111, R237, R238, R247, R261, R291, R317). -/
def Core.granted (c : Core) (k : Chunk) (csn win : Nat) : Core :=
  let clean := if k.first then c.clean + 1 else 0
  let extra := match c.run with
    | some r => r.ended.isSome
    | none => false
  let run := c.run.map fun (r : Chunk) => (if k.afterError then { r with afterError := false } else r).mergeStores k.stores
  ({ c with
    pend := if extra then run else none
    run := if extra then none else run
    requested := false
    spec := k.after.map fun p => { p with tag := csn }
    tries := []
    mismatches := match c.mismatches.find 1 with
      | some x => [(0, x)]
      | none => []
    carry := []
    redo := c.redo && !k.afterError
    target := if k.first ∧ clean % 4 = 0 then (if 4096 < 2 * c.target then 4096 else 2 * c.target) else c.target
    clean := clean
    lastPart := if sendsParts k.stores then some win else c.lastPart
    spin := c.nextSpin k } : Core).onAll (Regs.freeSlots k.seq)

/-- The values of a chunk for the log, after those that the log still owes for its core (R416). -/
def Core.grantValues (c : Core) (k : Chunk) : List LogValue := c.owedValues ++ k.values

/-! ## The end of a task (R303, R304, R319, R369, R370) -/

/-- Whether members of a task's gang wait, saved, for the rest of it (R349, R458), or the gang is to restart (R377). -/
def State.gangWaits (s : State) (t : Task) : Option (Nat × Gang) :=
  match t.gang with
  | none => none
  | some g => match s.gangs.find g with
    | none => none
    | some x => if x.saved.isEmpty && !x.restart then none else some (g, x)

/-- A task that has been away goes back to a cluster's ready queue; a member of a gang that waits for it joins the saved ones
(R377, R458). -/
def State.rejoin (s : State) (cl : Nat) (t : Task) : State :=
  match s.gangWaits t with
  | none => s.enqueue cl [t] false
  | some (g, x) => ({ s with gangs := s.gangs.put g { x with saved := x.saved ++ [t] } } : State).regang g

/-- The parked task goes back (R369, ACT 0b00). -/
def State.resumeParked (s : State) (p : Parked) : State := s.rejoin p.cluster { p.task with resume := true }

/-- A task that cannot be restarted is recorded and abandoned (R379). -/
def State.noRestart (s : State) (t : Task) (x : Word64) : State :=
  ((s.taskError (t.regCluster * 128) 0x0A x t.kid).leaveGang t).abandon t

/-- A task fresh from its record (R379): the registers s0 to s7, coordinates and places that the scheduler keeps stay. -/
def Task.afresh (t : Task) : Task := { t with resume := false, entryAt := none, atClosure := false, redo := false }

/-- Restart the tasks of an entry from their records, read again (R325, R326, R379); after a seal that is a corrected event of
the job (R381). -/
def State.restartRead (s : State) (cl : Nat) (ts : List Task) (afterSeal : Bool) : State :=
  let used := s.entryLines cl ts
  let (s, r) := s.rereadEntry cl ts
  let s := s.dropFar used
  match r with
  | .error x => ts.foldl (fun s t => s.noRestart t x) s
  | .ok us =>
    let s := match us with
      | [u] => s.rejoin cl u.afresh
      | _ => s.enqueue cl (us.map Task.afresh) false
    match afterSeal, ts with
    | true, t :: _ => s.raiseVerdict t.kid t.launch 1
    | _, _ => s

/-- The restarts whose records can be read go on, in their order (R379): records on another package are asked for first (R40), and those
that a copy command is still to write are waited for (R98). The first argument bounds how many. -/
def State.restartNext : Nat → State → State
  | 0, s => s
  | fuel + 1, s => match s.restarting with
    | [] => s
    | (cl, ts, afterSeal) :: t =>
      let ls := s.entryLines cl ts
      if s.anyClaimed ls then s
      else if !(s.notHere ls).isEmpty then s.ask ((ts.head?.map (·.kid)).getD 0) (s.notHere ls)
      else restartNext fuel (({ s with restarting := t } : State).restartRead cl ts afterSeal)

/-- Restart the tasks of an entry (R379), once those before it have been. -/
def State.restartAll (s : State) (cl : Nat) (ts : List Task) (afterSeal : Bool) : State :=
  ({ s with restarting := s.restarting ++ [(cl, ts, afterSeal)] } : State).restartNext (s.restarting.length + 1)

/-- Restart a task from its record (R379); a member of a gang that restarts whole joins those that wait for it (R377). -/
def State.restart (s : State) (t : Task) : State :=
  match s.gangWaits t with
  | some (g, x) =>
    if x.restart then { s with gangs := s.gangs.put g { x with saved := x.saved ++ [t] } } else s.restartAll t.regCluster [t] false
  | none => s.restartAll t.regCluster [t] false

/-- The gangs of which every member has been cut for a restart begin again as one entry each (R377). -/
def State.restartGangs (s : State) : State :=
  let due := s.gangs.filter fun p => p.2.restart && p.2.members.all fun m => p.2.saved.any (·.id == m.1)
  due.foldl (fun (s : State) p =>
    ({ s with gangs := s.gangs.del p.1 } : State).restartAll p.2.home
      (p.2.members.filterMap fun m => p.2.saved.find? (·.id == m.1)) true) s

/-- The restarts whose records can be read by now go on (R40, R379). -/
def State.restartCame (s : State) : State := s.restartNext s.restarting.length

/-- What a handler decides of the task it serves, in ACT of its s0 (R369). -/
def State.handlerAct (s : State) (core : Nat) (h : Task) (s0 : Word64) : State :=
  let s := s.liveDown h.launch 1 0
  match h.handlerOf.bind (s.parked.find ·) with
  | none => s
  | some p =>
    let s : State := { s with parked := s.parked.del (h.handlerOf.getD 0) }
    match fld s0 27 26 with
    | 0 => s.resumeParked p
    | 1 => (s.leaveGang p.task).retire p.task core
    | 2 => (s.leaveGang p.task).abandon p.task
    | _ =>
      if recRst p.task.words then s.restart p.task else (s.leaveGang p.task).abandon p.task

/-- A task's `done` chunk is granted (R304, R369). -/
def State.endDone (s : State) (i : Nat) (t : Task) (s0 : Word64) : State :=
  let s := s.taskEnds i t
  if t.firmware then s
  else if t.handlerOf.isSome then (s.bumpCompletion t i).handlerAct i t s0
  else s.retire t i

/-- A `trap` chunk is granted: the task stops with fault 0x09 (R319); a handler fails (R370); firmware starts again
(R457). -/
def State.endTrap (s : State) (i : Nat) (t : Task) (no : BitVec 7) (x pc : Word64) : State :=
  if t.firmware then (s.coreError i 0x09 9 0 pc 0).startFirmware i
  else if t.handlerOf.isSome then (s.taskEnds i t).handlerFails i t
  else s.modCore i fun c => c.awaitDelivery { code := 0x09, pc := c.regs.pc, fpc := pc, addr := 0, aux := x, trapNo := no }

/-- A member of a shutter gang has ended its phase (R348). -/
def State.endShut (s : State) (i : Nat) (t : Task) (vote : Option (Bool × BitVec 2 × Word64 × BitVec 5)) : State :=
  let s := s.modCore i fun c => { c with wait := .shutter }
  match t.gang with
  | none => s
  | some g => match s.gangs.find g with
    | none => s
    | some x => { s with gangs := s.gangs.put g { x with ended := x.ended ++ [(t.id, vote)] } }

/-- The last held piece says how the chunk ended its task's turn. -/
def State.endHeld (s : State) (i : Nat) (t : Task) (s0 : Word64) (k : Chunk) : State :=
  match k.ended with
  | some .fence => s.modCore i fun c => { c with wait := .window (s.window + 1) }
  | some .done => s.endDone i t s0
  | some .suspend => if t.handlerOf.isSome then (s.taskEnds i t).handlerFails i t else s.taskEnds i t
  | some .trap => match k.held.getLast? with
    | some (.trap no x pc) => s.endTrap i t no x pc
    | _ => s
  | some .shut => match k.held.getLast? with
    | some (.shut v) => s.endShut i t v
    | _ => s
  | _ => s

/-! ## Spin yield (R345, R458) -/

/-- A core that has spun through eight chunks yields, but for handlers and gangs outside shutter mode (R345, R368, R458). -/
def State.spinYield (s : State) (i : Nat) : State :=
  let c := s.core i
  match c.task with
  | none => s
  | some t =>
    if c.spin.count < 8 then s
    else
      let s := s.modCore i fun c => { c with spin := ⟨0, 0, [], []⟩ }
      let big : Bool := match t.gang.bind (s.gangs.find ·) with
        | some g => decide (2 ≤ g.size) && !g.shut
        | none => false
      if t.handlerOf.isSome ∨ t.firmware ∨ big then s else s.askSave i .spin

/-! ## The grant of a chunk (R244) -/

/-- What every grant of a chunk leaves: its messages freed, its core moved on, the token released, the verdict of a chunk
that ran again after a detected error (R247, R254, R381). -/
def State.settleChunk (s : State) (i : Nat) (k : Chunk) (t : Task) (csn win : Nat) : State :=
  let cell := s.cell (cellOf i)
  let s := s.setCell (cellOf i) { cell with recvQ := cell.recvQ.filter fun q => !k.pops.contains q.id }
  let s := (s.resolveSlots i k.seq).modCore i fun c => c.granted k csn win
  let s : State := { s.dropToken i false with token := (s.dropToken i false).token.map fun p => if p = (i, true) then (i, false) else p }
  if k.afterError && !t.firmware then s.raiseVerdict t.kid t.launch 1 else s

/-- The grant of a chunk: CSN and log, stores, held work, broadcast, and the end that the chunk gave its task (R244, R295,
R306). The lines that copy commands claim squash the task's own next chunk too (R98). CORE of the log entry (R416) is for a core of a
die supervisor cell, which has no package core index, the number 49,152 + 4 × die + core (log 50). -/
def State.grantChunk (s : State) (i : Nat) (k : Chunk) (t : Task) (chosen : Bool) : State :=
  let win := s.grantWindow
  let s0 := (s.core i).regs.s.get 0
  let used := s.heldLines i k
  let s := s.passOffers i chosen
  let s := s.takeCsn (i % 2 ^ 16) ((s.core i).grantValues k)
    (1 * 2 ^ 60 + i % 2 ^ 16 * 2 ^ 44 + (k.n - 1) % 2 ^ 12 * 2 ^ 32 + win % 2 ^ 32)
  let csn := s.csn
  let s := s.publish win t.kid csn k.stores
  let s := s.holdWritten t.kid (cellOf i) k.stores
  let (s, claims) := s.actAll i t k.held
  let s := (s.dropFar used).broadcast k.wsig (some i)
  let s := (s.settleChunk i k t csn win).broadcast (linesSig claims) none
  ((s.endHeld i t s0 k).spinYield i).wake

/-! ## The grant of a far atomic (R252, R305, R307) -/

/-- A far atomic, an `evinc` or an `rgrab` of this package is granted: its bundle's own stores count at the same CSN, and
its line squashes every chunk that it meets, the task's next one too (R244, R252, R296). -/
def State.grantAtomic (s : State) (i : Nat) (k : Chunk) (t : Task) (a : AtomicOp) : State :=
  let win := s.grantWindow
  let s := s.takeCsn (i % 2 ^ 16) ((s.core i).grantValues k) (2 * 2 ^ 60 + i % 2 ^ 16 * 2 ^ 44)
  let csn := s.csn
  let s := (s.publish win t.kid csn k.stores).holdWritten t.kid (cellOf i) k.stores
  let s := s.settleChunk i k t csn win
  let s := match a with
    | .fatom op x y h at_ =>
      let (s, old, code) := s.performAtomic t.kid op x y at_
      s.modCore i (Core.onAll (Regs.atomicResolves h code csn old.toNat))
    | .evinc x at_ => (s.performAtomic t.kid 0 x 0 at_).1
    | .rgrab n x =>
      let (s, lo, hi) := s.grab t.kid n
      s.modCore i (Core.onAll fun r => (r.putS x (BitVec.ofNat 64 lo)).putS (x + 1) (BitVec.ofNat 64 hi))
  (s.broadcast k.wsig none).wake

/-- REMOTE_ATOMIC_RELEASE: a far atomic to another package's line leaves at the start of window N + 2 (R261). Its bundle's
own stores, if any, are a commit of their own here; without them nothing takes a CSN here, and the log writes what the chunk has read
with the task's next entry (R416). -/
def execRemoteAtomicRelease (core : Nat) (s : State) : Host.Outcome State Fault Refusal :=
  let c := s.core core
  match c.task, c.pend with
  | some t, some k => match k.atomic with
    | some (.fatom op x y h at_) =>
      let r : RemoteAtomic := { pkg := s.pkg, core := core, kid := t.kid, op := op, a := x, b := y,
                                addr := remoteAddr (at_ / 128) + at_ % 128 }
      let plain := k.stores.isEmpty
      let ready := isRemote (at_ / 128) && !s.paused && s.mayRequest core k &&
        (match c.lastPart with
          | some n => decide (n + 2 ≤ s.window)
          | none => true) &&
        (plain || (!s.batchesFirst && !s.tokenBlocks k.wsig (some core) &&
          s.admits (((c.grantValues k).map (·.vals.length)).sum + 1) 5 (fun w => entryCore w == core % 2 ^ 16)))
      let win := s.grantWindow
      let s1 := if plain then s
        else
          let s := s.takeCsn (core % 2 ^ 16) (c.grantValues k) (5 * 2 ^ 60 + core % 2 ^ 16 * 2 ^ 44)
          ((s.publish win t.kid s.csn k.stores).holdWritten t.kid (cellOf core) k.stores).broadcast k.wsig (some core)
      let owed := if plain then c.grantValues k else []
      let s2 := (s1.settleChunk core k t s1.csn win).modCore core fun c => { c with atomicOut := some h, carry := owed }
      event ready (s2.wake.inject core (.atomic (remoteOwner (at_ / 128)) r))
    | _ => .fault .notEnabled
  | _, _ => .fault .notEnabled

end Sys2Proof.Machine
end

