-- ==== Sys2Proof/Machine/Latch.lean ====
section
/-!
DEFINITION. PACKAGE_LATCH_GRANT (R243, R244, R250, R418): the choice among everything that waits for a CSN, and the grants of
window batches, host writes, far atomics from outside, counter increments and completion records.
-/
namespace Sys2Proof.Machine

/-! ## Window batches (R259, R263) -/

/-- The order of parts in a batch: source package, then source CSN. -/
def partBefore (a b : Part) : Bool := decide (a.pkg < b.pkg) || (a.pkg == b.pkg && decide (a.csn < b.csn))

/-- Insert a part before the first that it precedes. -/
def insertPart (p : Part) : List Part → List Part
  | [] => [p]
  | q :: t => if partBefore p q then p :: q :: t else q :: insertPart p t

/-- Parts in canonical order; parts of one source and CSN stay as they came. -/
def sortParts (l : List Part) : List Part := l.foldl (fun a p => insertPart p a) []

/-- The line here that a part writes. -/
def partLine (p : Part) : Nat := p.addr / 128

/-- The parts that the batch of a window applies, those that came late first (R259, R263). -/
def State.batchParts (s : State) (win : Nat) : List Part :=
  s.late ++ sortParts (s.parts.filter (·.win == win))

/-- The batch of a window is granted. Where it ends a replay, the windows of the log count no longer (R418). -/
def State.grantBatch (s : State) (win : Nat) : State :=
  let ps := s.batchParts win
  let n := (s.parts.filter (·.win == win)).length
  let mode := s.svc.logMode
  let s := s.takeCsn unitCore [] (3 * 2 ^ 60 + n % 2 ^ 28 * 2 ^ 32 + win % 2 ^ 32)
  let s := ps.foldl (fun (s : State) p => s.writeLine p.kid (partLine p) p.mask p.data) s
  let s : State := { s with parts := s.parts.filter (·.win != win), late := [], lastBatch := if s.svc.logMode = mode then some win else none }
  (s.broadcast (linesSig (ps.map partLine)) none).wake

/-! ## Host writes (R256, R400, R405) -/

/-- A line that the host writes keeps the key ID of its last writer; the manual names no key ID for the host. A line that
nobody has written stays without one, and leaves L2. -/
def State.hostLine (s : State) (line : Nat) (mask data : Line) : State :=
  match s.lineKey.find line with
  | some k => s.writeLine k line mask data
  | none =>
    let s := s.writeLine 0 line mask data
    ({ s with lineKey := s.lineKey.del line } : State).l2Drop fun w => w.line == line && !w.host

/-- A host write or a piece of incoming RDMA data is granted; the last commit of a SEND raises its counter (R405). -/
def State.grantHost (s : State) (m : NMap (BitVec 8 × BitVec 8)) (kid : Option Nat) (rc : Option (Nat × Nat)) : State :=
  let win := s.grantWindow
  let s := s.takeCsn unitCore [] (4 * 2 ^ 60)
  let s := match kid with
    | some k => s.publish win k s.csn m
    | none => (groupLines m).foldl (fun (s : State) p => s.hostLine p.1 p.2.1 p.2.2) s
  let s : State := match rc with
    | some (k, at_) => { s with items := s.items ++ [.evinc k unitCore at_ 1] }
    | none => s
  (s.broadcast (cellsSig m) none).wake

/-! ## Far atomics of no core here -/

/-- An increment of this package's own units is granted (R304, R320, R404). -/
def State.grantEvinc (s : State) (kid core at_ : Nat) (a : Word64) : State :=
  let s := s.takeCsn (core % 2 ^ 16) [] (2 * 2 ^ 60 + core % 2 ^ 16 * 2 ^ 44 + (if core = unitCore then s.pkg else 0))
  let s := (s.performAtomic kid 0 a 0 at_).1
  (s.broadcast (linesSig [at_ / 128]) none).wake

/-- A far atomic of another package is granted, and its reply leaves, under the line's name in the request (R252, R311, R387); where the page has
come to the requester itself, the reply does not leave (R42). -/
def State.grantRemote (s : State) (r : RemoteAtomic) (line : Nat) : State :=
  let s := s.takeCsn unitCore [] (2 * 2 ^ 60 + 65535 * 2 ^ 44 + r.pkg % 2 ^ 32)
  let csn := s.csn
  let (s, old, code) := s.performAtomic r.kid r.op r.a r.b r.addr
  let s := (s.broadcast (linesSig [r.addr / 128]) none).wake
  let x : AtomicReply := { core := r.core, csn := csn, old := old, code := code }
  if r.pkg = s.pkg then { s with mail := s.mail ++ [.farAtomicReply x] } else { s with outs := s.outs ++ [.atomicReply r.pkg line x] }

/-- The far atomics of one request from outside are granted, one after another, in the order of their input ports (R253); in replay, where
the log names each grant, the first of them, and the others wait for theirs (R418). -/
def State.grantRemotes (s : State) (r : RemoteAtomic) (more : List RemoteAtomic) (line : Nat) : State :=
  if s.svc.logMode = 2 then
    match more with
    | [] => s.grantRemote r line
    | a :: t => let s := s.grantRemote r line
      { s with items := .remoteAtomic a t line :: s.items }
  else (r :: more).foldl (fun s a => s.grantRemote a line) s

/-! ## Completion records (R333, R340, R402) -/

/-- The state as the Zekar's own write of a completion record sees it: also a launch that is rejected because its key ID is
not Installed gets its record (R323). -/
def State.underKey (s : State) (kid : Nat) : State := { s with keys := s.keys.put kid (.installed, s.keyOf kid) }

/-- Where a completion record goes, or the code of what forbids it (R333), with what the walks leave behind (R32). -/
def State.recordWalk (s : State) (l : Launch) : State × Except Code (List (Nat × Nat)) :=
  if l.crec.toNat % 64 ≠ 0 then (s, .error 0x13)
  else if 0xFFC ≤ apertureOf l.crec then (s, .error 0x11)
  else
    let (t, r) := (s.underKey l.kid).locateW (s.jobCtx l.kid 0) .write l.crec 64
    ({ t with keys := s.keys }, match r with
    | .error (.fault code _ _) => .error code
    | .error _ => .error 0x14
    | .ok ps =>
      if ps.any fun p => isRemote (p.1 / 128) then .error 0
      else if ps.any fun p => s.poisoned (p.1 / 128) then .error 0x20
      else .ok ps)

/-- The place alone. -/
def State.recordPlace (s : State) (l : Launch) : Except Code (List (Nat × Nat)) := (s.recordWalk l).2

/-- The bytes of a completion record (R333). -/
def Launch.record (l : Launch) (csn : Nat) : List Byte :=
  bytesOf 8 (l.reason * 256 + l.level) ++ bytesOf 8 l.lseq ++ bytesOf 8 csn ++ bytesOf 8 l.tasks ++ bytesOf 32 0

/-- The Spoke writes NEXT of a job's ranges back when its last live launch completes, and lets them go (R340); the clusters let go of
its translation words, to be read anew with its next launch (R27). -/
def State.closeJob (s : State) (kid : Nat) : State :=
  let j := s.job kid
  let s := j.ranges.foldl (fun (s : State) p => s.writeWord 0 (s.jobBase kid + 0x200 + 32 * p.1) p.2.next) s
  let s : State := { s with clusters := s.clusters.map fun p => (p.1, { p.2 with trans := p.2.trans.del kid }) }
  s.setJob kid { j with ranges := [] }

/-- A launch is complete: its vector is sent, its ring and the launches that wait for it look again, and the job's ranges
are written back with its last one (R333, R334, R340, R402, R415). -/
def State.completeLaunch (s : State) (n : Nat) (l : Launch) : State :=
  let s : State := { s with launches := s.launches.put n { l with completed := true } }
  let vec := fld (s.rings.get l.ring Ring.reset).ctl 15 8
  let s : State := if 3 ≤ vec ∧ vec < 64 then { s with outs := s.outs ++ [.msix vec] } else s
  let s : State := { s with rings := s.rings.map (fun (p : Nat × Ring) => if p.1 = l.ring ∧ !p.2.err ∧ !p.2.stopped then (p.1, { p.2 with examine := true }) else p) }
  let j := s.job l.kid
  let s := if l.level = 3 then s else s.setJob l.kid { j with liveLaunches := j.liveLaunches - 1 }
  let s := if l.level ≠ 3 ∧ j.liveLaunches ≤ 1 then s.closeJob l.kid else s
  s.settleLog

/-- The completion record of a launch is granted; one that cannot be written becomes an error record (R333). -/
def State.grantRecord (s : State) (n : Nat) (l : Launch) : State :=
  match s.recordWalk l with
  | (s, .error code) => (s.packageError code 8 l.crec l.kid).completeLaunch n l
  | (s, .ok ps) =>
    let s := (s.dirtyAt (s.jobCtx l.kid 0) l.crec 64).takeCsn unitCore [] (5 * 2 ^ 60 + 65535 * 2 ^ 44)
    let m := cellsAt ps (l.record s.csn)
    let s := s.publish s.window l.kid s.csn m
    ((s.broadcast (cellsSig m) none).wake).completeLaunch n l

/-! ## The choice (R243) -/

/-- What the package latch grants: an item by its place, a core's far atomic, a core's chunk as the token holder's, or a
die's offer. -/
inductive Pick where
  | item (j : Nat) (x : Item)
  | atomic (core : Nat) (k : Chunk) (t : Task) (a : AtomicOp)
  | chunk (core : Nat) (k : Chunk) (t : Task) (chosen : Bool)
  deriving DecidableEq, Repr

/-- Grant what was chosen. -/
def State.grantPick (s : State) : Pick → State
  | .atomic i k t a => s.grantAtomic i k t a
  | .chunk i k t chosen => s.grantChunk i k t chosen
  | .item j x =>
    let s : State := { s with items := s.items.take j ++ s.items.drop (j + 1) }
    match x with
    | .batch win => s.grantBatch win
    | .host m kid rc => s.grantHost m kid rc
    | .remoteAtomic r more line => s.grantRemotes r more line
    | .evinc kid core at_ a => s.grantEvinc kid core at_ a
    | .record n => match s.launches.find n with
      | some l => if l.completed then s else s.grantRecord n l
      | none => s

/-- Whether a grant has left no job with more spilled entries than its ring holds, unless it had them before (R331). -/
def State.fitsAfter (s t : State) : Bool :=
  t.clusters.all fun p => p.2.spill.all fun e => match e.tasks with
    | [] => true
    | x :: _ => decide (t.spilled x.kid ≤ t.spillRoom x.kid) || decide (t.spilled x.kid ≤ s.spilled x.kid)

/-- Whether every cluster has room on chip for whatever a grant with n pieces of held work may queue. -/
def State.roomy (s : State) (n : Nat) : Bool :=
  s.clusters.all fun p => p.2.spill.isEmpty && decide (p.2.ready.length + s.registrations.length + n + 8 ≤ 1024)

/-- The pieces of held work of a choice. -/
def Pick.work : Pick → Nat
  | .item _ _ => 0
  | .atomic _ k _ _ | .chunk _ k _ _ => k.held.length

/-- Whether the entries that a grant makes ready, its wake-ups among them, find room on chip or in their jobs' spill rings: a
grant for which they do not waits (R331). Batches never wait for it. -/
def State.fits (s : State) (p : Pick) : Bool := s.roomy p.work || s.fitsAfter (s.grantPick p)

/-- Whether an item may be granted now: the token, claims of copy commands, the log (R99, R247, R416, R418). -/
def State.itemReady (s : State) (x : Item) : Bool :=
  match x with
  | .batch win =>
    let ps := s.batchParts win
    let n := (s.parts.filter (·.win == win)).length
    !(ps.any fun p => s.claimed (partLine p) || s.inTransit (partLine p)) &&
      s.admits 1 3 (fun w => fld w 31 0 == win % 2 ^ 32 && fld w 59 32 == n % 2 ^ 28)
  | .host m _ _ => !s.heldBack m && !s.tokenBlocks (cellsSig m) none && s.admits 1 4 (fun _ => true)
  | .remoteAtomic r more _ =>
    let l := r.addr / 128
    !s.claimed l && !s.inTransit l && !s.tokenBlocks (linesSig [l]) none &&
      s.admits (more.length + 1) 2 (fun w => entryCore w == 65535 && fld w 31 0 == r.pkg)
  | .evinc _ core at_ _ =>
    let l := at_ / 128
    !s.claimed l && !s.inTransit l && !s.tokenBlocks (linesSig [l]) none &&
      s.admits 1 2 (fun w => entryCore w == core % 2 ^ 16 && (core != unitCore || fld w 31 0 == s.pkg))
  | .record n =>
    match s.launches.find n with
    | none => true
    | some l => match s.recordPlace l with
      | .error _ => true
      | .ok ps =>
        let m := cellsAt ps (l.record 0)
        !s.heldBack m && !s.tokenBlocks (cellsSig m) none && s.admits 1 5 (fun w => entryCore w == 65535)

/-- The class of an item in the order of R243; completion records, which it does not name, come after far atomics. -/
def Item.rank : Item → Nat
  | .batch _ => 0
  | .host _ _ _ => 1
  | .remoteAtomic _ _ _ | .evinc _ _ _ _ => 2
  | .record _ => 3

/-- Whether an item must come after another: pieces of incoming data of one job keep the order of their message (R405). -/
def Item.follows (x y : Item) : Bool := match x, y with
  | .host _ (some k) _, .host _ (some j) _ => k == j
  | _, _ => false

/-- The waiting items of a class that can be granted, with their places. -/
def State.itemsOf (s : State) (r : Nat) : List (Nat × Item) :=
  (List.zip (List.range s.items.length) s.items).filter fun p =>
    p.2.rank == r && s.itemReady p.2 && !(s.items.take p.1).any p.2.follows && (r == 0 || s.fits (.item p.1 p.2))

/-- The pending chunk of a core that has requested its grant. -/
def State.asking (s : State) (i : Nat) : Option (Chunk × Task) :=
  let c := s.core i
  if !c.requested then none
  else match c.pend, c.task with
    | some k, some t => some (k, t)
    | _, _ => none

/-- Whether a requested chunk can be granted now: the token, also for the lines its copy commands will claim, earlier claims, on the
lines that its held work reads too, those of other packages among them, room for its copy commands and for its log entries (R40, R96, R98, R99, R247,
R416, R418). -/
def State.chunkReady (s : State) (i : Nat) (k : Chunk) : Bool :=
  let vals := ((s.core i).grantValues k).map (·.vals.length) |>.sum
  !s.tokenBlocks (k.wsig ||| linesSig (s.claimsOf i k)) (some i) && !s.heldBack k.stores && (s.heldMissing i k).isEmpty &&
    !s.anyClaimed (s.heldLines i k) &&
    s.copyRoom i k && s.admits (vals + 1) (if k.atomic.isSome then 2 else 1) (fun w => entryCore w == i % 2 ^ 16)

/-- Whether the line of a core's far atomic is free of claims and of transit. -/
def State.atomicFree (s : State) : AtomicOp → Bool
  | .fatom _ _ _ _ at_ | .evinc _ at_ => !s.claimed (at_ / 128) && !s.inTransit (at_ / 128)
  | .rgrab _ _ => true

/-- The far atomics of this package's cores that can be granted. -/
def State.atomics (s : State) : List Pick :=
  s.cores.filterMap fun p => match s.asking p.1 with
    | none => none
    | some (k, t) => match k.atomic with
      | none => none
      | some a => if s.atomicFree a && s.chunkReady p.1 k && s.fits (.atomic p.1 k t a) then some (.atomic p.1 k t a) else none

/-- A core's plain chunk, if it can be granted. -/
def State.chunkPick (s : State) (i : Nat) (chosen : Bool) : Option Pick :=
  match s.asking i with
  | none => none
  | some (k, t) =>
    if k.atomic.isNone && s.chunkReady i k && s.fits (.chunk i k t chosen) then some (.chunk i k t chosen) else none

/-- The chunk that a die offers. -/
def State.diePick (s : State) (d : Nat) : Option Pick :=
  match (s.die d).offer.bind fun cl => (s.cluster cl).offer with
  | none => none
  | some i => s.chunkPick i true

/-- Everything that the latch may grant next: the classes of R243 in their order; within far atomics, in any order. Batches that are due
and those of a pause hold everything else back (R259, R384). In replay the named item is taken wherever it waits (R418). -/
def State.picks (s : State) : List Pick :=
  let items (r : Nat) : List Pick := (s.itemsOf r).map fun p => .item p.1 p.2
  let first (l : List Pick) : List Pick := l.take 1
  let far := items 2 ++ s.atomics
  if !(items 0).isEmpty then first (items 0)
  else if s.batchesHold then []
  else if !(items 1).isEmpty then first (items 1)
  else if !far.isEmpty then far
  else if !(items 3).isEmpty then first (items 3)
  else if s.svc.logMode = 2 then first (s.cores.filterMap fun p => s.chunkPick p.1 false)
  else match s.token.head?.bind fun h => if h.2 then none else s.chunkPick h.1 false with
    | some p => [p]
    | none => first ((List.range 8).filterMap fun j => s.diePick ((s.latchPtr + j) % 8))

/-- Whether the next grant entry of a replayed log has a KIND that no entry has (R419). -/
def State.badEntry (s : State) : Bool :=
  s.svc.logMode == 2 && match s.nextLogged with
    | some (_, w, _) => entryKind w == 0 || decide (7 ≤ entryKind w)
    | none => false

/-- Whether a replayed log has ended (R418). -/
def State.logOver (s : State) : Bool := s.svc.logMode == 2 && decide (s.logLim ≤ s.logIdx)

/-- PACKAGE_LATCH_GRANT: the package latch grants one item (R243, R244); in replay an entry of an unassigned KIND makes the
replay diverge (R419), and a log that has ended ends it (R418). -/
def execPackageLatchGrant (s : State) : Host.Outcome State Fault Refusal :=
  if s.logOver then
    .next s.endReplay
  else if s.badEntry then .next s.diverge
  else match s.picks with
    | [] => .fault .notEnabled
    | p :: t =>
      let l := p :: t
      let q := (l[Config.choice s.moment % l.length]?).getD p
      event (!s.paused) (({ s with moment := s.moment + 1 } : State).grantPick q)

end Sys2Proof.Machine
end

