-- ==== Sys2Proof/Machine/Windows.lean ====
section
/-!
DEFINITION. Windows across packages (R182, R257-R264): parts as they arrive, the request of a window's batch, the end of a
`wfence`; and the host's accesses to this package's memory and its snoops (R53, R256, R399, R400).
-/
namespace Sys2Proof.Machine

/-! ## Native tables as a whole (R28, R42) -/

/-- A leaf entry of a job's native tables: the byte key of the entry, the virtual address it covers, the entry. -/
structure Leaf where
  kid : Nat
  key : Nat
  va : Nat
  e : Word64
  deriving DecidableEq, Repr

/-- Every valid leaf entry below a table, from a level downward (R28, R29). -/
def State.leavesBelow (s : State) (kid : Nat) : Nat → Nat → Nat → List Leaf
  | 0, _, _ => []
  | n + 1, table, va =>
    ((List.range 512).map fun i =>
      let k := table + 8 * i
      let e : Word64 := BitVec.ofNat 64 (ofBytes (memReadN s.mem k 8))
      let va' := va + i * 2 ^ (12 + 9 * n)
      if !bitAt e 0 then []
      else if bitAt e 1 then [⟨kid, k, va', e⟩]
      else s.leavesBelow kid n (fld e 51 12 * 4096) va').flatten

/-- Every leaf entry of the job's native tables; host tables are never rewritten (R30, R42). -/
def State.leaves (s : State) (kid : Nat) : List Leaf :=
  let t := (s.job kid).trans0
  if fld t 63 62 = 0 ∧ (s.jobs.find kid).isSome then s.leavesBelow kid 5 (fld t 51 12 * 4096) 0 else []

def Leaf.tgt (l : Leaf) : Nat := fld l.e 53 52
def Leaf.owner (l : Leaf) : Nat := fld l.e 63 54
def Leaf.frame (l : Leaf) : Nat := fld l.e 51 12 * 4096
def Leaf.size (l : Leaf) : Nat := 2 ^ pageLog (fld l.e 9 6)

/-- Whether some job's tables map an address of local HBM, which is then the place of a page that lives here. -/
def State.mapsLocal (s : State) (a : Nat) : Bool :=
  s.jobs.any fun p => (s.leaves p.1).any fun l => l.tgt == 0 && decide (l.frame ≤ a ∧ a < l.frame + l.size)

/-- Where a job's page that held an address went, with its record (R42), unless another page has taken its place since. -/
def State.movedPage (s : State) (kid a : Nat) : Option Moved :=
  match s.moved.find? fun m => m.kid == kid && decide (m.base ≤ a ∧ a < m.base + m.size) with
  | some m => if s.mapsLocal a then none else some m
  | none => none

/-! ## Parts and batches -/

/-- WINDOW_PART_ARRIVAL: a part reaches its home (R258). One for a page that has left goes on to the page's new owner with
its tags, and joins that owner's next batch (R42): such a part still names its first home. A part whose window's batch has
been granted is late: it joins the next batch, with an error record and a verdict (R263). -/
def execWindowPartArrival (p : Part) (s : State) : Host.Outcome State Fault Refusal :=
  match s.movedPage p.kid p.addr with
  | some m => .next { s with outs := s.outs ++ [.part m.owner { p with addr := m.frame + (p.addr - m.base) }] }
  | none =>
    if p.home ≠ s.pkg then .next { s with late := s.late ++ [p] }
    else match s.lastBatch with
      | some w =>
        if p.win ≤ w then
          .next ((({ s with late := s.late ++ [p] } : State).packageError 0 6 (BitVec.ofNat 64 p.addr) p.kid).raiseVerdict
            p.kid 0 (if s.svc.logMode = 1 then 2 else 1))
        else .next { s with parts := s.parts ++ [p] }
      | none => .next { s with parts := s.parts ++ [p] }

/-- WINDOW_BATCH_REQUEST: the batch of a window asks for its grant (R259). A window has a batch when it has parts, or when
parts that came late wait for one; batches go in window order. -/
def execWindowBatchRequest (win : Nat) (s : State) : Host.Outcome State Fault Refusal :=
  event (s.batchDue win && !s.hasBatch win && s.batchOpen win && (s.parts.any (·.win == win) || !s.late.isEmpty) &&
      !(s.parts.any fun p => decide (p.win < win) && !s.hasBatch p.win))
    { s with items := s.items ++ [.batch win] }

/-- WFENCE_RESUME: a window boundary has passed since the `wfence`, and the task's next chunk may begin (R182). -/
def execWfenceResume (core : Nat) (s : State) : Host.Outcome State Fault Refusal :=
  match (s.core core).wait with
  | .window n => event (decide (n ≤ s.window) && !s.paused) (s.modCore core fun c => { c with wait := .none })
  | _ => .fault .notEnabled

/-! ## The host (R256, R400) -/

/-- Whether an address lies in the window of the host's decoder (R32, R400). -/
def State.inHdm (s : State) (hpa n : Nat) : Bool := decide (s.hdmBase ≤ hpa ∧ hpa + n ≤ s.hdmBase + hbmSize)

/-- Bytes as held bytes at a key. -/
def cellsFrom (k : Nat) (bs : List Byte) : NMap (BitVec 8 × BitVec 8) := cellsAt [(k, bs.length)] bs

/-- HOST_MEM_WRITE: a host write to device memory waits for its grant (R256). A host write outside the decoder's window
changes the host's own memory, and the home slices that hold its lines answer the snoop by dropping them (R53). -/
def execHostMemWrite (hpa : Nat) (data : List Byte) (s : State) : Host.Outcome State Fault Refusal :=
  if s.inHdm hpa data.length then
    .next { s with items := s.items ++ [.host (cellsFrom (hpa - s.hdmBase) data) none none] }
  else
    let ls := linesOf (hostKey hpa) data.length
    event (decide (hpa + data.length ≤ 2 ^ 52))
      (({ s with mem := memWriteN s.mem (hostKey hpa) data } : State).l2Drop fun w => ls.contains w.line)

/-- Whether a line waits for the host's answer to a back-invalidate snoop (R400): the host still counts as a sharer of a
line that has been written, or that has left L2. -/
def State.snooping (s : State) (line : Nat) : Bool := s.snoops.contains line || match s.l2Way line with
  | some w => w.snooped
  | none => false

/-- The host takes a copy of a line: it is one further sharer (R400). -/
def State.hostShares (s : State) (line : Nat) : State :=
  let (s, w) := s.recall ((s.l2Way line).getD (Way.fill line (s.writerOf line 0)))
  s.l2Put { w with host := true, snooped := false }

/-- HOST_MEM_READ: a host read of device memory returns committed state, with poison indicated; it waits while a line of it
is being snooped, or is still to be written by a copy command that has been issued (R250, R256, R374, R400), and while the package is
paused or the batches of a pause are still to come (R384, R429). -/
def execHostMemRead (hpa len : Nat) (s : State) : Host.Outcome State Fault Refusal :=
  let k := hpa - s.hdmBase
  let ls := linesOf k len
  event (s.inHdm hpa len && !s.paused && !s.afterPause && !(ls.any s.snooping) && !(ls.any s.claimed) && !(ls.any s.inTransit))
    (let t := ls.foldl State.hostShares s
     { t with outs := t.outs ++ [.hostData (memReadN s.mem k len) (ls.any s.poisoned)] })

/-- HOST_SNOOP: the host snoops a line of its memory that a home slice caches; the slice answers, and keeps no copy (R53,
R399). -/
def execHostSnoop (hpa : Nat) (s : State) : Host.Outcome State Fault Refusal :=
  let line := hostKey hpa / 128
  let had := (s.l2Way line).isSome
  let s := s.l2Drop (·.line == line)
  .next { s with outs := s.outs ++ [.snoopReply line had] }

/-- BACK_INVALIDATE_SNOOP_RESPONSE: the host has dropped its copy of a line (R400). -/
def execBackInvalidateSnoopResponse (line : Nat) (s : State) : Host.Outcome State Fault Refusal :=
  let drop (x : Way) : Way := if x.line = line ∧ x.snooped then { x with host := false, snooped := false } else x
  event (s.snooping line)
    { s with
      snoops := s.snoops.filter (· != line)
      l2 := s.l2.map fun p => (p.1, p.2.map drop) }

end Sys2Proof.Machine
end

