-- ==== Sys2Proof/Machine/Launches.lean ====
section
/-!
DEFINITION. Launches from the host (R322, R323, R332-R334, R340, R347, R401): the launch rings' registers, the examination of
a ring's head record, the job context, and the grid of tasks that a launch expands into.
-/
namespace Sys2Proof.Machine

def State.ring (s : State) (g : Nat) : Ring := s.rings.get g Ring.reset
def State.setRing (s : State) (g : Nat) (r : Ring) : State := { s with rings := s.rings.put g r }

/-- Fields of a ring's control word (R401). -/
def Ring.en (r : Ring) : Bool := bitAt r.ctl 7
def Ring.size (r : Ring) : Nat := fld r.ctl 4 0

/-- Whether SIZE of a ring that is taken is illegal (R401). -/
def Ring.sizeBad (r : Ring) : Bool := r.en && decide (r.size < 6 ∨ 16 < r.size)

/-- A ring stops with ERR, and vector 2 tells the host (R401, R402). -/
def State.ringErr (s : State) (g : Nat) : State :=
  { s.setRing g { s.ring g with err := true, examine := false, stopped := true } with outs := s.outs ++ [.msix 2] }

/-- The package returns to Run (R429). -/
def State.backToRun (s : State) : State :=
  { s with svc := { s.svc with pst := .run }, paused := s.paused && s.svc.pst != .standby }

/-! ## Registers of a ring (R401) -/

/-- LAUNCH_RING_DOORBELL: a write of TAIL; the head is examined again, and a package in Standby returns to Run (R401,
R429). While ERR stands nothing is examined: a ring that an error has stopped goes on with a TAIL write after the host has cleared ERR. -/
def execLaunchRingDoorbell (ring : Nat) (tail : BitVec 32) (s : State) : Host.Outcome State Fault Refusal :=
  let r := s.ring ring
  let s' := (s.setRing ring (if r.err then { r with tail := tail } else { r with tail := tail, examine := true, stopped := false })).backToRun
  event (decide (ring < 16))
    (if r.en && !r.err && (r.sizeBad || decide (2 ^ r.size < (tail - r.head).toNat)) then s'.ringErr ring else s')

/-- LAUNCH_RING_ENABLE: a write of the control word: SIZE is ignored while EN = 1, a change of EN from 0 to 1 sets HEAD and
TAIL to 0, and an illegal SIZE with EN = 1 sets ERR (R401). -/
def execLaunchRingEnable (ring : Nat) (word : Word64) (s : State) : Host.Outcome State Fault Refusal :=
  let r := s.ring ring
  let w := word &&& 0xFF9F
  let w := if r.en then setFld w 4 0 r.size else w
  let start := !r.en && bitAt w 7
  let r' := { r with ctl := w, head := if start then 0 else r.head, tail := if start then 0 else r.tail }
  let s' := s.setRing ring r'
  event (decide (ring < 16))
    (if r'.sizeBad ∧ !r.err then s'.ringErr ring else s')

/-- LAUNCH_RING_ERR_CLEAR: a 1 written to ERR clears it; the ring takes nothing before the next TAIL write (R401). -/
def execLaunchRingErrClear (ring : Nat) (s : State) : Host.Outcome State Fault Refusal :=
  event (decide (ring < 16)) (s.setRing ring { s.ring ring with err := false })

/-! ## The job context (R27, R61, R322, R323) -/

/-- Word j of a job's context, which lies in local HBM under key ID 0 (R322): a line that L2 holds under another key ID reads as zeros
(R45). -/
def State.jobWord (s : State) (kid j : Nat) : Word64 := BitVec.ofNat 64 (ofBytes (s.readKey 0 (s.jobBase kid + 8 * j) 8).2.1)

/-- What the Zekar's read of the first bytes of a job's context leaves in L2 and in KEYMIS (R45). -/
def State.touchContext (s : State) (kid n : Nat) : State := (s.readKey 0 (s.jobBase kid) n).1

/-- The limits of CMCFG (R61). -/
def cmcfgBad (c : Word64) : Bool :=
  if bitAt c 0 then !((List.range 8).any fun q => fld c (17 + 2 * q) (16 + 2 * q) == 1) ||
    ((List.range 8).any fun q => fld c (17 + 2 * q) (16 + 2 * q) == 3)
  else fld c 8 6 == 0 || decide (fld c 12 9 < fld c 8 6) || decide (8 - fld c 5 3 < fld c 12 9)

/-- The limits of HFMT (R31): positions outside [51:12], all distinct, no reserved bit. -/
def hfmtBad (h : Word64) : Bool :=
  let ps := (List.range 7).map fun j => fld h (6 * j + 5) (6 * j)
  fld h 63 44 != 0 || ps.eraseDups.length != 7 || ps.any fun p => decide (12 ≤ p ∧ p ≤ 51)

/-- Whether a launch of the job is rejected for its context (R27, R31, R61, R323). -/
def State.contextBad (s : State) (kid : Nat) : Bool :=
  let w := s.jobWord kid
  let fmt := fld (w 0) 63 62
  kid == 0 || s.keyGone kid || fmt == 3 || fld (w 0) 61 52 != kid || fld (w 0) 11 0 != 0 || fld (w 1) 2 0 != 0 ||
    decide (65536 ≤ fld (w 1) 23 3) || fld (w 2) 63 32 != 0 || fld (w 2) 15 13 != 0 || fld (w 2) 2 1 != 0 ||
    cmcfgBad (w 2) || fld (w 3) 63 32 != 0 || fld (w 3) 15 8 != 0 || fld (w 3) 7 0 == 0 ||
    decide ((w 5).toNat < 65536) || fld (w 7) 15 2 != 0 || (if fmt = 0 then w 8 != 0 else hfmtBad (w 8)) ||
    ((List.range 55).any fun j => w (9 + j) != 0)

/-- The ranges that a job's context sets up (R322, R340). -/
def State.readRanges (s : State) (kid : Nat) : NMap Range :=
  (List.range 16).filterMap fun r =>
    let w (j : Nat) := (s.jobWord kid (64 + 4 * r + j)).toNat
    if w 2 = 0 then none else some (r, ⟨w 0, w 1, w 2, w 3⟩)

/-- The job as its context gives it at a launch (R322); TRANS0, TRANS1 and the ranges stay while another launch of the job
is live (R27, R340). -/
def State.readJob (s : State) (kid : Nat) : Job :=
  let w := s.jobWord kid
  let old := s.job kid
  let fresh := old.liveLaunches == 0
  { trans0 := if fresh then w 0 else old.trans0
    trans1 := if fresh then w 1 else old.trans1
    cmcfg := w 2
    slice := if fld (w 3) 31 16 = 0 then 2000 else fld (w 3) 31 16
    weight := fld (w 3) 7 0
    spillSize := (w 5).toNat
    waitBase := fld (w 6) 51 0
    hfmt := if fresh then w 8 else old.hfmt
    ranges := if fresh then s.readRanges kid else old.ranges
    liveLaunches := old.liveLaunches }

/-! ## The grid (R332) -/

/-- Task i of a launch's grid: its tile coordinate, save area and stack, s0 to s7 (R332, R347). -/
def gridTask (kid launch : Nat) (trec : Word64) (tmpl : BitVec 512) (nx ny first g num i : Nat) : Task :=
  let w6 := recW tmpl 6
  let x := (fld w6 63 44 + i % nx) % 2 ^ 20
  let y := (fld w6 43 24 + i / nx % ny) % 2 ^ 20
  let z := (fld w6 23 4 + i / (nx * ny)) % 2 ^ 20
  let lim := fld (recW tmpl 3) 31 0
  { id := num + i, kid := kid, words := tmpl, addr := trec, save := recW tmpl 2 + BitVec.ofNat 64 (saveSize * i),
    stkBase := fld (recW tmpl 3) 59 32 * 4096 + i * ((lim + 4095) / 4096 * 4096), stkLim := lim,
    tile := BitVec.ofNat 64 (x * 2 ^ 44 + y * 2 ^ 24 + z * 2 ^ 4), launch := launch, regCluster := (first + i / g * g) % 384,
    s0 := BitVec.ofNat 512 ((if recShut tmpl then i % g else x) + y * 2 ^ 64 + z * 2 ^ 128), contSave := none,
    handlerOf := none, gang := if 1 < g ∨ recShut tmpl then some (num + i / g * g) else none, member := i % g,
    resume := false, firmware := false, started := false, entryAt := none, atClosure := false, lastPart := none, grid := true }

/-- Every gang or task of a grid enters its home cluster (R329, R330, R332). -/
def State.enterGrid (s : State) (kid launch : Nat) (trec : Word64) (tmpl : BitVec 512) (nx ny first n : Nat) : State :=
  let g := recGang tmpl
  let num := s.nextTask
  let s : State := { s with nextTask := num + n }
  (List.range (n / g)).foldl (fun (s : State) j =>
    let ts := (List.range g).map fun k => gridTask kid launch trec tmpl nx ny first g num (j * g + k)
    s.enter ((first + j * g) % 384) ts) s

/-! ## The examination of a head record (R334, R401) -/

/-- A launch record (R332). -/
structure LaunchRec where
  trec : Word64
  kid : Nat
  nx : Nat
  ny : Nat
  nz : Nat
  crec : Word64
  lseq : Nat
  prev : Nat
  first : Nat
  skip : Bool
  proc : Bool
  deriving DecidableEq, Repr

/-- The fields of a launch record. -/
def launchRec (b : BitVec 512) : LaunchRec :=
  let w := recW b
  { trec := w 0, kid := fld (w 1) 63 54, nx := fld (w 2) 15 0, ny := fld (w 2) 31 16, nz := fld (w 2) 47 32, crec := w 3,
    lseq := fld (w 4) 63 32, prev := fld (w 4) 31 0, first := fld (w 5) 24 16, skip := bitAt (w 5) 1, proc := bitAt (w 5) 0 }

/-- The tables of a job with no live launch are those that its context names now (R27, R322): through them the completion
record of a launch is written, also of one that is rejected. -/
def State.readTables (s : State) (kid : Nat) : State :=
  let w := s.jobWord kid
  let old := s.job kid
  if old.liveLaunches = 0 then s.setJob kid { old with trans0 := w 0, trans1 := w 1, hfmt := w 8 } else s

/-- The ring takes its head record as a launch with this number. -/
def State.takeHead (s : State) (g : Nat) (l : LaunchRec) : State × Nat :=
  let s := (s.readTables l.kid).touchContext l.kid 1024
  let r := s.ring g
  let n := s.nextLaunch
  ({ s.setRing g { r with head := r.head + 1, held := false, waitp := false, seqs := r.seqs ++ [(l.lseq, n)] } with
      nextLaunch := n + 1
      launches := s.launches.put n { ring := g, kid := l.kid, lseq := l.lseq, crec := l.crec, live := 0, tasks := 0,
                                     level := 0, reason := 0, completed := false } }, n)

/-- A launch is rejected: it starts nothing, and its completion record says why (R323, R333). -/
def State.reject (s : State) (n reason : Nat) : State :=
  match s.launches.find n with
  | none => s
  | some l => { s with launches := s.launches.put n { l with level := 3, reason := reason }, items := s.items ++ [.record n] }

/-- A template record as it is read at the launch, or the address of what its read met (R325, R332). -/
def State.readTemplate (s : State) (l : LaunchRec) : State × Except Word64 (BitVec 512) :=
  if l.trec.toNat % 64 ≠ 0 ∨ 0xFFC ≤ apertureOf l.trec then (s, .error l.trec)
  else match s.readNow (s.jobCtx l.kid (l.first % 384)) l.trec 64 with
    | (s, .error (_, x)) => (s, .error x)
    | (s, .ok b) =>
      let w := BitVec.ofNat 512 (ofBytes b)
      (s, if recBad (s.jobCtx l.kid 0).ecCount w then .error 0 else .ok w)

/-- The lines of a launch's template, as its job's tables are at its start; none where the launch is rejected before it is read. -/
def State.launchLines (s : State) (l : LaunchRec) : List Nat :=
  if s.contextBad l.kid then []
  else (s.setJob l.kid (s.readJob l.kid)).linesAt (s.jobCtx l.kid (l.first % 384)) l.trec 64

/-- Start a launch whose prerequisite lets it run: context, template, grid, in this order (R323, R325, R332-R334). -/
def State.startLaunch (s : State) (g : Nat) (l : LaunchRec) : State :=
  let (s, n) := s.takeHead g l
  if s.contextBad l.kid then s.reject n 1
  else
    let used := s.launchLines l
    let (s, w) := (s.setJob l.kid (s.readJob l.kid)).readTemplate l
    let s := s.dropFar used
    match w with
    | .error x => ((s.packageError 0x0A 7 x l.kid).raiseVerdict l.kid n 2).reject n 2
    | .ok w =>
      let total := l.nx * l.ny * l.nz
      if total = 0 ∨ total % recGang w ≠ 0 then s.reject n 3
      else
        let j := s.job l.kid
        let s := (s.setJob l.kid { j with liveLaunches := j.liveLaunches + 1 }).liveUp n total
        s.enterGrid l.kid n l.trec w l.nx l.ny l.first total

/-- Those of other packages that have not come (R40). -/
def State.launchMissing (s : State) (l : LaunchRec) : List Nat := s.notHere (s.launchLines l)

/-- Examine a record: it waits for its prerequisite, is held on it, is skipped, is rejected, or starts (R334). -/
def State.examine (s : State) (g : Nat) (l : LaunchRec) : State :=
  let r := s.ring g
  let go : State := if (s.launchMissing l).isEmpty then s.startLaunch g l else s.ask l.kid (s.launchMissing l)
  if l.prev = 0 then go
  else match (r.seqs.filter (·.1 == l.prev)).getLast? with
    | none =>
      let (s, n) := s.takeHead g l
      s.reject n 3
    | some (_, m) =>
      match s.launches.find m with
      | none => go
      | some p =>
        if !p.completed then s.setRing g { r with waitp := true, held := false, examine := false }
        else if p.level < 2 ∨ l.proc then go
        else if l.skip then
          let (s, n) := s.takeHead g l
          s.reject n 4
        else s.setRing g { r with held := true, waitp := false, examine := false }

/-- Whether the package has been brought up: after a cold reset the service processor has written PKGNUM, and the package has joined its
domain where it has one to join; no task is placed before (R398, R430). -/
def State.broughtUp (s : State) : Bool :=
  s.resets != 0 && s.svc.pkgSet && (decide (s.npkg < 2) || s.domain || decide (8000 < 2 * s.hopD))

/-- LAUNCH_RECORD: the Zekar examines the head of a ring and takes its record if it may (R332, R334, R401), in a package that has been
brought up (R430). A template that a copy command is still to write is waited for (R98). -/
def execLaunchRecord (ring : Nat) (s : State) : Host.Outcome State Fault Refusal :=
  let r := s.ring ring
  let k := s.hpaKey (fld r.base 51 12 * 4096 + 64 * (r.head.toNat % 2 ^ r.size))
  let l := launchRec (BitVec.ofNat 512 (ofBytes (memReadN s.mem k 64)))
  event (decide (ring < 16) && r.en && !r.err && !r.stopped && r.examine && !s.paused && s.broughtUp &&
      (r.head == r.tail || (s.mayRead (s.launchMissing l) && !s.anyClaimed (s.launchLines l))))
    (if r.head = r.tail then s.setRing ring { r with examine := false }
     else if s.poisoned (k / 128) then s.ringErr ring
     else s.examine ring l)

end Sys2Proof.Machine
end

