-- ==== Sys2Proof/Machine/Carve.lean ====
section
/-!
DEFINITION. The roles of a cell's quads (R56, R61-R64): what a CMCFG asks for, a quad that changes its role, and the
interval at which a cell in MODE 0 decides its carve-out.
-/
namespace Sys2Proof.Machine

/-- Fields of CMCFG (R61). -/
def cmFixed (c : Word64) : Bool := bitAt c 0
def cmOpq (c : Word64) : Nat := fld c 5 3
def cmMin (c : Word64) : Nat := fld c 8 6
def cmMax (c : Word64) : Nat := fld c 12 9

/-- The role of a quad in MODE 0 with c cache quads (R62). -/
def layoutRole (cfg : Word64) (c q : Nat) : Nat :=
  if q < 8 - cmOpq cfg - c then 0 else if q < 8 - cmOpq cfg then 1 else 2

/-- The role that a cell gives a quad when it takes a CMCFG (R61, R62). -/
def firstRole (cfg : Word64) (q : Nat) : Nat :=
  if cmFixed cfg then fld cfg (17 + 2 * q) (16 + 2 * q) else layoutRole cfg (cmMin cfg) q

/-- The lines of a quad of a cell. -/
def quadLines (cell q : Nat) : List Nat := (List.range 256).map fun j => cellKey cell (q * 2 ^ 15) / 128 + j

/-- A quad's lines lose their contents and their poison, and belong to a key ID (R64). -/
def State.clearQuad (s : State) (cell q kid : Nat) : State :=
  let lo := cellKey cell (q * 2 ^ 15)
  let ls := quadLines cell q
  { s with
    mem := s.mem.filter fun c => !(decide (lo ≤ c.1 ∧ c.1 < lo + 2 ^ 15))
    poison := s.poison.filter fun l => !ls.contains l
    lineKey := ls.foldl (fun m l => m.put l kid) s.lineKey }

/-- Every running chunk whose signature holds a line of a quad is squashed (R64). -/
def State.squashQuad (s : State) (cell q : Nat) : State :=
  (quadLines cell q).foldl (fun (s : State) l => s.broadcast (sigAdd 0 l) none) s

/-- A quad takes a role (R64). Where it leaves the cache role, the sets give up the least recently used committed lines that the quads
which stay have no ways for: dirty ones are written home, clean ones dropped. -/
def State.setRole (s : State) (cell q role : Nat) : State :=
  let c := s.cell cell
  let old := c.role q
  let s := if old = 1 ∨ old = role then s else s.squashQuad cell q
  let s := if old = role then s else s.clearQuad cell q c.cfgJob
  let s := s.setCell cell { s.cell cell with
    roles := BitVec.ofNat 16 (c.roles.toNat - old * 4 ^ q + role * 4 ^ q)
    change := (s.cell cell).change.del q }
  if old = 1 ∧ role ≠ 1 then s.trimCache cell else s

/-- A cell whose cores are all idle takes a job's CMCFG; no chunk holds a line of it, so its quads change at once (R61,
R64). The interval of R63 and its counts begin anew here (log 64). -/
def State.takeCmcfg (s : State) (cell kid : Nat) : State :=
  let cfg := (s.job kid).cmcfg
  let s := s.setCell cell { s.cell cell with cmcfg := cfg, cfgJob := kid, lastCarve := s.cyc, cntA := 0, cntG := 0, cntL := 0,
                                             change := [] }
  (List.range 8).foldl (fun (s : State) q => s.setRole cell q (firstRole cfg q)) s

/-- A cell's cache quads now, those that are to leave the role among them. -/
def Cell.cacheNow (c : Cell) : Nat := ((List.range 8).filter fun q => c.role q == 1).length

/-- What a cell in MODE 0 decides at the end of an interval: a quad and its new role (R63). -/
def Cell.decide63 (c : Cell) : Option (Nat × BitVec 2) :=
  let n := c.cacheNow
  let s := 8 - cmOpq c.cmcfg - n
  if 256 ≤ c.cntA ∧ c.cntA ≤ 16 * c.cntG ∧ n < cmMax c.cmcfg then some (s - 1, 1)
  else if 64 * c.cntL < c.cntA ∧ cmMin c.cmcfg < n then some (s, 0)
  else none

/-- CARVEOUT_INTERVAL: every 64 µs a cell in MODE 0 decides its carve-out and starts its counts again (R63); none is applied
while a log is written or replayed (R417). -/
def execCarveoutInterval (cell : Nat) (s : State) : Host.Outcome State Fault Refusal :=
  let c := s.cell cell
  let c' := { c with lastCarve := c.lastCarve + 96000, cntA := 0, cntG := 0, cntL := 0 }
  event (c.cfgJob != 0 && !cmFixed c.cmcfg && decide (c.lastCarve + 96000 ≤ s.cyc) && !s.paused)
    (s.setCell cell (match c.decide63 with
      | some (q, r) => if s.svc.logMode ≠ 0 ∨ !c.change.isEmpty then c' else { c' with change := c'.change.put q r }
      | none => c'))

/-- Whether every set of a cell's cache role has room in the quads that stay (R64). -/
def State.quadFree (s : State) (cell : Nat) : Bool :=
  (List.range 32).all fun x => decide (s.setLoad cell x ≤ 8 * (s.cell cell).cacheQuads)

/-- QUAD_ROLE_CHANGE: a quad takes its new role, one that leaves the cache once no line in it holds uncommitted data (R64). -/
def execQuadRoleChange (cell quad : Nat) (s : State) : Host.Outcome State Fault Refusal :=
  match (s.cell cell).change.find quad with
  | none => .fault .notEnabled
  | some r => event (!s.paused && ((s.cell cell).role quad != 1 || s.quadFree cell)) (s.setRole cell quad r.toNat)

end Sys2Proof.Machine
end

