-- ==== Sys2Proof/Machine/Schedule.lean ====
section
/-!
DEFINITION. Choosing and placing (R331, R336-R346, R362, R368, R371, R458): which core a ready entry takes, gang
reservations, steals, time slices and urgency.
-/
namespace Sys2Proof.Machine

/-! ## Cores that an entry may take (R61, R337, R338) -/

/-- Whether a cell takes tasks at all. -/
def State.cellOpen (s : State) (cell : Nat) : Bool :=
  let c := s.cell cell
  !c.sealed_ && !c.sealing && !c.testing && !(s.cluster (cell / 32)).draining

/-- Whether all four cores of a cell are idle. -/
def State.cellIdle (s : State) (cell : Nat) : Bool := [0, 1, 2, 3].all fun j => (s.core (cell * 4 + j)).task.isNone

/-- Whether a cell admits a job's tasks (R61). -/
def State.cellAdmits (s : State) (cell kid : Nat) : Bool :=
  s.cellOpen cell && (s.cellIdle cell || (s.cell cell).cmcfg == (s.job kid).cmcfg)

/-- The entry that has reserved a core, if any (R338, R343). -/
def State.reservedFor (s : State) (i : Nat) : Option Nat :=
  (s.clusters.findSome? fun p => p.2.resvs.find? (·.cores.contains i)).map (·.entry)

/-- The job of an entry. -/
def Entry.kid (e : Entry) : Nat := (e.tasks.head?.map (·.kid)).getD 0
/-- The words of an entry's first record. -/
def Entry.words (e : Entry) : BitVec 512 := (e.tasks.head?.map (·.words)).getD 0
/-- Placement level and size of an entry: a member that resumes alone stays at the level of its gang. -/
def Entry.place (e : Entry) : Nat := recPlace e.words
def Entry.size (e : Entry) : Nat := e.tasks.length

/-- The cell in which the rest of a cell-level gang stands, for a member that resumes alone. -/
def State.gangCell (s : State) (e : Entry) : Option Nat :=
  match e.tasks with
  | [t] => match t.gang.bind (s.gangs.find ·) with
    | some g => if e.place = 1 ∧ 2 ≤ g.members.length then
        ((g.members.filter (·.1 != t.id)).head?.map fun m => cellOf m.2) else none
    | none => none
  | _ => none

/-- Whether a core is free for an entry. -/
def State.freeFor (s : State) (e : Entry) (i : Nat) : Bool :=
  (s.core i).task.isNone && s.cellAdmits (cellOf i) e.kid &&
    (match s.reservedFor i with
      | some x => x == e.id
      | none => true) &&
    (match s.gangCell e with
      | some c => cellOf i == c
      | none => true)

/-- The clusters of an entry's home group, the home first (R338). -/
def groupClusters (place home : Nat) : List Nat :=
  if place ≤ 2 then [home]
  else if place = 3 then home :: ((List.range 48).map (home / 48 * 48 + ·)).filter (· != home)
  else home :: (List.range 384).filter (· != home)

/-- The first n free cores of a list, if there are so many. -/
def State.takeFree (s : State) (e : Entry) (n : Nat) (l : List Nat) : Option (List Nat) :=
  let f := (l.filter (s.freeFor e)).take n
  if f.length = n then some f else none

/-- The cores on which an entry of a cluster's scheduler fits together (R337, R338), wherever its tasks have stood before; while a
cell-level gang holds a reservation, in the cell that it chose. -/
def State.fitPlain (s : State) (cl : Nat) (e : Entry) : Option (List Nat) :=
  if e.place = 1 then
    match (s.cluster cl).resvs.find? fun r => r.entry == e.id && decide (1 < e.size) with
    | some r => s.takeFree e e.size ((List.range 4).map (r.cell * 4 + ·))
    | none => (List.range 32).findSome? fun c => s.takeFree e e.size ((List.range 4).map ((cl * 32 + c) * 4 + ·))
  else s.takeFree e e.size ((groupClusters e.place cl).map coresOf).flatten

/-- The entries that a scheduler looks at: those on chip, and the urgent ones, wherever they lie (R331, R343). -/
def Cluster.listed (c : Cluster) : List Entry := c.ready ++ c.spill.filter (·.urgent.isSome)

/-- Cores for tasks in their order: each its own, the others those of a list. -/
def fillKept : List (Option Nat) → List Nat → Option (List Nat)
  | [], _ => some []
  | some i :: t, l => (fillKept t l).map (i :: ·)
  | none :: t, i :: l => (fillKept t l).map (i :: ·)
  | none :: _, [] => none

/-- The cores to which an entry goes back. A gang that a swap has drained takes the cores that its members had (R384, R436), with further
ones for members that were away; a task that has yielded takes its own, where no other entry of its cluster can (R345). -/
def State.fitKept (s : State) (cl : Nat) (e : Entry) : Option (List Nat) :=
  let own := e.tasks.filterMap (·.keep)
  if own.isEmpty ∨ !(own.all (s.freeFor e)) then none
  else if e.tasks.all (·.gang.isNone) ∧ ((s.cluster cl).listed.any fun x =>
      x.id != e.id && own.any fun i => ((s.fitPlain cl x).getD []).contains i) then none
  else
    let among := if e.place = 1 then (List.range 4).map (cellOf (own.headD 0) * 4 + ·) else ((groupClusters e.place cl).map coresOf).flatten
    if !(own.all among.contains) then none
    else fillKept (e.tasks.map (·.keep)) (among.filter fun i => !own.contains i && s.freeFor e i)

/-- Whether a drained gang waits for the swap of the cluster in which its members have stood (R384, R436). -/
def State.awaitsSwap (s : State) (e : Entry) : Bool :=
  e.tasks.any fun t => t.gang.isSome && t.keep.any fun i => (s.cluster (clusterOf i)).draining

/-- The cores on which an entry of a cluster's scheduler can be placed (R337, R338, R345, R362, R384). -/
def State.fit (s : State) (cl : Nat) (e : Entry) : Option (List Nat) :=
  let barrier := !recShut e.words || e.tasks.any (·.gang.any fun g => (s.gangs.find g).isSome) ||
    decide ((s.gangs.filter (·.2.shut)).length < 256)
  if !barrier ∨ s.awaitsSwap e then none
  else match s.fitKept cl e with
    | some l => some l
    | none => s.fitPlain cl e

/-! ## The order of entries (R337, R343) -/

/-- Effective priority (R337). -/
def State.effPrio (s : State) (e : Entry) : Nat :=
  let p := recPrio e.words + (s.cyc - e.since) / 96000
  if p < 7 then p else 7

/-- Whether an entry goes before another in R337's order: its job's virtual time, the key ID, effective priority, the
moment it became ready. -/
def State.goesBefore (s : State) (cl : Nat) (a b : Entry) : Bool :=
  let v (e : Entry) : Nat := (s.cluster cl).vt.get e.kid 0
  if v a ≠ v b then decide (v a < v b)
  else if a.kid ≠ b.kid then decide (a.kid < b.kid)
  else if s.effPrio a ≠ s.effPrio b then decide (s.effPrio b < s.effPrio a)
  else decide (a.since < b.since)

/-- The entry that R337 picks of a list. -/
def State.pickEntry (s : State) (cl : Nat) : List Entry → Option Entry
  | [] => none
  | e :: t => match s.pickEntry cl t with
    | none => some e
    | some f => if s.goesBefore cl f e then some f else some e

/-- The head of a cluster's urgent list (R343). -/
def Cluster.urgentHead (c : Cluster) : Option Entry :=
  c.listed.foldl (fun (a : Option Entry) e => match e.urgent, a.bind (·.urgent) with
    | some x, some y => if x < y then some e else a
    | some _, none => some e
    | none, _ => a) none

def Cluster.isHead (c : Cluster) (e : Entry) : Bool := (c.urgentHead.map (·.id)) == some e.id

/-! ## Placement -/

/-- A placed handler's fault-buffer entry is free (R371). -/
def State.freeBuffer (s : State) (t : Task) : State :=
  match t.handlerOf with
  | none => s
  | some p => match s.parked.find p with
    | some x => { s with parked := s.parked.put p { x with hasEntry := false } }
    | none => s

/-- A cluster that starts a job's first task reads the job's translation words (R27). What it finds there is used as it is, a
reserved FMT as host five-level tables (log 61): the launch has been checked before (R323). -/
def State.readTrans (s : State) (cl kid : Nat) : State :=
  let c := s.cluster cl
  if (c.trans.find kid).isSome then s
  else
    (s.touchContext kid 16).setCluster cl { c with trans := c.trans.put kid (s.jobWord kid 0, s.jobWord kid 1) }

/-- A task takes a core (R27, R327, R328, R337). -/
def State.putTask (s : State) (urgent : Bool) (t : Task) (i : Nat) : State :=
  let s := s.readTrans (clusterOf i) t.kid
  let c := s.core i
  (s.setCore i { Core.reset with
    task := some { t with keep := none }, wait := if t.resume then .resume else .start, since := s.cyc, sliceFrom := s.cyc, fromUrgent := urgent,
    deficit := c.deficit }).freeBuffer t

/-- The gang of a placed entry: made when its tasks are placed first, later with the cores that they now have (R338,
R347, R362). -/
def State.formGang (s : State) (cl : Nat) (l : List (Task × Nat)) : State :=
  match l with
  | [] => s
  | (t, _) :: _ => match t.gang with
    | none => s
    | some g => match s.gangs.find g with
      | some x =>
        let now (m : Nat × Nat) : Nat × Nat := match l.find? (fun p => p.1.id == m.1) with
          | some p => (m.1, p.2)
          | none => m
        let more := (l.filter fun p => !(x.members.any (·.1 == p.1.id))).map fun p => (p.1.id, p.2)
        { s with gangs := s.gangs.put g { x with members := x.members.map now ++ more } }
      | none =>
        let sh := recShut t.words
        let x : Gang :=
          { members := l.map (fun p => (p.1.id, p.2)), size := l.length, shut := sh, list := recW t.words 0, phase := 0,
            closures := 0, ended := [], out := (if sh then some (false, false) else none), transfers := 0, home := cl,
            saved := [], restart := false }
        { s with gangs := s.gangs.put g x }

/-- The cells among cores, each once. -/
def cellsOf (l : List Nat) : List Nat := (l.map cellOf).eraseDups

/-- Place an entry on cores (R61, R337, R338). -/
def State.placeEntry (s : State) (cl : Nat) (e : Entry) (l : List Nat) : State :=
  let c := s.cluster cl
  let s := s.setCluster cl { c with
    ready := c.ready.filter (·.id != e.id)
    spill := c.spill.filter (·.id != e.id)
    resvs := c.resvs.filter (·.entry != e.id)
    retry := c.retry.filter fun id => c.listed.any fun x => x.id == id && x.kid != e.kid }
  let s := (cellsOf l).foldl (fun (s : State) x => if s.cellIdle x then s.takeCmcfg x e.kid else s) s
  let ps := List.zip e.tasks l
  (ps.foldl (fun (s : State) p => s.putTask e.urgent.isSome p.1 p.2) s).formGang cl ps

/-! ## Pre-emption and reservations (R338, R343) -/

/-- Whether a core's task may not be taken by urgent pre-emption (R343, R368, R458). -/
def State.shielded (s : State) (i : Nat) : Bool :=
  let c := s.core i
  match c.task with
  | none => true
  | some t => t.firmware || t.handlerOf.isSome || t.gang.isSome || (s.token.head?.map (·.1)) == some i || c.fault.isSome ||
      c.saveWhy.isSome || (c.fromUrgent && decide (s.cyc - c.since < 1500 * (s.job t.kid).slice))

/-- Whether a cell would admit an entry's job once a core of it is free. -/
def State.wouldAdmit (s : State) (e : Entry) (i : Nat) : Bool :=
  let c := cellOf i
  s.cellOpen c && ((s.cell c).cmcfg == (s.job e.kid).cmcfg ||
    [0, 1, 2, 3].all fun j => c * 4 + j == i || (s.core (c * 4 + j)).task.isNone)

/-- The cores of the home group of an entry; of a cell-level gang, those of its reservation's cell. -/
def State.homeCores (cl : Nat) (e : Entry) (cell : Nat) : List Nat :=
  if e.place = 1 ∧ 1 < e.size then (List.range 4).map (cell * 4 + ·) else ((groupClusters e.place cl).map coresOf).flatten

/-- The cell that a cell-level gang's reservation chooses: the admitted one with the most free cores, the lowest among
equals (R338). -/
def State.gangChoice (s : State) (cl : Nat) (e : Entry) : Nat :=
  let frees (c : Nat) : Nat := (((List.range 4).map (c * 4 + ·)).filter (s.freeFor e)).length
  let cs := ((List.range 32).map (cl * 32 + ·)).filter fun c => s.cellAdmits c e.kid
  cs.foldl (fun a c => if frees a < frees c then c else a) (cs.headD (cl * 32))

/-- The core of a list whose task has run longest since its placement, of those that may be taken (R343). -/
def State.longest (s : State) (e : Entry) (l : List Nat) : Option Nat :=
  (l.filter fun i => !s.shielded i && (s.reservedFor i).isNone && s.wouldAdmit e i).foldl
    (fun (a : Option Nat) i => match a with
      | none => some i
      | some j => if (s.core i).since < (s.core j).since then some i else a) none

/-- Begin a reservation for an entry with the free cores of its home group; its limit counts from its first core (R338,
R343). -/
def State.reserve (s : State) (cl : Nat) (e : Entry) (limit : Bool) : State :=
  let cell := s.gangChoice cl e
  let cores := (State.homeCores cl e cell).filter (s.freeFor e)
  let c := s.cluster cl
  s.setCluster cl { c with resvs := c.resvs ++
    [{ entry := e.id, cores := cores, until_ := if limit ∧ !cores.isEmpty then some (s.cyc + 96000) else none, cell := cell }] }

/-- Put a core into the reservation of an entry, or begin one with it; the first core sets the reservation's limit. -/
def Cluster.reserveCore (c : Cluster) (e : Entry) (i : Nat) (limit : Option Nat) : Cluster :=
  if c.resvs.any (·.entry == e.id) then
    { c with resvs := c.resvs.map fun r =>
        if r.entry = e.id then { r with cores := r.cores ++ [i], until_ := if r.cores.isEmpty then limit else r.until_ }
        else r }
  else { c with resvs := c.resvs ++ [{ entry := e.id, cores := [i], until_ := none, cell := cellOf i }] }

/-- What the urgent head does where it does not fit (R343): a gang's reservation begins or loses its limit, and one more
task that may be taken is pre-empted while cores are lacking. -/
def State.preempt (s : State) (cl : Nat) (e : Entry) : Option State :=
  let c := s.cluster cl
  match c.resvs.find? (·.entry == e.id) with
  | none =>
    if 1 < e.size then some (s.reserve cl e false)
    else (s.longest e (State.homeCores cl e 0)).map fun i =>
      (s.setCluster cl (c.reserveCore e i none)).askSave i .urgent
  | some r =>
    if r.until_.isSome then
      some (s.setCluster cl { c with resvs := c.resvs.map fun x => if x.entry = e.id then { x with until_ := none } else x })
    else if e.size ≤ r.cores.length then none
    else (s.longest e (State.homeCores cl e r.cell)).map fun i =>
      (s.setCluster cl (c.reserveCore e i none)).askSave i .urgent

/-- A core of a reservation's home group that has become free, with the entry (R338). -/
def State.joining (s : State) (cl : Nat) : Option (Entry × Nat) :=
  let c := s.cluster cl
  c.resvs.findSome? fun r => match c.listed.find? (·.id == r.entry) with
    | none => none
    | some e =>
      if e.size ≤ 1 then none
      else ((State.homeCores cl e r.cell).find? fun i => s.freeFor e i && !r.cores.contains i).map fun i => (e, i)

/-- The head of a job's entries of a cluster (R337). -/
def State.jobHead (s : State) (cl kid : Nat) : Option Entry :=
  s.pickEntry cl ((s.cluster cl).ready.filter (·.kid == kid))

/-- A gang that heads its job, does not fit, and may begin a reservation, with a core of its home group that is free (R338). -/
def State.toReserve (s : State) (cl : Nat) : Option Entry :=
  let c := s.cluster cl
  ((c.ready.map (·.kid)).eraseDups.filterMap (s.jobHead cl)).find? fun e =>
    decide (1 < e.size) && !c.retry.contains e.id && !(c.resvs.any (·.entry == e.id)) && (s.fit cl e).isNone &&
      (State.homeCores cl e (s.gangChoice cl e)).any (s.freeFor e)

/-- Entries that a tainted job completes unrun (R341). -/
def State.unrunEntry (s : State) (cl : Nat) : Option Entry :=
  ((s.cluster cl).ready ++ (s.cluster cl).spill).find? fun e => match e.tasks with
    | t :: _ => s.unrun t
    | [] => true

/-- Remove an entry from a cluster's queues and reservations. -/
def Cluster.dropEntry (c : Cluster) (id : Nat) : Cluster :=
  { c with ready := c.ready.filter (·.id != id), spill := c.spill.filter (·.id != id),
           resvs := c.resvs.filter (·.entry != id) }

/-- What the urgent head does at once where it does not fit (R343). -/
def State.urgentFirst (s : State) (cl : Nat) : Option State :=
  (s.cluster cl).urgentHead.bind fun e => if (s.fit cl e).isSome then none else s.preempt cl e

/-- What a scheduler does next, if anything: an unrun entry completes; a freed core joins a reservation; the urgent head, where it
does not fit, pre-empts or reserves; a gang that heads its job and does not fit begins its reservation, before anything else takes the
cores that are free (R338); the entry that R337 picks among the placeable ones is placed. -/
def State.schedule (s : State) (cl : Nat) : Option State :=
  let c := s.cluster cl
  match s.unrunEntry cl with
  | some e => some ((s.setCluster cl (c.dropEntry e.id)).completeUnrun e.tasks)
  | none =>
    if c.draining then none
    else match s.joining cl with
      | some (e, i) => some (s.setCluster cl (c.reserveCore e i (if c.isHead e then none else some (s.cyc + 96000))))
      | none =>
        match s.urgentFirst cl with
        | some s' => some s'
        | none =>
          match s.toReserve cl with
          | some e => some (s.reserve cl e true)
          | none => (s.pickEntry cl (c.listed.filter fun e => (s.fit cl e).isSome)).bind fun e =>
              (s.fit cl e).map fun l => s.placeEntry cl e l

/-- TASK_PLACEMENT: a cluster's scheduler makes its next choice (R336-R338, R341, R343). -/
def execTaskPlacement (cluster : Nat) (s : State) : Host.Outcome State Fault Refusal :=
  match s.schedule cluster with
  | none => .fault .notEnabled
  | some s' => event (!s.paused && decide (cluster < 384)) s'

/-- SPILL_RETURN: an entry returns from its job's spill ring when on-chip room frees (R331). -/
def execSpillReturn (cluster : Nat) (s : State) : Host.Outcome State Fault Refusal :=
  let c := s.cluster cluster
  match c.spill with
  | [] => .fault .notEnabled
  | e :: t => event (decide (c.ready.length < 1024) && !s.paused) (s.setCluster cluster { c with ready := c.ready ++ [e], spill := t })

/-- The first reservation whose time is over. -/
def State.expired (s : State) (cl : Nat) : Option Reservation :=
  (s.cluster cl).resvs.find? fun r => match r.until_ with
    | some t => decide (t ≤ s.cyc)
    | none => false

/-- GANG_RESERVATION_EXPIRY: a gang that is still unplaced after 64 µs releases its cores, and tries again only after its
job's next placement in the cluster (R338); an urgent head keeps them (R343). -/
def execGangReservationExpiry (cluster : Nat) (s : State) : Host.Outcome State Fault Refusal :=
  let c := s.cluster cluster
  match s.expired cluster with
  | none => .fault .notEnabled
  | some r =>
    let head := (c.urgentHead.map (·.id)) == some r.entry
    event (!s.paused)
      (s.setCluster cluster
        (if head then { c with resvs := c.resvs.map fun x => if x.entry = r.entry then { x with until_ := none } else x }
         else { c with resvs := c.resvs.filter (·.entry != r.entry), retry := c.retry ++ [r.entry] }))

/-! ## Steals (R339, R346) -/

/-- Whether an entry may be stolen (R339, R368). -/
def State.stealable (s : State) (e : Entry) : Bool :=
  e.place == 0 && (e.tasks.all fun t => t.gang.isNone && t.handlerOf.isNone) &&
    !(s.clusters.any fun p => p.2.resvs.any (·.entry == e.id))

/-- What a scheduler would steal now: the victim and the entry (R339). It has no placeable entry of its own, and so none that is urgent
(R337); an entry that its own scheduler can place is placed there (R440). -/
def State.stealFrom (s : State) (cl : Nat) : Option (Nat × Entry) :=
  let c := s.cluster cl
  if c.draining ∨ c.urgentHead.isSome ∨ (c.listed.any fun e => (s.fit cl e).isSome) then none
  else ((List.range 47).map fun j => cl / 48 * 48 + (cl % 48 + 1 + j) % 48).findSome? fun v =>
    (s.pickEntry v ((s.cluster v).ready.filter fun e => s.stealable e && (s.fit v e).isNone && (s.fit cl e).isSome)).map fun e => (v, e)

/-- Whether a scheduler's next attempt is due and finds something. -/
def State.stealDue (s : State) (cl : Nat) : Bool :=
  decide ((s.cluster cl).nextSteal ≤ s.cyc) && (s.stealFrom cl).isSome

/-- The other schedulers of a die that would steal the same entry in this round: they steal nothing in it (R346). -/
def State.losers (s : State) (cl : Nat) (v : Nat) (e : Entry) : List Nat :=
  ((List.range 48).map (cl / 48 * 48 + ·)).filter fun x =>
    x != cl && s.stealDue x && (s.stealFrom x).any fun p => p.1 == v && p.2.id == e.id

/-- STEAL_ATTEMPT: a scheduler with a free core and no placeable entry takes one of another cluster of its die, and places it there, so
that it takes none of the places on chip (R331, R339); of two that would steal at once the lower cluster goes first, and the other's
round is over (R346). -/
def execStealAttempt (cluster : Nat) (s : State) : Host.Outcome State Fault Refusal :=
  let next := (s.cyc / 256 + 1) * 256
  match s.stealFrom cluster with
  | none => .fault .notEnabled
  | some (v, e) =>
    let s1 := s.setCluster v { s.cluster v with ready := (s.cluster v).ready.filter (·.id != e.id) }
    let s2 := (s.losers cluster v e).foldl (fun (s : State) x => s.setCluster x { s.cluster x with nextSteal := next })
      (s1.raiseVt cluster e.kid)
    event (s.stealDue cluster && !s.paused && decide (cluster < 384) &&
        !((List.range (cluster % 48)).any fun j => s.stealDue (cluster / 48 * 48 + j)))
      ((s2.setCluster cluster { s2.cluster cluster with nextSteal := next }).placeEntry cluster e ((s.fit cluster e).getD []))

/-! ## Slices and urgency (R342, R343, R370, R458) -/

/-- SLICE_EXPIRY: a task has run for its job's SLICE (R342): it is cut and saved if some ready entry finds no free core,
or else its count restarts, as it does for a member of a gang outside shutter mode (R458). A handler is cut in the same way
and fails at the boundary: the table of R346 and a span's end come first for it too (R249, R370). -/
def execSliceExpiry (core : Nat) (s : State) : Host.Outcome State Fault Refusal :=
  let c := s.core core
  match c.task with
  | none => .fault .notEnabled
  | some t =>
    let cl := clusterOf core
    let gang : Bool := match t.gang.bind (s.gangs.find ·) with
      | some g => decide (2 ≤ g.size) && !g.shut
      | none => false
    let waiting := ((s.cluster cl).ready ++ (s.cluster cl).spill).any fun e => (s.fit cl e).isNone
    let s1 := s.modCore core fun c => { c with sliceFrom := s.cyc }
    event (!t.firmware && !s.paused && decide (1500 * (s.job t.kid).slice ≤ s.cyc - c.sliceFrom) && c.saveWhy.isNone &&
        c.fault.isNone && c.wait != .start && c.wait != .resume)
      (if t.handlerOf.isSome then s.askSave core .slice
       else if gang || !waiting then s1
       else s1.askSave core .slice)

/-- ENTRY_URGENT: an entry has waited 8 ms and joins its cluster's urgent list (R343). -/
def execEntryUrgent (cluster entry : Nat) (s : State) : Host.Outcome State Fault Refusal :=
  let c := s.cluster cluster
  let f (e : Entry) : Entry := if e.id = entry ∧ e.urgent.isNone then { e with urgent := some s.cyc } else e
  event (!s.paused && (c.ready ++ c.spill).any fun e => e.id == entry && e.urgent.isNone && decide (12000000 ≤ s.cyc - e.since))
    (s.setCluster cluster { c with ready := c.ready.map f, spill := c.spill.map f })

end Sys2Proof.Machine
end

