-- ==== Sys2Proof/Machine/Faults.lean ====
section
/-!
DEFINITION. FAULT_DELIVERY and the fault buffer (R365-R372), handlers, and hardware-detected errors (R373, R374).
-/
namespace Sys2Proof.Machine

/-! ## Handlers (R366, R368) -/

/-- Where a job's handler template lies (R366). -/
def State.trapBase (s : State) (kid : Nat) : Nat := (fld s.svc.trapbase 51 16 * 2 ^ 16 + 64 * kid) % hbmSize

/-- A job's handler template, read under key ID 0 (R45, R366): none where ENTRY is 0 or where it breaks the conditions on it, and whether
it does. -/
def State.template (s : State) (kid : Nat) : Option (BitVec 512) × Bool :=
  let (_, bs, poison) := s.readKey 0 (s.trapBase kid) 64
  let w : BitVec 512 := BitVec.ofNat 512 (ofBytes bs)
  let mask : BitVec 512 := BitVec.ofNat 512 ((2 ^ 64 - 1) <<< 128)
  let saved := (w &&& ~~~mask) ||| BitVec.ofNat 512 (512 <<< 128)
  let bad := poison || recBad (ecCountOf (s.job kid).trans1) saved || recWait w || recGang w != 1 || recShut w
  if bad then (none, true) else if recW w 0 = 0 then (none, false) else (some w, false)

/-- The fault record that a handler finds in s0 to s7 (R368). -/
def State.faultRecord (s : State) (core : Nat) (t : Task) (f : FaultRec) (fseq : Nat) : BitVec 512 :=
  BitVec.ofNat 512 (packN 64
    [f.code.toNat * 2 ^ 56 + f.trapNo.toNat * 2 ^ 49 + fld (s.coreId core) 25 0, f.pc.toNat, f.fpc.toNat, f.addr.toNat,
      t.save.toNat, f.aux.toNat, fseq, t.tile.toNat])

/-- The handler that serves a parked task (R368). -/
def State.handlerTask (s : State) (cl : Nat) (t : Task) (w s0 : BitVec 512) : Task :=
  { id := s.nextTask, kid := t.kid, words := w, addr := BitVec.ofNat 64 (s.trapBase t.kid), save := recW w 2,
    stkBase := fld (recW w 3) 59 32 * 4096, stkLim := fld (recW w 3) 31 0, tile := recW w 6, launch := t.launch,
    regCluster := cl, s0 := s0, contSave := none, handlerOf := some t.id, gang := none, member := 0, resume := false,
    firmware := false, started := false, entryAt := none, atClosure := false, lastPart := none }

/-! ## The fault buffer (R371, R372) -/

/-- Entries of the fault buffer in use. -/
def State.bufferUsed (s : State) : Nat := (s.parked.filter (·.2.hasEntry)).length

/-- Steps 3 to 5 of R365 for a saved task: its buffer entry, its handler or none, its job's verdict for poisoned data
(R374). -/
def State.deliver (s : State) (p : Parked) : State :=
  let t := p.task
  let n := s.fseq + 1
  let s : State := { s with fseq := n }
  let s := if p.fault.code = 0x20 then s.raiseVerdict t.kid t.launch 2 else s
  let s := (s.readKey 0 (s.trapBase t.kid) 64).1
  match s.template t.kid with
  | (some w, _) =>
    let h := s.handlerTask p.cluster t w (s.faultRecord p.core t p.fault n)
    let s : State := { s with nextTask := s.nextTask + 1, parked := s.parked.put t.id { p with fseq := n, hasEntry := true } }
    (s.liveUp t.launch 1).enqueue p.cluster [h] true
  | (none, bad) =>
    let s := if bad then s.taskError (p.cluster * 128) 0x0A 0 t.kid else s
    (({ s with parked := s.parked.del t.id } : State).leaveGang t).abandon t

/-- A delivery that finds every entry in use (R372): OVF and its interrupt, and the task is held. -/
def State.holdFault (s : State) (core : Nat) (p : Parked) : State :=
  let s : State := { s with
    svc := { s.svc with ovf := true }
    outs := s.outs ++ [.msix 0]
    parked := s.parked.put p.task.id p
    fbQueue := s.fbQueue ++ [p.task.id] }
  s.modCore core fun c => { c with wait := .held (s.cyc + 96000), fault := none }

/-- The held task whose turn it is, with a free entry (R372). -/
def State.heldTurn (s : State) : Option Parked :=
  match s.fbQueue with
  | [] => none
  | id :: _ => if s.bufferUsed < 4096 then s.parked.find id else none

/-- The first held task takes an entry; the core that still keeps it is released (R372). -/
def State.takeTurn (s : State) (p : Parked) : State :=
  let s : State := { s with fbQueue := s.fbQueue.drop 1 }
  let kept := match (s.core p.core).wait, (s.core p.core).task with
    | .held _, some t => t.id == p.task.id
    | _, _ => false
  (if kept then s.freeCore p.core else s).deliver p

/-- Save the faulting task of a core and take the next steps of its delivery (R365, R367, R370, R372). -/
def State.deliverCore (s : State) (core : Nat) (t : Task) (f : FaultRec) (m : NMap (BitVec 8 × BitVec 8)) : State :=
  let u := { ((s.core core).notesParts m s.window).savedTask t .fault with resume := true }
  let p : Parked := { task := u, fault := f, core := core, fseq := 0, cluster := clusterOf core, hasEntry := false }
  let s := s.saveContext core t.kid t.save m
  if s.bufferUsed < 4096 ∧ s.fbQueue.isEmpty then (s.freeCore core).deliver p else s.holdFault core p

/-- FAULT_DELIVERY: the fault of a core's oldest chunk is delivered once everything the task has issued has completed: the
context is saved, a fault-buffer entry is taken, and the handler's entry joins the urgent list (R365). A handler that
faults fails (R370); a save that faults abandons the task (R367). A held task whose turn has come takes its entry (R372). On a
supervisor core the firmware starts again (R457). -/
def execFaultDelivery (core : Nat) (s : State) : Host.Outcome State Fault Refusal :=
  let c := s.core core
  match c.task, c.fault with
  | some t, some f =>
    let rest := c.wait == .deliver && c.pend.isNone && c.run.isNone && c.regs.vq.isEmpty && c.regs.mq.isEmpty &&
      c.regs.flights.isEmpty && c.atomicOut.isNone && !s.inTransit (s.trapBase t.kid / 128) && !s.paused
    if t.firmware then
      event (c.wait == .deliver && c.pend.isNone && c.run.isNone && !s.paused)
        ((s.coreError core f.code 9 0 f.fpc 0).startFirmware core)
    else if t.handlerOf.isSome then event rest ((s.taskEnds core t).handlerFails core t)
    else match s.saveCells core t.save true with
      | .error (_, a) => event rest ((s.saveWalk core t.save).cannotRun core t 0x0B a)
      | .ok m => event (rest && s.saveReady core m) (s.deliverCore core t f m)
  | _, _ =>
    match s.heldTurn with
    | some p => event (p.core == core && !s.inTransit (s.trapBase p.task.kid / 128) && !s.paused) (s.takeTurn p)
    | none => .fault .notEnabled

/-- FAULT_HOLD_EXPIRY: a task that still waits for an entry after 64 µs gives up its core (R372). -/
def execFaultHoldExpiry (core : Nat) (s : State) : Host.Outcome State Fault Refusal :=
  match (s.core core).wait with
  | .held u => event (decide (u ≤ s.cyc) && !s.paused) (s.freeCore core)
  | _ => .fault .notEnabled

/-! ## Detected errors (R373) -/

/-- The address in the record of an error that a line of a cell has (R374, R423): the line's byte address, or for cell memory
its byte offset in the cell; the record names the cell. An error in core state has none. -/
def errPlace (e : ErrReport) : Word64 :=
  if e.row < 2 then 0
  else BitVec.ofNat 64 (if isCell e.line then e.line * 128 % 2 ^ 18 else e.line % 2 ^ 45 * 128)

/-- Whether a report names a unit that its row of R373 can find in error, and an index that R424 gives that unit. -/
def reportLegal (e : ErrReport) : Bool :=
  (match e.row with
    | 0 | 1 => e.unit == 0 || e.unit == 7
    | 2 | 7 => e.unit == 1
    | 3 | 4 => e.unit == 1 || e.unit == 2
    | 5 => e.unit == 3
    | 6 => e.unit == 4 || e.unit == 5
    | n => n == 8 && decide (e.unit ≤ 9)) &&
  (match e.unit with
    | 1 => decide (e.idx < 32)
    | 2 => decide (e.idx ≤ 16)
    | 6 => decide (e.idx / 16 < 18 ∧ e.idx % 16 ≤ 8)
    | 7 => decide (e.idx ≤ 5)
    | 9 => decide (e.idx ≤ 8)
    | _ => true)

/-- The index of a pseudo-channel within its die's stacks (R424). -/
def hbmIndex (line : Nat) : Nat := (hbmPlace (line * 128)).1 % 2 * 64 + (hbmPlace (line * 128)).2

/-- The record of a detected error (R423, R424): the unit that the report names, at its place, which for a core, a directory entry, a
pseudo-channel and a row follows from the core or the line. A die supervisor cell lies in no cluster, and its records say so as a core's
own do (log 51); the copy engine is its cluster's and lies in no cell. -/
def State.reportError (s : State) (e : ErrReport) (cls : Nat) : State :=
  let kid := match (s.core e.core).task with
    | some t => t.kid
    | none => 0
  let a : Word64 := BitVec.ofNat 64 (e.line % 2 ^ 45 * 128)
  let (pclu, pcell) := if isSup e.core then (63, 0) else (s.physCluster (clusterOf e.core), s.physCell (cellOf e.core))
  let sl := (homeSlice e.line).1
  let stack := (hbmPlace (e.line * 128)).1
  match e.unit with
  | 0 => s.errorRecord ⟨0, cls, 0, dieOf e.core, pclu, pcell, e.core % 4, errPlace e, kid⟩
  | 1 => s.errorRecord ⟨0, cls, 1, dieOf e.core, pclu, pcell, e.idx, errPlace e, kid⟩
  | 2 => s.errorRecord ⟨0, cls, 2, sl / 48, s.physCluster sl, 0, e.idx, a, 0⟩
  | 3 => s.errorRecord ⟨0, cls, 3, sl / 48, s.physCluster sl, 0, (homeSlice e.line).2, a, 0⟩
  | 4 => s.errorRecord ⟨0, cls, 4, stack / 2, 0, 0, hbmIndex e.line, a, 0⟩
  | 5 => s.errorRecord ⟨0, cls, 5, stack / 2, 0, 0, hbmIndex e.line, BitVec.ofNat 64 (e.line * 128 / 2048 * 2048), 0⟩
  | 7 => s.errorRecord ⟨0, cls, 7, dieOf e.core, pclu, if e.idx = 0 then 0 else pcell, e.idx, 0, kid⟩
  | 8 => s.errorRecord ⟨0, cls, 8, 0, 0, 0, 0, 0, 0⟩
  | u => s.errorRecord ⟨0, cls, u, 0, 0, 0, e.idx, 0, 0⟩

/-- Squash for a detected error: the chunk that holds the line or, for core state, the running chunk, and a pending one
where none runs (R245, R373); the chunk runs again. -/
def State.squashError (s : State) (i : Nat) (pend : Bool) : State :=
  let l := (s.core i).squashed pend
  let s := if pend then (squashPend s i).dropOffer i else squashRun s i
  (s.modCore i fun c => { c.afterSquash l with redo := true }).askToken i

/-- Whether a core's chunk holds a line uncommitted. -/
def holdsLine (line : Nat) : Option Chunk → Bool
  | some k => k.ulines.any (·.name == line)
  | none => false

/-- An error in core state counts with the block checker's mismatches (R291, R373): the third in a row asks for a seal. A mismatch of the
block checker itself is one of its recoveries (R425). -/
def State.coreStateError (s : State) (e : ErrReport) : State :=
  let c := s.core e.core
  let pend := c.run.isNone
  match (if pend then c.pend else c.run) with
  | none => s
  | some k =>
    let m := c.mismatch (bit (!pend && c.pend.isSome)) k.start.pc
    let s := (s.squashError e.core pend).modCore e.core fun c => { c with mismatches := m.2.mismatches }
    let cell := s.cell (cellOf e.core)
    s.setCell (cellOf e.core) { cell with
      recoveries := cell.recoveries + bit (e.row == 0), sealing := cell.sealing || decide (3 ≤ m.1) }

/-- A line's poison marker or flag is set (R46, R374). -/
def State.setPoison (s : State) (line : Nat) : State :=
  { s with poison := if s.poison.contains line then s.poison else line :: s.poison }

/-- A line leaves the unit in which an error was found: one cell's cache role, or L2 with every copy that its entry names
(R51, R373). -/
def State.dropLine (s : State) (e : ErrReport) : State :=
  if e.unit ≤ 1 then s.cellLeave (cellOf e.core) e.line else s.l2Drop (·.line == e.line)

/-- A spare row takes a row's place while the row's bank has one of its two left (R383): the row, one granule of 2 KiB, is in
transit while it is copied, and a record names it (R425). -/
def State.spareRow (s : State) (line : Nat) : State :=
  let k := line * 128 / 2048 * 2048
  let (st, pc) := hbmPlace k
  let place := 2 ^ 42 + Config.hbmBank (k / 2048) * 1024 + (st * 64 + pc)
  if s.spent.get place 0 < 2 then
    ({ s with spent := s.spent.put place (s.spent.get place 0 + 1),
              transit := s.transit ++ [{ base := k, size := 2048, rest := none }] } : State).errorRecord
      ⟨0, 5, 5, st / 2, 0, 0, hbmIndex line, BitVec.ofNat 64 k, 0⟩
  else s

/-- The place of a predictive counter (R425): 0 lanes, 1 L2 ways, 2 pseudo-channels. -/
def counterPlace (kind i : Nat) : Nat := kind * 2 ^ 32 + i
/-- Count one corrected event (R425). -/
def State.countEvent (s : State) (kind i : Nat) : State :=
  { s with counters := s.counters.put (counterPlace kind i) (s.counters.get (counterPlace kind i) 0 + 1) }

/-- DETECTED_ERROR: a hardware-detected error is squashed and re-executed, refetched or poisoned, and recorded, by the rows
of R373: 0 a mismatch of the block checker, 1 core state, 2 an uncommitted line, 3 a clean line, 4 a committed dirty line, 5 a directory
entry, 6 an HBM read, 7 a scratch or operand line, 8 an error that a code corrected. -/
def execDetectedError (e : ErrReport) (s : State) : Host.Outcome State Fault Refusal :=
  if !reportLegal e then .fault .notEnabled
  else match e.row with
  | 0 | 1 => .next ((s.reportError e 1).coreStateError e)
  | 2 =>
    let c := s.core e.core
    let s := s.reportError e 1
    .next (if holdsLine e.line c.pend then s.squashError e.core true
      else if holdsLine e.line c.run then s.squashError e.core false else s)
  | 3 => .next ((s.reportError e 1).dropLine e)
  | 4 => .next (((s.reportError e 1).dropLine e).setPoison e.line)
  | 5 => .next (((s.reportError e 1).dropLine e).setPoison e.line)
  | 6 => .next (((s.reportError e 1).setPoison e.line).spareRow e.line)
  | 7 => .next ((s.reportError e 1).setPoison e.line)
  | 8 =>
    let s := s.reportError e 0
    if e.unit = 2 then .next (s.countEvent 1 ((homeSlice e.line).1 * 32 + e.idx))
    else if e.unit = 4 then .next (s.countEvent 2 ((hbmPlace (e.line * 128)).1 * 64 + (hbmPlace (e.line * 128)).2))
    else if e.unit = 6 then .next (s.countEvent 0 e.idx)
    else .next s
  | _ => .fault .notEnabled

end Sys2Proof.Machine
end

