-- ==== Sys2Proof/Machine/Repair.lean ====
section
/-!
DEFINITION. Seals of cells and what becomes of their tasks (R375-R379), cluster swaps (R384), the spares of R383 and the
predictive counters that bring them in (R425).
-/
namespace Sys2Proof.Machine

/-! ## Tasks of a sealed cell (R376, R377) -/

/-- Whether a core keeps a held fault's task (R372): that task is already saved. -/
def Core.keepsHeld (c : Core) : Bool := match c.wait with
  | .held _ => true
  | _ => false

/-- The task of a core with what the core has noted for it (R261, R381). -/
def Core.placed (c : Core) : Option Task := c.task.map fun t => { t with lastPart := c.lastPart, redo := c.redo }

/-- Every task of a gang, wherever it stands. -/
def State.gangTasks (s : State) (g : Nat) : List Task :=
  let saved := match s.gangs.find g with
    | some x => x.saved
    | none => []
  let queued := (s.clusters.map fun p => ((p.2.ready ++ p.2.spill).map (·.tasks)).flatten).flatten
  let waiting := (s.restarting.map (·.2.1)).flatten
  (s.cores.filterMap (·.2.task) ++ saved ++ queued ++ waiting ++ s.parked.map (·.2.task)).filter (·.gang == some g)

/-- Whatever a core's chunks hold is squashed, and the core is free. -/
def State.vacate (s : State) (i : Nat) : State := ((squashPend s i).dropOffer i).freeCore i

/-- Tasks join those of their gang that wait for its restart (R377). -/
def State.awaitRestart (s : State) (g : Nat) (ts : List Task) : State :=
  match s.gangs.find g with
  | none => s
  | some x => { s with gangs := s.gangs.put g { x with saved := x.saved ++ ts, restart := true } }

/-- The entries of a cluster without the tasks of a gang. -/
def withoutGang (g : Nat) (l : List Entry) : List Entry :=
  (l.map fun e => { e with tasks := e.tasks.filter (·.gang != some g) }).filter fun e => !e.tasks.isEmpty

/-- A member of a gang that is to restart, on another cell: cut at its next boundary, so that its pending chunk stands; one that
has not begun yet leaves its core at once (R377). -/
def State.cutMember (s : State) (g : Nat) (p : Nat × Core) : State :=
  if p.2.wait = .start ∨ p.2.wait = .resume then (s.freeCore p.1).awaitRestart g p.2.placed.toList
  else (s.modCore p.1 fun c => { c with saveWhy := some .restart }).cutNow p.1

/-- Entries that wait for their restart, without the tasks of a gang. -/
def State.restartingWithout (s : State) (g : Nat) : List (Nat × List Task × Bool) :=
  (s.restarting.map fun x => (x.1, x.2.1.filter (·.gang != some g), x.2.2)).filter fun x => !x.2.1.isEmpty

/-- A whole gang is to restart (R377): the members on the cores that are sealed, and those that lie in queues or wait for a restart of
their own, wait; those on other cells are cut; a parked one joins them once its handler has ended (log 36). -/
def State.restartGang (s : State) (g cell : Nat) : State :=
  let on := s.cores.filter fun p => (p.2.task.bind (·.gang)) == some g && !p.2.keepsHeld
  let (here, away) := on.partition fun p => cellOf p.1 == cell
  let queued := ((s.clusters.map fun p => ((p.2.ready ++ p.2.spill).map (·.tasks)).flatten).flatten ++
    (s.restarting.map (·.2.1)).flatten).filter (·.gang == some g)
  let s : State := { s with
    clusters := s.clusters.map fun p => (p.1, { p.2 with ready := withoutGang g p.2.ready, spill := withoutGang g p.2.spill })
    restarting := s.restartingWithout g }
  let s := s.awaitRestart g (here.filterMap (·.2.placed) ++ queued)
  let s := here.foldl (fun (s : State) p => s.vacate p.1) s
  away.foldl (fun s p => s.cutMember g p) s

/-- The gangs with a member on a cell of which every member's record carries RST = 1 (R377). -/
def State.gangsToRestart (s : State) (cell : Nat) : List Nat :=
  (([0, 1, 2, 3].map fun j => (s.core (cell * 4 + j))).filterMap fun c =>
    if c.keepsHeld then none else c.task.bind (·.gang)).eraseDups.filter fun g =>
      (s.gangs.find g).isSome && (s.gangTasks g).all fun u => recRst u.words

/-- A handler on a sealed cell (R370): it starts again from the template with the same fault record, or fails. -/
def State.sealHandler (s : State) (i : Nat) (h : Task) : State :=
  let s := s.vacate i
  if !recRst h.words then s.handlerFails i h
  else match s.template h.kid with
    | (some w, _) => s.enqueue h.regCluster [(h.reword w).afresh] true
    | (none, _) => s.handlerFails i h

/-- The task on a core of a sealed cell is disposed of (R377), where no whole gang of it restarts. -/
def State.dispose (s : State) (i : Nat) : State :=
  let c := s.core i
  match c.placed with
  | none => s
  | some t =>
    if c.keepsHeld then s.freeCore i
    else if t.handlerOf.isSome then s.sealHandler i t
    else if (t.gang.bind (s.gangs.find ·)).isSome then ((s.vacate i).leaveGang t).abandon t
    else
      let s := s.vacate i
      if recRst t.words then s.restartAll t.regCluster [t] true else s.abandon t

/-- The error messages of a seal (R376): to every core that runs a task of an affected job, one for each of the job's
sealed cores. -/
def State.sealMessages (s : State) (cell : Nat) : List Instr :=
  let dead := ([0, 1, 2, 3].map (cell * 4 + ·)).filterMap fun i => (s.core i).task.map fun t => (i, t.kid)
  (s.cores.map fun p => match p.2.task with
    | none => []
    | some t =>
      if isSup p.1 ∨ cellOf p.1 = cell ∨ p.2.keepsHeld then []
      else (dead.filter (·.2 == t.kid)).map fun d =>
        Instr.messageArrival { dst := (s.coreId p.1).setWidth 26, src := (s.coreId d.1).setWidth 26, kid := t.kid,
                               code := 0x54, body := 0 }).flatten

/-! ## The logical cell (R378, R383) -/

/-- What a cell keeps across its seal (R375): its configuration, and requests of its cores that a grant has already let go. -/
def Cell.emptied (c : Cell) : Cell :=
  { Cell.reset with
    cmcfg := c.cmcfg, cfgJob := c.cfgJob, roles := c.roles, tfSeq := c.tfSeq
    inject := c.inject.filter fun x => match x with
      | .req _ _ _ => true
      | .msg _ _ => false }

/-- A cell's cache role gives up every committed line: dirty ones are written home (R48, R51). -/
def State.emptyCache (s : State) (cell : Nat) : State :=
  (s.cell cell).cache.foldl (State.cellGone cell) (s.setCell cell { s.cell cell with cache := [] })

/-- A cell as its spare begins (R378): the cache role empty, scratch and operand lines poisoned under the key ID of the job
whose CMCFG it has. -/
def State.spareCell (s : State) (cell : Nat) : State :=
  let c := s.cell cell
  let lo := cellKey cell 0
  let ls := (((List.range 8).filter fun q => c.role q != 1).map (quadLines cell)).flatten
  let s := s.emptyCache cell
  let s : State := { s with
    mem := s.mem.filter fun b => !(decide (lo ≤ b.1 ∧ b.1 < lo + 2 ^ 18))
    poison := ls ++ s.poison.filter fun l => !(decide (lo ≤ l * 128 ∧ l * 128 < lo + 2 ^ 18))
    lineKey := ls.foldl (fun m l => m.put l c.cfgJob) s.lineKey }
  s.setCell cell c.emptied

/-- The place of a logical cell in its die's map. -/
def State.mapCell (s : State) (cell phys : Nat) : State :=
  let d := s.die (cell / 1536)
  s.setDie (cell / 1536) { d with cellMap := d.cellMap.put (cell % 1536) phys }

/-- Whether a physical cell, or the slice of a physical cluster, is under test (R426). -/
def State.cellTested (s : State) (die path : Nat) : Bool := s.selfTest == some (die * 2 ^ 12 + path)
def State.sliceTested (s : State) (die pclu : Nat) : Bool := match s.selfTest with
  | some x => decide (2 ^ 15 ≤ x) && x / 2 ^ 12 % 8 == die && x / 64 % 64 == pclu
  | none => false

/-- Take the next spare cell of a physical cluster for a logical cell, if one is left that is not under test (R383, R426). -/
def State.takeSpare (s : State) (cell pclu : Nat) : Option State :=
  let d := s.die (cell / 1536)
  match (d.spares pclu).filter fun p => !s.cellTested (cell / 1536) (pclu * 64 + p) with
  | [] => none
  | p :: _ =>
    some ((s.setDie (cell / 1536) { d with spareCells := d.spareCells.put pclu ((d.spares pclu).filter (· != p)) }).mapCell cell p)

/-- The record of a spare that has come in (R423, R425): it names the unit that it replaces. -/
def State.spareRecord (s : State) (unit die pclu pcell idx : Nat) : State := s.errorRecord ⟨0, 5, unit, die, pclu, pcell, idx, 0, 0⟩

/-- A core is drained for a swap: its task is saved at its next boundary, and the member of a gang comes back to it (R384, R436, R458). -/
def State.drainCore (s : State) (i : Nat) : State :=
  (s.modCore i fun c => { c with task := c.task.map fun t => if t.gang.isSome then { t with keep := some i } else t }).askSave i .drain

/-- Begin to swap a cluster (R383, R384): its scheduler stops, and its tasks, with the whole gangs of those that have one
(R458), are saved at their next boundaries. -/
def State.beginSwap (s : State) (cl spare : Nat) : State :=
  let d := s.die (cl / 48)
  let s := s.setDie (cl / 48) { d with spareClusters := d.spareClusters.filter (· != spare) }
  let s : State := ({ s with swaps := s.swaps ++ [(cl / 48, cl, spare)] } : State).setCluster cl { s.cluster cl with draining := true }
  let here := s.cores.filter fun p => !isSup p.1 && clusterOf p.1 == cl
  let gangs := here.filterMap fun p => p.2.task.bind (·.gang)
  (s.cores.filter fun p => match p.2.task with
    | none => false
    | some t => t.handlerOf.isNone && !t.firmware && !p.2.keepsHeld &&
        ((!isSup p.1 && clusterOf p.1 == cl) || (match t.gang with
          | some g => gangs.contains g
          | none => false))).foldl (fun (s : State) p => s.drainCore p.1) s

/-- A sealed cell without a spare cell: its cluster is swapped while a spare cluster remains, and the logical cell stays
sealed until then, or for good (R378, R383). -/
def State.noSpare (s : State) (cell : Nat) : State :=
  let cl := cell / 32
  let s := s.setCell cell { (s.cell cell).emptied with sealed_ := true }
  if s.swaps.any (·.2.1 == cl) then s
  else match (s.die (cl / 48)).spareClusters.filter fun p => !s.sliceTested (cl / 48) p with
    | [] => s
    | p :: _ => s.beginSwap cl p

/-- The seal of a logical cell from step 2 on (R375). -/
def State.sealCell (s : State) (die path cell : Nat) : State :=
  let cores := [0, 1, 2, 3].map (cell * 4 + ·)
  let s := cores.foldl (fun (s : State) i => (squashPend s i).dropOffer i) s
  let msgs := s.sealMessages cell
  let s := (s.gangsToRestart cell).foldl (fun s g => s.restartGang g cell) s
  let s := cores.foldl State.dispose s
  let s : State := { s with mail := s.mail ++ msgs }
  let s := s.setDie die ((s.die die).sealPath path)
  match s.takeSpare cell (path / 64) with
  | some s => (s.spareCell cell).spareRecord 0 die (path / 64) (path % 64) 0
  | none => s.noSpare cell

/-- CELL_SEAL: a cell that is to be sealed is sealed once no span runs on it (R375-R379); `seal` completes (R320). During a
pause only a cell of the cluster that is being swapped is: its seal comes before the swap (R385). -/
def execCellSeal (ppath : BitVec 15) (s : State) : Host.Outcome State Fault Refusal :=
  let x : Word64 := ppath.setWidth 64
  let die := ppathDie x
  let path := ppathCell x
  match s.logicalOf die path with
  | none => .fault .notEnabled
  | some cell =>
    let span := [0, 1, 2, 3].any fun j => match (s.core (cell * 4 + j)).run with
      | some k => k.span.isSome
      | none => false
    let jobs := s.sysJobs.filter fun j => j.f == 0 && ppathDie j.x == die && ppathCell j.x == path
    let s1 := ({ s with sysJobs := s.sysJobs.filter fun j => !jobs.contains j } : State).sealCell die path cell
    event ((s.cell cell).sealing && !span && (!s.paused || (s.swaps.head?.map (·.2.1)) == some (cell / 32))) (jobs.foldl (fun (s : State) j => s.reportHere j.z true) s1)

/-! ## Cluster swaps (R384) -/

/-- Whether a cell of a cluster is about to be sealed: that comes before the cluster's swap (R385). -/
def State.sealsFirst (s : State) (cl : Nat) : Bool := (List.range 32).any fun c => (s.cell (cl * 32 + c)).sealing

/-- Whether the drain of a cluster has ended (R384): no task, no copy command, nothing left to send, no cell about to be
sealed. -/
def State.drained (s : State) (cl : Nat) : Bool :=
  !(s.cores.any fun p => !isSup p.1 && clusterOf p.1 == cl && p.2.task.isSome) && (s.cluster cl).copyQ.isEmpty &&
    !((List.range 32).any fun c => !(s.cell (cl * 32 + c)).inject.isEmpty) && !s.sealsFirst cl

/-- The cells of a cluster write their dirty lines home, and their cache roles are empty (R384, step 1). -/
def State.emptyCaches (s : State) (cl : Nat) : State :=
  ((List.range 32).map (cl * 32 + ·)).foldl State.emptyCache s

/-- Whether a core stands inside a span. -/
def Core.inSpan (c : Core) : Bool := match c.run with
  | some k => k.span.isSome
  | none => false

/-- The package pauses: every running chunk is cut at the boundary where it stands, and squashed is none (R236, R384, step 2). -/
def State.pause (s : State) : State :=
  (s.cores.map (·.1)).foldl State.cutNow { s with paused := true, pauseWin := some s.window }

/-- CLUSTER_SWAP_COPY: the drain has ended, the package pauses at its bundle boundaries outside spans, and the cluster's
contents go to the spare without its TLB (R384, steps 2 and 3). -/
def execClusterSwapCopy (die : Nat) (s : State) : Host.Outcome State Fault Refusal :=
  match s.swaps.find? (·.1 == die) with
  | none => .fault .notEnabled
  | some x =>
    let s1 := ({ s.pause with swaps := x :: s.swaps.filter (· != x) } : State).emptyCaches x.2.1
    event (!s.paused && s.drained x.2.1 && !(s.cores.any fun p => p.2.inSpan))
      (s1.setCluster x.2.1 { s1.cluster x.2.1 with tlb := [], walks := [], walkFaults := [] })

/-- A logical cell of a swapped-in cluster: one whose physical cell has been sealed takes a spare; one that stayed sealed
comes back in the poisoned state (R378). -/
def State.swapCell (s : State) (die spare cell : Nat) : State :=
  let was := (s.cell cell).sealed_
  let dead := (s.die die).sealedCells.contains (spare * 64 + cell % 32)
  let s' := if dead then s.takeSpare cell spare else some s
  match s' with
  | some s => if was then s.spareCell cell else s
  | none => s.setCell cell { s.cell cell with sealed_ := true }

/-- The last window that has closed since a pause began, if one has (R384). -/
def State.closedInPause (s : State) : Option Nat := match s.pauseWin with
  | some w => if w < s.window then some (s.window - 1) else none
  | none => none

/-- CLUSTER_SWAP_RESUME: the map names the spare cluster, the pause ends, and the batches of every window that closed during
it are to be granted first (R384, steps 4 and 5). -/
def execClusterSwapResume (s : State) : Host.Outcome State Fault Refusal :=
  match s.swaps with
  | [] => .fault .notEnabled
  | (die, cl, spare) :: t =>
    let d := s.die die
    let old := s.physCluster cl
    let gone (c : Nat) : Bool := c / 32 == cl % 48
    let s1 : State := { s with paused := false, swaps := t, pauseWin := s.closedInPause }
    let s2 := (s1.setDie die { d with
      clusterMap := d.clusterMap.put (cl % 48) spare
      cellMap := d.cellMap.filter fun p => !gone p.1 }).setCluster cl { s1.cluster cl with draining := false }
    let s3 := ((List.range 32).map (cl * 32 + ·)).foldl (fun (s : State) c => s.swapCell die spare c) s2
    event (s.paused && !s.sealsFirst cl && s.svc.pst != .standby) (s3.spareRecord 0 die old 0 0)

/-! ## Granules in transit (R42, R383) -/

/-- The base of the granule of a pseudo-channel in the b-th 2 MiB of HBM (R26). -/
def granuleBase (pc b : Nat) : Nat := b * 2 ^ 21 + (pc ^^^ (b % 1024) ^^^ (b / 1024 % 512)) * 2 ^ 11

/-- The first granule of a pseudo-channel that is copied to a spare. -/
def firstGranule (pc : Nat) : Transit := { base := granuleBase pc 0, size := 2048, rest := some (pc, 524287) }

/-- GRANULE_COPY_COMPLETE: a granule has been copied to its spare and its mark clears; a pseudo-channel's next follows
(R383). -/
def execGranuleCopyComplete (s : State) : Host.Outcome State Fault Refusal :=
  match s.transit with
  | [] => .fault .notEnabled
  | x :: t =>
    event (!s.paused) { s with transit := t ++ match x.rest with
      | some (pc, n + 1) => [{ base := granuleBase pc (524287 - n), size := 2048, rest := some (pc, n) }]
      | _ => [] }

/-! ## Predictive counters (R383, R396, R425) -/

/-- A port of the fabric. -/
def State.port (s : State) (p : Nat) : Port := s.ports.get p Port.reset
def State.setPort (s : State) (p : Nat) (x : Port) : State := { s with ports := s.ports.put p x }

/-- A way of a slice gives way to the spare (R383): of every set the line that it holds leaves, a dirty one written home. Which line of a
set stands in that way is free here: the directory keeps the order of use, not the places. -/
def State.swapWay (s : State) (sl : Nat) : State :=
  let sets := s.l2.filter fun p => p.1 / 4096 == sl
  let gone := (List.zip sets (List.range sets.length)).filterMap fun x =>
    (x.1.2[Config.choice (s.moment + x.2) % 16]?).map (·.line)
  ({ s with moment := s.moment + sets.length } : State).l2Drop fun w => l2Index w.line / 4096 == sl && gone.contains w.line

/-- A counter has reached its threshold: its record, and a spare where one remains (R383, R396, R425). -/
def State.crossed (s : State) (kind i : Nat) : State :=
  if kind = 0 then
    let s := s.errorRecord ⟨0, 2, 6, 0, 0, 0, i, 0, 0⟩
    let p := s.port (i / 16)
    if p.spareUsed.isNone then (s.setPort (i / 16) { p with spareUsed := some (i % 16), retraining := true }).spareRecord 6 0 0 0 i
    else s.setPort (i / 16) { p with down := true }
  else if kind = 1 then
    let sl := i / 32
    let place := 2 ^ 40 + sl
    let s := s.errorRecord ⟨0, 2, 2, sl / 48, s.physCluster sl, 0, i % 32, 0, 0⟩
    if s.spent.get place 0 = 0 then
      (({ s with spent := s.spent.put place 1 } : State).swapWay sl).spareRecord 2 (sl / 48) (s.physCluster sl) 0 (i % 32)
    else s
  else
    let st := i / 64
    let place := 2 ^ 41 + st
    let idx := st % 2 * 64 + i % 64
    let s := s.errorRecord ⟨0, 2, 4, st / 2, 0, 0, idx, 0, 0⟩
    if s.spent.get place 0 < 2 then
      ({ s with spent := s.spent.put place (s.spent.get place 0 + 1), transit := s.transit ++ [firstGranule i] } : State).spareRecord
        4 (st / 2) 0 0 idx
    else s

/-- The field of PTHR for a kind of counter (R425). -/
def State.threshold (s : State) (kind : Nat) : Nat :=
  if kind = 0 then fld s.svc.pthr 15 0 else if kind = 1 then fld s.svc.pthr 47 32 else fld s.svc.pthr 31 16

/-- A cell's recoveries have reached their threshold: its record, and a request for its seal (R375, R425). -/
def State.checkCell (s : State) (cell : Nat) : State :=
  let c := s.cell cell
  let n := fld s.svc.pthr 63 48
  let hit := n != 0 && decide (n ≤ c.recoveries) && decide (cell < 12288)
  let s := if hit then s.errorRecord ⟨0, 2, 0, cell / 1536, s.physCluster (cell / 32), s.physCell cell, 0, 0, 0⟩ else s
  s.setCell cell { c with recoveries := 0, sealing := c.sealing || hit }

/-- PREDICTIVE_COUNTER_CHECK: at the end of a second of DT every counter is compared with its threshold and cleared
(R425). -/
def execPredictiveCounterCheck (s : State) : Host.Outcome State Fault Refusal :=
  let s1 : State := { s with lastCheck := s.lastCheck + 1000000000, counters := [] }
  let s2 := s.counters.foldl (fun (s : State) p =>
    let n := s.threshold (p.1 / 2 ^ 32)
    if n ≠ 0 ∧ n ≤ p.2 then s.crossed (p.1 / 2 ^ 32) (p.1 % 2 ^ 32) else s) s1
  event (decide (s.lastCheck + 1000000000 ≤ s.dt)) ((s.cells.map (·.1)).foldl State.checkCell s2)

end Sys2Proof.Machine
end

