-- ==== Sys2Proof/Machine/Fabric.lean ====
section
/-!
DEFINITION. The scale-up links (R387, R388, R392-R396, R407): the port and channel of a message, flits with their CRC and
sequence numbers, slot returns, repair of damaged flits, retraining; and the domain's clock (R397, R398).
-/
namespace Sys2Proof.Machine

/-! ## Arithmetic over GF(2^8) (R394) -/

/-- Multiply by α = 0x02 under the field polynomial 0x11D. -/
def gfDouble (a : Nat) : Nat := if 256 ≤ 2 * a then (2 * a) ^^^ 0x11D else 2 * a
/-- Product in the field. -/
def gfMul (a b : Nat) : Nat :=
  ((List.range 8).foldl (fun (p : Nat × Nat) j => (if b.testBit j then p.1 ^^^ p.2 else p.1, gfDouble p.2)) (0, a)).1
/-- Power in the field. -/
def gfPow (a : Nat) : Nat → Nat
  | 0 => 1
  | n + 1 => gfMul a (gfPow a n)
/-- Inverse of a nonzero element. -/
def gfInv (a : Nat) : Nat := gfPow a 254
/-- Value of a polynomial, lowest coefficient first. -/
def gfEval (p : List Nat) (x : Nat) : Nat := p.foldr (fun c r => c ^^^ gfMul x r) 0
/-- Sum of polynomials. -/
def gfAdd : List Nat → List Nat → List Nat
  | [], q => q
  | p, [] => p
  | a :: p, b :: q => (a ^^^ b) :: gfAdd p q
/-- Product of polynomials. -/
def gfTimes : List Nat → List Nat → List Nat
  | [], _ => []
  | a :: p, q => gfAdd (q.map (gfMul a)) (0 :: gfTimes p q)

/-- The 136 symbols of half h of a flit (R394). -/
def flitHalf (f : BitVec 2176) (h : Nat) : List Nat :=
  (List.range 136).map fun j => (f.extractLsb' (8 * (136 * h + j)) 8).toNat

/-- Parity symbol j of a half (R394). -/
def paritySym (half : List Nat) (j : Nat) : Nat := gfEval half (gfPow 2 j)

/-- The 16 parity symbols of a flit for a round: eight of half 0, then eight of half 1. -/
def parityOf (f : BitVec 2176) (round : Nat) : BitVec 128 :=
  BitVec.ofNat 128 (packN 8 ((List.range 16).map fun i => paritySym (flitHalf f (i / 8)) (8 * (round - 1) + i % 8)))

/-- The received parity symbols of a half, in order of j, from the rounds so far. -/
def receivedParity (ps : List (BitVec 128)) (h : Nat) : List Nat :=
  (ps.map fun p => (List.range 8).map fun j => (p.extractLsb' (8 * (8 * h + j)) 8).toNat).flatten

/-- The state of the search for an error locator: locator, previous locator, degree, steps since, previous discrepancy. -/
structure Locator where
  c : List Nat
  b : List Nat
  l : Nat
  m : Nat
  d : Nat
  deriving DecidableEq, Repr

/-- One step of the search with the n-th syndrome. -/
def Locator.next (s : List Nat) (x : Locator) (n : Nat) : Locator :=
  let d := ((List.range (x.l + 1)).map fun i => gfMul (x.c.getD i 0) (s.getD (n - i) 0)).foldl (· ^^^ ·) 0
  if d = 0 then { x with m := x.m + 1 }
  else
    let c := gfAdd x.c (List.replicate x.m 0 ++ x.b.map (gfMul (gfMul d (gfInv x.d))))
    if 2 * x.l ≤ n then { c := c, b := x.c, l := n + 1 - x.l, m := 1, d := d } else { x with c := c, m := x.m + 1 }

/-- Correct a half from its syndromes: at most half as many errors as syndromes, or nothing (R394). -/
def correctHalf (half syn : List Nat) : Option (List Nat) :=
  let x := (List.range syn.length).foldl (Locator.next syn) { c := [1], b := [1], l := 0, m := 1, d := 1 }
  let at_ (j : Nat) : Nat := gfInv (gfPow 2 j)
  let bad := (List.range 136).filter fun j => gfEval x.c (at_ j) == 0
  let omega := (gfTimes syn x.c).take syn.length
  let slope := ((List.range x.c.length).map fun i => if i % 2 = 1 then x.c.getD i 0 else 0).drop 1
  if syn.length < 2 * x.l ∨ bad.length ≠ x.l then none
  else some ((List.zip half (List.range 136)).map fun p =>
    if bad.contains p.2 then
      p.1 ^^^ gfMul (gfPow 2 p.2) (gfMul (gfEval omega (at_ p.2)) (gfInv (gfEval slope (at_ p.2))))
    else p.1)

/-- Repair a stored flit with the parity of the rounds so far (R394): both halves must correct. -/
def repairFlit (f : BitVec 2176) (ps : List (BitVec 128)) : Option (BitVec 2176) :=
  let fix (h : Nat) : Option (List Nat) :=
    let half := flitHalf f h
    correctHalf half ((List.zip (receivedParity ps h) (List.range (8 * ps.length))).map fun p => paritySym half p.2 ^^^ p.1)
  match fix 0, fix 1 with
  | some a, some b => some (BitVec.ofNat 2176 (packN 8 (a ++ b)))
  | _, _ => none

/-! ## Flits (R392, R393) -/

/-- One byte into a reflected CRC-32C. -/
def crcByte (c : Nat) (b : Nat) : Nat :=
  (List.range 8).foldl (fun c _ => if c % 2 = 1 then (c / 2) ^^^ 0x82F63B78 else c / 2) (c ^^^ b)

/-- CRC-32C (R393). -/
def crc32c (bs : List Nat) : Nat := bs.foldl crcByte 0xFFFFFFFF ^^^ 0xFFFFFFFF

/-- The CRC of a flit's bytes 0 to 267. -/
def flitCrc (f : BitVec 2176) : Nat := crc32c ((flitHalf f 0 ++ flitHalf f 1).take 268)

/-- Fields of a flit (R392). -/
def flitType (f : BitVec 2176) : Nat := (f.extractLsb' 120 8).toNat
def flitSeq (f : BitVec 2176) : BitVec 16 := f.extractLsb' 104 16
def flitVc (f : BitVec 2176) : Nat := (f.extractLsb' 102 2).toNat
def flitRvc (f : BitVec 2176) : Nat := (f.extractLsb' 80 2).toNat
def flitRtot (f : BitVec 2176) : BitVec 16 := f.extractLsb' 64 16

/-- Whether a flit is good: its CRC, and a TYPE that exists (R392, R393). -/
def flitGood (f : BitVec 2176) : Bool :=
  (f.extractLsb' 2144 32).toNat == flitCrc f && decide (1 ≤ flitType f ∧ flitType f ≤ 4)

/-- A flit from its fields and its body (R392): TXN and payload are free. -/
def makeFlit (type : Nat) (seq : BitVec 16) (vc dpkg spkg rvc : Nat) (rtot : BitVec 16) (body : BitVec 2080) : BitVec 2176 :=
  let head := (body.extractLsb' 0 64).toNat + rtot.toNat * 2 ^ 64 + rvc % 4 * 2 ^ 80 + spkg % 2 ^ 10 * 2 ^ 82 +
    dpkg % 2 ^ 10 * 2 ^ 92 + vc % 4 * 2 ^ 102 + seq.toNat * 2 ^ 104 + type * 2 ^ 120
  let f : BitVec 2176 := BitVec.ofNat 2176 (head + (body.extractLsb' 64 2016).toNat * 2 ^ 128)
  f ||| BitVec.ofNat 2176 (flitCrc f * 2 ^ 2144)

/-! ## Which port and channel (R387, R388) -/

/-- The key of a line. -/
def lineKeyOf (line : Nat) : Nat := (line % 2 ^ 32) ^^^ (line / 2 ^ 32 % 2 ^ 32)

/-- Destination package, key and virtual channel of a message to another package (R387); none for what does not cross the
scale-up fabric. Migrations and retarget requests, which the table does not list, go by their destination on channel 0. -/
def State.route (s : State) : Out → Option (Nat × Nat × Nat)
  | .msg m =>
    let d := m.dst.toNat / 2 ^ 16
    if m.code = 0 then some (d, (s.pkg * 2 ^ 16 + d) ^^^ (m.dst.toNat % 2 ^ 16), 0)
    else some (d, (d * 2 ^ 16 + m.src.toNat / 2 ^ 16) ^^^ (m.src.toNat % 2 ^ 16), 1)
  | .forward p r => some (p, lineKeyOf r.line, 0)
  | .reply p _ line _ _ => some (p, lineKeyOf line, 1)
  | .atomic p r => some (p, lineKeyOf (remoteKey p r.addr / 128), 0)
  | .atomics p rs => some (p, match rs with
    | r :: _ => lineKeyOf (remoteKey p r.addr / 128)
    | [] => 0, 0)
  | .atomicReply p line _ => some (p, lineKeyOf line, 1)
  | .part p _ | .timing p _ => some (p, p, 3)
  | .vote p v => some (p, hrefSlot v.href, 2)
  | .join p j => some (p, match j.desc with
    | some d => fld (word512 d 1) 11 0
    | none => 0, 2)
  | .drop p d => some (p, hrefSlot d.href, 2)
  | .result p slot _ _ _ => some (p, slot, 2)
  | .query p _ _ href _ => some (p, hrefSlot href, 2)
  | .page m => some (m.dest, m.dest, 0)
  | .retarget p _ => some (p, p, 0)
  | _ => none

/-- Flits of a port that the far end has not returned (R395). -/
def Port.inFlight (p : Port) (vc : Nat) : Nat :=
  (p.sentCnt.toList.getD vc 0 - p.rtotIn.toList.getD vc 0).toNat

/-- Whether a port keeps its keys (R387): one out of service does until every flit in flight on it is accounted for. -/
def Port.keeps (p : Port) : Bool := !p.down || [0, 1, 2, 3].any fun c => p.inFlight c != 0

/-- The healthy ports, in ascending order (R387). -/
def State.healthy (s : State) : List Nat := (List.range 18).filter fun p => (s.port p).keeps

/-- The port of a key (R387). -/
def State.portOf (s : State) (key : Nat) : Nat :=
  let l := s.healthy
  l.getD ((hash32 (BitVec.ofNat 32 key) 0).toNat % l.length) 0

/-- A message joins the queue of its port; anything else has left at once. -/
def State.toPort (s : State) (o : Out) : State :=
  match s.route o with
  | none => { s with outs := s.outs ++ [o] }
  | some (_, key, vc) =>
    let p := s.portOf key
    s.setPort p { s.port p with queue := (s.port p).queue ++ [(vc, o)] }

/-- The channel whose return total the next flit of a port carries, and that total: each channel in turn, so that every one goes
once in four flits (R395). -/
def Port.giveReturn (x : Port) : Nat × BitVec 16 := (x.rot % 4, x.freed.toList.getD (x.rot % 4) 0)

/-- A timing message carries the time at which the link end sends it (R397). -/
def Out.stamped (dt : Nat) : Out → Out
  | .timing p _ => .timing p dt
  | o => o

/-- Send one flit that carries a message (R392, R393, R395). -/
def State.sendFlit (s : State) (p vc : Nat) (o : Out) : State :=
  let x := s.port p
  let (rvc, rtot) := x.giveReturn
  let d := match s.route o with
    | some (d, _) => d
    | none => 0
  let f := makeFlit 1 x.txSeq vc d s.pkg rvc rtot (Config.flitBody p s.moment)
  let s : State := { s with moment := s.moment + 1, outs := s.outs ++ [o.stamped s.dt, .flit p f] }
  s.setPort p { x with
    txSeq := x.txSeq + 1
    rot := (x.rot + 1) % 4
    sent := (f :: x.sent).take 256
    sentCnt := x.sentCnt.setIfInBounds vc (x.sentCnt.toList.getD vc 0 + 1) }

/-- What leaves a port now: on each channel the oldest messages while fewer than 64 slots are in flight (R388, R395); nothing
while the port retrains or is out of service (R396). -/
def State.transmit (s : State) (p : Nat) : State :=
  let q := (s.port p).queue
  if q.isEmpty ∨ (s.port p).retraining then s
  else if (s.port p).down then
    if (s.port p).keeps then s
    else q.foldl (fun (s : State) x => s.toPort x.2) (s.setPort p { s.port p with queue := [] })
  else
    let s := s.setPort p { s.port p with queue := [] }
    q.foldl (fun (s : State) x =>
      let t := s.port p
      if t.queue.any (·.1 == x.1) ∨ 64 ≤ t.inFlight x.1 then s.setPort p { t with queue := t.queue ++ [x] }
      else s.sendFlit p x.1 x.2) s

/-- The messages that a step has produced leave by their ports, as far as the links take them. -/
def State.link (s : State) (before : Nat) : State :=
  let new := s.outs.drop before
  let s := new.foldl State.toPort { s with outs := s.outs.take before }
  (s.ports.map (·.1)).foldl State.transmit s

/-! ## Receiving (R393-R395, R407) -/

/-- Ask the sender for a round of parity, or for the flit again. -/
def State.askRepair (s : State) (p : Nat) (q : BitVec 16) (round : Nat) : State := { s with outs := s.outs ++ [.repairRequest p q round] }
def State.askAgain (s : State) (p : Nat) (q : BitVec 16) : State := { s with outs := s.outs ++ [.retransmitRequest p q] }

/-- The slot return that a good flit carries (R395, R407). -/
def Port.takeReturn (x : Port) (f : BitVec 2176) : Port := { x with rtotIn := x.rtotIn.setIfInBounds (flitRvc f) (flitRtot f) }

/-- Deliver the flit expected next: its slot is freed, and an idle flit carries the return that is next (R393, R395). -/
def State.deliverFlit (s : State) (p : Nat) (f : BitVec 2176) : State :=
  let x := s.port p
  let vc := flitVc f
  let x := { x with freed := x.freed.setIfInBounds vc (x.freed.toList.getD vc 0 + 1) }
  let (rvc, rtot) := x.giveReturn
  let idle := makeFlit 4 x.txSeq 0 (f.extractLsb' 82 10).toNat s.pkg rvc rtot 0
  ({ s with outs := s.outs ++ [.flit p idle] } : State).setPort p { x with
    rxSeq := x.rxSeq + 1, rot := (x.rot + 1) % 4, broken := x.broken.del x.rxSeq.toNat,
    behind := x.behind.del x.rxSeq.toNat }

/-- Deliver the flits held behind, while the next one is there. -/
def State.drainBehind (s : State) (p : Nat) : Nat → State
  | 0 => s
  | n + 1 => match (s.port p).behind.find (s.port p).rxSeq.toNat with
    | some f => (s.deliverFlit p f).drainBehind p n
    | none => s

/-- A flit of channel 3 that had to be repaired or sent again keeps the time of its first arrival (R407). -/
def Port.noteFirst (x : Port) (f : BitVec 2176) : Port :=
  match x.broken.find (flitSeq f).toNat with
  | some b => if flitVc f = 3 then
      { x with firstSeen := ((flitSeq f, b.stamp) :: x.firstSeen.filter (·.1 != flitSeq f)).take 256 } else x
  | none => x

/-- A good data flit: delivered in order of SEQ, held while an earlier one is missing, dropped where it has been delivered
(R393, R394). -/
def State.takeFlit (s : State) (p : Nat) (f : BitVec 2176) : State :=
  let x := (s.port p).noteFirst f
  let s := s.setPort p x
  let ahead := (flitSeq f - x.rxSeq).toNat
  if ahead = 0 then (s.deliverFlit p f).drainBehind p (x.behind.length)
  else if ahead < 2 ^ 15 then
    s.setPort p { x with behind := x.behind.put (flitSeq f).toNat f, broken := x.broken.del (flitSeq f).toNat }
  else s

/-- The number at which a damaged flit stands: the retransmission that is waited for, or else the next on the link. -/
def Port.expected (x : Port) : BitVec 16 :=
  match x.broken.find? (·.2.resend) with
  | some (q, _) => BitVec.ofNat 16 q
  | none => x.rxSeq + BitVec.ofNat 16 (x.broken.length + x.behind.length)

/-- FLIT_RECEIVE: a flit arrives at a port (R393): a good one gives its slot return and, where it is data, is delivered in
order; a damaged one is kept, and its repair begins with round 1 (R394). No flit comes while the port retrains (R396). -/
def execFlitReceive (port : Nat) (flit : BitVec 2176) (s : State) : Host.Outcome State Fault Refusal :=
  let x := s.port port
  let q := x.expected
  event (decide (port < 18) && !x.retraining)
    (if flitGood flit then
      let s := s.setPort port (x.takeReturn flit)
      if flitType flit = 1 then s.takeFlit port flit else s
     else
      let b : Broken := { flit := flit, stamp := s.dt, rounds := 0, parity := [], tries := 0, resend := false }
      (s.setPort port { x with broken := x.broken.put q.toNat b }).askRepair port q 1)

/-- The sent flit with a number, of the last 256 (R393). -/
def Port.sentFlit (x : Port) (q : BitVec 16) : Option (BitVec 2176) := x.sent.find? (flitSeq · == q)

/-- REPAIR_REQUEST_RECEIVE: the sender answers with the parity of the round (R394). -/
def execRepairRequestReceive (port : Nat) (seq : BitVec 16) (round : Nat) (s : State) : Host.Outcome State Fault Refusal :=
  match (s.port port).sentFlit seq with
  | none => .fault .notEnabled
  | some f => event (!(s.port port).retraining && (round == 1 || round == 2))
      { s with outs := s.outs ++ [.parity port seq round (parityOf f round)] }

/-- RETRANSMIT_REQUEST_RECEIVE: the sender sends the flit again under its own SEQ (R394). -/
def execRetransmitRequestReceive (port : Nat) (seq : BitVec 16) (s : State) : Host.Outcome State Fault Refusal :=
  match (s.port port).sentFlit seq with
  | none => .fault .notEnabled
  | some f => event (!(s.port port).retraining) { s with outs := s.outs ++ [.flit port f] }

/-- A flit has been repaired on some lane of its port: a corrected error of the lane is recorded (R373, R424), and the lane's
predictive counter rises (R425). -/
def State.countRepair (s : State) (p : Nat) : State :=
  let lane := Config.choice s.moment % 8
  let i := p * 16 + (if (s.port p).spareUsed = some lane then 8 else lane)
  (({ s with moment := s.moment + 1 } : State).errorRecord ⟨0, 0, 6, 0, 0, 0, i, 0, 0⟩).countEvent 0 i

/-- The repair of a damaged flit once the parity of its rounds is here (R394). -/
def State.tryRepair (s : State) (p : Nat) (q : BitVec 16) (b : Broken) : State :=
  let keep (b : Broken) : State := s.setPort p { s.port p with broken := (s.port p).broken.put q.toNat b }
  match (repairFlit b.flit b.parity).filter flitGood with
  | some f =>
    let x := (s.port p).noteFirst f
    ((s.setPort p ({ x with broken := x.broken.del q.toNat }.takeReturn f)).countRepair p).takeFlit p f
  | none => if b.rounds = 1 then (keep b).askRepair p q 2 else (keep { b with resend := true }).askAgain p q

/-- The parity flit's own CRC failed, and the round is asked for again at most twice (R394). -/
def State.badParity (s : State) (p : Nat) (q : BitVec 16) (round : Nat) (b : Broken) : State :=
  let keep (b : Broken) : State := s.setPort p { s.port p with broken := (s.port p).broken.put q.toNat b }
  if b.tries < 2 then (keep { b with tries := b.tries + 1 }).askRepair p q round
  else (keep { b with resend := true }).askAgain p q

/-- REPAIR_PARITY_RECEIVE: parity of a damaged flit arrives (R394). -/
def execRepairParityReceive (port : Nat) (seq : BitVec 16) (round : Nat) (parity : BitVec 128) (good : Bool) (s : State) :
    Host.Outcome State Fault Refusal :=
  match (s.port port).broken.find seq.toNat with
  | none => .fault .notEnabled
  | some b =>
    event (!(s.port port).retraining && !b.resend && round == b.rounds + 1)
      (if good then s.tryRepair port seq { b with rounds := round, parity := b.parity ++ [parity], tries := 0 }
       else s.badParity port seq round b)

/-- LANE_RETRAIN_DONE: the port carries flits again, and open repairs restart at round 1 (R396, R407). -/
def execLaneRetrainDone (port : Nat) (s : State) : Host.Outcome State Fault Refusal :=
  let x := s.port port
  let fresh := x.broken.map fun p => (p.1, { p.2 with rounds := 0, parity := [], tries := 0, resend := false })
  event x.retraining
    (fresh.foldl (fun (s : State) p => s.askRepair port (BitVec.ofNat 16 p.1) 1)
      (s.setPort port { x with retraining := false, broken := fresh }))

/-! ## The domain's clock (R397, R398) -/

/-- The package joins its domain (R398, R430), before any task starts (R422): WINLEN grows to twice the latency D where it is
shorter; a domain whose 2D exceeds 8 µs is not formed. -/
def State.joinDomain (s : State) : State :=
  let d := 50 * Config.latency s.resets
  let s : State := { s with hopD := d }
  if s.npkg < 2 ∨ 8000 < 2 * d ∨ s.nextTask ≠ 1 then s
  else
    let s : State := if s.winLength < 2 * d then
        { s with svc := { s.svc with winlen := BitVec.ofNat 64 ((2 * d + 49) / 50) } }
      else s
    { s with domain := true }

/-- Whether this package is its domain's grandmaster: the lowest number, which is 0, unless the service processor names another
(R397). -/
def State.master (s : State) : Bool :=
  fld s.svc.pkgnum 9 0 == ((Config.grandmaster s.resets).filter (decide <| · < s.npkg)).getD 0

/-- The change of rate that steers DT against a measured offset, in parts per million: at most 100 (R397). -/
def steerFor (offset : Int) : Int := if 100 < offset then -100 else if offset < -100 then 100 else -offset

/-- TIMING_MESSAGE: a timing message of the grandmaster arrives at a port, with the grandmaster's time at its arrival, the
delays on its way counted in by the switches as boundary clocks. This package's time of the arrival is the hardware timestamp of
the first one, where the flit that carried it, named by its SEQ, had to be repaired or sent again (R407). The first message after bring-up synchronises the package with its domain;
later ones steer its rate, and an offset beyond 20 ns is recorded (R397). -/
def execTimingMessage (m : TimingMsg) (s : State) : Host.Outcome State Fault Refusal :=
  let x := s.port m.port
  let came := ((x.firstSeen.find? (·.1 == m.seq)).map (·.2)).getD s.dt
  let offset : Int := (came : Int) - (m.stamp : Int)
  let s1 := ({ s with lastTiming := some s.dt, steer := steerFor offset } : State).setPort m.port
    { x with firstSeen := x.firstSeen.filter (·.1 != m.seq) }
  event (s.svc.pkgSet && decide (2 ≤ s.npkg) && !s.master)
    (let s2 := if s.domain then s1 else s1.joinDomain
     if s.domain ∧ (20 < offset ∨ offset < -20) then s2.packageError 0 6 0 0 else s2)

/-- The grandmaster forms its domain and sends every other package a timing message, again and again within 1 ms (R397). -/
def State.sendTiming (s : State) : State :=
  if !s.svc.pkgSet || decide (s.npkg < 2) || !s.master then s
  else
    let s := if s.domain then s else s.joinDomain
    if !s.domain ∨ s.dt < s.lastSent + 1 + Config.timing % 999999 then s
    else
      { s with
        lastSent := s.dt
        outs := s.outs ++ ((List.range s.npkg).filter (· != s.pkg)).map fun p => .timing p s.dt }

/-- CLOCK_TIMEOUT: no timing message has come for 1 ms: the package goes on by its own oscillator and records it once
(R397). -/
def execClockTimeout (s : State) : Host.Outcome State Fault Refusal :=
  match s.lastTiming with
  | none => .fault .notEnabled
  | some t => event (s.domain && decide (t + 1000000 ≤ s.dt)) (({ s with lastTiming := none, steer := 0 } : State).packageError 0 6 0 0)

end Sys2Proof.Machine
end

