-- ==== Sys2Proof/Machine/Arrivals.lean ====
section
/-!
DEFINITION. What completes without an instruction: the vector arbiter and its operations (R127, R185), the data of loads
(R158, R168, R171), and walks (R37).
-/
namespace Sys2Proof.Machine

/-! ## The vector unit (R127, R185) -/

/-- The arbiter within a cycle: deficits, the number and unassigned beats of each queue's head, whether the queue holds
more, the pointer. -/
structure Arbiter where
  d : List Nat
  left : List Nat
  more : List Bool
  wt : List Nat
  p : Nat
  deriving DecidableEq, Repr

/-- Assign one lane group (R127): `fuel` bounds the refills, of which one always suffices. -/
def Arbiter.group : Nat → Arbiter → Arbiter
  | 0, a => a
  | fuel + 1, a =>
    match ((List.range 4).map fun j => (a.p + j) % 4).find? fun c => decide (1 ≤ a.left.getD c 0 ∧ 1 ≤ a.d.getD c 0) with
    | some c => { a with d := a.d.set c (a.d.getD c 0 - 1), left := a.left.set c (a.left.getD c 0 - 1) }
    | none =>
      if a.left.all (· == 0) then a
      else Arbiter.group fuel { a with
        d := (List.range 4).map fun k => if a.left.getD k 0 ≠ 0 ∨ a.more.getD k false then a.d.getD k 0 + 4 * a.wt.getD k 1 else 0
        p := (a.p + 1) % 4 }

/-- The head of a core's vector queue: the first operation with beats not yet assigned. -/
def Regs.vHead (r : Regs) : Option VOp := r.vq.find? (·.beats != 0)

/-- The arbiter of a cell before a cycle. -/
def State.arbiter (s : State) (cell : Nat) : Arbiter :=
  let cs := [0, 1, 2, 3].map fun j => s.core (cell * 4 + j)
  { d := cs.map (·.deficit)
    left := cs.map fun c => (c.regs.vHead.map (·.beats)).getD 0
    more := cs.map fun c => decide (2 ≤ (c.regs.vq.filter (·.beats != 0)).length)
    wt := cs.map fun c => if fld c.regs.vshare 3 0 = 0 then 1 else fld c.regs.vshare 3 0
    p := (s.cell cell).vptr }

/-- Set the unassigned beats of an operation wherever it waits. -/
def Regs.setBeats (id n : Nat) (r : Regs) : Regs := { r with vq := r.vq.map fun o => if o.id = id then { o with beats := n } else o }

/-- VECTOR_ARBITRATION: in one cycle the arbiter of a cell assigns its four lane groups in order (R127). -/
def execVectorArbitration (cell : Nat) (s : State) : Host.Outcome State Fault Refusal :=
  let a := s.arbiter cell
  let b := (List.range 4).foldl (fun a _ => a.group 2) a
  let s1 := s.setCell cell { s.cell cell with vptr := b.p }
  event (!s.paused && !(a.left.all (· == 0)))
    ([0, 1, 2, 3].foldl (fun (s : State) j => s.modCore (cell * 4 + j) fun c =>
      let c := { c with deficit := b.d.getD j 0 }
      match c.regs.vHead with
      | some o => c.onAll (Regs.setBeats o.id (b.left.getD j 0))
      | none => c) s1)

/-- A queued operation completes wherever it waits: its destination and its FSTAT flags (R84, R185). -/
def Regs.endVOp (o : VOp) (r : Regs) : Regs :=
  if r.vq.any (·.id == o.id) then
    let r : Regs := { r with vq := r.vq.filter (·.id != o.id), fstat := r.fstat ||| o.flags.setWidth 64 }
    r.apply o.writes
  else r

/-- VECTOR_OP_COMPLETE: the oldest operation of a core whose beats are all assigned completes (R127, R185). -/
def execVectorOpComplete (core : Nat) (s : State) : Host.Outcome State Fault Refusal :=
  match (s.core core).regs.vq with
  | [] => .fault .notEnabled
  | o :: _ => event (o.beats == 0 && !s.paused) (s.modCore core (Core.onAll (Regs.endVOp o)))

/-! ## Loads (R157, R158, R168-R171) -/

/-- A poisoned line met by a read in flight faults in the chunk that issued it (R168, R171, R374): the fault names the
issuing bundle. In a speculative chunk, running or ended, it is held (R361); with the older of two chunks the younger one goes
too; supervisor firmware starts again, once an older pending chunk has been granted (R457). A chunk in which another fault is
already held keeps that one (R385). -/
def State.lateFault (s : State) (i : Nat) (f : Flight) (a : Word64) : State :=
  let c := s.core i
  let own : Bool := match c.pend with
    | some k => k.seq == f.chunk
    | none => false
  let k := if own then c.pend.getD c.chunk else c.chunk
  let unresolved : Bool := match c.spec with
    | some p => !p.resolved
    | none => false
  let x : FaultRec := { code := 0x20, pc := k.start.pc, fpc := f.pc, addr := a, aux := 0, trapNo := 0 }
  let s := s.modCore i (Core.onAll (Regs.endFlight f.id id))
  if own && unresolved then
    s.modCore i fun c => { c with pend := c.pend.map fun r => { r with fault := some (r.fault.getD x) } }
  else if !own && c.speculating then
    (s.setCluster (clusterOf i) ((s.cluster (clusterOf i)).dropWalkFault i)).modCore i fun c => match c.run with
      | some r => { c with run := some { r with fault := some (r.fault.getD x) }, wait := .vote, phase := .faulted }
      | none => c
  else
    let s := if own then (((squashPend s i).dropOffer i).dropToken i false).dropToken i true
      else (squashRun s i).dropToken i c.pend.isSome
    if isSup i ∧ (s.core i).pend.isNone then (s.coreError i 0x20 9 0 f.pc 0).startFirmware i
    else s.modCore i (Core.awaitDelivery x)

/-- The sectors that earlier `ldx` of a core have still to read: later ones of the same sector wait (R251). -/
def earlierSectors (id : Nat) : List Flight → List Nat
  | [] => []
  | f :: t => if f.id = id then [] else f.todo.map (fun p => p.2.1 / 32) ++ earlierSectors id t

/-- One line as an `ldx` finds it now: committed state, or the line of another package that its chunk has received (R168,
R260). -/
def State.escapeLine (s : State) (i : Nat) (f : Flight) (line : Nat) : State × Line × Bool :=
  let c := s.ctx i
  if isRemote line then
    let k := match (s.core i).pend with
      | some k => if k.seq = f.chunk then k else (s.core i).chunk
      | none => (s.core i).chunk
    let d := k.remote.get line (0, false)
    (s, d.1, d.2)
  else s.readLine c.kid line

/-- One sector of an `ldx` is read (R168, R169): poison faults. -/
def State.readSector (s : State) (i : Nat) (f : Flight) (p : Nat × Nat × Nat) : State :=
  let (s, d, po) := s.escapeLine i f (p.2.1 / 128)
  if po then s.lateFault i f (f.href + BitVec.ofNat 64 p.1)
  else
    let bs := bytesOf p.2.2 (d.toNat >>> (8 * (p.2.1 % 128)))
    let g : Flight := { f with
      todo := f.todo.filter (· != p)
      got := (List.zip (List.range bs.length) bs).foldl (fun m x => m.put (p.1 + x.1) x.2) f.got }
    s.modCore i (Core.onAll fun r => { r with flights := r.flights.map fun x => if x.id = f.id then g else x })

/-- An `ldx` with all its bytes writes its destination; its value is logged (R168, R416). -/
def State.landEscape (s : State) (i : Nat) (f : Flight) : State :=
  let bs := f.got.map (·.2)
  let v := ofBytes bs
  let ws : List Word64 := if f.code = 7 then [BitVec.ofNat 64 v, BitVec.ofNat 64 (v >>> 64)] else [BitVec.ofNat 64 v]
  s.modCore i fun c => (c.onChunkOf f.chunk (Chunk.fillValue 0 f.id 0 ws)).onAll
    (Regs.endFlight f.id fun r => r.land s i (loadWrites f.code f.dst bs))

/-- LOAD_DATA_ARRIVAL: the data of a load arrives and writes its destination (R158). An `ldx` first reads its sectors, one
at a time and in any order, each at a moment of its own (R168, R169, R251). -/
def execLoadDataArrival (core id : Nat) (s : State) : Host.Outcome State Fault Refusal :=
  match (s.core core).regs.flights.find? fun f => f.id == id with
  | none => .fault .notEnabled
  | some f => match f.kind with
    | .load => event (!s.paused) (s.modCore core (Core.onAll (Regs.endFlight id fun r =>
        { r with fstat := r.fstat ||| f.flags.setWidth 64 }.land s core f.writes)))
    | .ldx =>
      match f.todo with
      | [] => event (!s.paused) (s.landEscape core f)
      | p :: t =>
        let q := ((p :: t)[Config.choice s.moment % (t.length + 1)]?).getD p
        let line := q.2.1 / 128
        event (!s.paused && !(earlierSectors id (s.core core).regs.flights).contains (q.2.1 / 32) && !s.claimed line &&
            !s.inTransit line)
          (({ s with moment := s.moment + 1 } : State).readSector core f q)
    | _ => .fault .notEnabled

/-- A split-phase load takes what it waits for of a line (R171, R260): the bits that its core had stored before it stay. The line's
poison counts unless the core has written all of it (R46). -/
def Flight.takeLine (line : Nat) (d : Line) (poison : Bool) (f : Flight) : Flight :=
  let here := f.todo.filter fun p => p.2.1 / 128 == line
  if f.kind != .ldreq || here.isEmpty then f
  else
    let byte (m : NMap (BitVec 8 × BitVec 8)) (p : Nat × Nat × Nat) (j : Nat) : NMap (BitVec 8 × BitVec 8) :=
      let (mask, v) := m.get (p.1 + j) (0, 0)
      m.put (p.1 + j) (0xFF, (d.extractLsb' (8 * ((p.2.1 + j) % 128)) 8 &&& ~~~mask) ||| (v &&& mask))
    let bits := here.foldl (fun m p => (List.range p.2.2).foldl (fun m j => byte m p j) m) f.bits
    let todo := f.todo.filter fun p => p.2.1 / 128 != line
    { f with
      bits := bits
      todo := todo
      poison := if poison then f.poison.orElse fun _ => here.head?.map fun p => f.href + BitVec.ofNat 64 p.1 else f.poison
      writes := if todo.isEmpty then loadWrites f.code f.dst (bits.map (·.2.2)) else [] }

/-- A split-phase load reads the lines of this package that it had to wait for (R98, R171). -/
def State.readLate (s : State) (core : Nat) (f : Flight) : State × Flight :=
  f.todo.foldl (fun (x : State × Flight) p =>
    let (s, d, po) := x.1.coreRead core p.2.1 p.2.2
    (s, x.2.takeLine (p.2.1 / 128) d (po && !(s.core core).covers (p.2.1 / 128)))) (s, f)

/-- LDREQ_REPLY: once every line that it waits for is here, the reply writes the destination and sets it full, or raises the
poisoned-data fault (R171). -/
def execLdreqReply (core id : Nat) (s : State) : Host.Outcome State Fault Refusal :=
  match (s.core core).regs.flights.find? fun f => f.id == id && f.kind == .ldreq with
  | none => .fault .notEnabled
  | some f =>
    let near (p : Nat × Nat × Nat) : Bool :=
      let line := p.2.1 / 128
      !isRemote line && !s.claimed line && !s.inTransit line
    let (t, g) := s.readLate core f
    event (!s.paused && f.todo.all near)
      (match g.poison with
        | some a => t.lateFault core g a
        | none => t.modCore core (Core.onAll (Regs.endFlight id fun r => r.land t core g.writes)))

/-! ## Walks (R37) -/

/-- The cores that still wait on a walk, each with its place in the order in which they reached the TLB. -/
def State.walkers (s : State) (w : Walk) : List (Nat × Nat) := w.waiters.filter fun p => (s.core p.1).need == .walk w.va

/-- Put a waiting core into its place in the order of arrival. -/
def insertWaiter (p : Nat × Nat) : List (Nat × Nat) → List (Nat × Nat)
  | [] => [p]
  | q :: t => if p.2 < q.2 then p :: q :: t else q :: insertWaiter p t

/-- Install an entry: the oldest of 4,096 goes (R36). -/
def Cluster.install (c : Cluster) (e : TlbEntry) : Cluster :=
  { c with tlb := (e :: c.tlb.filter fun x => !(x.kid == e.kid && x.va == e.va && x.size == e.size)).take 4096 }

/-- Cores that waited on a page may try again. -/
def State.unwait (s : State) (n : Need) (l : List Nat) : State := l.foldl (fun (s : State) i => s.modCore i fun c => { c with need := n }) s

/-- The accesses that one entry serves resume in the order in which they reached the TLB (R37, item 4). -/
def State.resumeInOrder (s : State) (cl : Nat) (l : List (Nat × Nat)) : State :=
  let order := (l.foldl (fun m p => insertWaiter p m) []).map (·.1)
  let s := s.unwait .resume order
  let c := s.cluster cl
  let old := (c.resume.map fun l => l.filter fun i => (s.core i).need == .resume && !order.contains i).filter (!·.isEmpty)
  s.setCluster cl { c with resume := if order.length < 2 then old else old ++ [order] }

/-- WALK_COMPLETE: a walk ends (R37). Its entry is installed and serves every pending miss that it covers, whose walks, if
not yet begun, are cancelled; a walk that faults installs nothing, and each access that waited on it takes the fault; one
that an invalidation has covered installs nothing, and its accesses walk again (R39). -/
def execWalkComplete (cluster walk : Nat) (s : State) : Host.Outcome State Fault Refusal :=
  match (s.cluster cluster).walks.find? (·.id == walk) with
  | none => .fault .notEnabled
  | some w =>
    let ready := !s.paused && w.begun
    let waiting := (s.walkers w).map (·.1)
    let next (s : State) : State := s.assignWalkers (dieOfCluster cluster) 64
    let drop (s : State) : State :=
      s.setCluster cluster { s.cluster cluster with walks := (s.cluster cluster).walks.filter (·.id != walk) }
    if w.void_ then event ready (next ((drop s).unwait .none waiting))
    else
      match s.walkNow w.kid cluster (w.va * 4096) with
      | (s1, .error code) =>
        let s2 := drop s1
        let c := s2.cluster cluster
        let f : WalkFault := { kid := w.kid, va := w.va, code := code, cores := waiting }
        event ready (next ((s2.setCluster cluster { c with
          walkFaults := if waiting.isEmpty then c.walkFaults else c.walkFaults ++ [f] }).unwait .none waiting))
      | (s1, .ok e) =>
        let covers (x : Walk) : Bool := x.kid == w.kid && decide (e.va ≤ x.va * 4096 ∧ x.va * 4096 < e.va + e.size)
        let served := (s.cluster cluster).walks.filter covers
        let c := s1.cluster cluster
        let left := (c.walks.filter fun x => x.id != walk && !(covers x && !x.begun)).map fun x =>
          if covers x then { x with waiters := [] } else x
        let s2 := s1.setCluster cluster ({ c with walks := left }.install e)
        event ready (next (s2.resumeInOrder cluster (served.map fun x => s.walkers x).flatten))

end Sys2Proof.Machine
end

