-- ==== Sys2Proof/Machine/Masks.lean ====
section
/-!
DEFINITION. Mask instructions (R196): they act on all 1,024 bits, in the core, and the active mask does not govern them.
-/
namespace Sys2Proof.Machine

/-- A mask destination written at once (R185). -/
def writeM (i : BitVec 5) (x : MReg) : Act Unit := do
  let j := i.extractLsb' 0 3
  waitOn (2, j.toNat)
  onRegs (·.putM j x)

/-- A two-source mask instruction. -/
def maskOp (f : Arith) (g : MReg → MReg → MReg) : Act Unit := do
  let a ← readM (f.a.extractLsb' 0 3)
  let b ← readM (f.b.extractLsb' 0 3)
  writeM f.d (g a b)

/-- MAND (R196). -/
def execMand (f : Arith) (s : State) : Host.Outcome State Fault Refusal := issue (maskOp f fun a b => a &&& b) s
/-- MOR (R196). -/
def execMor (f : Arith) (s : State) : Host.Outcome State Fault Refusal := issue (maskOp f fun a b => a ||| b) s
/-- MXOR (R196). -/
def execMxor (f : Arith) (s : State) : Host.Outcome State Fault Refusal := issue (maskOp f fun a b => a ^^^ b) s

/-- MNOT (R196). -/
def execMnot (f : Arith) (s : State) : Host.Outcome State Fault Refusal :=
  issue (do
    let a ← readM (f.a.extractLsb' 0 3)
    writeM f.d (~~~a)) s

/-- A mask counted into a scalar by an operation of form S, which the vector queue takes (R185, R196). -/
def maskCount (op : Nat) (f : Arith) (g : Nat → Nat) : Act Unit := do
  let a ← readM (f.a.extractLsb' 0 3)
  waitOn (0, f.d.toNat)
  enqueueV (beatsOf op f) [.s f.d (BitVec.ofNat 64 (g a.toNat))] flNone

/-- MPOP: the number of one bits (R196). -/
def execMpop (f : Arith) (s : State) : Host.Outcome State Fault Refusal := issue (maskCount 0x26 f (popN 1024)) s
/-- MFIRST: the index of the lowest one bit, or 1,024 (R196). -/
def execMfirst (f : Arith) (s : State) : Host.Outcome State Fault Refusal := issue (maskCount 0x27 f (firstN 1024)) s

end Sys2Proof.Machine
end

