-- ==== Sys2Proof/Machine/Pages.lean ====
section
/-!
DEFINITION. Pages that live elsewhere (R40-R42, R260): forwarded accesses and their replies, the migration table, and
migrations.
-/
namespace Sys2Proof.Machine

/-! ## Rewriting tables (R30, R42) -/

/-- Rewrite OWNER, TGT and FRAME of a page's group, and invalidate the TLBs for it (R30, R42). -/
def State.retarget (s : State) (g : List Leaf) (owner tgt frame : Nat) : State :=
  let s := g.foldl (fun (s : State) l =>
    s.writeWord l.kid l.key (setFld (setFld (setFld l.e 63 54 owner) 53 52 tgt) 51 12 (frame / 4096)).toNat) s
  s.invalidate fun kid va size => g.any fun l => l.kid == kid && decide (va ≤ l.va ∧ l.va < va + size)

/-! ## The migration table (R41) -/

/-- The place with the smallest count, the lowest-numbered among equals. -/
def leastPlace : List (Nat × Nat) → Nat → Nat → Nat → Nat
  | [], _, best, _ => best
  | (_, n) :: t, j, best, low => if n < low then leastPlace t (j + 1) j n else leastPlace t (j + 1) best low

/-- Count an access of a package to a page's entry (R41): four places, saturating; a fifth package takes the place whose
count is smallest. -/
def MigEntry.count (e : MigEntry) (pkg : Nat) : MigEntry :=
  if e.counts.any (·.1 == pkg) then
    { e with counts := e.counts.map fun p => if p.1 = pkg ∧ p.2 < 65535 then (p.1, p.2 + 1) else p }
  else if e.counts.length < 4 then { e with counts := e.counts ++ [(pkg, 1)] }
  else { e with counts := e.counts.set (leastPlace e.counts 0 0 65536) (pkg, 1) }

/-- The largest count of an entry. -/
def MigEntry.most (e : MigEntry) : Nat := e.counts.foldl (fun a p => if a < p.2 then p.2 else a) 0

/-- The place of the entry whose largest count is smallest, the first among equals (log 64). -/
def leastEntry : List MigEntry → Nat → Nat → Nat → Nat
  | [], _, best, _ => best
  | e :: t, j, best, low => if e.most < low then leastEntry t (j + 1) j e.most else leastEntry t (j + 1) best low

/-- Count a forwarded access to a page (R41): in a full table a new page replaces the entry whose largest count is smallest. -/
def State.countForward (s : State) (page pkg : Nat) : State :=
  if s.mig.any (·.page == page) then { s with mig := s.mig.map fun e => if e.page = page then e.count pkg else e }
  else
    let e : MigEntry := { page := page, counts := [(pkg, 1)] }
    if s.mig.length < 8192 then { s with mig := s.mig ++ [e] }
    else { s with mig := s.mig.set (leastEntry s.mig 0 0 65536) e }

/-- The page of this package that holds an address, by its base address: the leaf of the line's job that maps it, or else 4 KiB. -/
def State.pageOf (s : State) (kid a : Nat) : Nat :=
  match (s.leaves kid).find? fun l => l.tgt == 0 && decide (l.frame ≤ a ∧ a < l.frame + l.size) with
  | some l => l.frame
  | none => a / 4096 * 4096

/-- MIGRATION_INTERVAL: every 64 µs each count that has reached MIGTHR queues a migration request, and the counts start again;
a threshold of 0 asks for none (R41, R422). -/
def execMigrationInterval (s : State) : Host.Outcome State Fault Refusal :=
  let thr := fld s.svc.migthr 15 0
  let asks := (s.mig.map fun e => (e.counts.filter fun p => decide (thr ≠ 0 ∧ thr ≤ p.2)).map fun p => (e.page, p.1)).flatten
  event (!s.paused && decide (s.lastMig + 96000 ≤ s.cyc))
    { s with
      lastMig := s.lastMig + 96000
      migQ := s.migQ ++ asks.filter fun a => !s.migQ.contains a
      mig := s.mig.map fun (e : MigEntry) => { e with counts := e.counts.map fun p => (p.1, 0) } }

/-! ## Forwarded accesses (R40, R42, R252, R260) -/

/-- A request for a page that has left goes on to its new owner, and the requester's die supervisor is told (R42). -/
def State.forwardOn (s : State) (r : FwdReq) (m : Moved) : State :=
  let a := m.frame + (r.addr - m.base)
  let q : FwdReq := { r with
    addr := a, again := true, atomic := r.atomic.map fun (x : RemoteAtomic) => { x with addr := m.frame + (x.addr - m.base) }
    more := r.more.map fun (x : RemoteAtomic) => { x with addr := m.frame + (x.addr - m.base) } }
  let t : Retarget := { kid := m.kid, owner := s.pkg, base := m.base, dest := m.owner, frame := m.frame, size := m.size }
  { s with outs := s.outs ++ [.forward m.owner q] ++ (if r.pkg = m.owner ∨ r.again then [] else [.retarget r.pkg t]) }

/-- A committed line as it crosses to another package (R44, R45): as ciphertext, which is its writer's key and the plaintext (log
59); a line that L2 holds under another key ID reads as zeros. -/
def State.cipherLine (s : State) (kid line : Nat) : State × BitVec 512 × Line × Bool :=
  let (t, _, po) := s.readLine kid line
  match s.l2Way line with
  | some w => if w.kid = kid then (t, s.keyOf (s.writerOf line kid), s.rawLine line, po) else (t, s.keyOf kid, 0, po)
  | none => (t, s.keyOf (s.writerOf line kid), s.rawLine line, po)

/-- What a line that has crossed as ciphertext decrypts to here (R44): its plaintext under the same key, and under another
something else. The tweak is the line's address at its home. -/
def State.decipher (s : State) (kid at_ : Nat) (key : BitVec 512) (d : Line) : Line :=
  if s.keyOf kid = key then d else Config.decrypt at_ key d (s.keyOf kid)

/-- The reply to a forwarded read (R40, R44, R46): the committed line as ciphertext, and its marker. -/
def State.serveForward (s : State) (r : FwdReq) : State :=
  let (s, key, d, po) := s.cipherLine r.kid (r.addr / 128)
  let c : CipherLine := { kid := r.kid, key := key, data := d, tag := r.tag }
  if r.pkg = s.pkg then { s with mail := s.mail ++ [.forwardedReply r.core r.line c po] }
  else { s with outs := s.outs ++ [.reply r.pkg r.core r.line c po] }

/-- Whether the far atomics that the switches have combined into one request can be one (R253): fetch-and-adds to one place. -/
def combinedWell (r : FwdReq) : Bool := match r.atomic with
  | none => r.more.isEmpty
  | some a => r.more.isEmpty || (a.op == 0 && r.more.all fun b => b.op == 0 && b.addr == a.addr)

/-- FORWARDED_ACCESS: an access from another package is served by its owner, a read between two CSNs from committed state, a
far atomic by the package latch, with those that the switches have combined with it (R253); one for a page that has left goes on (R40,
R42, R252, R260). Batches that can be granted or are due go first (R243, R259, R384). -/
def execForwardedAccess (r : FwdReq) (s : State) : Host.Outcome State Fault Refusal :=
  match s.movedPage r.kid r.addr with
  | some m => event (!s.paused && combinedWell r) (s.forwardOn r m)
  | none =>
    let line := r.addr / 128
    let s1 := s.countForward (s.pageOf r.kid r.addr / 4096) r.pkg
    event (!s.paused && decide (r.addr < hbmSize) && !s.claimed line && !s.inTransit line && (s.itemsOf 0).isEmpty && !s.batchesHold && combinedWell r)
      (match r.atomic with
        | some a => { s1 with items := s1.items ++ [.remoteAtomic a r.more r.line] }
        | none => s1.serveForward r)

/-- The words of a line for the log (R416). -/
def lineWords (d : Line) : List Word64 := (List.range 16).map fun j => d.extractLsb' (64 * j) 64

/-- A chunk takes a line of another package, and keeps its first value (R260); among its logged values it stands where the line
was asked for (R416). -/
def Chunk.takeLine (line : Nat) (d : Line) (poison : Bool) (k : Chunk) : Chunk :=
  if (k.remote.find line).isSome then k
  else
    let v : LogValue := ⟨1, line, []⟩
    let k := if k.values.any (· == v) then k.fillValue 1 line 0 (lineWords d)
      else { k with values := k.values ++ [⟨1, 0, lineWords d⟩] }
    { k with remote := k.remote.put line (d, poison) }

/-- A line of another package reaches a core: the split-phase loads that asked for it under the reply's tag, with their chunks, and the
chunk that stands for it; a request of a squashed chunk has another tag, and its reply writes nothing (R171, R183, R260, R416). -/
def Core.takeLine (c : Core) (line tag : Nat) (d : Line) (poison : Bool) : Core :=
  let po := poison && !c.covers line
  let wants (f : Flight) : Bool := f.kind == .ldreq && f.tag == tag && f.todo.any fun p => p.2.1 / 128 == line
  let waits := c.regs.flights.filter wants
  let c := waits.foldl (fun (c : Core) f => c.onChunkOf f.chunk (Chunk.takeLine line d poison)) c
  let c := if waits.isEmpty then c
    else c.onAll fun r => { r with flights := r.flights.map fun f => if wants f then f.takeLine line d po else f }
  if c.need = .remote line tag then { c with need := .none, run := some (c.chunk.takeLine line d poison) } else c

/-- FORWARDED_REPLY: a reply arrives, is decrypted under the job's key here and overlaid with this package's parts that the home
has not applied, and goes to the core, copy commands or unit that waits for it; nothing waits after a squash, and it is dropped
(R40, R44, R171, R260). -/
def execForwardedReply (core line : Nat) (data : CipherLine) (poison : Bool) (s : State) : Host.Outcome State Fault Refusal :=
  let d := s.overlayParts line (s.decipher data.kid (remoteAddr line / 128) data.key data.data)
  let cl := s.cluster (clusterOf core)
  let wants (x : CopyCmd) : Bool := x.core == core && data.tag == 2 * x.ord + 1 && x.running && x.srcs.contains line && (x.remote.find line).isNone
  event (!s.paused)
    (if core = unitCore then
      (if s.asked.contains line then
        ({ s with asked := s.asked.filter (· != line), fwd := s.fwd.put line (d, poison) } : State).wakeCame.restartCame else s)
     else
      (s.setCluster (clusterOf core) { cl with
        copyQ := cl.copyQ.map fun x => if wants x then { x with remote := x.remote.put line (d, poison) } else x }).modCore core
          fun c => c.takeLine line data.tag d poison)

/-! ## Migrations (R42) -/

/-- Whether two ranges of bytes meet. -/
def bytesMeet (a n b m : Nat) : Bool := decide (a < b + m ∧ b < a + n)

/-- Own parts to a page follow it to its new owner's name for it, so that they are still read back (R42, R260). -/
def State.followPage (s : State) (owner base dest frame size : Nat) : State :=
  { s with unapplied := s.unapplied.map fun (p : Part) =>
      if p.home = owner ∧ base ≤ p.addr ∧ p.addr < base + size then { p with home := dest, addr := frame + (p.addr - base) } else p }

/-- Parts that wait here for a page that leaves go with it, under their tags (R42). -/
def State.sendParts (s : State) (m : PageMove) : State :=
  let hit (p : Part) : Bool := decide (m.base ≤ p.addr ∧ p.addr < m.base + m.size)
  { s with
    parts := s.parts.filter fun p => !hit p
    late := s.late.filter fun p => !hit p
    outs := s.outs ++ ((s.late ++ s.parts).filter hit).map fun p => .part m.dest { p with addr := m.frame + (p.addr - m.base) } }

/-- The owner's side of a migration: the copy leaves with its markers and key IDs, as ciphertext (R44), the group points to the new owner, the TLBs forget the
page, and accesses that still come are forwarded (R42, R46). -/
def State.pageOut (s : State) (m : PageMove) (g : List Leaf) : State :=
  let ls := (List.range (m.size / 128)).filter fun j => s.poisoned (m.base / 128 + j)
  let tags := (List.range (m.size / 128)).filterMap fun j => (s.lineKey.find (m.base / 128 + j)).map fun k => (j, k, s.keyOf k)
  let copy : PageMove := { m with data := memReadN s.mem m.base m.size, bad := ls, tags := tags }
  let s := (s.sendParts m).retarget g m.dest 2 m.frame
  let s := s.l2Drop fun w => isHbm w.line && bytesMeet (w.line * 128) 128 m.base m.size
  ({ s with
    migQ := s.migQ.filter (· != (m.base / 4096, m.dest))
    mig := s.mig.filter (·.page != m.base / 4096)
    moved := s.moved ++ [{ base := m.base, size := m.size, owner := m.dest, frame := m.frame, kid := m.kid }]
    outs := s.outs ++ [.page copy] } : State).followPage s.pkg m.base m.dest m.frame m.size

/-- The bytes of a page as they are here: those of a line that crossed under a key other than its key ID's here as they decrypt
(R44). -/
def State.openPage (s : State) (m : PageMove) : List Byte :=
  ((List.range (m.size / 128)).map fun j =>
    let bs := (m.data.drop (128 * j)).take 128
    match m.tags.find? (·.1 == j) with
    | none => bs
    | some (_, k, key) => bytesOf 128 (s.decipher k (m.base / 128 + j) key (BitVec.ofNat 1024 (ofBytes bs))).toNat).flatten

/-- The new owner's side: the frame takes the page's bytes, key IDs and markers, and the group names the copy (R42, R44, R46). -/
def State.pageIn (s : State) (m : PageMove) (g : List Leaf) : State :=
  let first := m.frame / 128
  let ls := (List.range (m.size / 128)).map (first + ·)
  let s : State := { s with
    mem := memWriteN s.mem m.frame (s.openPage m)
    lineKey := m.tags.foldl (fun k t => k.put (first + t.1) t.2.1) (ls.foldl NMap.del s.lineKey)
    poison := m.bad.map (first + ·) ++ s.poison.filter fun l => !ls.contains l
    moved := s.moved.filter fun x => !bytesMeet x.base x.size m.frame m.size }
  ((s.l2Drop fun w => ls.contains w.line).retarget g 0 0 m.frame).followPage m.owner m.base s.pkg m.frame m.size

/-- The group of a page in a job's tables, as its owner or as another package names it. -/
def State.group (s : State) (kid tgt owner base size : Nat) : List Leaf :=
  (s.leaves kid).filter fun l => l.tgt == tgt && l.frame == base && l.size == size && (tgt == 0 || l.owner == owner)

/-- Whether a chunk has read or written one of some lines, as far as its signatures say (R240), or holds its value (R260). -/
def Chunk.touches (k : Chunk) (ls : List Nat) : Bool :=
  ls.any fun l => sigMeets (sigAdd 0 l) k.rsig || sigMeets (sigAdd 0 l) k.wsig || (k.remote.find l).isSome

/-- Whether something under way in this package knows lines by a page's name there: a chunk, a read, a copy command, an item at
the package latch, a granule in transit. A migration waits for it, and so changes no value that an access observes (R42, log
62). -/
def State.pageInUse (s : State) (first n : Nat) : Bool :=
  let ls := (List.range n).map (first + ·)
  let hit (l : Nat) : Bool := decide (first ≤ l ∧ l < first + n)
  let chunk (k : Option Chunk) : Bool := match k with
    | none => false
    | some k => k.touches ls || (match k.atomic with
      | some (.fatom _ _ _ _ x) | some (.evinc _ x) => hit (x / 128)
      | _ => false)
  (s.cores.any fun p => chunk p.2.run || chunk p.2.pend ||
      p.2.regs.flights.any fun f => f.todo.any fun t => hit (t.2.1 / 128)) ||
    (s.clusters.any fun p => p.2.copyQ.any fun x => x.claims.any hit || x.srcs.any hit) ||
    (s.items.any fun x => match x with
      | .host cells _ _ => cells.any fun c => hit (c.1 / 128)
      | .remoteAtomic r _ _ => hit (r.addr / 128)
      | .evinc _ _ k _ => hit (k / 128)
      | _ => false) ||
    s.transit.any fun t => bytesMeet t.base t.size (first * 128) (n * 128)

/-- MIGRATION: the die supervisor of a page's owner moves it to a package that asked for it (R42). All five steps are one
event: accesses wait while the page is in transit, so that nothing in between is seen, and it waits for what already knows the
page by its name. The same event at the new owner is the page's arrival there. -/
def execMigration (m : PageMove) (s : State) : Host.Outcome State Fault Refusal :=
  let out := s.group m.kid 0 0 m.base m.size
  let n := m.size / 128
  if m.owner = s.pkg then
    event (!s.paused && s.domain && m.dest != s.pkg && decide (m.dest < s.npkg) && !out.isEmpty && !s.pageInUse (m.base / 128) n &&
        s.migQ.contains (m.base / 4096, m.dest) && m.frame % m.size == 0)
      (s.pageOut m out)
  else
    event (!s.paused && s.domain && m.dest == s.pkg && m.frame % m.size == 0 && decide (m.frame + m.size ≤ hbmSize) &&
        m.data.length == m.size && m.size % 4096 == 0 && !s.pageInUse (m.frame / 128) n &&
        !s.pageInUse (remoteKey m.owner m.base / 128) n)
      (s.pageIn m (s.group m.kid 2 m.owner m.base m.size))

/-- RETARGET_REQUEST: a third package's die supervisor rewrites OWNER of a migrated page's group, and invalidates its TLBs
(R42), once nothing here knows the page by its old name. -/
def execRetargetRequest (r : Retarget) (s : State) : Host.Outcome State Fault Refusal :=
  event (!s.paused && r.dest != s.pkg && !s.pageInUse (remoteKey r.owner r.base / 128) (r.size / 128))
    ((s.retarget (s.group r.kid 2 r.owner r.base r.size) r.dest 2 r.frame).followPage r.owner r.base r.dest r.frame r.size)

end Sys2Proof.Machine
end

