-- ==== Sys2Proof/Machine/Permute.lean ====
section
/-!
DEFINITION. Permutes (R205): w-bit patterns moved within and between vector registers.
-/
namespace Sys2Proof.Machine

/-- Finish a permute: only active elements are written. -/
def finishPermute (op : Nat) (f : Arith) (w : Nat) (act : List Bool) (res : List Nat) : Act Unit := do
  let ws ← vecWrite f.d (packN w res) (activeBits w act)
  enqueueV (beatsOf op f) ws flNone

/-- A permute of two vector-like sources. -/
def permuteAct (op : Nat) (f : Arith) (g : Nat → List Nat → List Nat → List Nat) : Act Unit := do
  let e ← readElems op f
  finishPermute op f e.w e.act (g e.w e.a e.b)

/-- The count source B of `slup`, `sldn` and `bcast`: 64 bits, unsigned (R205). -/
def readCount (f : Arith) : Act Nat := do
  if f.bk = 1 then
    let x ← readS f.b f.bw
    pure x.toNat
  else if f.bk = 2 then
    let x ← readK f.b
    pure x.toNat
  else
    let l ← bundleLit
    pure (litWide l f.b)

/-- A permute by a count. -/
def countAct (op : Nat) (f : Arith) (g : Nat → List Nat → Nat → List Nat) : Act Unit := do
  let w := tyWidth .w f.ty
  let n := 4096 / w
  let s ← get
  planVector (vecSrcs f false) false f.d w (s.actNow n)
  let regs ← readVs (vecSrcs f false) []
  let a ← srcElems .w f.ty n w regs f.ak f.a f.aw
  let k ← readCount f
  let m ← activeMask
  finishPermute op f w (maskList n m) (g n a k)

/-- Element i of a list of patterns, by halving an n-element number: the packed form reads fast. -/
def pick (w x i : Nat) : Nat := x >>> (w * i) % 2 ^ w

/-- PERM (R205). -/
def execPerm (f : Arith) (s : State) : Host.Outcome State Fault Refusal :=
  issue (permuteAct 0x40 f fun w a b =>
    let n := a.length
    let g := if n < 2 ^ w then n else 2 ^ w
    let x := packN w a
    List.zipWith (fun i c => pick w x (i - i % g + c % g)) (List.range n) b) s

/-- SLUP: a[i − k], else 0 (R205). -/
def execSlup (f : Arith) (s : State) : Host.Outcome State Fault Refusal :=
  issue (countAct 0x41 f fun n a k => if n ≤ k then List.replicate n 0 else List.replicate k 0 ++ a.take (n - k)) s

/-- SLDN: a[i + k], else 0 (R205). -/
def execSldn (f : Arith) (s : State) : Host.Outcome State Fault Refusal :=
  issue (countAct 0x42 f fun n a k => if n ≤ k then List.replicate n 0 else a.drop k ++ List.replicate k 0) s

/-- Interleave two lists. -/
def zipLists : List Nat → List Nat → List Nat
  | a :: ta, b :: tb => a :: b :: zipLists ta tb
  | _, _ => []

/-- ZIP: a[i div 2] for even i, b[i div 2] for odd i (R205). -/
def execZip (f : Arith) (s : State) : Host.Outcome State Fault Refusal :=
  issue (permuteAct 0x43 f fun _ a b => (zipLists a b).take a.length) s

/-- The elements with even index. -/
def evens : List Nat → List Nat
  | [] => []
  | [x] => [x]
  | x :: _ :: t => x :: evens t

/-- UNZIP: a[2i] below the half, b[2i − n] above (R205). -/
def execUnzip (f : Arith) (s : State) : Host.Outcome State Fault Refusal :=
  issue (permuteAct 0x44 f fun _ a b => evens a ++ evens b) s

/-- BCAST: a[k mod n] (R205). -/
def execBcast (f : Arith) (s : State) : Host.Outcome State Fault Refusal :=
  issue (countAct 0x45 f fun n a k => List.replicate n (a.getD (k % n) 0)) s

/-- COMP: the active elements in order, then zeros; every element is written (R205). -/
def compAct (f : Arith) : Act Unit := do
  let e ← readElems 0x46 f
  let xs := ((List.zip e.a e.act).filter (·.2)).map (·.1)
  finishPermute 0x46 f e.w (List.replicate e.n true) (xs ++ List.replicate (e.n - xs.length) 0)

/-- COMP (R205). -/
def execComp (f : Arith) (s : State) : Host.Outcome State Fault Refusal := issue (compAct f) s

end Sys2Proof.Machine
end

