-- ==== Sys2Proof/Machine/Rdma.lean ====
section
/-!
DEFINITION. Scale-out (R403-R407): work entries of queue pairs, their completion and failure, incoming data.
-/
namespace Sys2Proof.Machine

/-! ## Work entries (R404) -/

def State.setQp (s : State) (q : Nat) (x : QueuePair) : State := { s with qps := s.qps.put q x }

/-- The context of a port's accesses for a queue pair (R405). -/
def State.qpCtx (s : State) (x : QueuePair) : Ctx := s.jobCtx x.kid 0

/-- The address of a work entry (R404). -/
def QueuePair.entryAt (x : QueuePair) (i : Nat) : Word64 := x.ring + BitVec.ofNat 64 (64 * (i % 2 ^ x.k))

/-- Whether a work entry breaks its format (R404): an OPC, a length or an alignment that the table does not admit. Reserved bits
are ignored (R5). -/
def workBad (w : BitVec 512) : Bool :=
  let opc := fld (recW w 0) 63 56
  let len := fld (recW w 0) 31 0
  decide (2 < opc) || len % 128 != 0 || len == 0 || decide (2 ^ 31 - 128 < len) ||
    (recW w 1).toNat % 128 != 0 || (opc != 0 && (recW w 2).toNat % 128 != 0)

/-- Add to a queue pair's completion counter, as an `evinc` (R404, R406). -/
def State.bumpCc (s : State) (x : QueuePair) (n : Nat) : State :=
  { s with items := s.items ++ [.evinc x.kid unitCore (s.counterKey x.kid x.cc) (BitVec.ofNat 64 n)] }

/-- Bytes of a job written by a port, as host writes are (R405, R406); none where they cannot be. The walks leave their accessed bits,
and host pages their dirty bits (R32). -/
def State.portWrite (s : State) (x : QueuePair) (a : Word64) (bs : List Byte) (rc : Option (Nat × Nat)) : State :=
  match s.locateW (s.qpCtx x) .write a bs.length with
  | (s, .error _) => s
  | (s, .ok ps) =>
    let s := s.dirtyAt (s.qpCtx x) a bs.length
    { s with items := s.items ++ [.host (cellsAt ps bs) (some x.kid) rc] }

/-- A failing entry stops its queue pair (R406): the status block, 2^32 for it in CC, and 2^32 for each entry posted after
it, which is flushed. -/
def State.failEntry (s : State) (q : Nat) (x : QueuePair) (i : Nat) (code : BitVec 7) (wrid : Word64) : State :=
  let posted := s.counter x.kid x.pc
  let block := bytesOf 8 (i % 2 ^ 32 * 2 ^ 32 + code.toNat * 2 + 1) ++ bytesOf 8 wrid.toNat
  let s := (s.portWrite x x.status block none).bumpCc x (2 ^ 32)
  let s := (List.range (posted - (i + 1))).foldl (fun (s : State) _ => s.bumpCc x (2 ^ 32)) s
  s.setQp q { x with stopped := true, running := none, index := if i + 1 < posted then posted else i + 1 }

/-- A work entry as the port reads it now: its words, or the code of the failure (R404-R406). -/
def State.readWork (s : State) (x : QueuePair) (i : Nat) : State × Except (BitVec 7) (BitVec 512) :=
  match s.readOnce (s.qpCtx x) (x.entryAt i) 64 with
  | (s, .error (code, _)) => (s, .error (if code = 0x20 then 6 else 2))
  | (s, .ok bs) => (s, .ok (BitVec.ofNat 512 (ofBytes bs)))

/-- The local bytes of an entry that sends, checked; of one that reads, only checked for writing (R405). -/
def State.localBytes (s : State) (x : QueuePair) (w : BitVec 512) : State × Except (BitVec 7) (List Byte) :=
  let len := fld (recW w 0) 31 0
  if fld (recW w 0) 63 56 = 2 then
    match s.locateW (s.qpCtx x) .write (recW w 1) len with
    | (s, .error _) => (s, .error 2)
    | (s, .ok _) => (s, .ok [])
  else
    match s.readOnce (s.qpCtx x) (recW w 1) len with
    | (s, .error (code, _)) => (s, .error (if code = 0x20 then 6 else 2))
    | (s, .ok bs) => (s, .ok bs)

/-- The lines that the port reads for an entry: the entry's, and as soon as that can be read those of its data. -/
def State.entryLinesOf (s : State) (x : QueuePair) (i : Nat) : List Nat :=
  let c := s.qpCtx x
  let l := s.linesAt c (x.entryAt i) 64
  if !s.canRead l then l
  else match (s.readNow c (x.entryAt i) 64).2 with
    | .error _ => l
    | .ok bs =>
      let w := BitVec.ofNat 512 (ofBytes bs)
      if workBad w ∨ fld (recW w 0) 63 56 = 2 then l else (l ++ s.linesAt c (recW w 1) (fld (recW w 0) 31 0)).eraseDups

/-- Those of other packages that have not come (R40). -/
def State.workMissing (s : State) (x : QueuePair) (i : Nat) : List Nat := s.notHere (s.entryLinesOf x i)

/-- The port performs entry i: it leaves for the remote queue pair as ciphertext under the job's key (R403, log 59), or fails at once
(R404-R406). -/
def State.performWork (s : State) (q : Nat) (x : QueuePair) (i : Nat) : State :=
  match s.readWork x i with
  | (s, .error code) => s.failEntry q x i code 0
  | (s, .ok w) =>
    if workBad w then s.failEntry q x i 1 (recW w 4)
    else match s.localBytes x w with
      | (s, .error code) => s.failEntry q x i code (recW w 4)
      | (s, .ok bs) =>
        ({ s with outs := s.outs ++ [.rdma q (fld (recW w 0) 63 56) (recW w 2) (fld (recW w 3) 31 0) x.peer (s.keyOf x.kid) bs] } : State).setQp q
          { x with running := some i, wrid := recW w 4 }

/-- RDMA_ENTRY_PERFORM: the port performs the next entry below PC, in index order (R404), once what it reads is there and no copy command is
still to write it (R40, R98). On a stopped queue pair it performs
none: the entry is flushed, and CC grows by 2^32 (R406, R407). -/
def execRdmaEntryPerform (qp : Nat) (s : State) : Host.Outcome State Fault Refusal :=
  match s.qps.find qp with
  | none => .fault .notEnabled
  | some x =>
    let ls := s.workMissing x x.index
    event (x.running.isNone && decide (x.index < s.counter x.kid x.pc) && !s.paused && (x.stopped || (s.mayRead ls && !s.anyClaimed (s.entryLinesOf x x.index))))
      (if x.stopped then (s.bumpCc x (2 ^ 32)).setQp qp { x with index := x.index + 1 }
       else if !ls.isEmpty then s.ask x.kid ls
       else s.performWork qp x x.index)

/-- RDMA_ENTRY_COMPLETE: the entry under way is complete at the remote end and CC grows by 1, or it has failed with a code
of R406 (R404, R406). -/
def execRdmaEntryComplete (qp : Nat) (code : BitVec 7) (s : State) : Host.Outcome State Fault Refusal :=
  match s.qps.find qp with
  | none => .fault .notEnabled
  | some x => match x.running with
    | none => .fault .notEnabled
    | some i =>
      event (code ≤ 6)
        (if code = 0 then (s.bumpCc x 1).setQp qp { x with running := none, index := i + 1 } else s.failEntry qp x i code x.wrid)

/-! ## Incoming data (R405) -/

/-- Data in pieces of at most 4 KiB, with their places. -/
def chunksOf : Nat → Nat → List Byte → List (Nat × List Byte)
  | 0, _, _ => []
  | n + 1, o, bs => if bs.isEmpty then [] else (o, bs.take 4096) :: chunksOf n (o + 4096) (bs.drop 4096)

/-- Apply incoming bytes at an address, in order; the last piece of a SEND raises RC (R405). -/
def State.landData (s : State) (x : QueuePair) (a : Word64) (bs : List Byte) (rc : Option (Nat × Nat)) : State :=
  let ps := chunksOf (bs.length / 4096 + 1) 0 bs
  (List.zip ps (List.range ps.length)).foldl (fun (s : State) p =>
    s.portWrite x (a + BitVec.ofNat 64 p.1.1) p.1.2 (if p.2 + 1 = ps.length then rc else none)) s

/-- Incoming bytes as they decrypt here (R403): their plaintext where both ends hold the same key under the job's key ID, with the
destination's virtual address as the tweak of each 128-byte unit. -/
def State.openPayload (s : State) (kid : Nat) (a : Word64) (key : BitVec 512) (bs : List Byte) : List Byte :=
  if s.keyOf kid = key then bs
  else ((List.range ((bs.length + 127) / 128)).map fun j =>
    let u := (bs.drop (128 * j)).take 128
    (bytesOf 128 (s.decipher kid (a.toNat % 2 ^ 57 / 128 + j) key (BitVec.ofNat 1024 (ofBytes u))).toNat).take u.length).flatten

/-- RDMA_INCOMING: data from the remote end is applied as commits of at most 4 KiB, in message order (R405). SEND payloads
fill the driver's receive buffers in order, at their place in the message, and RC rises by 1 after the last commit of each. -/
def execRdmaIncoming (r : RdmaIn) (s : State) : Host.Outcome State Fault Refusal :=
  match s.qps.find r.qp with
  | none => .fault .notEnabled
  | some x =>
    if !r.send then .next (s.landData x r.addr (s.openPayload x.kid r.addr r.key r.data) none)
    else match x.recvBufs with
      | [] => .fault .notEnabled
      | b :: t =>
        let rc := if r.last then some (x.kid, s.counterKey x.kid x.rc) else none
        .next ((s.landData x (b + r.addr) (s.openPayload x.kid (b + r.addr) r.key r.data) rc).setQp r.qp { x with recvBufs := if r.last then t else b :: t })

end Sys2Proof.Machine
end

