-- ==== Sys2Proof/Machine/Reduce.lean ====
section
/-!
DEFINITION. Reductions and scans (R206-R208), and `qrnd` (R231).
-/
namespace Sys2Proof.Machine

/-- The active elements of a form S source. -/
def readReduce (cls : Cls) (f : Arith) : Act (Nat × List (Option Nat)) := do
  let w := tyWidth cls f.ty
  let n := 4096 / w
  let a ← readOne cls f n w
  let m ← activeMask
  pure (w, List.zipWith (fun x c => if c then some x else none) a (maskList n m))

/-- A form S result, written by the vector queue (R185). -/
def finishReduce (op : Nat) (f : Arith) (v : Word64) (fl : Flags) : Act Unit := do
  waitOn (0, f.d.toNat)
  enqueueV (beatsOf op f) [.s f.d v] fl

/-- RSUM_I: the exact sum clamped to 64 bits (R206). -/
def execRsumI (f : Arith) (s : State) : Host.Outcome State Fault Refusal :=
  issue (do
    let (w, xs) ← readReduce .i f
    let r := satI (if f.ty.toNat < 4 then 19 else 20)
      (xs.foldl (fun (a : Int) x => match x with
        | some v => a + intVal f.ty w v
        | none => a) 0)
    finishReduce 0x48 f (BitVec.ofInt 64 r.1) r.2) s

/-- The extreme of the active elements, or a default (R206). -/
def extremeI (ty : BitVec 3) (larger : Bool) (w : Nat) (xs : List (Option Nat)) : Int :=
  (xs.foldl (fun (a : Option Int) x => match x, a with
    | some v, some y =>
      let u := intVal ty w v
      some (if larger then (if y < u then u else y) else (if u < y then u else y))
    | some v, none => some (intVal ty w v)
    | none, a => a) none).getD (if larger then minI ty else maxI ty)

/-- RMAX_I (R206). -/
def execRmaxI (f : Arith) (s : State) : Host.Outcome State Fault Refusal :=
  issue (do
    let (w, xs) ← readReduce .i f
    finishReduce 0x4A f (fillS .i f.ty (wrapN w (extremeI f.ty true w xs))) flNone) s
/-- RMIN_I (R206). -/
def execRminI (f : Arith) (s : State) : Host.Outcome State Fault Refusal :=
  issue (do
    let (w, xs) ← readReduce .i f
    finishReduce 0x4C f (fillS .i f.ty (wrapN w (extremeI f.ty false w xs))) flNone) s

/-- One level of `TreeSum` (R207). -/
def treeLevel : List (Option (FVal × FVal)) → List (Option (FVal × FVal))
  | some x :: some y :: t => some (compAdd x y) :: treeLevel t
  | none :: y :: t => y :: treeLevel t
  | x :: none :: t => x :: treeLevel t
  | l => l

/-- `TreeSum` (R207) over 2^k leaves. -/
def treeSum : Nat → List (Option (FVal × FVal)) → Option (FVal × FVal)
  | 0, l => l.headD none
  | k + 1, l => treeSum k (treeLevel l)

/-- The flags of one level of `TreeSum`. -/
def levelFlags : List (Option (FVal × FVal)) → Flags
  | some x :: some y :: t => compAddFlags x y ||| levelFlags t
  | _ :: _ :: t => levelFlags t
  | _ => flNone

/-- The flags of `TreeSum`: every rounding of its nodes sets them (R80, R90, R187). -/
def treeFlags : Nat → List (Option (FVal × FVal)) → Flags
  | 0, _ => flNone
  | k + 1, l => levelFlags l ||| treeFlags k (treeLevel l)

/-- RSUM_F: the fixed tree of CompAdd, and the rounding of its pair (R207). -/
def execRsumF (f : Arith) (s : State) : Host.Outcome State Fault Refusal :=
  issue (do
    let (w, xs) ← readReduce .f f
    let c := floatFmt f.ty
    let k := if w = 16 then 8 else 7
    let l := xs.map fun x => x.map fun v => (decV c v, FVal.zero)
    let r := match treeSum k l with
      | none => (⟨.zero, flNone⟩ : Rounded)
      | some p => roundV c 0 0 (readPair p)
    finishReduce 0x49 f (fillS .f f.ty (encodeFmt c r.q)) (treeFlags k l ||| r.fl)) s

/-- The extreme of float elements (R207): NaN elements only give NaN, no element gives the infinity. -/
def extremeF (larger : Bool) (c : Nat) (xs : List (Option Nat)) : FVal :=
  (xs.foldl (fun (a : Option FVal) x => match x, a with
    | some v, some y => some (pickV larger y (decV c v))
    | some v, none => some (decV c v)
    | none, a => a) none).getD (.inf larger)

/-- RMAX_F (R207). -/
def execRmaxF (f : Arith) (s : State) : Host.Outcome State Fault Refusal :=
  issue (do
    let (_, xs) ← readReduce .f f
    finishReduce 0x4B f (fillS .f f.ty (encodeFmt (floatFmt f.ty) (extremeF true (floatFmt f.ty) xs))) flNone) s
/-- RMIN_F (R207). -/
def execRminF (f : Arith) (s : State) : Host.Outcome State Fault Refusal :=
  issue (do
    let (_, xs) ← readReduce .f f
    finishReduce 0x4D f (fillS .f f.ty (encodeFmt (floatFmt f.ty) (extremeF false (floatFmt f.ty) xs))) flNone) s

/-- Running integer sums; inactive elements contribute nothing (R208). -/
def scanInts (w : Nat) : Nat → List Nat → List Bool → List Nat
  | acc, x :: t, c :: tc =>
    let y := if c then (acc + x) % 2 ^ w else acc
    y :: scanInts w y t tc
  | _, _, _ => []

/-- SCAN_I: the inclusive prefix sum, wrapping (R208). -/
def execScanI (f : Arith) (s : State) : Host.Outcome State Fault Refusal :=
  issue (do
    let e ← readElems 0x4E f
    finish 0x4E f e (scanInts e.w 0 e.a e.act) flNone) s

/-- Running compensated sums, each active element rounded to nearest even (R208); the flags of each element are those of its
`CompAdd` and of its rounding (R80, R90, R187). -/
def scanPairs (c : Nat) : FVal × FVal → List Nat → List Bool → List Rounded
  | p, x :: t, m :: tm =>
    let y := (decV c x, FVal.zero)
    let q := if m then compAdd p y else p
    let r := roundV c 0 0 (readPair q)
    (if m then ⟨r.q, compAddFlags p y ||| r.fl⟩ else ⟨.zero, flNone⟩) :: scanPairs c q t tm
  | _, _, _ => []

/-- SCAN_F: the inclusive prefix sum by CompAdd; the scalar form is the element itself and sets no flag (R208). -/
def execScanF (f : Arith) (s : State) : Host.Outcome State Fault Refusal :=
  issue (do
    let e ← readElems 0x4F f
    let c := floatFmt f.ty
    if f.dk then finish 0x4F f e (e.a.map fun x => encodeFmt c (roundV c 0 0 (decV c x)).q) flNone
    else
      let rs := scanPairs c (.zero, .zero) e.a e.act
      finish 0x4F f e (rs.map fun r => encodeFmt c r.q) (flagsOf rs)) s

/-! ## QRND (R231) -/

/-- The points of active elements in order, each dimension's row read where it is first needed. -/
def qrndPoints (seed : BitVec 32) : List ((Nat × Nat) × Bool) → NMap (List Nat) → Act (List Nat)
  | [], _ => pure []
  | (_, false) :: t, rows => do
    let r ← qrndPoints seed t rows
    pure (0 :: r)
  | ((d, i), true) :: t, rows => do
    let row ← match rows.find d with
      | some row => pure row
      | none => weaveRow d
    let r ← qrndPoints seed t (rows.put d row)
    pure (weavePoint row seed d i :: r)

/-- The first dimension that lies outside the table takes fault 0x49 (R231). -/
def qrndCheck (l : List ((Nat × Nat) × Bool)) : Act Unit := do
  let s ← get
  faultIf (4096 < fld s.src.wtab 63 51) 0x4A
  faultIf (l.any fun p => p.2 && decide (fld s.src.wtab 63 51 ≤ p.1.1)) 0x49

/-- Where a window was loaded for one of the dimensions that an operation uses in turn, WIN is left naming that of the last one
(R230): the store holds one window, so a use of another loads it again. -/
def State.lastWindow (s : State) (ds : List Nat) : State :=
  match ds.getLast? with
  | some d => if ds.any fun x => (s.me.weaveGot.find (x / 64)).isSome then
      s.modRegs fun r => { r with wtab := setFld r.wtab 50 45 (d / 64) } else s
  | none => s

/-- QRND: weave points of given dimensions and indices (R231). -/
def execQrnd (f : Arith) (s : State) : Host.Outcome State Fault Refusal :=
  issue (do
    let e ← readElems 0x53 f
    let l := List.zip (List.zip e.a e.b) e.act
    qrndCheck l
    let st ← get
    let xs ← qrndPoints (st.src.wseed.extractLsb' 0 32) l []
    change (·.lastWindow ((l.filter (·.2)).map (·.1.1)))
    finish 0x53 f e xs flNone) s

end Sys2Proof.Machine
end

