-- ==== Sys2Proof/Machine/Service.lean ====
section
/-!
DEFINITION. The service processor and the host's registers (R398, R401, R415, R420-R422), self-test (R426, R427), power
(R428, R429), and the cold reset (R430).
-/
namespace Sys2Proof.Machine

/-! ## Register writes (R371, R398, R415, R421, R422) -/

/-- LOG_MODE_WRITE: a write of LOGCTL (R415). -/
def execLogModeWrite (word : Word64) (s : State) : Host.Outcome State Fault Refusal := .next (s.writeLogctl word)

/-- LOGPTR_WRITE: a write of LOGPTR; grants that waited for LIM may go on (R415, R416). -/
def execLogptrWrite (word : Word64) (s : State) : Host.Outcome State Fault Refusal := .next (s.writeLogptr word)

/-- LOG_DIV_CLEAR: a 1 written to LOGPTR.DIV clears it (R415). -/
def execLogDivClear (s : State) : Host.Outcome State Fault Refusal :=
  .next { s with svc := { s.svc with logptr := setFld s.svc.logptr 63 63 0 } }

/-- FBSTAT_OVF_CLEAR: a 1 written to FBSTAT.OVF clears it (R371). -/
def execFbstatOvfClear (s : State) : Host.Outcome State Fault Refusal := .next { s with svc := { s.svc with ovf := false } }

/-- WINLEN_WRITE (R398). -/
def execWinlenWrite (v : Word64) (s : State) : Host.Outcome State Fault Refusal := .next (s.writeWinlen v)

/-- PKGNUM_WRITE: the one write that PKGNUM accepts, before any task has started; the service processor knows how many packages the
domain has (R13, R422, R430). A later write is ignored. -/
def execPkgnumWrite (n : BitVec 10) (s : State) : Host.Outcome State Fault Refusal :=
  let k := 1 + Config.packages s.resets % 1024
  .next (if s.svc.pkgSet ∨ s.domain ∨ s.nextTask ≠ 1 then s
    else { s with
      svc := { s.svc with pkgnum := n.setWidth 64, pkgSet := true }
      npkg := if n.toNat < k then k else n.toNat + 1 })

/-- A write to a launch ring's register at an offset (R401). -/
def ringWrite (g off : Nat) (word : Word64) (s : State) : Host.Outcome State Fault Refusal :=
  match off with
  | 0x00 =>
    let r := s.ring g
    .next (if r.en then s else s.setRing g { r with base := word &&& 0x000FFFFFFFFFF000 })
  | 0x08 => execLaunchRingEnable g word s
  | 0x10 => execLaunchRingDoorbell g (word.setWidth 32) s
  | 0x20 => if bitAt word 2 then execLaunchRingErrClear g s else .next s
  | _ => .next s

/-- REGISTER_WRITE: a write to a supervisor register over PLDM (48 to 62, R421), or to BAR0 at its offset (R401). Read-only
fields, read-only registers and every other BAR0 offset ignore it (R5, R401). -/
def execRegisterWrite (reg : Nat) (word : Word64) (s : State) : Host.Outcome State Fault Refusal :=
  if reg < 64 then .next ((s.writeSup reg word).getD s)
  else if 0x1000 ≤ reg ∧ reg < 0x1400 then ringWrite ((reg - 0x1000) / 0x40) (reg % 0x40) word s
  else .next s

/-- FIRMWARE_UPDATE: an image, of supervisor firmware and repair maps, waits for the next cold reset (R420). -/
def execFirmwareUpdate (image : List Byte) (s : State) : Host.Outcome State Fault Refusal := .next { s with firmware := image }

/-! ## Self-test (R426, R427) -/

/-- SELF_TEST_REQUEST: a write of STCTL (R426). -/
def execSelfTestRequest (word : Word64) (s : State) : Host.Outcome State Fault Refusal := .next (s.writeStctl word)

/-- Fields of STCTL (R426). -/
def State.stSlice (s : State) : Bool := bitAt s.svc.stctl 62
def State.stDie (s : State) : Nat := fld s.svc.stctl 14 12
def State.stPath (s : State) : Nat := fld s.svc.stctl 11 0

/-- Whether a cluster has an urgent entry (R343). -/
def State.urgentIn (s : State) (cl : Nat) : Bool := (s.cluster cl).listed.any fun e => e.urgent.isSome

/-- The logical cell, not sealed, that a path names. -/
def State.testedCell (s : State) (die path : Nat) : Option Nat :=
  (s.logicalOf die path).filter fun c => !(s.cell c).sealed_

/-- Whether a physical cluster is the one that the swap of the current pause retires (R384). -/
def State.retiring (s : State) (die pclu : Nat) : Bool := s.paused && s.svc.pst != .standby && match s.swaps with
  | (d, cl, _) :: _ => d == die && s.physCluster cl == pclu
  | [] => false

/-- Whether the unit that STCTL names may enter its test (R426): during a pause only the slice that is being retired (R427). -/
def State.mayTest (s : State) : Bool :=
  let die := s.stDie
  let path := s.stPath
  if s.stSlice then
    (!s.paused && (s.die die).spareClusters.contains (path / 64)) || s.retiring die (path / 64)
  else !s.paused && decide (path / 64 < 50 ∧ path % 64 < 34) && match s.testedCell die path with
    | none => true
    | some c => s.cellIdle c && !(s.cell c).sealing && !s.urgentIn (c / 32)

/-- SELF_TEST_START: the unit enters its test once its conditions hold; no task is placed on a cell under test (R426). -/
def execSelfTestStart (s : State) : Host.Outcome State Fault Refusal :=
  let s1 : State := { s with selfTest := some (bit s.stSlice * 2 ^ 15 + s.stDie * 2 ^ 12 + s.stPath) }
  event (bitAt s.svc.stctl 63 && s.selfTest.isNone && s.mayTest)
    (if s.stSlice then s1
     else match s.testedCell s.stDie s.stPath with
      | some c => s1.setCell c { s.cell c with testing := true }
      | none => s1)

/-- A cell after its test (R426): every quad is cache and empty, and its next CMCFG applies. -/
def State.afterTest (s : State) (c : Nat) : State :=
  let s := s.emptyCache c
  let x := s.cell c
  let lo := cellKey c 0
  let mine (l : Nat) : Bool := decide (lo ≤ l * 128 ∧ l * 128 < lo + 2 ^ 18)
  let s : State := { s with
    mem := s.mem.filter fun b => !(decide (lo ≤ b.1 ∧ b.1 < lo + 2 ^ 18))
    poison := s.poison.filter fun l => !mine l
    lineKey := s.lineKey.filter fun p => !mine p.1 }
  s.setCell c { Cell.reset with
    recvQ := x.recvQ, inject := x.inject, recoveries := x.recoveries, tfSeq := x.tfSeq, sealing := x.sealing }

/-- The pool after the test of a physical cell (R426): a pass may be unsealed, a failed spare leaves the pool, a failed
logical cell is sealed. -/
def State.judgeCell (s : State) (die path : Nat) (pass : Bool) : State :=
  let d := s.die die
  if pass then s.setDie die { d with tested := path :: d.tested.filter (· != path) }
  else
    let s := s.setDie die { d with tested := d.tested.filter (· != path) }
    match s.testedCell die path with
    | some c => s.setCell c { s.cell c with sealing := true }
    | none => s.setDie die ((s.die die).sealPath path)

/-- A test ends with its record (R423, R426). -/
def State.endTest (s : State) (x : Nat) (pass : Bool) : State :=
  let slice := decide (2 ^ 15 ≤ x)
  let die := x / 2 ^ 12 % 8
  let path := x % 2 ^ 12
  let cls := if pass then 3 else 4
  let s : State := { s with selfTest := none }
  let s := if slice then s.errorRecord ⟨0, cls, 2, die, path / 64, 0, 0, 0, 0⟩
    else s.errorRecord ⟨0, cls, 0, die, path / 64, path % 64, 0, 0, 0⟩
  let s : State := { s with svc := { s.svc with stctl := setFld s.svc.stctl 63 63 0 } }
  if slice then
    if pass then s
    else s.setDie die { s.die die with spareClusters := (s.die die).spareClusters.filter (· != path / 64) }
  else
    let s := match s.testedCell die path with
      | some c => s.afterTest c
      | none => s
    s.judgeCell die path pass

/-- The logical cell under test, if the test is one of such a cell. -/
def State.cellUnderTest (s : State) : Option Nat := match s.selfTest with
  | some x => if 2 ^ 15 ≤ x then none else s.testedCell (x / 2 ^ 12 % 8) (x % 2 ^ 12)
  | none => none

/-- An urgent entry in the cluster of a cell under test stops the test, as soon as it appears: no record is written, and GO stays for a
later attempt (R427). A cell whose seal has been requested goes on with its test. -/
def State.urgentStops (s : State) : State := match s.cellUnderTest with
  | some c => if s.urgentIn (c / 32) ∧ !(s.cell c).sealing then ({ s with selfTest := none } : State).afterTest c else s
  | none => s

/-- Whether the cycles of the current test go on: they stop with a pause, but for the slice that the pause's swap retires (R427). -/
def State.testRuns (s : State) (x : Nat) : Bool :=
  !s.paused || (decide (2 ^ 15 ≤ x) && s.retiring (x / 2 ^ 12 % 8) (x / 64 % 64))

/-- SELF_TEST_COMPLETE: the test ends with a pass or a failure, which is free here (R426), unless an urgent entry stops it (R427). -/
def execSelfTestComplete (s : State) : Host.Outcome State Fault Refusal :=
  match s.selfTest with
  | none => .fault .notEnabled
  | some x =>
    let pass := Config.choice s.moment % 2 == 1
    let s : State := { s with moment := s.moment + 1 }
    event (s.testRuns x) (if s.urgentStops.selfTest.isNone then s.urgentStops else s.endTest x pass)

/-! ## Power (R428, R429) -/

/-- STANDBY_REQUEST: REQ = 1 (R429). -/
def execStandbyRequest (s : State) : Host.Outcome State Fault Refusal := .next (s.writePwrctl (setFld s.svc.pwrctl 1 0 1))

/-- STANDBY_ENTRY: with REQ = 1 and no live launch the compute dies' clocks stop (R429). -/
def execStandbyEntry (s : State) : Host.Outcome State Fault Refusal :=
  event (fld s.svc.pwrctl 1 0 == 1 && !s.anyLive && s.svc.pst != .standby && !s.paused &&
      !(s.rings.any fun p => p.2.en && p.2.examine))
    { s with paused := true, svc := { s.svc with pst := .standby } }

/-- RUN_REQUEST: REQ = 0 returns the package to Run, or abandons the entry (R429). -/
def execRunRequest (s : State) : Host.Outcome State Fault Refusal := .next (s.writePwrctl (setFld s.svc.pwrctl 1 0 0))

/-- BUB after a comparison (R428): LIMIT is clamped to 1,000 W to 3,200 W. -/
def nextBub (pwrctl : Word64) (bub power temp : Nat) : Nat :=
  let l := fld pwrctl 47 32
  let limit := if l < 1000 then 1000 else if 3200 < l then 3200 else l
  let tmax := fld pwrctl 31 24
  if limit < power ∨ tmax < temp then (if 192 < bub + 8 then 192 else bub + 8)
  else if power + 100 < limit ∧ temp + 5 < tmax then bub - 4
  else bub

/-- POWER_CHECK: every 1 ms of DT the measured power and temperature, which are free here, are compared with their limits
(R428). -/
def execPowerCheck (s : State) : Host.Outcome State Fault Refusal :=
  let (power, temp) := Config.measured s.moment
  event (decide (s.lastPower + 1000000 ≤ s.dt))
    { s with
      moment := s.moment + 1
      lastPower := s.lastPower + 1000000
      svc := { s.svc with power := power, temp := temp, bub := nextBub s.svc.pwrctl s.svc.bub power.toNat temp.toNat } }

/-! ## The cold reset (R430) -/

/-- Everything at its reset value; the host's memory, what waits outside and what has left, the clocks and a stored firmware
image are not the package's to lose. The stored image takes effect, and its bytes stand in local HBM (R420); key ID 0 gets its fresh key. -/
def State.coldStart (s : State) : State :=
  let n := s.resets + 1
  { State.reset with
    moment := s.moment, cyc := s.cyc, dt := s.dt, inputs := s.inputs, outside := s.outside, outs := s.outs, firmware := s.firmware
    image := s.firmware
    resets := n
    mem := memWriteN (s.mem.filter fun b => decide (hostKey 0 ≤ b.1 ∧ b.1 < remoteKey 0 0)) (Config.firmwarePlace % 2 ^ 39)
      (s.firmware.take (2 ^ 38))
    keys := [(0, (.installed, Config.freshKey n))]
    hdmBase := Config.hdmBase n % 2 ^ 40 * 4096
    lastMig := s.cyc, lastCheck := s.dt, lastPower := s.dt }

/-- The repair maps and the self-tests of a die (R430): cells that the maps name or that fail are sealed, a cluster whose slice the maps
name or that fails gives way to a spare. -/
def State.testDie (n : Nat) (s : State) (die : Nat) : State :=
  let good (x : Nat) : Bool := Config.selfTest n (die * 2 ^ 13 + x) && !Config.repaired s.image (die * 2 ^ 13 + x)
  let paths := ((List.range 50).map fun c => (List.range 34).map (c * 64 + ·)).flatten
  let d := (paths.filter fun p => !good p).foldl Die.sealPath (s.die die)
  let d := { d with spareClusters := d.spareClusters.filter fun c => good (2 ^ 12 + c) }
  let d := (List.range 48).foldl (fun (d : Die) c =>
    if good (2 ^ 12 + c) then d
    else match d.spareClusters with
      | [] => d
      | x :: t => { d with spareClusters := t, clusterMap := d.clusterMap.put c x }) d
  s.setDie die d

/-- A logical cell whose physical cell failed its test or is named by the repair maps takes a spare, or stays sealed (R378, R430). -/
def State.bringUpCell (s : State) (cell : Nat) : State :=
  let pclu := s.physCluster (cell / 32)
  if (s.die (cell / 1536)).sealedCells.contains (pclu * 64 + s.physCell cell) then
    match s.takeSpare cell pclu with
    | some s => s
    | none => s.setCell cell { s.cell cell with sealed_ := true }
  else s

/-- COLD_RESET: rails and firmware, key ID 0, HBM and the self-tests, and the supervisor firmware starts on the four cores of
every die supervisor cell (R430). The service processor then writes PKGNUM and WINLEN, and the package joins its domain, by
events of their own. -/
def execColdReset (s : State) : Host.Outcome State Fault Refusal :=
  let s1 := s.coldStart
  let s2 := (List.range 8).foldl (State.testDie s1.resets) s1
  let s3 := (List.range 12288).foldl State.bringUpCell s2
  .next ((List.range 32).foldl (fun (s : State) j => s.startFirmware (firstSup + j)) s3)

end Sys2Proof.Machine
end

