-- ==== Sys2Proof/Machine/Streams.lean ====
section
/-!
DEFINITION. Stream registers (R112-R116, R173-R176): binding, release, queries, and the stream unit's fetch ahead and drain.
-/
namespace Sys2Proof.Machine

/-- A count of a stream descriptor (R112, R116): the field itself, or the loop register it names; none where that does not
exist or holds too much. -/
def streamCount (r : Regs) (lcf : Bool) (c : Nat) : Option Nat :=
  if !lcf then some c
  else if c = 3 ∨ 4 ≤ c then none
  else
    let v := (r.lc.get ⟨c % 3, Nat.mod_lt _ (by decide)⟩).toNat
    if 2 ^ 32 ≤ v then none else some v

/-- A stream descriptor as a binding, or none where its format is illegal (R112, R116). -/
def State.bindStream (s : State) (bs : List Byte) : Option Stream :=
  let w (j : Nat) : Word64 := BitVec.ofNat 64 (ofBytes ((bs.drop (8 * j)).take 8))
  let r := s.src
  let lcf := fld (w 3) 18 16
  let pane := fld (w 3) 22 20
  match streamCount r (bitAt (w 3) 16) (fld (w 2) 47 32), streamCount r (bitAt (w 3) 17) (fld (w 2) 63 48),
      streamCount r (lcf / 4 == 1) (fld (w 3) 15 0) with
  | some c0, some c1, some c2 =>
    let scl := if pane = 0 then 0 else fld (s.paneReg pane) 9 8
    if fld (w 3) 63 26 ≠ 0 ∨ 4 ≤ fld (w 3) 25 23 then none
    else if scl ≠ 0 ∧ (fld (w 1) 31 0 ≠ 1 ∨ c0 % 32 ≠ 0 ∨ fld (w 0) 17 0 % 32 ≠ 0) then none
    else some { base := w 0, s0 := BitVec.ofNat 32 (fld (w 1) 31 0), s1 := BitVec.ofNat 32 (fld (w 1) 63 32),
                s2 := BitVec.ofNat 32 (fld (w 2) 31 0), c0 := c0, c1 := c1, c2 := c2, esz := fld (w 3) 25 23,
                pane := pane, write := bitAt (w 3) 19, pos := 0, ahead := 0, buf := 0, bid := s.regs.nextId }
  | _, _, _ => none

/-- STRM (R173). -/
def strmAct (f : MF) : Act Unit := do
  let a ← addrM f 32
  checkAlign a 32
  let bs ← chunkRead a 32
  let s ← get
  match s.bindStream bs with
  | none => raise 0x50
  | some st => onRegs fun r => { r.setStream f.x.toNat (some st) with nextId := r.nextId + 1 }

/-- STRM: bind a stream register (R173). -/
def execStrm (f : MF) (s : State) : Host.Outcome State Fault Refusal := issue (strmAct f) s

/-- A query of a stream register (R176). -/
def strmqAct (f : TF) (g : State → Stream → Nat) : Act Unit := do
  let s ← get
  writeS f.x (BitVec.ofNat 64 (match s.regs.stream f.y.toNat with
    | none => 0
    | some st => g s st))

/-- STRMQ.left: elements left (R176). -/
def execStrmqLeft (f : TF) (s : State) : Host.Outcome State Fault Refusal :=
  issue (strmqAct f fun _ st => st.total - st.pos) s
/-- STRMQ.pos: elements popped or pushed (R176). -/
def execStrmqPos (f : TF) (s : State) : Host.Outcome State Fault Refusal := issue (strmqAct f fun _ st => st.pos) s
/-- STRMQ.state: 1 for a read stream, 2 for a write stream (R176). -/
def execStrmqState (f : TF) (s : State) : Host.Outcome State Fault Refusal :=
  issue (strmqAct f fun _ st => if st.write then 2 else 1) s
/-- STRMQ.regs: registers' worth left (R176). -/
def execStrmqRegs (f : TF) (s : State) : Host.Outcome State Fault Refusal :=
  issue (strmqAct f fun s st => (st.total - st.pos + s.perReg st - 1) / s.perReg st) s

/-- STRMX: release a stream register (R175). -/
def execStrmx (f : TF) (s : State) : Host.Outcome State Fault Refusal :=
  issue (onRegs fun r => if 24 ≤ f.y.toNat then r.setStream f.y.toNat none else r) s

/-- The lines that the register's worth from position p of a read stream touches, those that can be located now (R95,
R115): what cannot raises nothing before a pop. -/
def State.streamLines (s : State) (st : Stream) (p : Nat) : List Nat :=
  let n := s.perReg st
  let m := if st.total - p < n then st.total - p else n
  if st.pane = 0 then
    ((List.range m).map fun j => match locate s (s.ctx s.cur) .read (st.addr (p + j)) (2 ^ st.esz) with
      | .ok ps => ps.map (·.1 / 128)
      | .error _ => []).flatten
  else
    match paneTarget (s.ctx s.cur) st.base with
    | none => []
    | some cell =>
      let d := s.paneReg st.pane
      let q : Pane := { fmt := fld d 4 0, scl := fld d 9 8, base := fld d 45 28, sbase := fld d 63 46, rfmt := 0,
                        cell := cell, addr := st.base }
      ((List.range m).map fun j =>
        let e := ((fld st.base 17 0 : Int) + st.offset (p + j)).toNat
        let (bit, sb) := q.place e
        let lines (b : Nat) : List Nat := match s.cellByte cell b with
          | .ok k => if b < 2 ^ 18 then [k / 128] else []
          | .error _ => []
        lines (bit / 8) ++ lines ((bit + (fmtOf q.fmt).w - 1) / 8) ++ (if q.scl = 0 then [] else lines sb)).flatten

/-- A registers' worth of a read stream arrives ahead of use (R95, R115): its lines enter the running chunk's read
signature. -/
def execStreamPrefetchArrival (core q : Nat) (s : State) : Host.Outcome State Fault Refusal :=
  let s := { s with cur := core }
  match s.me.run, s.regs.stream (24 + q % 8) with
  | some _, some st =>
    let p := st.pos + st.ahead * s.perReg st
    let ls := s.streamLines st p
    event (!s.paused && q < 8 && !st.write && st.ahead < 4 && p < st.total)
      ((s.modChunk fun k => { k with rsig := ls.foldl sigAdd k.rsig }).modRegs
        fun r => r.setStream (24 + q % 8) (some { st with ahead := st.ahead + 1 }))
  | _, _ => .fault .notEnabled

/-- The stream unit drains one register's worth of pushes from its buffer (R115). -/
def execStreamPushDrain (core q : Nat) (s : State) : Host.Outcome State Fault Refusal :=
  match (s.core core).regs.stream (24 + q % 8) with
  | some st => event (!s.paused && q < 8 && 0 < st.buf)
      (s.modCore core fun c => { c with regs := c.regs.setStream (24 + q % 8) (some { st with buf := st.buf - 1 }) })
  | none => .fault .notEnabled

end Sys2Proof.Machine
end

