-- ==== Sys2Proof/Machine/System.lean ====
section
/-!
DEFINITION. `creg` (R299, R300) and the six `sys` functions as instructions (R320): checks at issue and what their chunk holds
for its grant.
-/
namespace Sys2Proof.Machine

/-- Whether every operation the core has issued has completed, copy commands excepted (R78). -/
def State.quiet (s : State) : Bool :=
  let c := s.me
  c.regs.vq.isEmpty && c.regs.mq.isEmpty && c.regs.flights.isEmpty && c.atomicOut.isNone &&
    (c.pend.all fun k => k.atomic.isNone) && c.regs.slots.toList.all (·.st != .fetching)

/-- Whether an operation still under way will set flags of FSTAT (R78): a vector operation, an `mread`, a fold whose operands were
popped through a pane, a load through a pane. -/
def Regs.flagsDue (r : Regs) : Bool :=
  !r.vq.isEmpty || r.flights.any (·.flags != 0) || r.mq.any fun o => o.flags != 0 || match o.kind with
    | .read _ _ _ _ => true
    | _ => false

/-- CREG read (R299, R300). -/
def cregRdAct (f : TF) : Act Unit := do
  let s ← get
  let num := f.f7.toNat % 64
  if 48 ≤ num then
    faultIf (!s.supervisor) 0x04
    let held := (match s.me.pend with
      | some k => k.held
      | none => []) ++ s.chunk.held
    match (s.applySup held).readSup num with
    | none => raise 0x07
    | some v => writeS f.x v
  else
    waitIf (num = 4 && !s.quiet) .vq
    match s.readCreg s.cur num with
    | none => raise 0x07
    | some v => do
      let v ← if num = 0 ∨ num = 1 ∨ num = 8 then loggedValue 3 v else pure v
      writeS f.x v

/-- CREG_RD: read a control register (R299). -/
def execCregRd (f : TF) (s : State) : Host.Outcome State Fault Refusal := issue (cregRdAct f) s

/-- CREG write (R299, R300). A write of a package-wide register acts with its chunk's grant, so that a squash undoes it
(R126). A write of FSTAT follows the flags of every earlier instruction (R185). -/
def cregWrAct (f : TF) : Act Unit := do
  let s ← get
  let num := f.f7.toNat % 64
  faultIf (48 ≤ num && !s.supervisor) 0x04
  let v ← readS f.y f.yw
  if 48 ≤ num then
    match s.writeSup num v with
    | none => raise 0x07
    | some _ => hold (.sup num v)
  else
    waitIf (num = 4 && s.regs.flagsDue) .vq
    match s.regs.writeCreg num v with
    | none => raise 0x07
    | some _ => onRegs fun r => (r.writeCreg num v).getD r

/-- CREG_WR: write a control register (R299). -/
def execCregWr (f : TF) (s : State) : Host.Outcome State Fault Refusal := issue (cregWrAct f) s

/-! ## System functions -/

/-- The completion counter of a `sys` function (R320): zero, or an aligned counter below ECCOUNT. -/
def sysCounter (z : Word64) : Act Unit := do
  let s ← get
  let c := s.ctx s.cur
  faultIf (z != 0 && (apertureOf z != 0xFFD || z.toNat % 8 != 0 || fld z 51 23 != 0 || decide (c.ecCount ≤ fld z 22 3))) 0x08

/-- Format of PPATH (R320). -/
def ppathBad (x : Word64) : Bool := fld x 63 15 != 0 || decide (49 < fld x 11 6) || decide (33 < fld x 5 0)
/-- Format of TLBARG (R320). -/
def tlbargBad (y : Word64) : Bool := fld y 63 32 != 0 || (fld y 31 12 == 0 && !bitAt y 10)
/-- Format of a key ID operand (R320). -/
def keyidBad (x : Word64) : Bool := x == 0 || decide (1023 < x.toNat)

/-- A `sys` function at issue (R320): supervisor only, operand formats, held until the grant. -/
def sysAct (f : TF) (usesY : Bool) (bad : Word64 → Word64 → Bool) : Act Unit := do
  let s ← get
  faultIf (!s.supervisor) 0x04
  let x ← readS f.x f.xw
  let y ← if usesY then readS f.y f.yw else pure 0
  let z ← readS f.z f.zw
  faultIf (bad x y) 0x08
  sysCounter z
  hold (.sys f.f7.toNat x y z)

/-- SEAL (R320). -/
def execSeal (f : TF) (s : State) : Host.Outcome State Fault Refusal := issue (sysAct f false fun x _ => ppathBad x) s
/-- UNSEAL (R320). -/
def execUnseal (f : TF) (s : State) : Host.Outcome State Fault Refusal := issue (sysAct f false fun x _ => ppathBad x) s
/-- HOOPDROP (R320). -/
def execHoopdrop (f : TF) (s : State) : Host.Outcome State Fault Refusal := issue (sysAct f false fun _ _ => false) s
/-- TLBINV (R320). -/
def execTlbinv (f : TF) (s : State) : Host.Outcome State Fault Refusal := issue (sysAct f true fun _ y => tlbargBad y) s
/-- KEYSET (R320). -/
def execKeyset (f : TF) (s : State) : Host.Outcome State Fault Refusal :=
  issue (sysAct f true fun x y => keyidBad x || y.toNat % 64 != 0) s
/-- KEYRET (R320). -/
def execKeyret (f : TF) (s : State) : Host.Outcome State Fault Refusal := issue (sysAct f false fun x _ => keyidBad x) s

end Sys2Proof.Machine
end

