-- ==== Sys2Proof/Machine/Dispatch.lean ====
section
/-!
DEFINITION. One arm per constructor: each instruction and event runs its own meaning.
-/
namespace Sys2Proof.Machine

def exec (i : Instr) (s : State) : Host.Outcome State Fault Refusal :=
  match i with
  | .nop p => Sys2Proof.Machine.execNop p s
  | .blk f => Sys2Proof.Machine.execBlk f s
  | .xlit f lit => Sys2Proof.Machine.execXlit f lit s
  | .cut p => Sys2Proof.Machine.execCut p s
  | .span n => Sys2Proof.Machine.execSpan n s
  | .setm f => Sys2Proof.Machine.execSetm f s
  | .setrm f => Sys2Proof.Machine.execSetrm f s
  | .setrmMode f => Sys2Proof.Machine.execSetrmMode f s
  | .setrmImm f => Sys2Proof.Machine.execSetrmImm f s
  | .setlc f => Sys2Proof.Machine.execSetlc f s
  | .setlcImm f => Sys2Proof.Machine.execSetlcImm f s
  | .jmp f => Sys2Proof.Machine.execJmp f s
  | .jtab f => Sys2Proof.Machine.execJtab f s
  | .bs f => Sys2Proof.Machine.execBs f s
  | .bm f => Sys2Proof.Machine.execBm f s
  | .loop f => Sys2Proof.Machine.execLoop f s
  | .lds f => Sys2Proof.Machine.execLds f s
  | .sts f => Sys2Proof.Machine.execSts f s
  | .ldv f => Sys2Proof.Machine.execLdv f s
  | .stv f => Sys2Proof.Machine.execStv f s
  | .ldp f => Sys2Proof.Machine.execLdp f s
  | .stp f => Sys2Proof.Machine.execStp f s
  | .gath f => Sys2Proof.Machine.execGath f s
  | .scat f => Sys2Proof.Machine.execScat f s
  | .ldx f => Sys2Proof.Machine.execLdx f s
  | .ldreq f => Sys2Proof.Machine.execLdreq f s
  | .strm f => Sys2Proof.Machine.execStrm f s
  | .strmqLeft f => Sys2Proof.Machine.execStrmqLeft f s
  | .strmqPos f => Sys2Proof.Machine.execStrmqPos f s
  | .strmqState f => Sys2Proof.Machine.execStrmqState f s
  | .strmqRegs f => Sys2Proof.Machine.execStrmqRegs f s
  | .strmx f => Sys2Proof.Machine.execStrmx f s
  | .cpy f => Sys2Proof.Machine.execCpy f s
  | .tfetch f => Sys2Proof.Machine.execTfetch f s
  | .htest f => Sys2Proof.Machine.execHtest f s
  | .hcancel f => Sys2Proof.Machine.execHcancel f s
  | .wfence p => Sys2Proof.Machine.execWfence p s
  | .ldh f => Sys2Proof.Machine.execLdh f s
  | .sth f => Sys2Proof.Machine.execSth f s
  | .mma f => Sys2Proof.Machine.execMma f s
  | .mmas f => Sys2Proof.Machine.execMmas f s
  | .mzero f => Sys2Proof.Machine.execMzero f s
  | .mreadF32 f => Sys2Proof.Machine.execMreadF32 f s
  | .mreadBf16 f => Sys2Proof.Machine.execMreadBf16 f s
  | .mreadF16 f => Sys2Proof.Machine.execMreadF16 f s
  | .mreadSum f => Sys2Proof.Machine.execMreadSum f s
  | .mreadErr f => Sys2Proof.Machine.execMreadErr f s
  | .msave f => Sys2Proof.Machine.execMsave f s
  | .mrest f => Sys2Proof.Machine.execMrest f s
  | .accaddF32 f => Sys2Proof.Machine.execAccaddF32 f s
  | .accaddI32 f => Sys2Proof.Machine.execAccaddI32 f s
  | .wload f => Sys2Proof.Machine.execWload f s
  | .wseed f => Sys2Proof.Machine.execWseed f s
  | .wseedH f => Sys2Proof.Machine.execWseedH f s
  | .cregRd f => Sys2Proof.Machine.execCregRd f s
  | .cregWr f => Sys2Proof.Machine.execCregWr f s
  | .seal f => Sys2Proof.Machine.execSeal f s
  | .unseal f => Sys2Proof.Machine.execUnseal f s
  | .hoopdrop f => Sys2Proof.Machine.execHoopdrop f s
  | .tlbinv f => Sys2Proof.Machine.execTlbinv f s
  | .keyset f => Sys2Proof.Machine.execKeyset f s
  | .keyret f => Sys2Proof.Machine.execKeyret f s
  | .tspawn f => Sys2Proof.Machine.execTspawn f s
  | .tspawnc f => Sys2Proof.Machine.execTspawnc f s
  | .suspend f => Sys2Proof.Machine.execSuspend f s
  | .done p => Sys2Proof.Machine.execDone p s
  | .evinc f => Sys2Proof.Machine.execEvinc f s
  | .rgrab f => Sys2Proof.Machine.execRgrab f s
  | .send f => Sys2Proof.Machine.execSend f s
  | .recv f => Sys2Proof.Machine.execRecv f s
  | .recvPoll f => Sys2Proof.Machine.execRecvPoll f s
  | .fatomAdd f => Sys2Proof.Machine.execFatomAdd f s
  | .fatomMin f => Sys2Proof.Machine.execFatomMin f s
  | .fatomMax f => Sys2Proof.Machine.execFatomMax f s
  | .fatomSwap f => Sys2Proof.Machine.execFatomSwap f s
  | .fatomCas f => Sys2Proof.Machine.execFatomCas f s
  | .fatomAnd f => Sys2Proof.Machine.execFatomAnd f s
  | .fatomOr f => Sys2Proof.Machine.execFatomOr f s
  | .cbr f => Sys2Proof.Machine.execCbr f s
  | .hoopj f => Sys2Proof.Machine.execHoopj f s
  | .hoopqRes f => Sys2Proof.Machine.execHoopqRes f s
  | .hoopqEpoch f => Sys2Proof.Machine.execHoopqEpoch f s
  | .hoopqArr f => Sys2Proof.Machine.execHoopqArr f s
  | .hoopqState f => Sys2Proof.Machine.execHoopqState f s
  | .hoopqReply core value => Sys2Proof.Machine.execHoopqReply core value s
  | .shut p => Sys2Proof.Machine.execShut p s
  | .shutv f => Sys2Proof.Machine.execShutv f s
  | .trap f => Sys2Proof.Machine.execTrap f s
  | .addI f => Sys2Proof.Machine.execAddI f s
  | .subI f => Sys2Proof.Machine.execSubI f s
  | .adds f => Sys2Proof.Machine.execAdds f s
  | .subs f => Sys2Proof.Machine.execSubs f s
  | .mulI f => Sys2Proof.Machine.execMulI f s
  | .mulh f => Sys2Proof.Machine.execMulh f s
  | .div f => Sys2Proof.Machine.execDiv f s
  | .rem f => Sys2Proof.Machine.execRem f s
  | .and f => Sys2Proof.Machine.execAnd f s
  | .or f => Sys2Proof.Machine.execOr f s
  | .xor f => Sys2Proof.Machine.execXor f s
  | .andn f => Sys2Proof.Machine.execAndn f s
  | .shl f => Sys2Proof.Machine.execShl f s
  | .shr f => Sys2Proof.Machine.execShr f s
  | .sra f => Sys2Proof.Machine.execSra f s
  | .rsh f => Sys2Proof.Machine.execRsh f s
  | .minI f => Sys2Proof.Machine.execMinI f s
  | .maxI f => Sys2Proof.Machine.execMaxI f s
  | .absI f => Sys2Proof.Machine.execAbsI f s
  | .negI f => Sys2Proof.Machine.execNegI f s
  | .clz f => Sys2Proof.Machine.execClz f s
  | .popc f => Sys2Proof.Machine.execPopc f s
  | .madd f => Sys2Proof.Machine.execMadd f s
  | .ceqI f => Sys2Proof.Machine.execCeqI f s
  | .cneI f => Sys2Proof.Machine.execCneI f s
  | .cltI f => Sys2Proof.Machine.execCltI f s
  | .cleI f => Sys2Proof.Machine.execCleI f s
  | .ceqF f => Sys2Proof.Machine.execCeqF f s
  | .cneF f => Sys2Proof.Machine.execCneF f s
  | .cltF f => Sys2Proof.Machine.execCltF f s
  | .cleF f => Sys2Proof.Machine.execCleF f s
  | .mov f => Sys2Proof.Machine.execMov f s
  | .sel f => Sys2Proof.Machine.execSel f s
  | .mand f => Sys2Proof.Machine.execMand f s
  | .mor f => Sys2Proof.Machine.execMor f s
  | .mxor f => Sys2Proof.Machine.execMxor f s
  | .mnot f => Sys2Proof.Machine.execMnot f s
  | .mpop f => Sys2Proof.Machine.execMpop f s
  | .mfirst f => Sys2Proof.Machine.execMfirst f s
  | .addF f => Sys2Proof.Machine.execAddF f s
  | .subF f => Sys2Proof.Machine.execSubF f s
  | .mulF f => Sys2Proof.Machine.execMulF f s
  | .fma f => Sys2Proof.Machine.execFma f s
  | .fnma f => Sys2Proof.Machine.execFnma f s
  | .minF f => Sys2Proof.Machine.execMinF f s
  | .maxF f => Sys2Proof.Machine.execMaxF f s
  | .absF f => Sys2Proof.Machine.execAbsF f s
  | .negF f => Sys2Proof.Machine.execNegF f s
  | .exp2 f => Sys2Proof.Machine.execExp2 f s
  | .log2 f => Sys2Proof.Machine.execLog2 f s
  | .rcp f => Sys2Proof.Machine.execRcp f s
  | .rsqrt f => Sys2Proof.Machine.execRsqrt f s
  | .cvti f => Sys2Proof.Machine.execCvti f s
  | .cvtf f => Sys2Proof.Machine.execCvtf f s
  | .packi f => Sys2Proof.Machine.execPacki f s
  | .packf f => Sys2Proof.Machine.execPackf f s
  | .widenI f => Sys2Proof.Machine.execWidenI f s
  | .widenF f => Sys2Proof.Machine.execWidenF f s
  | .perm f => Sys2Proof.Machine.execPerm f s
  | .slup f => Sys2Proof.Machine.execSlup f s
  | .sldn f => Sys2Proof.Machine.execSldn f s
  | .zip f => Sys2Proof.Machine.execZip f s
  | .unzip f => Sys2Proof.Machine.execUnzip f s
  | .bcast f => Sys2Proof.Machine.execBcast f s
  | .comp f => Sys2Proof.Machine.execComp f s
  | .rsumI f => Sys2Proof.Machine.execRsumI f s
  | .rsumF f => Sys2Proof.Machine.execRsumF f s
  | .rmaxI f => Sys2Proof.Machine.execRmaxI f s
  | .rmaxF f => Sys2Proof.Machine.execRmaxF f s
  | .rminI f => Sys2Proof.Machine.execRminI f s
  | .rminF f => Sys2Proof.Machine.execRminF f s
  | .scanI f => Sys2Proof.Machine.execScanI f s
  | .scanF f => Sys2Proof.Machine.execScanF f s
  | .dot4 f => Sys2Proof.Machine.execDot4 f s
  | .tsel f => Sys2Proof.Machine.execTsel f s
  | .pmerge f => Sys2Proof.Machine.execPmerge f s
  | .qrnd f => Sys2Proof.Machine.execQrnd f s
  | .vectorArbitration cell => Sys2Proof.Machine.execVectorArbitration cell s
  | .vectorOpComplete core => Sys2Proof.Machine.execVectorOpComplete core s
  | .matrixOpPerform cell => Sys2Proof.Machine.execMatrixOpPerform cell s
  | .weaveWindowLoad core => Sys2Proof.Machine.execWeaveWindowLoad core s
  | .walkComplete cluster walk => Sys2Proof.Machine.execWalkComplete cluster walk s
  | .forwardedAccess r => Sys2Proof.Machine.execForwardedAccess r s
  | .forwardedReply core line data poison => Sys2Proof.Machine.execForwardedReply core line data poison s
  | .ldreqReply core id => Sys2Proof.Machine.execLdreqReply core id s
  | .migrationInterval => Sys2Proof.Machine.execMigrationInterval s
  | .migration m => Sys2Proof.Machine.execMigration m s
  | .retargetRequest r => Sys2Proof.Machine.execRetargetRequest r s
  | .keyRetireComplete kid => Sys2Proof.Machine.execKeyRetireComplete kid s
  | .hostSnoop hpa => Sys2Proof.Machine.execHostSnoop hpa s
  | .carveoutInterval cell => Sys2Proof.Machine.execCarveoutInterval cell s
  | .quadRoleChange cell quad => Sys2Proof.Machine.execQuadRoleChange cell quad s
  | .copyStart cluster => Sys2Proof.Machine.execCopyStart cluster s
  | .copyComplete cluster seq => Sys2Proof.Machine.execCopyComplete cluster seq s
  | .tileFetchComplete core slot => Sys2Proof.Machine.execTileFetchComplete core slot s
  | .streamPrefetchArrival core q => Sys2Proof.Machine.execStreamPrefetchArrival core q s
  | .taskStart core => Sys2Proof.Machine.execTaskStart core s
  | .contextSave core => Sys2Proof.Machine.execContextSave core s
  | .contextResume core => Sys2Proof.Machine.execContextResume core s
  | .chunkTargetReached core => Sys2Proof.Machine.execChunkTargetReached core s
  | .chunkLimitReached core => Sys2Proof.Machine.execChunkLimitReached core s
  | .replayChunkCut core => Sys2Proof.Machine.execReplayChunkCut core s
  | .commitRequest core => Sys2Proof.Machine.execCommitRequest core s
  | .clusterLatchOffer cluster => Sys2Proof.Machine.execClusterLatchOffer cluster s
  | .dieLatchOffer die => Sys2Proof.Machine.execDieLatchOffer die s
  | .packageLatchGrant => Sys2Proof.Machine.execPackageLatchGrant s
  | .farAtomicReply r => Sys2Proof.Machine.execFarAtomicReply r s
  | .remoteAtomicRelease core => Sys2Proof.Machine.execRemoteAtomicRelease core s
  | .combineHoldExpiry => Sys2Proof.Machine.execCombineHoldExpiry s
  | .injectionSend cell => Sys2Proof.Machine.execInjectionSend cell s
  | .messageArrival m => Sys2Proof.Machine.execMessageArrival m s
  | .hostMemWrite hpa data => Sys2Proof.Machine.execHostMemWrite hpa data s
  | .hostMemRead hpa len => Sys2Proof.Machine.execHostMemRead hpa len s
  | .windowPartArrival p => Sys2Proof.Machine.execWindowPartArrival p s
  | .windowBatchRequest win => Sys2Proof.Machine.execWindowBatchRequest win s
  | .wfenceResume core => Sys2Proof.Machine.execWfenceResume core s
  | .hoopJoinArrival j => Sys2Proof.Machine.execHoopJoinArrival j s
  | .voteArrival v => Sys2Proof.Machine.execVoteArrival v s
  | .hoopRoundTimeout slot => Sys2Proof.Machine.execHoopRoundTimeout slot s
  | .hoopdropArrival d => Sys2Proof.Machine.execHoopdropArrival d s
  | .voteResultArrival core tag word => Sys2Proof.Machine.execVoteResultArrival core tag word s
  | .shutterClose gang => Sys2Proof.Machine.execShutterClose gang s
  | .shutterReopen gang => Sys2Proof.Machine.execShutterReopen gang s
  | .launchRecord ring => Sys2Proof.Machine.execLaunchRecord ring s
  | .taskPlacement cluster => Sys2Proof.Machine.execTaskPlacement cluster s
  | .spillReturn cluster => Sys2Proof.Machine.execSpillReturn cluster s
  | .gangReservationExpiry cluster => Sys2Proof.Machine.execGangReservationExpiry cluster s
  | .stealAttempt cluster => Sys2Proof.Machine.execStealAttempt cluster s
  | .sliceExpiry core => Sys2Proof.Machine.execSliceExpiry core s
  | .entryUrgent cluster entry => Sys2Proof.Machine.execEntryUrgent cluster entry s
  | .faultDelivery core => Sys2Proof.Machine.execFaultDelivery core s
  | .faultHoldExpiry core => Sys2Proof.Machine.execFaultHoldExpiry core s
  | .detectedError e => Sys2Proof.Machine.execDetectedError e s
  | .cellSeal ppath => Sys2Proof.Machine.execCellSeal ppath s
  | .clusterSwapCopy die => Sys2Proof.Machine.execClusterSwapCopy die s
  | .clusterSwapResume => Sys2Proof.Machine.execClusterSwapResume s
  | .predictiveCounterCheck => Sys2Proof.Machine.execPredictiveCounterCheck s
  | .laneRetrainDone port => Sys2Proof.Machine.execLaneRetrainDone port s
  | .flitReceive port flit => Sys2Proof.Machine.execFlitReceive port flit s
  | .repairRequestReceive port seq round => Sys2Proof.Machine.execRepairRequestReceive port seq round s
  | .repairParityReceive port seq round parity good => Sys2Proof.Machine.execRepairParityReceive port seq round parity good s
  | .retransmitRequestReceive port seq => Sys2Proof.Machine.execRetransmitRequestReceive port seq s
  | .timingMessage m => Sys2Proof.Machine.execTimingMessage m s
  | .clockTimeout => Sys2Proof.Machine.execClockTimeout s
  | .launchRingDoorbell ring tail => Sys2Proof.Machine.execLaunchRingDoorbell ring tail s
  | .launchRingEnable ring word => Sys2Proof.Machine.execLaunchRingEnable ring word s
  | .launchRingErrClear ring => Sys2Proof.Machine.execLaunchRingErrClear ring s
  | .rdmaEntryPerform qp => Sys2Proof.Machine.execRdmaEntryPerform qp s
  | .rdmaEntryComplete qp code => Sys2Proof.Machine.execRdmaEntryComplete qp code s
  | .rdmaIncoming r => Sys2Proof.Machine.execRdmaIncoming r s
  | .logModeWrite word => Sys2Proof.Machine.execLogModeWrite word s
  | .logptrWrite word => Sys2Proof.Machine.execLogptrWrite word s
  | .logDivClear => Sys2Proof.Machine.execLogDivClear s
  | .fbstatOvfClear => Sys2Proof.Machine.execFbstatOvfClear s
  | .pkgnumWrite n => Sys2Proof.Machine.execPkgnumWrite n s
  | .winlenWrite v => Sys2Proof.Machine.execWinlenWrite v s
  | .selfTestRequest word => Sys2Proof.Machine.execSelfTestRequest word s
  | .selfTestStart => Sys2Proof.Machine.execSelfTestStart s
  | .selfTestComplete => Sys2Proof.Machine.execSelfTestComplete s
  | .standbyRequest => Sys2Proof.Machine.execStandbyRequest s
  | .standbyEntry => Sys2Proof.Machine.execStandbyEntry s
  | .runRequest => Sys2Proof.Machine.execRunRequest s
  | .powerCheck => Sys2Proof.Machine.execPowerCheck s
  | .firmwareUpdate image => Sys2Proof.Machine.execFirmwareUpdate image s
  | .registerWrite reg word => Sys2Proof.Machine.execRegisterWrite reg word s
  | .coldReset => Sys2Proof.Machine.execColdReset s
  | .loadDataArrival core id => Sys2Proof.Machine.execLoadDataArrival core id s
  | .streamPushDrain core q => Sys2Proof.Machine.execStreamPushDrain core q s
  | .tlbInvalidationComplete job => Sys2Proof.Machine.execTlbInvalidationComplete job s
  | .granuleCopyComplete => Sys2Proof.Machine.execGranuleCopyComplete s
  | .backInvalidateSnoopResponse line => Sys2Proof.Machine.execBackInvalidateSnoopResponse line s
  | .illegalEncoding w => Sys2Proof.Machine.execIllegalEncoding w s

end Sys2Proof.Machine
end

