-- ==== Sys2Proof/Machine/Run.lean ====
section
/-!
DEFINITION. One happening of the machine: a bundle of a core from its fetch to the end of it (R131-R133, R146, R235, R290),
an event of the package's own units, something that one of its units has sent another, or something from outside; and
what goes on beside it: the links, the clocks, the parts that their homes have applied.
-/
namespace Sys2Proof.Machine

/-! ## A bundle -/

/-- What a stop does to the current core, as for a word of a bundle: fault, wait, miss or cut. -/
def stopped (e : Stop) (s : State) : State :=
  match e with
  | .fault code addr aux => takeFault code addr aux s
  | .wait n => block n s
  | .miss va acc => blockMiss va acc s
  | .cut => cutBefore s

/-- After both words: the end of the bundle; a task that is to be saved is cut at the first boundary outside a span (R342),
in shutter mode not before the closure (R349). -/
def finishBundle (b : Bundle) (s : State) : State :=
  let t := endBundle b s
  if t.me.saveWhy.isSome && (t.shutGang t.cur).isNone then t.cutNow t.cur else t

/-- The arithmetic word of a bundle after its control word (R133): where it waits or is cut, nothing of the bundle has
happened. -/
def runArith (b : Bundle) (before s : State) : Host.Outcome State Fault Refusal :=
  match b.arith with
  | none => .next (finishBundle b s)
  | some a =>
    match exec a s with
    | .next t => .next (if t.me.phase = .ok then finishBundle b t else unissue before t)
    | .fault r => .fault r
    | .refused r => .refused r

/-- The two words of a decoded bundle on the current core. -/
def runWords (b : Bundle) (s : State) : Host.Outcome State Fault Refusal :=
  match exec b.ctl s with
  | .next t => if t.me.phase = .ok then runArith b s t else .next t
  | .fault r => .fault r
  | .refused r => .refused r

/-- The entry point has been passed (R290). -/
def clearEntry (s : State) : State := s.modRegs fun r => { r with entry := false }

/-- A decoded bundle on the current core. At an entry point anything but a `blk` with MRG = 1 is fault 0x06 before it has any
effect (R290), and so before the privilege check of R146 (log 9). -/
def runDecoded (b : Bundle) (s : State) : Host.Outcome State Fault Refusal :=
  if s.regs.entry then
    if isMerge b.ctl then runWords b (clearEntry s) else .next (takeFault 0x06 0 0 s)
  else runWords b s

/-- Whether the control word of a bundle has the opcode of `blk` and MRG = 1, whatever else it holds (R138, R290). -/
def looksMerge (w : Word64) : Bool := fld w 30 25 == 1 && bitAt w 24

/-- The 64 bits of a bundle on the current core: one that does not decode takes its fault (R146), at an entry point fault 0x06
unless it is a `blk` with MRG = 1 that breaks a rule of its own (R290, log 9). -/
def runWord (w : Word64) (s : State) : Host.Outcome State Fault Refusal :=
  match decode w with
  | .error _ => if s.regs.entry && !looksMerge w then .next (takeFault 0x06 0 0 s) else exec (.illegalEncoding w) s
  | .ok b => runDecoded b s

/-- The state in which core i fetches its next bundle: a chunk is open (R235). -/
def State.atFetch (s : State) (i : Nat) : State := openChunk (beginBundle i s)

/-- The next bundle of core i: fetch, decode, both words. -/
def runBundle (i : Nat) (s : State) : Host.Outcome State Fault Refusal :=
  match fetchAct (s.atFetch i) with
  | .error e => .next (stopped e (s.atFetch i))
  | .ok (w, t) => runWord w t

/-- Whether nothing of the pending chunk's task may run before its grant: it ends the task's turn, waits for a window or a
shutter, or brings registers at its grant (R182, R303, R304, R307, R318, R319). -/
def Chunk.last (k : Chunk) : Bool :=
  (match k.ended with
    | some .suspend | some .done | some .trap | some .shut | some .fence => true
    | _ => false) ||
  (match k.atomic with
    | some (.rgrab _ _) => true
    | _ => false)

/-- Whether the pending chunk of a core lets its next chunk run: there is none, or it is not speculative and not the last
(R238, R360). -/
def Core.pendLets (c : Core) : Bool := match c.pend with
  | none => true
  | some k => !k.last && (match c.spec with
    | some p => p.resolved
    | none => true)

/-- Whether the running chunk of a core may go on, or a new one begin. -/
def State.chunkLets (s : State) (i : Nat) : Bool := match (s.core i).run with
  | none => (s.core i).saveWhy.isNone || (s.shutGang i).isSome
  | some k => k.ended.isNone && k.fault.isNone

/-- Whether the access of core i, served by a walk, waits for one that reached the TLB earlier and has not resumed (R37). -/
def State.behind (s : State) (i : Nat) : Bool :=
  (s.core i).need == .resume && (s.cluster (clusterOf i)).resume.any fun l =>
    l.contains i && (l.takeWhile (· != i)).any fun j => (s.core j).need == .resume

/-- Whether core i can run a bundle now: it has a task that does not wait, and no chunk end is due first (R37, R235, R237,
R418). -/
def State.runnable (s : State) (i : Nat) : Bool :=
  (s.core i).task.isSome && !s.behind i && !s.paused && (s.core i).wait == .none && (s.core i).fault.isNone && (s.core i).pendLets &&
    s.chunkLets i && !s.atTarget i && !s.atLimit i && !s.atReplayLen i

/-- The next bundle of core i, where it can run one. -/
def turnOf (i : Nat) (s : State) : Host.Outcome State Fault Refusal :=
  if s.runnable i then runBundle i s else .fault .notEnabled

/-! ## Events -/

/-- What must stay in order among the things that reach the package or that its units send one another: messages to one core, what
comes to one hoop slot, results to one core, requests for one line, the host's accesses to one line, the data of one queue pair (R254, R309,
R358, R387, R405). Whatever else waits holds nothing back (R388, R390). -/
def mailKey (i : Instr) : Option (Nat × Nat) :=
  match i with
  | .messageArrival m => some (0, m.dst.toNat % 2 ^ 16)
  | .hoopJoinArrival j => some (1, match j.desc with
    | some d => fld (word512 d 1) 11 0
    | none => 0)
  | .voteArrival v => some (1, hrefSlot v.href)
  | .hoopdropArrival d => some (1, hrefSlot d.href)
  | .voteResultArrival core _ _ => some (2, core)
  | .forwardedAccess r => some (3, r.line)
  | .hostMemRead hpa _ | .hostMemWrite hpa _ => some (4, hpa / 128)
  | .rdmaIncoming r => some (5, r.qp)
  | _ => none

/-- Whether something may be delivered after what has come earlier. -/
def mayPass (earlier : List Instr) (i : Instr) : Bool :=
  match mailKey i with
  | none => true
  | some k => !(earlier.any fun e => mailKey e == some k)

/-- Whether a place of the mail may be delivered: nothing earlier must come first. -/
def State.mailFree (s : State) (j : Nat) (i : Instr) : Bool := mayPass (s.mail.take j) i

/-- Deliver the mail at a place. -/
def deliverMail (j : Nat) (s : State) : Host.Outcome State Fault Refusal :=
  match s.mail[j]? with
  | none => .fault .notEnabled
  | some i => if s.mailFree j i then exec i { s with mail := s.mail.take j ++ s.mail.drop (j + 1) } else .fault .notEnabled

/-- Whether a constructor is an event and no word of a bundle. -/
def isEvent (i : Instr) : Bool := (arithOf i).isNone && i.paired.isNone && (match i with
  | .illegalEncoding _ => false
  | _ => true)

/-- The first thing from outside, after some that wait, that can happen now (R388, R390); what is no event is passed over. -/
def takeFrom (s : State) : List Instr → List Instr → Host.Outcome State Fault Refusal
  | _, [] => .fault .notEnabled
  | earlier, i :: t =>
    if !isEvent i then .next { s with inputs := earlier ++ t }
    else if !mayPass earlier i then takeFrom s (earlier ++ [i]) t
    else match exec i { s with inputs := earlier ++ t } with
      | .fault _ => takeFrom s (earlier ++ [i]) t
      | r => r

/-- The next thing that comes from outside. -/
def takeInput (s : State) : Host.Outcome State Fault Refusal := takeFrom s [] s.inputs

/-- The value that a `hoopq` of a core to a slot of this package gets. -/
def State.queryValue (s : State) (core : Nat) : Word64 := match (s.core core).hoopqFlight with
  | some f => s.hoopValue (s.ctx core).kid f.href f.code.toNat
  | none => 0

/-- The events of the package's own units by number, with the unit and the part of it that they concern. -/
def ownEvent (s : State) (k a b : Nat) : Instr :=
  match k with
  | 0 => .vectorArbitration a
  | 1 => .vectorOpComplete a
  | 2 => .matrixOpPerform a
  | 3 => .weaveWindowLoad a
  | 4 => .walkComplete a b
  | 5 => .ldreqReply a b
  | 6 => .migrationInterval
  | 7 => .keyRetireComplete a
  | 8 => .carveoutInterval a
  | 9 => .quadRoleChange a b
  | 10 => .copyStart a
  | 11 => .copyComplete a b
  | 12 => .tileFetchComplete a b
  | 13 => .streamPrefetchArrival a b
  | 14 => .taskStart a
  | 15 => .contextSave a
  | 16 => .contextResume a
  | 17 => .chunkTargetReached a
  | 18 => .chunkLimitReached a
  | 19 => .replayChunkCut a
  | 20 => .commitRequest a
  | 21 => .clusterLatchOffer a
  | 22 => .dieLatchOffer a
  | 23 => .packageLatchGrant
  | 24 => .remoteAtomicRelease a
  | 25 => .combineHoldExpiry
  | 26 => .injectionSend a
  | 27 => .windowBatchRequest a
  | 28 => .wfenceResume a
  | 29 => .hoopRoundTimeout a
  | 30 => .hoopqReply a (s.queryValue a)
  | 31 => .shutterClose a
  | 32 => .shutterReopen a
  | 33 => .launchRecord a
  | 34 => .taskPlacement a
  | 35 => .spillReturn a
  | 36 => .gangReservationExpiry a
  | 37 => .stealAttempt a
  | 38 => .sliceExpiry a
  | 39 => .entryUrgent a b
  | 40 => .faultDelivery a
  | 41 => .faultHoldExpiry a
  | 42 => .cellSeal (BitVec.ofNat 15 a)
  | 43 => .clusterSwapCopy a
  | 44 => .clusterSwapResume
  | 45 => .predictiveCounterCheck
  | 46 => .laneRetrainDone a
  | 47 => .clockTimeout
  | 48 => .rdmaEntryPerform a
  | 49 => .selfTestStart
  | 50 => .selfTestComplete
  | 51 => .standbyEntry
  | 52 => .loadDataArrival a b
  | 53 => .streamPushDrain a b
  | 54 => .tlbInvalidationComplete a
  | 55 => .powerCheck
  | _ => .granuleCopyComplete

/-- One happening: the bundle of the core that is named from outside, or what the free choice names. Only what is possible in
the state has an effect. -/
def happen (s : State) : Host.Outcome State Fault Refusal :=
  match s.turn with
  | some i => turnOf i { s with turn := none }
  | none =>
    match Config.event s.moment with
    | (0, a, _) => turnOf a s
    | (1, a, _) => deliverMail a s
    | (2, _, _) => takeInput s
    | (k + 3, a, b) => exec (ownEvent s k a b) s

/-! ## What goes on beside it -/

/-- Parts that their home must have applied are read back no longer; of those that it may have applied a free choice says
whether it has (R259, R260). -/
def State.prune (s : State) : State :=
  let l := s.winLength
  let left := s.unapplied.filter fun p => decide (s.dt < (p.win + 2) * l)
  match left.find? fun p => decide ((p.win + 1) * l + l / 2 ≤ s.dt) with
  | none => { s with unapplied := left }
  | some q =>
    { s with
      moment := s.moment + 1
      unapplied := if Config.choice s.moment % 2 = 0 then left
        else left.filter fun p => !(p.home == q.home && p.win == q.win) }

/-- A core counts the cycles in which a stream stalls it (R115). -/
def Core.countStalls (c : Core) (n : Nat) : Core :=
  if c.need = .pop ∨ c.need = .push then { c with stalls := c.stalls + BitVec.ofNat 64 n } else c

/-- The virtual time of a job in a cluster rises with the cycles of one of its running cores (R336). -/
def State.countVt (s : State) (n : Nat) (p : Nat × Core) : State :=
  match p.2.task with
  | none => s
  | some t =>
    if t.firmware then s
    else
      let cl := s.cluster (clusterOf p.1)
      s.setCluster (clusterOf p.1)
        { cl with vt := cl.vt.put t.kid (cl.vt.get t.kid 0 + n * (65536 / (s.job t.kid).weight)) }

/-- Working cycles pass, unless the package is paused (R336, R384, R409). -/
def State.work (s : State) : State :=
  if s.paused then s
  else
    let n := Config.cycles s.moment
    let t : State := s.cores.foldl (fun (s : State) p => s.countVt n p) s
    { t with cores := t.cores.map (fun (p : Nat × Core) => (p.1, p.2.countStalls n)), cyc := s.cyc + n }

/-- Nanoseconds of domain time in a step: steering changes the rate by whole nanoseconds, and DT never goes back (R397). -/
def State.nanos (s : State) : Nat :=
  let n : Nat := Config.nanos s.moment
  ((n : Int) + ((n : Int) * s.steer).tdiv 1000000).toNat

/-- The clocks go on (R17, R257, R336). -/
def State.tick (s : State) : State := { s.work with dt := s.dt + s.nanos, moment := s.moment + 1 }

/-- A word of BAR0 as the host reads it (R401): the registers of the 16 launch rings, and zero elsewhere. -/
def State.bar0 (s : State) (off : Nat) : Word64 :=
  if off < 0x1000 ∨ 0x1400 ≤ off then 0
  else
    let r := s.ring ((off - 0x1000) / 0x40)
    match off % 0x40 with
    | 0x00 => r.base
    | 0x08 => r.ctl &&& 0xFF9F
    | 0x10 => r.tail.setWidth 64
    | 0x18 => r.head.setWidth 64
    | 0x20 => BitVec.ofNat 64 (bit r.err * 4 + bit r.held * 2 + bit r.waitp)
    | _ => 0

/-- What a sensor of the management endpoint reads (R420): POWER, TEMP, BUB, and the predictive counters by their numbers, those of the
cells as a fourth kind (R425). -/
def State.sensor (s : State) (n : Nat) : Word64 :=
  match n with
  | 0 => s.svc.power.setWidth 64
  | 1 => s.svc.temp.setWidth 64
  | 2 => BitVec.ofNat 64 s.svc.bub
  | p + 3 => BitVec.ofNat 64 (if p / 2 ^ 32 = 3 then (s.cell (p % 2 ^ 32)).recoveries else s.counters.get p 0)

/-- What the driver does with a queue pair, and what the host reads in BAR0 (R401, R403, R405, R406); what the service processor reads over
PLDM (R420, R421). -/
def State.fromOutside (s : State) : Outside → State
  | .bind qp x => if qp < 4096 ∧ x.port < 8 then s.setQp qp x else s
  | .buffers qp l => match s.qps.find qp with
    | some x => s.setQp qp { x with recvBufs := x.recvBufs ++ l }
    | none => s
  | .restart qp => match s.qps.find qp with
    | some x => s.setQp qp { x with stopped := false }
    | none => s
  | .barRead off => { s with outs := s.outs ++ [.barData off (s.bar0 off)] }
  | .pldmRead reg => { s with outs := s.outs ++ [.pldm ((s.readSup reg).getD 0)] }
  | .sensorRead n => { s with outs := s.outs ++ [.pldm (s.sensor n)] }
  | .fruRead => { s with outs := s.outs ++ [.fru Config.fruData] }

/-- The next of those, if there is one. -/
def State.hearOutside (s : State) : State :=
  match s.outside with
  | [] => s
  | x :: t => ({ s with outside := t } : State).fromOutside x

/-- What waits for lines or room goes on: woken registrations (R306), restarts (R379), transfers of closures (R102). -/
def State.resumeWaiting (s : State) : State :=
  let s := s.wakeCame.restartCame
  s.startTodo ((s.gangs.map (·.2.todo.length)).sum + 1)

/-- What follows every happening: gangs of which every member has been cut begin again (R377), what waits for lines or room goes on, an
urgent entry stops a test (R427), the driver and the host act, timing messages go out (R397), the clocks go on, what stage 0 has then
held for 50 ns leaves (R358, R391), messages leave by their links, applied parts are forgotten. `before` is how many messages had left
before it. -/
def State.settleStep (s : State) (before : Nat) : State :=
  let t := (s.restartGangs.resumeWaiting.urgentStops.hearOutside.sendTiming).tick
  ((t.releaseDue t.holds.length).link before).prune

/-! ## Placing a program's first bundle -/

/-- Where `placeWord` puts a bundle. -/
def placeAt : Nat := 0x1000

/-- The supervisor firmware runs on the first core of die 0's supervisor cell, a bundle stands at its program counter, and
it is that core's turn. It stands for the loading of a program from outside. -/
def State.placeWord (s : State) (w : Word64) : State :=
  let t := (s.startFirmware firstSup).modCore firstSup fun c =>
    { c with regs := { c.regs with pc := BitVec.ofNat 64 placeAt }, src := { c.src with pc := BitVec.ofNat 64 placeAt } }
  { t with
    mem := memWriteN t.mem placeAt (bytesOf 8 w.toNat)
    lineKey := t.lineKey.del (placeAt / 128)
    poison := t.poison.filter (· != placeAt / 128)
    l2 := t.l2.map (fun (p : Nat × List Way) => (p.1, p.2.filter (·.line != placeAt / 128)))
    cells := t.cells.map fun (p : Nat × Cell) => (p.1, { p.2 with cache := p.2.cache.filter (·.line != placeAt / 128) })
    transit := []
    paused := false
    turn := some firstSup }

end Sys2Proof.Machine
end

