-- ==== Sys2Proof/Machine/Step.lean ====
section
/-!
DEFINITION. One step of the machine: one happening of Machine/Run.lean and what goes on beside it. Where the happening that
the free choice names is not possible, only time passes.
-/
namespace Sys2Proof.Machine

/-- One step. -/
def step (s : State) : Host.Outcome State Fault Refusal :=
  match happen s with
  | .next t => .next (t.settleStep s.outs.length)
  | .fault _ => .next (({ s with turn := none } : State).settleStep s.outs.length)
  | .refused r => .refused r

/-- The state with the instruction of a table word stored where the supervisor core of die 0 fetches next, its firmware
running there, and that core's turn (log 7). -/
def State.withFetchWord (s : State) (nbits w : Nat) : State := s.placeWord (tableBundle nbits w)

end Sys2Proof.Machine
end

