-- ==== Sys2Proof/Safety.lean ====
section
/-!
DEFINITION. What counts as a safe state and a safe run: memory in its canonical form, no part of this package's own stores
kept past the time by which its home must have applied it, the registers and the chunks of every core in order, and a machine that
does not stop.
-/
namespace Sys2Proof

/-- Memory is in its canonical form: strictly rising addresses, no listed byte that reads as an unlisted one does. -/
def MemoryOk (s : Machine.State) : Prop := Machine.Memory.wf s.mem = true

/-- No own part is read back once its home must have applied it (R259, R260): window N's parts until (N + 2) × L. -/
def PartsOk (s : Machine.State) : Prop := ∀ p ∈ s.unapplied, s.dt < (p.win + 2) * s.winLength

/-- The registers of a core: the reserved bits of FSTAT read 0 (R78), and at most eight matrix operations are queued (R220). -/
def RegsOk (r : Machine.Regs) : Prop := Machine.fld r.fstat 63 5 = 0 ∧ r.mq.length ≤ 8

/-- A chunk: it has at most 4,096 bundles (R235), with those that its open span is still to execute, of which there is at least
one (R286), and the registers that a squash restores are in order. -/
def ChunkOk (k : Machine.Chunk) : Prop :=
  (match k.span with
    | none => k.n ≤ 4096
    | some m => 0 < m ∧ k.n + m ≤ 4096) ∧ RegsOk k.start

/-- The registers of every core, its running chunk and its pending chunk are in order (R78, R220, R235). -/
def CoresOk (s : Machine.State) : Prop :=
  ∀ i, RegsOk (s.core i).regs ∧ (∀ k, (s.core i).run = some k → ChunkOk k) ∧ ∀ k, (s.core i).pend = some k → ChunkOk k

/-- A run of `n` steps ends in a state: no step of it stops. -/
def RunsFor (n : Nat) (s : Machine.State) : Prop :=
  match n with
  | 0 => True
  | k + 1 => ∃ t, Machine.step s = .next t ∧ RunsFor k t

end Sys2Proof
end

