-- ==== Sys2Proof/Claims.lean ====
section
/-!
DEFINITION. The words in which the claims are stated: a core that is ready for an instruction, and what an instruction has
done where it neither faults nor waits.
-/
namespace Sys2Proof.Claims
open Sys2Proof.Machine

/-- The current core runs a task. -/
def Runs (s : State) : Prop := s.me.task.isSome = true

/-- No load, queued vector operation or queued matrix read is still to write a register (R158, R185, R220). -/
def Settled (s : State) : Prop := ∀ n, s.src.pendingOn n = none

/-- Every scalar and vector register is full (R124). -/
def Full (s : State) : Prop := s.src.sFull = BitVec.allOnes 32 ∧ s.src.vFull = BitVec.allOnes 32

/-- No vector register was bound to a stream before the bundle (R114, R133). -/
def Unbound (s : State) : Prop := ∀ i, s.src.stream i = none

/-- A core that is ready: it runs a task, and its operands can be read at once. -/
def Ready (s : State) : Prop := Runs s ∧ Settled s ∧ Full s ∧ Unbound s

/-- The instruction has been done: its word has not waited and not faulted. -/
def done (s : State) : State := s.modMe fun c => { c with phase := .ok, need := .none }

/-- The value of a mask register: m0 is all ones (R118). -/
def maskVal (s : State) (i : BitVec 3) : MReg := if i = 0 then BitVec.allOnes 1024 else s.src.m.get i.toFin

/-- A source of an arithmetic word as n elements of w bits (R136, R186), of a vector register that no stream is bound to. -/
def source (s : State) (cls : Cls) (ty : BitVec 3) (n w : Nat) (k : BitVec 2) (i : BitVec 5) : List Nat :=
  if k = 0 then elemsN w n (s.src.v.get i.toFin).toNat
  else if k = 1 then List.replicate n ((s.src.s.get i.toFin).toNat % 2 ^ w)
  else if k = 2 then List.replicate n ((s.src.k.get i.toFin).toNat % 2 ^ w)
  else List.replicate n (litBits cls ty s.me.lit i)

/-- The operands of an arithmetic word of form E or T (R136, R186, R138): a scalar form has one element, always active. -/
def operands (op : Nat) (f : Arith) (s : State) : Elems :=
  let inf := aInfo op
  let w := tyWidth inf.cls f.ty
  let n := if f.dk then 1 else 4096 / w
  { n := n, w := w
    act := if f.dk then [true] else maskList n (maskVal s (s.src.msel.extractLsb' 0 3)).toNat
    a := source s inf.cls f.ty n w f.ak f.a
    b := if inf.unary then List.replicate n 0 else source s inf.cls f.ty n w f.bk f.b
    d := if inf.form == .t then
        (if f.dk then [(s.src.s.get f.d.toFin).toNat % 2 ^ w] else elemsN w n (s.src.v.get f.d.toFin).toNat)
      else List.replicate n 0 }

/-- A vector operation stands at the end of the core's vector queue (R127, R185). -/
def queued (beats : Nat) (ws : List RegWrite) (fl : Flags) (s : State) : State :=
  s.modRegs fun r => { r with nextId := r.nextId + 1, vq := r.vq ++
    [{ id := s.regs.nextId, chunk := s.chunk.seq, beats := beats, writes := ws, flags := fl }] }

/-- A scalar result and its flags (R78, R120, R124). -/
def scalarResult (d : BitVec 5) (v : Word64) (fl : Flags) (s : State) : State :=
  s.modRegs fun r => { r.putS d v with fstat := r.fstat ||| fl.setWidth 64 }

/-- The result of an arithmetic word of form E or T: a scalar at once, a vector from the queue, with the inactive elements
of its register kept (R122, R185, R186). -/
def elementResult (op : Nat) (f : Arith) (e : Elems) (res : List Nat) (fl : Flags) (s : State) : State :=
  if f.dk then scalarResult f.d (fillS (aInfo op).cls f.ty (res.headD 0)) fl s
  else queued (beatsOf op f)
    [.v f.d (mergeBits (s.src.v.get f.d.toFin).toNat (packN e.w res) (activeBits e.w e.act))] fl s

/-- An element-by-element instruction: `g` of each active element's operands, and the flags of all of them (R186, R187). -/
def elementwise (op : Nat) (f : Arith) (g : Nat → Nat → Nat → Nat → Nat × Flags) (s : State) : State :=
  let e := operands op f s
  let rs := mapActive (0, flNone) (g e.w) e.act e.a e.b e.d
  elementResult op f e (rs.map (·.1)) (rs.foldl (fun x r => x ||| r.2) flNone) s

/-- A comparison: a scalar 1 or 0, or the active bits of a mask, whose inactive bits stay and whose bits from n up are
cleared (R194). -/
def comparison (op : Nat) (f : Arith) (g : Nat → Nat → Nat → Bool × Flags) (s : State) : State :=
  let e := operands op f s
  let rs := mapActive (false, flNone) (fun a b _ => g e.w a b) e.act e.a e.b e.d
  let fl := rs.foldl (fun x r => x ||| r.2) flNone
  if f.dk then scalarResult f.d (BitVec.ofNat 64 (bit ((rs.map (·.1)).headD false))) fl s
  else
    let i := f.d.extractLsb' 0 3
    queued (beatsOf op f)
      [.m i ((s.src.m.get i.toFin &&& ~~~BitVec.ofNat 1024 (packN 1 (e.act.map bit)) &&& BitVec.ofNat 1024 (2 ^ e.n - 1)) |||
        BitVec.ofNat 1024 (packN 1 (rs.map fun r => bit r.1)))] fl s

/-- The active elements among n (R122). -/
def active (s : State) (n : Nat) : List Bool := maskList n (maskVal s (s.src.msel.extractLsb' 0 3)).toNat

/-- A vector register by number. -/
def vecAt (s : State) (i : Nat) : VReg := s.src.v.get ⟨i % 32, Nat.mod_lt _ (by decide)⟩

/-- A vector result of n elements of w bits, the inactive ones kept (R122, R185). -/
def vectorResult (beats : Nat) (d : BitVec 5) (w : Nat) (act : List Bool) (res : List Nat) (fl : Flags) (s : State) : State :=
  queued beats [.v d (mergeBits (s.src.v.get d.toFin).toNat (packN w res) (activeBits w act))] fl s

/-- The count source of `slup`, `sldn` and `bcast`: 64 bits, unsigned (R205). -/
def countOf (s : State) (f : Arith) : Nat :=
  if f.bk = 1 then (s.src.s.get f.b.toFin).toNat
  else if f.bk = 2 then (s.src.k.get f.b.toFin).toNat
  else litWide s.me.lit f.b

/-- The elements that a reduction takes, those that are not active left out (R206, R207). -/
def reduced (cls : Cls) (f : Arith) (s : State) : List (Option Nat) :=
  let w := tyWidth cls f.ty
  List.zipWith (fun x c => if c then some x else none) (source s cls f.ty (4096 / w) w f.ak f.a) (active s (4096 / w))

/-- A scalar operand at 64 bits of a dot product: a register, a constant, or the literal at 8 bits (R209, R210). -/
def wideSource (s : State) (ty : BitVec 3) (k : BitVec 2) (i : BitVec 5) : Nat :=
  if k = 1 then (s.src.s.get i.toFin).toNat
  else if k = 2 then (s.src.k.get i.toFin).toNat
  else litBits .i ty s.me.lit i

/-- A dot product of groups of four (R209, R210): `prod` gives one product and its flags. -/
def dotResult (op : Nat) (f : Arith) (bw : Nat) (prod : Nat → Nat → Int × Flags) (s : State) : State :=
  if f.dk then
    let r := dotStep ((s.src.s.get f.d.toFin).toNat % 2 ^ 32)
      (List.zipWith prod (elemsN 8 4 (wideSource s f.ty f.ak f.a)) (elemsN bw 4 (wideSource s f.ty f.bk f.b)))
    scalarResult f.d (BitVec.ofInt 64 (signedN 32 r.1)) r.2 s
  else
    let a := source s .i f.ty 512 8 f.ak f.a
    let b := elemsN bw 512 (packN 8 (source s .i f.ty 512 8 f.bk f.b))
    let act := active s 128
    let rs := List.zipWith (fun (x : (List Nat × List Nat) × Nat) c =>
      if c then dotStep x.2 (List.zipWith prod x.1.1 x.1.2) else (0, flNone))
      (List.zip (List.zip (groupsOf 4 128 a) (groupsOf 4 128 b)) (elemsN 32 128 (s.src.v.get f.d.toFin).toNat)) act
    vectorResult (beatsOf op f) f.d 32 act (rs.map (·.1)) (rs.foldl (fun x r => x ||| r.2) flNone) s

/-- The address of a format-M instruction (R140). -/
def addrOf (f : MF) (scale : Nat) (s : State) : Word64 :=
  s.src.s.get f.b.toFin + (if f.p then f.off10.signExtend 64 * BitVec.ofNat 64 scale else f.ext.signExtend 64)

/-- A read is in flight (R158). -/
def flying (ws : List RegWrite) (s : State) : State :=
  s.modRegs fun r => { r with nextId := r.nextId + 1, flights := r.flights ++
    [{ id := s.regs.nextId, chunk := s.chunk.seq, kind := .load, writes := ws, pc := s.src.pc, poison := none, todo := [],
       got := [], dst := 0, code := 0, href := 0 }] }

/-- A read is in flight whose arrival sets flags (R78). -/
def flyingWith (fl : Flags) (ws : List RegWrite) (s : State) : State :=
  s.modRegs fun r => { r with nextId := r.nextId + 1, flights := r.flights ++
    [{ id := s.regs.nextId, chunk := s.chunk.seq, kind := .load, writes := ws, pc := s.src.pc, poison := none, todo := [],
       got := [], dst := 0, code := 0, href := 0, flags := fl }] }

/-- A word that leaves nothing in a queue sets the flags that are due as it issues (R78). -/
def flagged (s : State) : State :=
  if s.me.due = 0 then s
  else (s.modRegs fun r => { r with fstat := r.fstat ||| s.me.due.setWidth 64 }).modMe fun c => { c with due := 0 }

/-- A matrix operation stands at the end of the core's matrix queue (R220). -/
def queuedM (acc : BitVec 2) (stream : Nat) (slots : List Nat) (kind : MOpKind) (s : State) : State :=
  s.modRegs fun r => { r with nextId := r.nextId + 1, mq := r.mq ++
    [{ id := s.regs.nextId, chunk := s.chunk.seq, acc := acc, stream := stream, slots := slots, kind := kind }] }

/-- The runs of bytes of a vector register whose elements are active (R163). -/
def activeRuns (w : Nat) (s : State) : List (Nat × List (BitVec 8)) :=
  runsOf 0 ((elemsN 8 512 (activeBits w (active s (4096 / w)))).map (BitVec.ofNat 8))

/-- The running chunk holds work until its grant (R295). -/
def holding (h : Held) (s : State) : State := s.modChunk fun k => { k with held := k.held ++ [h] }

/-- The bundle ends its chunk (R236). -/
def ending (why : Ended) (s : State) : State := s.modMe fun c => { c with cutAfter := some why }

/-- The running chunk is its core's far atomic (R295, R310). -/
def atomicHeld (a : AtomicOp) (s : State) : State := s.modChunk fun k => { k with atomic := some a }

/-- An address can name a record of 64 bytes: aligned, and every line of it located (R301, R303, R315). -/
def RecordAt (s : State) (a : Word64) : Prop :=
  a.toNat % 64 = 0 ∧ (∃ ps, locate s (s.ctx s.cur) .read a 64 = .ok ps)

/-- The completion counter of a `sys` function: none, or a counter of the supervisor context (R320). -/
def CounterOk (s : State) (z : Word64) : Prop :=
  z = 0 ∨ (apertureOf z = 0xFFD ∧ z.toNat % 8 = 0 ∧ fld z 51 23 = 0 ∧ fld z 22 3 < (s.ctx s.cur).ecCount)

/-- Held bytes that go to lines of this package which the key ID wrote and holds: what they become rests on no key and no home of
another package (R45, R54, R258). -/
def Plain (s : State) (kid : Nat) (m : NMap (BitVec 8 × BitVec 8)) : Prop :=
  ∀ p ∈ groupLines m, isRemote p.1 = false ∧ s.writerOf p.1 kid = kid ∧ ∀ w, s.l2Way p.1 = some w → w.kid = kid

/-- The held bytes are in committed memory, and every byte outside their lines is as it was (R244). -/
def Stored (s t : State) (m : NMap (BitVec 8 × BitVec 8)) : Prop :=
  (∀ p ∈ groupLines m, t.rawLine p.1 = (s.rawLine p.1 &&& ~~~p.2.1) ||| (p.2.2 &&& p.2.1)) ∧
    ∀ a, (groupLines m).find (a / 128) = none → memRead t.mem a = memRead s.mem a

/-- What a commit's signature does to the chunks of a core (R244, R245, R246): a pending chunk that it meets is squashed with its
younger one, a running chunk that it meets alone, the core's registers return to the squashed chunk's start, and any other core
goes on as it was, but that it may stop counting a spin (R345). -/
def Met (w : Sig) (s t : State) (j : Nat) : Prop :=
  (∀ k, (s.core j).pend = some k → k.meets w = true →
    (t.core j).pend = none ∧ (t.core j).run = none ∧ (t.core j).regs = { k.start with nextId := (s.core j).regs.nextId }) ∧
  (∀ k, meetsOpt w (s.core j).pend = false → (s.core j).run = some k → k.meets w = true →
    (t.core j).pend = (s.core j).pend ∧ (t.core j).run = none ∧
      (t.core j).regs = { k.start with nextId := (s.core j).regs.nextId } ∧
      (t.core j).target = max 64 ((s.core j).target / 2) ∧ (t.core j).clean = 0) ∧
  (meetsOpt w (s.core j).pend = false → meetsOpt w (s.core j).run = false →
    ∃ x, t.core j = { s.core j with spin := x })

end Sys2Proof.Claims
end

