-- ==== Sys2Proof/Certificates/Slice0/Obligations.lean ====
section
/-!
DEFINITION. The statements for the provers, from the numbered rules of spec/.
-/
open Sys2Proof Sys2Proof.Machine Sys2Proof.Claims

/-! ## Control words -/

/-- R271, R272, R283, R284, R277, R273: NOP, XLIT, SETM, SETRM_MODE, SETRM_IMM, SETLC_IMM and JMP complete on every core that
runs a task, whatever its registers hold, and do exactly this: nothing; the bundle's literal; MSEL.SEL; FRM.MODE; FRM's field
bits; a loop register; control goes to the bundle OFF words of 8 bytes after this one. -/
def Obligations.PlainControlWords : Prop :=
  ∀ s : State, Runs s →
    (∀ p, exec (.nop p) s = .next (done (openChunk s))) ∧
    (∀ f lit, exec (.xlit f lit) s = .next (done ((openChunk s).modMe fun c => { c with lit := some (f, lit) }))) ∧
    (∀ f, exec (.setm f) s = .next (done ((openChunk s).modRegs fun r => { r with msel := setFld r.msel 2 0 f.x.toNat }))) ∧
    (∀ f, exec (.setrmMode f) s =
      .next (done ((openChunk s).modRegs fun r => { r with frm := setFld r.frm 2 0 f.y.toNat }))) ∧
    (∀ f, exec (.setrmImm f) s =
      .next (done ((openChunk s).modRegs fun r => { r with frm := f.ext.setWidth 64 &&& 0x0FFF001F }))) ∧
    (∀ f, exec (.setlcImm f) s =
      .next (done ((openChunk s).modRegs fun r => r.setLc (f.x.extractLsb' 0 2) (f.ext.setWidth 64)))) ∧
    (∀ f, exec (.jmp f) s = .next (done ((openChunk s).modMe fun c =>
      { c with next := .jump (s.src.pc + 8 * f.off.signExtend 64) })))

/-- R284, R277, R274, R275: SETRM, SETLC, BS and BM read their registers as they stood before the bundle; a branch whose
condition holds goes to the bundle OFF after this one, otherwise control falls through.
R274: the conditions of BS: equal, not equal, less and not less signed and unsigned, zero, not zero, negative, not
negative, a bit set, a bit clear. -/
def Obligations.RegisterControlWords : Prop :=
  (∀ s : State, Runs s → Settled s → Full s →
      (∀ f, exec (.setrm f) s =
        .next (done ((openChunk s).modRegs fun r => { r with frm := s.src.s.get f.y.toFin &&& 0x0FFF001F }))) ∧
      (∀ f, exec (.setlc f) s =
        .next (done ((openChunk s).modRegs fun r => r.setLc (f.x.extractLsb' 0 2) (s.src.s.get f.y.toFin)))) ∧
      (∀ f, exec (.bs f) s = .next (done ((openChunk s).modMe fun c =>
        { c with next := (if bsTaken f.c (f.f9.toNat % 64) (s.src.s.get f.x.toFin)
            (if f.c.toNat < 8 then s.src.s.get f.y.toFin else 0)
          then .jump (s.src.pc + 8 * f.off.signExtend 64) else .seq) }))) ∧
      (∀ f, exec (.bm f) s = .next (done ((openChunk s).modMe fun c =>
        { c with next := (if bmTaken f.c (1024 >>> (f.f9.toNat % 8)) (maskVal s (f.x.extractLsb' 0 3)).toNat
          then .jump (s.src.pc + 8 * f.off.signExtend 64) else .seq) })))) ∧
  (∀ (n : Nat) (x y : Word64), n < 64 →
      (bsTaken 0 n x y = true ↔ x = y) ∧ (bsTaken 1 n x y = true ↔ x ≠ y) ∧
      (bsTaken 2 n x y = true ↔ x.toInt < y.toInt) ∧ (bsTaken 3 n x y = true ↔ y.toInt ≤ x.toInt) ∧
      (bsTaken 4 n x y = true ↔ x.toNat < y.toNat) ∧ (bsTaken 5 n x y = true ↔ y.toNat ≤ x.toNat) ∧
      (bsTaken 8 n x y = true ↔ x.toNat = 0) ∧ (bsTaken 9 n x y = true ↔ x.toNat ≠ 0) ∧
      (bsTaken 10 n x y = true ↔ x.toInt < 0) ∧ (bsTaken 11 n x y = true ↔ 0 ≤ x.toInt) ∧
      (bsTaken 12 n x y = true ↔ x.toNat / 2 ^ n % 2 = 1) ∧ (bsTaken 13 n x y = true ↔ x.toNat / 2 ^ n % 2 = 0))

/-- R285, R286, R278: CUT ends the chunk after its bundle, where no span is open; SPAN opens a span over the next n bundles, where
none is open, n is 1 to 256, 64 lines are free, and the chunk is empty or has room for them all; LOOP opens a level over the
bundles that follow or, with a count of 0, skips them, where its structure is not one that faults.
R279: a LOOP of fewer than 1 or more than 256 bundles, a fourth level, a level over a loop register that is in use, or
one that does not end inside the level around it takes fault 0x05.
At the end of a bundle whose words are done (R280), where control falls through to the end of the innermost level, its loop register
counts down and control goes back to the level's start, or, on the last pass, is set to 0 and the level closes; elsewhere pc
goes on by one bundle, levels and loop registers as they were. R289, R291: an open block takes the bundle's tokens into its digest;
`done`, `suspend` and `trap` in an open block whose digest is not the expected one have no effect: the chunk is squashed and its
registers return to its start. R235, R286: the chunk counts the bundle, and a span ends with its last one. -/
def Obligations.ChunkAndLoopWords : Prop :=
  (∀ s : State, Runs s →
      ((openChunk s).chunk.span = none →
        (∀ p, exec (.cut p) s = .next (done ((openChunk s).modMe fun c => { c with cutAfter := some .plain }))) ∧
        (∀ n : BitVec 32, 1 ≤ n.toNat → n.toNat ≤ 256 → 64 ≤ (openChunk s).freeLines →
          ((openChunk s).chunk.n = 0 ∨
            (openChunk s).chunk.n + 1 + n.toNat ≤ s.me.target ∧ (openChunk s).chunk.n + 1 + n.toNat ≤ 4096) →
          exec (.span n) s = .next (done ((openChunk s).modChunk fun k =>
            { k with span := some (n.toNat + 1), spanLines := [] })))) ∧
      (∀ f : JF, loopBad s.src.levels (f.c.extractLsb' 0 2) (jTarget s.src.pc f.off) f.off.toInt = false →
        exec (.loop f) s = .next (done (
          if s.src.getLc (f.c.extractLsb' 0 2) = 0 then
            (openChunk s).modMe fun c => { c with next := .skip (jTarget s.src.pc f.off) }
          else (openChunk s).modRegs fun r => { r with levels := r.levels ++
            [{ start := s.src.pc + 8, lcr := f.c.extractLsb' 0 2, len := f.off.toNat - 1 }] })))) ∧
  (∀ (s : State) (f : JF), Runs s →
      (f.off.toInt < 2 ∨ 257 < f.off.toInt ∨ 3 ≤ s.src.levels.length ∨
        (∃ l ∈ s.src.levels, l.lcr = f.c.extractLsb' 0 2) ∨
        (∃ l, s.src.levels.getLast? = some l ∧ 8 * l.len < (jTarget s.src.pc f.off - l.start).toNat)) →
      exec (.loop f) s = .next (takeFault 0x05 0 0 (openChunk s))) ∧
  (∀ (s : State) (b : Bundle), s.me.saveWhy = none → isBlk b.ctl = false →
      let g := foldTokens s.regs.g (bundleTokens b)
      let t := finishBundle b s
      let wrong := endsBlock b.ctl = true ∧ gOpen g = true ∧ gAcc g ≠ gExp g
      (gOpen s.regs.g = false → g = s.regs.g) ∧
      (gOpen s.regs.g = true → gOpen g = true ∧ gExp g = gExp s.regs.g ∧
        gAcc g = (digest (BitVec.ofNat 16 (gAcc s.regs.g)) (bundleTokens b)).toNat) ∧
      (∀ k, wrong → s.me.run = some k →
        (t.core s.cur).run = none ∧ (t.core s.cur).pend = s.me.pend ∧
          (t.core s.cur).regs = { k.start with nextId := s.regs.nextId }) ∧
      (¬ wrong → s.me.cutAfter = none →
        t.mem = s.mem ∧ (∀ j, j ≠ s.cur → t.core j = s.core j) ∧ t.regs.g = g ∧ t.me.need = .none ∧
        (∃ k, t.me.run = some k ∧ k.n = s.chunk.n + 1 ∧ k.stores = s.chunk.stores ∧ k.start = s.chunk.start ∧
          (s.chunk.span = none → k.span = none) ∧ (s.chunk.span = some 1 → k.span = none) ∧
          (∀ m, s.chunk.span = some (m + 2) → k.span = some (m + 1))) ∧
        (s.me.next = .seq →
          (s.regs.levels = [] → t.regs.pc = s.regs.pc + 8 ∧ t.regs.levels = [] ∧ t.regs.lc = s.regs.lc) ∧
          (∀ ls l, s.regs.levels = ls ++ [l] →
            (l.stop ≠ s.regs.pc + 8 → t.regs.pc = s.regs.pc + 8 ∧ t.regs.levels = ls ++ [l] ∧ t.regs.lc = s.regs.lc) ∧
            (l.stop = s.regs.pc + 8 → 2 ≤ (s.regs.getLc l.lcr).toNat →
              t.regs.pc = l.start ∧ t.regs.levels = ls ++ [l] ∧ t.regs.getLc l.lcr = s.regs.getLc l.lcr - 1) ∧
            (l.stop = s.regs.pc + 8 → (s.regs.getLc l.lcr).toNat ≤ 1 → (∀ o, ls.getLast? = some o → o.stop ≠ s.regs.pc + 8) →
              t.regs.pc = s.regs.pc + 8 ∧ t.regs.levels = ls ∧ t.regs.getLc l.lcr = 0)))))

/-- R276: JTAB with an index past the table goes to the bundle OFF after this one; otherwise, where the word at T + 8 × i is
aligned and can be read, control goes to the address it holds, which must be an entry point.
R288: a `blk` whose block has closed as its exit check expects, and whose signature is right, opens the new block: OPEN,
EXP = DIG, ACC = 0 and SIG. R291: one that meets a mismatch is a detected error of its chunk. -/
def Obligations.TableJumpAndBlockWords : Prop :=
  (∀ (s : State) (f : JF), Runs s → Settled s → Full s →
      (f.f9.toNat + 1 ≤ (s.src.s.get f.x.toFin).toNat →
        exec (.jtab f) s = .next (done ((openChunk s).modMe fun c =>
          { c with next := .jump (s.src.pc + 8 * f.off.signExtend 64) }))) ∧
      (∀ b t, ¬ f.f9.toNat + 1 ≤ (s.src.s.get f.x.toFin).toNat → (s.src.s.get f.y.toFin).toNat % 8 = 0 →
        chunkRead (s.src.s.get f.y.toFin + 8 * s.src.s.get f.x.toFin) 8 (openChunk s) = .ok (b, t) →
        exec (.jtab f) s = .next (done ((t.modMe fun c => { c with next := .jump (BitVec.ofNat 64 (ofBytes b)) }).modRegs
          fun r => { r with entry := true })))) ∧
  (∀ (s : State) (f : BlkF), Runs s →
      (blkMismatch s.regs.g f = false → exec (.blk f) s = .next (done ((openChunk s).modRegs fun r =>
        { r with g := BitVec.ofNat 64 (2 ^ 44 + f.dig.toNat * 2 ^ 28 + f.sig.toNat) }))) ∧
      (blkMismatch s.regs.g f = true → exec (.blk f) s = .next (detectedInChunk 0 s.cur (openChunk s))))

/-! ## Arithmetic words -/

/-- R191, R192, R197: the element-by-element integer instructions complete on a ready core, whatever their operands: each
active element gets exactly this of its operands, and the flags that it names. -/
def Obligations.IntegerElementwise : Prop :=
  ∀ (s : State) (f : Arith), Ready s →
    let t := openChunk s
    let v := intVal f.ty
    exec (.addI f) s = .next (done (elementwise 0x00 f (fun w a b _ => (wrapN w (v w a + v w b), flNone)) t)) ∧
    exec (.subI f) s = .next (done (elementwise 0x01 f (fun w a b _ => (wrapN w (v w a - v w b), flNone)) t)) ∧
    exec (.adds f) s = .next (done (elementwise 0x02 f (fun w a b _ => clamped f.ty w (v w a + v w b)) t)) ∧
    exec (.subs f) s = .next (done (elementwise 0x03 f (fun w a b _ => clamped f.ty w (v w a - v w b)) t)) ∧
    exec (.mulI f) s = .next (done (elementwise 0x04 f (fun w a b _ => (wrapN w (v w a * v w b), flNone)) t)) ∧
    exec (.mulh f) s = .next (done (elementwise 0x05 f
      (fun w a b _ => (wrapN w ((v w a * v w b) / ((2 ^ w : Nat) : Int)), flNone)) t)) ∧
    exec (.div f) s = .next (done (elementwise 0x06 f (fun w a b _ => divResult f.ty w (v w a) (v w b)) t)) ∧
    exec (.rem f) s = .next (done (elementwise 0x07 f (fun w a b _ => remResult f.ty w (v w a) (v w b)) t)) ∧
    exec (.and f) s = .next (done (elementwise 0x08 f (fun _ a b _ => (a &&& b, flNone)) t)) ∧
    exec (.or f) s = .next (done (elementwise 0x09 f (fun _ a b _ => (a ||| b, flNone)) t)) ∧
    exec (.xor f) s = .next (done (elementwise 0x0A f (fun _ a b _ => (a ^^^ b, flNone)) t)) ∧
    exec (.andn f) s = .next (done (elementwise 0x0B f (fun w a b _ => (a &&& (2 ^ w - 1 - b), flNone)) t)) ∧
    exec (.shl f) s = .next (done (elementwise 0x0C f (fun w a b _ => ((a <<< (b % w)) % 2 ^ w, flNone)) t)) ∧
    exec (.shr f) s = .next (done (elementwise 0x0D f (fun w a b _ => (a >>> (b % w), flNone)) t)) ∧
    exec (.sra f) s = .next (done (elementwise 0x0E f
      (fun w a b _ => (wrapN w (signedN w a / ((2 ^ (b % w) : Nat) : Int)), flNone)) t)) ∧
    exec (.minI f) s = .next (done (elementwise 0x10 f (fun w a b _ => (if v w b < v w a then b else a, flNone)) t)) ∧
    exec (.maxI f) s = .next (done (elementwise 0x11 f (fun w a b _ => (if v w a < v w b then b else a, flNone)) t)) ∧
    exec (.absI f) s = .next (done (elementwise 0x12 f (fun w a _ _ => (wrapN w ((v w a).natAbs : Int), flNone)) t)) ∧
    exec (.negI f) s = .next (done (elementwise 0x13 f (fun w a _ _ => (wrapN w (-(v w a)), flNone)) t)) ∧
    exec (.clz f) s = .next (done (elementwise 0x14 f (fun w a _ _ => (if a = 0 then w else w - 1 - a.log2, flNone)) t)) ∧
    exec (.popc f) s = .next (done (elementwise 0x15 f (fun w a _ _ => (popN w a, flNone)) t)) ∧
    exec (.madd f) s = .next (done (elementwise 0x16 f (fun w a b d => (wrapN w (v w d + v w a * v w b), flNone)) t)) ∧
    exec (.mov f) s = .next (done (elementwise 0x20 f (fun _ a _ _ => (a, flNone)) t))

/-- R194, R195: the comparisons complete on a ready core; an ordered float comparison that meets a NaN gives false and NV,
an unordered `cne` true. -/
def Obligations.Comparisons : Prop :=
  ∀ (s : State) (f : Arith), Ready s →
    let t := openChunk s
    let v := intVal f.ty
    let nan := fun (a b : Nat) => (decV (floatFmt f.ty) a).isNan || (decV (floatFmt f.ty) b).isNan
    let x := fun (a : Nat) => decV (floatFmt f.ty) a
    exec (.ceqI f) s = .next (done (comparison 0x18 f (fun w a b => (v w a == v w b, flNone)) t)) ∧
    exec (.cneI f) s = .next (done (comparison 0x19 f (fun w a b => (v w a != v w b, flNone)) t)) ∧
    exec (.cltI f) s = .next (done (comparison 0x1A f (fun w a b => (decide (v w a < v w b), flNone)) t)) ∧
    exec (.cleI f) s = .next (done (comparison 0x1B f (fun w a b => (decide (v w a ≤ v w b), flNone)) t)) ∧
    exec (.ceqF f) s = .next (done (comparison 0x1C f
      (fun _ a b => if nan a b then (false, flNone) else (eqV (x a) (x b), flNone)) t)) ∧
    exec (.cneF f) s = .next (done (comparison 0x1D f
      (fun _ a b => if nan a b then (true, flNone) else (!eqV (x a) (x b), flNone)) t)) ∧
    exec (.cltF f) s = .next (done (comparison 0x1E f
      (fun _ a b => if nan a b then (false, flNV) else (ltV (x a) (x b), flNone)) t)) ∧
    exec (.cleF f) s = .next (done (comparison 0x1F f
      (fun _ a b => if nan a b then (false, flNV) else (ltV (x a) (x b) || eqV (x a) (x b), flNone)) t))

/-- R196: the mask instructions act on all 1,024 bits, and read m0 as all ones; `mpop` and `mfirst` count into a scalar
register through the vector queue. At 64 bits (R191): on scalar registers ADD_I, SUB_I, MUL_I, AND, OR and XOR of i64 or u64 leave in
their destination the 64-bit sum, difference, product, conjunction, disjunction and exclusive or of their sources. -/
def Obligations.MaskAndScalarWords : Prop :=
  ∀ (s : State) (f : Arith), Ready s →
    (f.dk = true → f.ak = 1 → f.bk = 1 → (f.ty = 3 ∨ f.ty = 7) →
      let a := s.src.s.get f.a.toFin
      let b := s.src.s.get f.b.toFin
      let gives := fun (i : Instr) (x : Word64) => ∃ t, exec i s = .next t ∧ t.me.phase = .ok ∧ t.regs.s.get f.d.toFin = x
      gives (.addI f) (a + b) ∧ gives (.subI f) (a - b) ∧ gives (.mulI f) (a * b) ∧ gives (.and f) (a &&& b) ∧
        gives (.or f) (a ||| b) ∧ gives (.xor f) (a ^^^ b)) ∧
    let t := openChunk s
    let a := maskVal s (f.a.extractLsb' 0 3)
    let b := maskVal s (f.b.extractLsb' 0 3)
    let d : BitVec 3 := f.d.extractLsb' 0 3
    exec (.mand f) s = .next (done (t.modRegs fun r => r.putM d (a &&& b))) ∧
    exec (.mor f) s = .next (done (t.modRegs fun r => r.putM d (a ||| b))) ∧
    exec (.mxor f) s = .next (done (t.modRegs fun r => r.putM d (a ^^^ b))) ∧
    exec (.mnot f) s = .next (done (t.modRegs fun r => r.putM d (~~~a))) ∧
    exec (.mpop f) s = .next (done (queued (beatsOf 0x26 f) [.s f.d (BitVec.ofNat 64 (popN 1024 a.toNat))] flNone t)) ∧
    exec (.mfirst f) s = .next (done (queued (beatsOf 0x27 f) [.s f.d (BitVec.ofNat 64 (firstN 1024 a.toNat))] flNone t))

/-- R198, R200: the float instructions that round once complete on a ready core wherever their rounding can be made: every
active element's exact value, rounded under FRM, with the invalid operations' NaN and NV. -/
def Obligations.FloatRounded : Prop :=
  ∀ (s t : State) (f : Arith) (res : List Nat) (fl : Flags), Ready s →
    let o := openChunk s
    let zn := fld s.src.frm 2 0 == 2
    let rounds := fun (i : Instr) (op : Nat) (g : FVal → FVal → FVal → FVal × Flags) =>
      let e := operands op f o
      let c := floatFmt f.ty
      let vs := mapActive (FVal.zero, flNone) (fun a b d => g (decV c a) (decV c b) (decV c d)) e.act e.a e.b e.d
      roundActive e.act s.src.frm false c (vs.map (·.1)) o = .ok ((res, fl), t) →
        exec i s = .next (done (elementResult op f e res (vs.foldl (fun x v => x ||| v.2) fl) t))
    rounds (.addF f) 0x28 (fun a b _ => orInvalid (addV zn a b)) ∧
    rounds (.subF f) 0x29 (fun a b _ => orInvalid (addV zn a b.neg)) ∧
    rounds (.mulF f) 0x2A (fun a b _ => orInvalid (mulV a b)) ∧
    rounds (.fma f) 0x2B (fun a b d => fmaV zn false a b d) ∧
    rounds (.fnma f) 0x2C (fun a b d => fmaV zn true a b d) ∧
    rounds (.exp2 f) 0x31 (fun a _ _ => exp2Fn a) ∧
    rounds (.log2 f) 0x32 (fun a _ _ => log2Fn a) ∧
    rounds (.rcp f) 0x33 (fun a _ _ => rcpFn a) ∧
    rounds (.rsqrt f) 0x34 (fun a _ _ => rsqrtFn a)

/-- R80, R82, R83: a rounding can always be made where FRM names none of the two stochastic modes, or where the instruction takes
mode 0b110 as nearest even: each value rounds by itself and the state stays. In mode 0b110 the values round in order through the
residue register, once no `mread` is queued that draws on the residues, and until then the operation waits. In mode 0b101, with the
dimension in the table, its window held and readable, the values take consecutive indices of SIDX as the bundle's control word has
left it, or the run that their operation has reserved already, where it rounds elements more than once.
The model's own readings that this rests on: log 16 and log 54 (the SIDX that a reservation starts from, and how a run is numbered). -/
def Obligations.RoundingModes : Prop :=
  ∀ (s : State) (frm : Word64) (keep : Bool) (c : Nat) (xs : List (FVal × Nat)),
    let mode := fld frm 2 0
    (mode ≠ 5 → (mode ≠ 6 ∨ keep = false) →
      roundAll frm keep c xs s = .ok (xs.map fun x => roundV c mode 0 x.1, s)) ∧
    (mode = 6 → keep = true → s.regs.mq.any (fun o => match o.kind with
        | .read rd _ f _ => (rd == 1 || rd == 2) && fld f 2 0 == 6
        | _ => false) = true → roundAll frm keep c xs s = .error (.wait .mq)) ∧
    (mode = 6 → keep = true → s.regs.mq.any (fun o => match o.kind with
        | .read rd _ f _ => (rd == 1 || rd == 2) && fld f 2 0 == 6
        | _ => false) = false →
      roundAll frm keep c xs s = .ok ((roundFeedback c (s.regs.e.get (rsel frm)) xs).1,
        s.modRegs fun r => { r with e := r.e.set (rsel frm).val (roundFeedback c (s.regs.e.get (rsel frm)) xs).2 (rsel frm).isLt })) ∧
    (∀ row t, mode = 5 → xs ≠ [] → weaveRow (fld frm 27 16) s = .ok (row, t) →
      let i := fld t.regs.sidx 31 0
      let seed := t.src.wseed.extractLsb' 0 32
      let drawn := fun (js : List Nat) =>
        List.zipWith (fun j (x : FVal × Nat) => roundV c 5 (weavePoint row seed (fld frm 27 16) (j % 2 ^ 32)) x.1) js xs
      (t.me.draws = [] → roundAll frm keep c xs s = .ok (drawn ((List.range xs.length).map (i + ·)),
        t.modRegs fun r => { r with sidx := setFld r.sidx 31 0 (i + xs.length) })) ∧
      (t.me.draws ≠ [] → roundAll frm keep c xs s = .ok (drawn (t.me.draws.take xs.length),
        t.modMe fun c => { c with draws := c.draws.drop xs.length })))

/-- R199, R211, R205, R208: `min`, `max`, `abs` and `neg` of floats, SEL, PMERGE, SCAN_I and SCAN_F complete on a ready core
without any rounding under FRM; the compensated sums of SCAN_F set the flags of all their roundings.
The model's own readings that this rests on: log 54 (the sign of a zero that the compensated sums of SCAN_F and PMERGE leave). -/
def Obligations.ExactElementWords : Prop :=
  ∀ (s : State) (f : Arith), Ready s →
    let t := openChunk s
    let c := floatFmt f.ty
    exec (.minF f) s = .next (done (elementwise 0x2D f
      (fun _ a b _ => (encodeFmt c (pickV false (decV c a) (decV c b)), flNone)) t)) ∧
    exec (.maxF f) s = .next (done (elementwise 0x2E f
      (fun _ a b _ => (encodeFmt c (pickV true (decV c a) (decV c b)), flNone)) t)) ∧
    exec (.absF f) s = .next (done (elementwise 0x2F f (fun _ a _ _ => (encodeFmt c (decV c a).abs, flNone)) t)) ∧
    exec (.negF f) s = .next (done (elementwise 0x30 f (fun _ a _ _ => (encodeFmt c (decV c a).neg, flNone)) t)) ∧
    (let e := operands 0x21 f t;
      exec (.sel f) s = .next (done (elementResult 0x21 f { e with act := List.replicate e.n true }
        (List.zipWith (fun (p : Nat × Nat) c => if c then p.1 else p.2) (List.zip e.a e.b) (active s e.n)) flNone t))) ∧
    (let e := operands 0x4E f t;
      exec (.scanI f) s = .next (done (elementResult 0x4E f e (scanInts e.w 0 e.a e.act) flNone t))) ∧
    (let e := operands 0x4F f t
      let rs := scanPairs c (.zero, .zero) e.a e.act
      exec (.scanF f) s = .next (done (
        if f.dk then elementResult 0x4F f e (e.a.map fun x => encodeFmt c (roundV c 0 0 (decV c x)).q) flNone t
        else elementResult 0x4F f e (rs.map fun r => encodeFmt c r.q) (flagsOf rs) t))) ∧
    (let e := operands 0x52 f t
      let act := everyOther true e.act
      let rs := List.zipWith (fun (x : (Nat × Nat) × Nat × Nat) c =>
        if c then
          let r := mergePair (decV 17 x.1.1) (decV 17 x.1.2) (decV 17 x.2.1) (decV 17 x.2.2)
          ([encodeFmt 17 r.1, encodeFmt 17 r.2.1], r.2.2)
        else ([0, 0], flNone)) (List.zip (pairUp e.a) (pairUp e.b)) act
      exec (.pmerge f) s = .next (done (elementResult 0x52 f { e with act := (act.map fun c => [c, c]).flatten }
        (rs.map (·.1)).flatten (rs.foldl (fun x r => x ||| r.2) flNone) t)))

/-- R193, R202, R203: RSH, the conversions and the packs complete on a ready core wherever their rounding can be made; a pack
of more than one register reads consecutive registers in interleave order. -/
def Obligations.Conversions : Prop :=
  ∀ (s t : State) (f : Arith) (res : List Nat) (fl : Flags), Ready s →
    let o := openChunk s
    let wi := tyWidth .i f.ty
    let wf := tyWidth .f f.ty
    (let e := operands 0x0F f o
      let vs := List.zipWith (fun a b => (FVal.ofInt (intVal f.ty e.w a)).scale (-((if b < 127 then b else 127 : Nat) : Int)))
        e.a e.b
      roundActive e.act s.src.frm false (intFmt f.ty) vs o = .ok ((res, fl), t) →
        exec (.rsh f) s = .next (done (elementResult 0x0F f e res fl t))) ∧
    (convertElems (active s (4096 / wi)) s.src.frm f.b.toNat (intFmt f.ty) (source o .i f.ty (4096 / wi) wi f.ak f.a) o =
        .ok ((res, fl), t) →
      exec (.cvti f) s = .next (done (vectorResult (beatsOf 0x38 f) f.d wi (active s (4096 / wi)) res fl t))) ∧
    (f.b ≠ 0 →
      convertElems (active s (4096 / wf)) s.src.frm f.b.toNat (floatFmt f.ty) (source o .f f.ty (4096 / wf) wf f.ak f.a) o =
        .ok ((res, fl), t) →
      exec (.cvtf f) s = .next (done (vectorResult (beatsOf 0x39 f) f.d wf (active s (4096 / wf)) res fl t))) ∧
    (∀ rs, f.b = 0 →
      let c := floatFmt f.ty
      let act := active s (4096 / wf)
      let vs := (keepActive act (source o .f f.ty (4096 / wf) wf f.ak f.a)).map fun x => decV c x.1
      roundAll s.src.frm false 19 (vs.map fun v => (rintArg v, 0)) o = .ok (rs, t) →
      exec (.cvtf f) s = .next (done (vectorResult (beatsOf 0x39 f) f.d wf act
        (scatterActive act (List.zipWith (fun v r => encodeFmt c (rintResult v r.q)) vs rs)) (flagsOf rs) t))) ∧
    (let packs := fun (i : Instr) (op : Nat) (cls : Cls) (src w : Nat) =>
      let c := packRatio w f.b.toNat
      let n := 4096 / fmtWidth f.b.toNat
      let xs := if c = 1 then source o cls f.ty n w f.ak f.a
        else interleave c w n ((List.range c).map fun i => vecAt o (f.a.toNat + i))
      (c = 1 ∨ f.a.toNat + c ≤ 32) →
      convertElems (active s n) s.src.frm src f.b.toNat xs o = .ok ((res, fl), t) →
        exec i s = .next (done (vectorResult (beatsOf op f) f.d (fmtWidth f.b.toNat) (active s n) res fl t));
      packs (.packi f) 0x3A .i (intFmt f.ty) wi ∧ packs (.packf f) 0x3B .f (floatFmt f.ty) wf)

/-- R204: widening writes a register pair, result element i in member i mod 2.
R205: the permutes complete on a ready core; inactive elements keep their values, but COMP writes every element. -/
def Obligations.WideningAndPermutes : Prop :=
  (∀ (s : State) (f : Arith), Ready s →
      let o := openChunk s
      let widens := fun (i : Instr) (op : Nat) (cls : Cls) (g : Nat → Nat) =>
        let w := tyWidth cls f.ty
        let act := active s (4096 / w)
        let res := (source o cls f.ty (4096 / w) w f.ak f.a).map g
        let half := fun (d : BitVec 5) (b : Bool) => RegWrite.v d (mergeBits (s.src.v.get d.toFin).toNat
          (packN (2 * w) (everyOther b res)) (activeBits (2 * w) (everyOther b act)))
        f.d.toNat % 2 = 0 →
        exec i s = .next (done (queued (beatsOf op f) [half f.d true, half (f.d + 1) false] flNone o))
      widens (.widenI f) 0x3C .i (fun x => wrapN (2 * tyWidth .i f.ty) (intVal f.ty (tyWidth .i f.ty) x)) ∧
      widens (.widenF f) 0x3D .f (fun x => encodeFmt 17 (decV (floatFmt f.ty) x))) ∧
  (∀ (s : State) (f : Arith), Ready s →
      let o := openChunk s
      let w := tyWidth .w f.ty
      let n := 4096 / w
      let a := source o .w f.ty n w f.ak f.a
      let k := countOf o f
      let two := fun (i : Instr) (op : Nat) (g : Nat → List Nat → List Nat → List Nat) =>
        let e := operands op f o
        exec i s = .next (done (vectorResult (beatsOf op f) f.d e.w e.act (g e.w e.a e.b) flNone o))
      two (.perm f) 0x40 (fun w a b => List.zipWith (fun i c =>
        let g := if a.length < 2 ^ w then a.length else 2 ^ w
        packN w a >>> (w * (i - i % g + c % g)) % 2 ^ w) (List.range a.length) b) ∧
      two (.zip f) 0x43 (fun _ a b => (zipLists a b).take a.length) ∧
      two (.unzip f) 0x44 (fun _ a b => evens a ++ evens b) ∧
      exec (.slup f) s = .next (done (vectorResult (beatsOf 0x41 f) f.d w (active s n)
        (if n ≤ k then List.replicate n 0 else List.replicate k 0 ++ a.take (n - k)) flNone o)) ∧
      exec (.sldn f) s = .next (done (vectorResult (beatsOf 0x42 f) f.d w (active s n)
        (if n ≤ k then List.replicate n 0 else a.drop k ++ List.replicate k 0) flNone o)) ∧
      exec (.bcast f) s = .next (done (vectorResult (beatsOf 0x45 f) f.d w (active s n)
        (List.replicate n (a.getD (k % n) 0)) flNone o)) ∧
      (let e := operands 0x46 f o
        let xs := ((List.zip e.a e.act).filter (·.2)).map (·.1)
        exec (.comp f) s = .next (done (vectorResult (beatsOf 0x46 f) f.d e.w (List.replicate e.n true)
          (xs ++ List.replicate (e.n - xs.length) 0) flNone o))))

/-- R206, R207: the reductions complete on a ready core and give one scalar of the active elements; the float sum sets the flags of
every rounding of its tree (R80, R90).
The model's own readings that this rests on: log 54 (the sign of a zero that the tree's compensated sums leave). -/
def Obligations.Reductions : Prop :=
  ∀ (s : State) (f : Arith), Ready s →
    let o := openChunk s
    let w := tyWidth .i f.ty
    let c := floatFmt f.ty
    let gives := fun (i : Instr) (op : Nat) (v : Word64) (fl : Flags) =>
      exec i s = .next (done (queued (beatsOf op f) [.s f.d v] fl o))
    (let r := satI (if f.ty.toNat < 4 then 19 else 20) ((reduced .i f o).foldl (fun (a : Int) x => match x with
        | some v => a + intVal f.ty w v
        | none => a) 0);
      gives (.rsumI f) 0x48 (BitVec.ofInt 64 r.1) r.2) ∧
    (let k := if tyWidth .f f.ty = 16 then 8 else 7
      let l := (reduced .f f o).map fun x => x.map fun v => (decV c v, FVal.zero)
      let r := match treeSum k l with
        | none => (⟨.zero, flNone⟩ : Rounded)
        | some p => roundV c 0 0 (readPair p);
      gives (.rsumF f) 0x49 (fillS .f f.ty (encodeFmt c r.q)) (treeFlags k l ||| r.fl)) ∧
    gives (.rmaxI f) 0x4A (fillS .i f.ty (wrapN w (extremeI f.ty true w (reduced .i f o)))) flNone ∧
    gives (.rmaxF f) 0x4B (fillS .f f.ty (encodeFmt c (extremeF true c (reduced .f f o)))) flNone ∧
    gives (.rminI f) 0x4C (fillS .i f.ty (wrapN w (extremeI f.ty false w (reduced .i f o)))) flNone ∧
    gives (.rminF f) 0x4D (fillS .f f.ty (encodeFmt c (extremeF false c (reduced .f f o)))) flNone

/-- R209, R210, R231: DOT4 and TSEL complete on a ready core; QRND completes where every active dimension lies in the table
and its points can be drawn, WIN being left at the last one's window where a window has been loaded for it (R230).
The model's own readings that this rests on: log 15. -/
def Obligations.DotProductsAndPoints : Prop :=
  ∀ (s : State) (f : Arith), Ready s →
    let o := openChunk s
    exec (.dot4 f) s = .next (done (dotResult 0x50 f 8 (fun a b => (intVal f.ty 8 a * intVal f.ty 8 b, flNone)) o)) ∧
    exec (.tsel f) s = .next (done (dotResult 0x51 f 2 (fun a b => ((tern b).1 * intVal f.ty 8 a, (tern b).2)) o)) ∧
    (∀ xs t, let e := operands 0x53 f o
      let l := List.zip (List.zip e.a e.b) e.act
      fld s.src.wtab 63 51 ≤ 4096 → (∀ p ∈ l, p.2 = true → p.1.1 < fld s.src.wtab 63 51) →
      qrndPoints (s.src.wseed.extractLsb' 0 32) l [] o = .ok (xs, t) →
      exec (.qrnd f) s = .next (done (elementResult 0x53 f e xs flNone (t.lastWindow ((l.filter (·.2)).map (·.1.1))))))

/-! ## Registers and streams -/

/-- R114, R115, R133, R185: reading a register that was bound to a read stream before the bundle pops one register's worth,
where one has been fetched ahead, and waits where none has; writing one bound to a write stream, through memory or through a pane,
pushes the active elements that the stream still has, and waits where four registers wait to drain; a stream that runs the other way
is fault 0x51, and one at its end fault 0x52.
R124: a scalar or vector source register that is empty makes the bundle wait, and where its W bit is set it takes fault 0x46: as one
read, as an operand of an arithmetic word, and of whole instructions. R108: a handle register is read whether it is full or empty.
The model's own readings that this rests on: log 14. -/
def Obligations.SourceRegisters : Prop :=
  (∀ (s : State) (i : BitVec 5) (st : Stream), s.bound i.toNat = some st →
      let n := s.perReg st
      let pos := if st.pos + n < st.total then st.pos + n else st.total
      (∀ w x t, st.write = false → st.pos < st.total → st.ahead ≠ 0 → st.read s.src.frm n s = .ok (x, t) →
        readV i.toNat w s = .ok (x, t.modRegs fun r => r.moveStream i.toNat { st with pos := pos, ahead := st.ahead - 1 })) ∧
      (∀ w, st.write = false → st.pos < st.total → st.ahead = 0 → readV i.toNat w s = .error (.wait .pop)) ∧
      (∀ w, st.write = true → readV i.toNat w s = .error (.fault 0x51 0 0)) ∧
      (∀ w, st.write = false → st.total ≤ st.pos → readV i.toNat w s = .error (.fault 0x52 0 0)) ∧
      (∀ new bits t, st.write = true → st.pos < st.total → st.buf < 4 → st.pane = 0 →
        ((List.range (if st.total - st.pos < n then st.total - st.pos else n)).forM fun j =>
          if elemN (4096 / n) bits j != 0 then
            chunkWriteBits (st.addr (st.pos + j)) (List.zip (bytesOf (2 ^ st.esz) (elemN (4096 / n) bits j))
              (bytesOf (2 ^ st.esz) (elemN (4096 / n) (BitVec.ofNat 4096 new).toNat j)))
          else pure ()) s = .ok ((), t) →
        vecWrite i new bits s =
          .ok ([], t.modRegs fun r => r.moveStream i.toNat { st with pos := pos, buf := st.buf + 1 })) ∧
      (∀ new bits p es t, st.write = true → st.pos < st.total → st.buf < 4 → st.pane ≠ 0 → st.openPane s = .ok (p, s) →
        st.indices st.pos (if st.total - st.pos < n then st.total - st.pos else n) s = .ok (es, s) →
        p.store s.src.frm (List.zipWith (fun j e =>
          ((e, j % 128, elemN (4096 / n) (BitVec.ofNat 4096 new).toNat j), elemN (4096 / n) bits j != 0))
          (List.range (if st.total - st.pos < n then st.total - st.pos else n)) es) s = .ok ((), t) →
        vecWrite i new bits s =
          .ok ([], t.modRegs fun r => r.moveStream i.toNat { st with pos := pos, buf := st.buf + 1 })) ∧
      (∀ new bits, st.write = true → st.pos < st.total → 4 ≤ st.buf → vecWrite i new bits s = .error (.wait .push)) ∧
      (∀ new bits, st.write = false → vecWrite i new bits s = .error (.fault 0x51 0 0)) ∧
      (∀ new bits, st.write = true → st.total ≤ st.pos → vecWrite i new bits s = .error (.fault 0x52 0 0))) ∧
  (∀ s : State, Settled s →
      let empty := fun (w : Bool) => if w then Stop.fault 0x46 0 0 else .wait .reg
      (∀ (i : BitVec 5) w, readS i w s =
        if s.src.sFull.getLsbD i.toNat then .ok (s.src.s.get i.toFin, s) else .error (empty w)) ∧
      (∀ (i : BitVec 5) w, s.bound i.toNat = none → readV i.toNat w s =
        if s.src.vFull.getLsbD i.toNat then .ok (s.src.v.get i.toFin, s) else .error (empty w)) ∧
      (∀ i : BitVec 5, let r := s.freshH s.cur s.regs (hIdx i)
        readH i s = .ok ((r.h.get (hIdx i), r.hst.get (hIdx i)), s.modRegs fun _ => r)) ∧
      (∀ op (f : Arith), Unbound s →
        (f.bk = 0 → s.src.vFull.getLsbD f.b.toNat = true) →
        (f.ak = 0 → s.src.vFull.getLsbD f.a.toNat = false → readElems op f s = .error (empty f.aw)) ∧
        (f.ak = 1 → s.src.sFull.getLsbD f.a.toNat = false → readElems op f s = .error (empty f.aw))) ∧
      (∀ op (f : Arith), Unbound s → (aInfo op).unary = false → 2 ≤ f.ak.toNat →
        (f.bk = 0 → s.src.vFull.getLsbD f.b.toNat = false → readElems op f s = .error (empty f.bw)) ∧
        (f.bk = 1 → s.src.sFull.getLsbD f.b.toNat = false → readElems op f s = .error (empty f.bw)))) ∧
  (∀ s : State, Runs s → Settled s →
      let o := openChunk s
      let stops := fun (i : Instr) (w : Bool) => exec i s = .next (if w then takeFault 0x46 0 0 o else block .reg o)
      (∀ f : TF, s.src.sFull.getLsbD f.y.toNat = false →
        stops (.setrm f) f.yw ∧ stops (.setlc f) f.yw ∧ (f.f7.toNat % 64 < 48 → stops (.cregWr f) f.yw)) ∧
      (∀ f : TF, s.src.sFull.getLsbD f.x.toNat = false → stops (.wseed f) f.xw) ∧
      (∀ f : Arith, Unbound s → f.ak = 1 → s.src.sFull.getLsbD f.a.toNat = false →
        (f.bk = 0 → s.src.vFull.getLsbD f.b.toNat = true) →
        ∀ i ∈ [Instr.addI f, .subI f, .mulI f, .div f, .and f, .or f, .xor f, .shl f, .addF f, .mulF f, .fma f, .ceqI f, .mov f],
          stops i f.aw) ∧
      (∀ f : MF, s.src.sFull.getLsbD f.b.toNat = false → ∀ i ∈ [Instr.lds f, .ldv f, .sts f, .strm f, .cpy f], stops i f.bw))

/-- R173, R175, R176: STRM binds a register to the stream of a descriptor that can be read and is well formed; STRMQ reads
what is left, what has passed, the direction and the registers left; STRMX releases the register. -/
def Obligations.StreamWords : Prop :=
  ∀ s : State, Runs s → Settled s → Full s →
    (∀ (f : MF) bs t st, (addrOf f 32 s).toNat % 32 = 0 → chunkRead (addrOf f 32 s) 32 (openChunk s) = .ok (bs, t) →
      t.bindStream bs = some st →
      exec (.strm f) s = .next (done (t.modRegs fun r =>
        { r.setStream f.x.toNat (some st) with nextId := r.nextId + 1 }))) ∧
    (∀ f : TF,
      let o := openChunk s
      let get := fun (g : Stream → Nat) => (match s.regs.stream f.y.toNat with
        | none => 0
        | some st => g st)
      let gives := fun (i : Instr) (n : Nat) => exec i s = .next (done (o.modRegs fun r => r.putS f.x (BitVec.ofNat 64 n)))
      gives (.strmqLeft f) (get fun st => st.total - st.pos) ∧
      gives (.strmqPos f) (get fun st => st.pos) ∧
      gives (.strmqState f) (get fun st => if st.write then 2 else 1) ∧
      gives (.strmqRegs f) (get fun st => (st.total - st.pos + o.perReg st - 1) / o.perReg st) ∧
      exec (.strmx f) s = .next (done (o.modRegs fun r =>
        if 24 ≤ f.y.toNat then r.setStream f.y.toNat none else r)))

/-! ## Loads and stores -/

/-- R155, R157, R260: a load of a running chunk from one line of this package that no engine has claimed, that is not in transit,
poisoned, or beyond the line limit of a span, completes: each byte is the chunk's last store to it, else the pending
chunk's, else what the task has stored to it and its home has not yet applied, else the committed byte as the key ID reads it
through its cell (`coreRead`, with the access counted in the cell's samples first, R63). -/
def Obligations.ChunkReadOneLine : Prop :=
  ∀ (s : State) (a : Word64) (n k : Nat), locate s (s.ctx s.cur) .read a n = .ok [(k, n)] → isRemote (k / 128) = false →
    s.claimed (k / 128) = false → s.inTransit (k / 128) = false → s.chunk.span = none →
    let u := (s.modChunk fun c => { c with rsig := sigAdd c.rsig (k / 128) }).sampled (k / 128) false
    let r := u.coreRead s.cur k n
    r.2.2 = false →
    ∃ t, chunkRead a n s = .ok ((List.range n).zipWith
        (fun j b => overlayByte s.chunk.stores s.me.pendStores (k + j) b) (bytesOf n (r.2.1.toNat >>> (8 * (k % 128)))), t) ∧
      t.mem = s.mem ∧ t.chunk.stores = s.chunk.stores ∧ t.chunk.rsig = sigAdd s.chunk.rsig (k / 128)

/-- R155, R235, R240: a store of a running chunk to one line that it may write and hold completes: its bytes are held in the
chunk, the line enters the write signature, and committed memory stays as it was.
R155: what a chunk has stored to whole bytes is what its loads then see, whatever was there. -/
def Obligations.ChunkWriteOneLine : Prop :=
  (∀ (s : State) (a : Word64) (bs : List Byte) (k : Nat), locate s (s.ctx s.cur) .write a bs.length = .ok [(k, bs.length)] →
      s.claimed (k / 128) = false → s.inTransit (k / 128) = false → s.chunk.span = none →
      (s.chunk.ulines.any (·.name == k / 128) = true ∨ (s.placeLine s.cur (k / 128)).isSome = true) →
      ∃ t, chunkWrite a bs s = .ok ((), t) ∧ t.mem = s.mem ∧
        t.chunk.stores = storeBits ((List.range bs.length).zipWith (fun j b => (k + j, (0xFF : BitVec 8), b)) bs) s.chunk.stores ∧
        t.chunk.wsig = sigAdd s.chunk.wsig (k / 128)) ∧
  (∀ (m pend : NMap (BitVec 8 × BitVec 8)) (k : Nat) (bs : List Byte) (j : Nat) (b c : Byte), bs[j]? = some b →
      overlayByte (storeBits ((List.range bs.length).zipWith (fun j b => (k + j, (0xFF : BitVec 8), b)) bs) m) pend (k + j) c = b ∧
      (∀ x, (x < k ∨ k + bs.length ≤ x) →
        overlayByte (storeBits ((List.range bs.length).zipWith (fun j b => (k + j, (0xFF : BitVec 8), b)) bs) m) pend x c =
          overlayByte m pend x c))

/-- R162, R163, R166, R172: the plain loads complete where what they address can be read: the data are in flight to their
destination, extended as the size code says, the inactive elements of a vector kept. -/
def Obligations.PlainLoads : Prop :=
  ∀ s : State, Ready s →
    let o := openChunk s
    (∀ (f : MF) b t, chunkRead (addrOf f (sizeOf_ f.f3) s) (sizeOf_ f.f3) o = .ok (b, t) →
      exec (.lds f) s = .next (done (flying (loadWrites f.f3 f.x b) t))) ∧
    (∀ (f : MF) b t, (addrOf f 8 s).toNat % 8 = 0 → chunkRead (addrOf f 8 s) 8 o = .ok (b, t) →
      exec (.ldh f) s = .next (done (flying [.h (f.x.extractLsb' 0 4) (BitVec.ofNat 64 (ofBytes b))] t))) ∧
    (∀ (f : MF) ps new t,
      let a := addrOf f 64 s
      let w := vecWidth f.f3
      oneAccess a (activeRuns w s) o = .ok ((), o) → locateRuns .read a (activeRuns w s) o = .ok (ps, o) →
      readRuns a (activeRuns w s) ps o = .ok (new, t) →
      exec (.ldv f) s = .next (done (flying [.v f.x (mergeBits (s.src.v.get f.x.toFin).toNat new
        (activeBits w (active s (4096 / w))))] t))) ∧
    (∀ (f : TF) xs t,
      let sz := gatherSize f.f7
      let act := active s (gatherCount f.f7)
      ((keepActive act (gatherAddrs f.f7 (s.src.s.get f.y.toFin) (s.src.v.get f.z.toFin))).mapM fun (p : Word64 × Nat) => do
        let b ← chunkRead p.1 sz
        pure (ofBytes b)) o = .ok (xs, t) →
      exec (.gath f) s = .next (done (flying [.v f.x (mergeBits (s.src.v.get f.x.toFin).toNat
        (packN (8 * sz) (scatterActive act xs)) (activeBits (8 * sz) act))] t)))

/-- R162, R163, R166, R172: the plain stores complete where what they address can be written: only the bytes of active
elements are stored, elements in ascending order. -/
def Obligations.PlainStores : Prop :=
  ∀ s : State, Ready s →
    let o := openChunk s
    (∀ (f : MF) t,
      let x := s.src.s.get f.x.toFin
      chunkWrite (addrOf f (sizeOf_ f.f3) s) (if f.f3 = 7 then bytesOf 8 x.toNat ++ bytesOf 8 (s.src.s.get (f.x + 1).toFin).toNat
        else bytesOf (sizeOf_ f.f3) x.toNat) o = .ok ((), t) →
      exec (.sts f) s = .next (done t)) ∧
    (∀ (f : MF) ps t,
      let a := addrOf f 64 s
      let rs := activeRuns (vecWidth f.f3) s
      oneAccess a rs o = .ok ((), o) → locateRuns .write a rs o = .ok (ps, o) →
      writeRuns a (s.src.v.get f.x.toFin) rs ps o = .ok ((), t) →
      exec (.stv f) s = .next (done t)) ∧
    (∀ (f : TF) t,
      let sz := gatherSize f.f7
      let n := gatherCount f.f7
      let as := gatherAddrs f.f7 (s.src.s.get f.y.toFin) (s.src.v.get f.z.toFin)
      ((keepActive (active s n) (List.zip as (elemsN (8 * sz) n (s.src.v.get f.x.toFin).toNat))).forM fun p =>
        chunkWrite p.1.1 (bytesOf sz p.1.2)) o = .ok ((), t) →
      exec (.scat f) s = .next (done t)) ∧
    (∀ (f : MF) v st u t, (addrOf f 8 s).toNat % 8 = 0 → readH f.x o = .ok ((v, st), u) → (∀ id, st ≠ .held id) →
      chunkWrite (addrOf f 8 s) (bytesOf 8 v.toNat) u = .ok ((), t) →
      exec (.sth f) s = .next (done t))

/-- R165: a load or a store through a pane that the address names and that can be used completes where its elements can be
read or written: the active elements, in ascending order, converted under FRM; the flags of a load are set when its data arrive,
those of a store at once (R78).
R168, R171: an escape load and a split-phase load are issued where what they address can be located: the escape load's
sectors are read later, each at a moment of its own; the split-phase load's destination is empty until the reply, and a line of
another package, or one that a copy command claims or that is in transit, is waited for by the load and not by the core. -/
def Obligations.PaneEscapeAndSplitWords : Prop :=
  (∀ (s : State) (f : MF) (p : Pane), Ready s → paneAt (addrOf f 32 s) (openChunk s) = .ok (p, openChunk s) →
      let a := addrOf f 32 s
      let act := active s p.count
      let w := (fmtOf p.rfmt).w
      (∀ xs fl t, p.load s.src.frm ((keepActive act ((List.range p.count).map (fld a 17 0 + ·))).map (·.1)) (openChunk s) =
          .ok ((xs, fl), t) →
        exec (.ldp f) s = .next (done (flyingWith fl [.v f.x (mergeBits (t.src.v.get f.x.toFin).toNat
          (packN w (scatterActive act xs)) (activeBits w act))] t))) ∧
      (∀ t, p.store s.src.frm (List.zipWith (fun (k : Nat × Nat) c => ((fld a 17 0 + k.1, k.1 % 128, k.2), c))
          (List.zip (List.range p.count) (elemsN w p.count (s.src.v.get f.x.toFin).toNat)) act) (openChunk s) = .ok ((), t) →
        exec (.stp f) s = .next (done (flagged t)))) ∧
  (∀ (s : State) (f : MF) (ps : List (Nat × Nat)), Ready s →
      let o := openChunk s
      let sz := sizeOf_ f.f3
      let a := addrOf f sz s
      locate o (o.ctx o.cur) .read a sz = .ok ps →
      (s.svc.logMode ≠ 2 → (∀ p ∈ ps, isRemote (p.1 / 128) = false) →
        exec (.ldx f) s = .next (done ((o.modChunk fun k => { k with values := k.values ++ [⟨0, o.regs.nextId, []⟩] }).modRegs
          fun r => { r with nextId := r.nextId + 1, flights := r.flights ++
            [{ id := o.regs.nextId, chunk := o.chunk.seq, kind := .ldx, writes := [], pc := s.src.pc, poison := none,
               todo := placed 0 (ps.map fun p => sectors 5 p.1 p.2).flatten, got := [], dst := f.x, code := f.f3,
               href := a }] }))) ∧
      (∀ b po t, (∀ p ∈ ps, isRemote (p.1 / 128) = false ∧ o.claimed (p.1 / 128) = false ∧ o.inTransit (p.1 / 128) = false) →
        readPiecesPo true a ps o = .ok ((b, po), t) →
        exec (.ldreq f) s = .next (done (t.modRegs fun r =>
          let e := r.emptyS f.x
          let e := if f.f3 = 7 then e.emptyS (f.x + 1) else e
          { e with nextId := r.nextId + 1, flights := r.flights ++
            [{ id := r.nextId, chunk := t.chunk.seq, kind := .ldreq, writes := loadWrites f.f3 f.x b, pc := s.src.pc,
               poison := po, todo := [], got := [], dst := f.x, code := f.f3, href := 0, tag := 2 * t.moment }] }))) ∧
      (∀ k n, ps = [(k, n)] → isRemote (k / 128) = false → (o.claimed (k / 128) = true ∨ o.inTransit (k / 128) = true) →
        o.chunk.span = none →
        ∃ t, exec (.ldreq f) s = .next t ∧ t.me.phase = .ok ∧ t.regs.sFull.getLsbD f.x.toNat = false ∧
          ∃ fl, t.regs.flights = o.regs.flights ++ [fl] ∧ fl.kind = .ldreq ∧ fl.dst = f.x ∧ fl.todo = [(0, k, n)]) ∧
      (∀ k n, ps = [(k, n)] → isRemote (k / 128) = true → o.chunk.remote.find (k / 128) = none → o.chunk.span = none →
        s.svc.logMode ≠ 2 →
        ∃ t, exec (.ldreq f) s = .next t ∧ t.me.phase = .ok ∧ t.regs.sFull.getLsbD f.x.toNat = false ∧
          (t.cell (cellOf s.cur)).inject = (s.cell (cellOf s.cur)).inject ++ [.req
            (.forward (remoteOwner (k / 128)) (FwdReq.read s.pkg s.cur (s.ctx s.cur).kid (k / 128) (2 * s.moment))) s.cur s.csn] ∧
          ∃ fl, t.regs.flights = o.regs.flights ++ [fl] ∧ fl.kind = .ldreq ∧ fl.dst = f.x ∧ fl.todo = [(0, k, n)] ∧
            fl.tag = 2 * s.moment))

/-! ## Engine commands and handles -/

/-- R177, R182: CPY holds a copy command in its chunk, and its h register names it from then on; WFENCE ends its chunk.
R178: TFETCH reads the rows of its tile in the chunk, up to the first that faults; its slot is fetching, and the h
register of the slot names the operation. A base or a pitch that is not a multiple of 32, or an aperture, goes into the
handle as its code: 0x13 or 0x11.
The model's own readings that this rests on: log 12, log 17. -/
def Obligations.EngineCommandWords : Prop :=
  (∀ s : State, Runs s → Settled s → Full s →
      (∀ f : MF, (addrOf f 64 s).toNat % 64 = 0 → fld s.src.frm 2 0 ≠ 5 → (openChunk s).chunk.commands < 16 →
        let t := openChunk s
        exec (.cpy f) s = .next (done ((t.modChunk fun k => { k with held := k.held ++
            [.copy t.regs.nextId f.x (addrOf f 64 s) s.src.frm 0 s.src.wseed s.src.wtab] }).modRegs fun r =>
          (({ r with nextId := r.nextId + 1 } : Regs).putH (hIdx f.x) (mkHandle 0 0 0 s.pkg (dieOf s.cur) (cluField s.cur) 0 0)
            (.held t.regs.nextId) false)))) ∧
      (∀ (f : MF) b u, (addrOf f 64 s).toNat % 64 = 0 → fld s.src.frm 2 0 = 5 → (openChunk s).chunk.commands < 16 →
        chunkRead (addrOf f 64 s + 16) 8 (openChunk s) = .ok (b, u) →
        let w := ofBytes b
        let i := fld u.regs.sidx 31 0
        let n := w % 2 ^ 16 * (w / 2 ^ 16 % 2 ^ 16) * (w / 2 ^ 32 % 2 ^ 16) * (w / 2 ^ 48)
        let t := u.modRegs fun r => { r with sidx := setFld r.sidx 31 0 (i + n) }
        exec (.cpy f) s = .next (done ((t.modChunk fun k => { k with held := k.held ++
            [.copy t.regs.nextId f.x (addrOf f 64 s) s.src.frm (BitVec.ofNat 32 i) s.src.wseed s.src.wtab] }).modRegs fun r =>
          (({ r with nextId := r.nextId + 1 } : Regs).putH (hIdx f.x) (mkHandle 0 0 0 s.pkg (dieOf s.cur) (cluField s.cur) 0 0)
            (.held t.regs.nextId) false)))) ∧
      (∀ p, (openChunk s).chunk.span = none →
        exec (.wfence p) s = .next (done ((openChunk s).modMe fun c => { c with cutAfter := some .fence })))) ∧
  (∀ (s : State) (f : MF), Runs s → Settled s → Full s →
      let base := addrOf f 32 s
      let pitch := s.src.s.get f.x.toFin
      let i := slotIdx f.f3.toNat
      let o := (openChunk s).modRegs fun r => r.setSlot i ⟨.empty, 0, none, 0, [], 0⟩
      ∀ bs ls code t,
        (base.toNat % 32 ≠ 0 ∨ pitch.toNat % 32 ≠ 0 → (bs, ls, code) = ([], [], 0x13) ∧ t = o) →
        (base.toNat % 32 = 0 → pitch.toNat % 32 = 0 → 0xFFC ≤ apertureOf base → (bs, ls, code) = ([], [], 0x11) ∧ t = o) →
        (base.toNat % 32 = 0 → pitch.toNat % 32 = 0 → ¬ 0xFFC ≤ apertureOf base →
          tileRows base pitch (List.range 16) o = .ok ((bs, ls, code), t)) →
        ∀ w, pinLines i ls.eraseDups t = .ok ((), w) →
        let seq := nextSeq (t.cell (cellOf t.cur)).tfSeq
        let h : Fin 16 := ⟨12 + i.val, by have := i.isLt; omega⟩
        ∃ u, exec (.tfetch f) s = .next u ∧ u.me.phase = .ok ∧
          u.regs.slots.get i = ⟨.fetching, seq, some t.chunk.seq, code,
            (w.regs.slots.get i).lines, BitVec.ofNat 4096 (ofBytes bs)⟩ ∧
          ((u.regs.slots.get i).lines.map (·.name)).reverse = ls.eraseDups ∧
          u.regs.h.get h = mkHandle 0 1 0 s.pkg (dieOf s.cur) (cluField s.cur) (cellOf s.cur % 32) seq ∧
          u.regs.hst.get h = .pending)

/-- R109, R180, R181: HTEST reads a handle without waiting for its outcome, and HCANCEL leaves a settled handle as it is; both take
fault 0x42 for a stale one. HCANCEL takes back a copy that its chunk still holds; it holds the cancellation of an issued copy
until the grant, and that of a tile fetch, whose slot it empties at once on its own core. For a copy that is not yet issued HTEST cuts its
chunk, or takes fault 0x43 in a span; for one that the pending chunk holds, HTEST and HCANCEL wait for that chunk's grant.
The model's own readings that this rests on: log 17 (that wait, of which R180 and R181 say nothing, is the model's choice). -/
def Obligations.HandleWords : Prop :=
  ∀ (s : State) (f : TF), Runs s → Settled s →
    let o := openChunk s
    let x := hIdx f.y
    let r := o.freshH s.cur o.regs x
    let t := o.modRegs fun _ => r
    let v := r.h.get x
    let st := r.hst.get x
    (st = .settled ∨ st = .pending ∨ st = .atomic → exec (.htest f) s = .next (done (t.modRegs fun r => r.putS f.x v))) ∧
    (st = .stale → exec (.htest f) s = .next (takeFault 0x42 0 0 o) ∧ exec (.hcancel f) s = .next (takeFault 0x42 0 0 o)) ∧
    (∀ id, st = .held id →
      (t.chunk.holdsCopy id = true →
        exec (.htest f) s = .next (if t.chunk.span.isSome then takeFault 0x43 0 0 o else cutBefore o) ∧
        exec (.hcancel f) s = .next (done ((t.modChunk fun k => { k with held := k.held.filter fun h => match h with
          | .copy j _ _ _ _ _ _ => j != id
          | _ => true }).modRegs fun r => r.putH x (setPhase v 3 0) .settled true))) ∧
      (t.chunk.holdsCopy id = false →
        exec (.htest f) s = .next (block .pend o) ∧ exec (.hcancel f) s = .next (block .pend o))) ∧
    (st = .settled ∨ st = .atomic → exec (.hcancel f) s = .next (done t)) ∧
    (st = .pending → hKind v = 0 → t.chunk.commands < 16 → exec (.hcancel f) s = .next (done (holding (.cancel v f.y) t))) ∧
    (st = .pending → hKind v ≠ 0 →
      exec (.hcancel f) s = .next (done ((holding (.cancel v f.y) (t.modRegs fun r =>
        (if fld v 51 42 = s.pkg ∧ (hCores v).contains s.cur = true then r.dropSlot v else r).resolveH s.cur (setPhase v 3 0))).modRegs fun r =>
          r.putH x (setPhase v 3 0) .settled true)))

/-! ## The matrix engine and the weave context -/

/-- R213-R220: a fold step whose step word and operands are legal and can be read is queued with its operands, a dense step of
vector registers and a sparse one always; MZERO and ACCADD are queued. The queue holds eight: with eight in it the core waits.
R214, R217, R219, R233, R234: a reserved or contradictory step word, and registers or slots for B that are numbered wrong, are
fault 0x47; sparse metadata that names a position twice, out of order or past the group is fault 0x48.
The model's own readings that this rests on: log 12. -/
def Obligations.MatrixWords : Prop :=
  ∀ (s : State) (f : TF), Ready s →
    let o := openChunk s
    let la := f.f7.toNat / 32
    let lb := f.f7.toNat / 8 % 4
    let sv := s.src.v.get f.z.toFin
    let w : Word64 := sv.extractLsb' 0 64
    let acc : BitVec 2 := BitVec.ofNat 2 (f.f7.toNat / 2)
    (o.regs.mq.length < 8 →
      exec (.mzero f) s = .next (done (queuedM (f.x.extractLsb' 0 2) 0 [] .zero o)) ∧
      exec (.accaddF32 f) s = .next (done (queuedM (f.x.extractLsb' 0 2) 0 [] (.add false (f.y.extractLsb' 0 2)) o)) ∧
      exec (.accaddI32 f) s = .next (done (queuedM (f.x.extractLsb' 0 2) 0 [] (.add true (f.y.extractLsb' 0 2)) o)) ∧
      (la = 0 → lb = 0 → stepBad false w = false → fld w 4 0 < 15 →
        exec (.mma f) s = .next (done (queuedM acc (fld w 8 7) [] (.fold (fld w 4 0) none (bitAt w 9) (bitAt w 10)
          (s.src.v.get f.x.toFin) ((s.src.v.get f.y.toFin).setWidth 16384) sv) o))) ∧
      (la = 0 → lb = 0 → stepBad true w = false → f.y.toNat % 2 = 0 →
        (metaWords sv (groups24 (fld w 4 0))).all (metaOk (keptOf w)) = true →
        exec (.mmas f) s = .next (done (queuedM acc (fld w 8 7) [] (.fold (fld w 4 0) (some (keptOf w)) (bitAt w 9) (bitAt w 10)
          (s.src.v.get f.x.toFin)
          (BitVec.ofNat 16384 (packN 4096 [(vecAt s f.y.toNat).toNat, (vecAt s (f.y.toNat + 1)).toNat] % 2 ^ 6144)) sv) o)))) ∧
    (8 ≤ o.regs.mq.length → exec (.mzero f) s = .next (block .mq o) ∧ exec (.accaddF32 f) s = .next (block .mq o) ∧
      exec (.accaddI32 f) s = .next (block .mq o)) ∧
    (∀ (sparse : Bool) (i : Instr) (ra rb : NMap VReg) (a b : Nat) (t u : State),
      (sparse = false → i = .mma f) → (sparse = true → i = .mmas f) →
      let n := bBytes sparse (fld w 4 0)
      stepBad sparse w = false → bNaming sparse (fld w 4 0) lb f.y.toNat = false →
      readVs (operandRegs la f.x f.xw 512) [(f.z.toNat, sv)] o = .ok (ra, o) → readOperand la f.x f.xw 512 ra o = .ok (a, t) →
      readVs (operandRegs lb f.y f.yw n) ra t = .ok (rb, t) → readOperand lb f.y f.yw n rb t = .ok (b, u) →
      (sparse = true → (metaWords sv (groups24 (fld w 4 0))).all (metaOk (keptOf w)) = false →
        exec i s = .next (takeFault 0x48 0 0 o)) ∧
      ((sparse = true → (metaWords sv (groups24 (fld w 4 0))).all (metaOk (keptOf w)) = true) → u.regs.mq.length < 8 →
        exec i s = .next (done (queuedM acc (fld w 8 7)
          ((if la = 1 then [f.x.toNat] else []) ++ (if lb = 1 then (List.range (members n)).map (f.y.toNat + ·) else []))
          (.fold (fld w 4 0) (if sparse then some (keptOf w) else none) (bitAt w 9) (bitAt w 10) (BitVec.ofNat 4096 a)
            (BitVec.ofNat 16384 b) sv) u)))) ∧
    (stepBad false w = true → exec (.mma f) s = .next (takeFault 0x47 0 0 o)) ∧
    (stepBad true w = true → exec (.mmas f) s = .next (takeFault 0x47 0 0 o)) ∧
    (la = 0 → bNaming false (fld w 4 0) lb f.y.toNat = true → exec (.mma f) s = .next (takeFault 0x47 0 0 o)) ∧
    (la = 0 → bNaming true (fld w 4 0) lb f.y.toNat = true → exec (.mmas f) s = .next (takeFault 0x47 0 0 o))

/-- R223: the readouts of an accumulator into registers that no stream is bound to are queued with FRM as it stands; in mode
0b101 a bf16 or f16 readout has drawn its 256 points at issue.
R224: MSAVE stores the 256 sums and then the 256 errors of an accumulator that no queued operation uses; MREST loads
them. -/
def Obligations.AccumulatorWords : Prop :=
  (∀ (s : State) (f : TF), Ready s → (openChunk s).regs.mq.length < 8 →
      let o := openChunk s
      let acc := f.y.extractLsb' 0 2
      let reads := fun (i : Instr) (rd : Nat) =>
        exec i s = .next (done (queuedM acc 0 [] (.read rd f.x s.src.frm []) o))
      reads (.mreadF32 f) 0 ∧ reads (.mreadSum f) 3 ∧ reads (.mreadErr f) 4 ∧
      (fld s.src.frm 2 0 ≠ 5 → reads (.mreadBf16 f) 1 ∧ reads (.mreadF16 f) 2) ∧
      (∀ row t, fld s.src.frm 2 0 = 5 → weaveRow (fld s.src.frm 27 16) o = .ok (row, t) → t.regs.mq.length < 8 →
        let i := fld t.regs.sidx 31 0
        let draws := (List.range 256).map fun j =>
          weavePoint row (t.src.wseed.extractLsb' 0 32) (fld s.src.frm 27 16) ((i + j) % 2 ^ 32)
        let u := t.modRegs fun r => { r with sidx := setFld r.sidx 31 0 (i + 256) }
        exec (.mreadBf16 f) s = .next (done (queuedM acc 0 [] (.read 1 f.x s.src.frm draws) u)) ∧
        exec (.mreadF16 f) s = .next (done (queuedM acc 0 [] (.read 2 f.x s.src.frm draws) u)))) ∧
  (∀ (s : State) (f : MF), Runs s → Settled s → Full s → (addrOf f 128 s).toNat % 128 = 0 →
      ((openChunk s).regs.mq.any fun o => o.accs.contains (f.x.extractLsb' 0 2)) = false →
      let o := openChunk s
      let a := o.regs.acc (f.x.extractLsb' 0 2)
      (∀ t, chunkWrite (addrOf f 128 s) ((a.1 ++ a.2).map (bytesOf 4)).flatten o = .ok ((), t) →
        exec (.msave f) s = .next (done t)) ∧
      (∀ b t, chunkRead (addrOf f 128 s) 2048 o = .ok (b, t) →
        exec (.mrest f) s = .next (done (t.modRegs fun r => r.setAcc (f.x.extractLsb' 0 2)
          ((elemsN 32 512 (ofBytes b)).take 256) ((elemsN 32 512 (ofBytes b)).drop 256)))))

/-- R228, R229: WLOAD sets the table's base and its number of dimensions, WSEED the seed, WSEED_H the hash of two. -/
def Obligations.WeaveWords : Prop :=
  ∀ s : State, Runs s → Settled s → Full s →
    (∀ f : MF, let a := addrOf f 4096 s
      let n := s.src.s.get f.x.toFin
      canonical a = true → apertureOf a < 0xFFC → a.toNat % 4096 = 0 → n.toNat ≤ 4096 →
      exec (.wload f) s = .next (done ((openChunk s).modRegs fun r =>
        { r with wtab := BitVec.ofNat 64 (n.toNat % 2 ^ 13 * 2 ^ 51 + fld a 56 12) }))) ∧
    (∀ f : TF, exec (.wseed f) s = .next (done ((openChunk s).modRegs fun r =>
      { r with wseed := (s.src.s.get f.x.toFin).extractLsb' 0 32 |>.setWidth 64 }))) ∧
    (∀ f : TF, exec (.wseedH f) s = .next (done ((openChunk s).modRegs fun r =>
      { r with wseed := (hash32 ((s.src.s.get f.x.toFin).extractLsb' 0 32) ((s.src.s.get f.y.toFin).extractLsb' 0 32)).setWidth 64 })))

/-! ## Control registers and system functions -/

/-- R126, R185, R299: a control register that exists is read into a scalar register, FSTAT only once everything the core has
issued has completed, and until then the core waits; a value that a run leaves open is noted for the commit-order log. A supervisor
register is read by the supervisor as its chunks have written it.
R78, R126, R185, R299, R300: a register of the running task takes its write at once, reserved bits ignored, FSTAT once every earlier
operation has set its flags, and until then the core waits; a supervisor register is written at the chunk's grant.
The model's own readings that this rests on: log 22. -/
def Obligations.ControlRegisterWords : Prop :=
  (∀ (s : State) (f : TF), Runs s → Settled s →
      let o := openChunk s
      let num := f.f7.toNat % 64
      let held := (match s.me.pend with
        | some k => k.held
        | none => []) ++ o.chunk.held
      ((o.readCreg s.cur num).isSome = true ↔ num ≤ 17) ∧
      (∀ v, o.readCreg s.cur num = some v →
        (num ∉ [0, 1, 8] → (num = 4 → o.quiet = true) →
          exec (.cregRd f) s = .next (done (o.modRegs fun r => r.putS f.x v))) ∧
        (num ∈ [0, 1, 8] → s.svc.logMode ≠ 2 →
          exec (.cregRd f) s = .next (done ((o.modChunk fun k => { k with values := k.values ++ [⟨3, 0, [v]⟩] }).modRegs
            fun r => r.putS f.x v)))) ∧
      (num = 4 → o.quiet = false → exec (.cregRd f) s = .next (block .vq o)) ∧
      (48 ≤ num → s.supervisor = true → ∀ v, (o.applySup held).readSup num = some v →
        exec (.cregRd f) s = .next (done (o.modRegs fun r => r.putS f.x v)))) ∧
  (∀ (s : State) (f : TF), Runs s → Settled s → Full s →
      let o := openChunk s
      let num := f.f7.toNat % 64
      let v := s.src.s.get f.y.toFin
      (∀ r, num < 48 → (num = 4 → o.regs.flagsDue = false) → o.regs.writeCreg num v = some r →
        exec (.cregWr f) s = .next (done (o.modRegs fun _ => r))) ∧
      (num = 4 → o.regs.flagsDue = true → exec (.cregWr f) s = .next (block .vq o)) ∧
      (48 ≤ num → s.supervisor = true → (s.writeSup num v).isSome = true →
        exec (.cregWr f) s = .next (done (holding (.sup num v) o))))

/-- R126, R299, R300, R320: a task that names a supervisor register or asks for a `sys` function takes fault 0x04; a register
that does not exist (18 to 47, and 63 for the supervisor), or a write of one that cannot be written (those, and COREID, QROLE, G,
STALLS, and PKGNUM and PWRSTAT for the supervisor), is fault 0x07.
The model's own readings that this rests on: log 12. -/
def Obligations.PrivilegeFaults : Prop :=
  ∀ (s : State) (f : TF), Runs s →
    let faults := fun (i : Instr) (c : Code) => exec i s = .next (takeFault c 0 0 (openChunk s))
    (s.supervisor = false →
      (48 ≤ f.f7.toNat % 64 → faults (.cregRd f) 0x04 ∧ faults (.cregWr f) 0x04) ∧
      faults (.seal f) 0x04 ∧ faults (.unseal f) 0x04 ∧ faults (.hoopdrop f) 0x04 ∧ faults (.tlbinv f) 0x04 ∧
      faults (.keyset f) 0x04 ∧ faults (.keyret f) 0x04) ∧
    (let num := f.f7.toNat % 64
     (18 ≤ num → num < 48 → faults (.cregRd f) 0x07) ∧ (s.supervisor = true → num = 63 → faults (.cregRd f) 0x07) ∧
      (Settled s → Full s →
        (num = 0 ∨ num = 1 ∨ num = 7 ∨ num = 8 ∨ (18 ≤ num ∧ num < 48) → faults (.cregWr f) 0x07) ∧
        (s.supervisor = true → num = 55 ∨ num = 61 ∨ num = 63 → faults (.cregWr f) 0x07)))

/-- R320: the supervisor's `sys` functions, with operands of their formats and a counter of its own or none, are held until
the grant; an operand of a wrong format is fault 0x08.
The model's own readings that this rests on: log 12. -/
def Obligations.SystemFunctions : Prop :=
  ∀ (s : State) (f : TF), Runs s → Settled s → Full s → s.supervisor = true →
    let o := openChunk s
    let x := s.src.s.get f.x.toFin
    let y := s.src.s.get f.y.toFin
    let z := s.src.s.get f.z.toFin
    let holds := fun (i : Instr) (y : Word64) => exec i s = .next (done (holding (.sys f.f7.toNat x y z) o))
    let faults := fun (i : Instr) => exec i s = .next (takeFault 0x08 0 0 o)
    (CounterOk o z →
      (ppathBad x = false → holds (.seal f) 0 ∧ holds (.unseal f) 0) ∧ holds (.hoopdrop f) 0 ∧
      (tlbargBad y = false → holds (.tlbinv f) y) ∧ (keyidBad x = false → y.toNat % 64 = 0 → holds (.keyset f) y) ∧
      (keyidBad x = false → holds (.keyret f) 0)) ∧
    (¬ CounterOk o z → ppathBad x = false → faults (.seal f)) ∧
    (ppathBad x = true → faults (.seal f) ∧ faults (.unseal f)) ∧ (tlbargBad y = true → faults (.tlbinv f)) ∧
    (keyidBad x = true ∨ y.toNat % 64 ≠ 0 → faults (.keyset f)) ∧ (keyidBad x = true → faults (.keyret f))

/-! ## Tasks and messages -/

/-- R301, R302, R303, R304, R319: TSPAWN, TSPAWNC, SUSPEND, DONE and TRAP complete outside a span and a shutter routine, where
the records they name are addressable and there is a line for a held spawn: the work is held in the chunk until its grant,
and the last three end the chunk. TSPAWNC stores s0 to s7 into the continuation's save area.
The model's own readings that this rests on: log 12. -/
def Obligations.TaskWords : Prop :=
  ∀ s : State, Runs s → Settled s → Full s →
    let o := openChunk s
    (∀ f : MF, RecordAt o (addrOf f 64 s) → o.coreLines o.cur < o.capacity o.cur →
      exec (.tspawn f) s = .next (done (holding (.tspawn (addrOf f 64 s)) o))) ∧
    (∀ (f : MF) b t v, RecordAt o (addrOf f 64 s) → chunkRead (addrOf f 64 s + 16) 8 o = .ok (b, t) →
      let save : Word64 := BitVec.ofNat 64 (ofBytes b)
      let regs := (List.range 8).map fun j => bytesOf 8 (s.src.s.get (f.x + BitVec.ofNat 5 j).toFin).toNat
      chunkWrite (save + 0x6C00) regs.flatten t = .ok ((), v) →
      v.coreLines v.cur < v.capacity v.cur →
      exec (.tspawnc f) s = .next (done (holding (.tspawnc (addrOf f 64 s) save) v))) ∧
    (o.chunk.span = none → s.shutGang s.cur = none →
      (∀ f : TF, RecordAt o (s.src.s.get f.x.toFin) →
        exec (.suspend f) s = .next (done (ending .suspend (holding (.suspend (s.src.s.get f.x.toFin)) o)))) ∧
      (∀ p, exec (.done p) s = .next (done (ending .done (holding .done o)))) ∧
      (∀ f : TF, exec (.trap f) s =
        .next (done (ending .trap (holding (.trap f.f7 (s.src.s.get f.x.toFin) s.src.pc) o)))))

/-- R249, R349: inside a span the instructions that end a chunk take fault 0x39; inside a shutter routine those that end the
task take fault 0x34, and outside one `shut` does.
R162, R172, R177, R224, R228, R301, R310: an address that is not a multiple of what the instruction asks for is fault 0x13, before
anything is read or written.
The model's own readings that this rests on: log 12. -/
def Obligations.EndingAndAlignmentFaults : Prop :=
  (∀ s : State, Runs s →
      let o := openChunk s
      let faults := fun (i : Instr) (c : Code) => exec i s = .next (takeFault c 0 0 o)
      (o.chunk.span.isSome = true → (∀ p, faults (.cut p) 0x39 ∧ faults (.wfence p) 0x39 ∧ faults (.done p) 0x39 ∧ faults (.shut p) 0x39) ∧
        (∀ n, faults (.span n) 0x39) ∧ (∀ f : TF, faults (.suspend f) 0x39 ∧ faults (.trap f) 0x39 ∧ faults (.shutv f) 0x39) ∧
        (∀ f : JF, faults (.cbr f) 0x39) ∧ (∀ f : TF, faults (.rgrab f) 0x39) ∧
        (∀ f : MF, faults (.fatomAdd f) 0x39 ∧ faults (.fatomMin f) 0x39 ∧ faults (.fatomMax f) 0x39 ∧ faults (.fatomSwap f) 0x39 ∧
          faults (.fatomCas f) 0x39 ∧ faults (.fatomAnd f) 0x39 ∧ faults (.fatomOr f) 0x39 ∧ faults (.evinc f) 0x39)) ∧
      (o.chunk.span = none → (s.shutGang s.cur).isSome = true →
        (∀ p, faults (.done p) 0x34) ∧ (∀ f : TF, faults (.suspend f) 0x34 ∧ faults (.trap f) 0x34)) ∧
      (o.chunk.span = none → s.shutGang s.cur = none → (∀ p, faults (.shut p) 0x34) ∧ (∀ f : TF, faults (.shutv f) 0x34))) ∧
  (∀ (s : State) (f : MF), Ready s →
      let faults := fun (i : Instr) (scale n : Nat) => (addrOf f scale s).toNat % n ≠ 0 →
        exec i s = .next (takeFault 0x13 (addrOf f scale s) 0 (openChunk s))
      let o := openChunk s
      faults (.ldh f) 8 8 ∧ faults (.sth f) 8 8 ∧ faults (.strm f) 32 32 ∧ faults (.cpy f) 64 64 ∧ faults (.msave f) 128 128 ∧
        faults (.mrest f) 128 128 ∧ faults (.tspawn f) 64 64 ∧ faults (.tspawnc f) 64 64 ∧
        (canonical (addrOf f 4096 s) = true → apertureOf (addrOf f 4096 s) < 0xFFC → faults (.wload f) 4096 4096) ∧
        (o.chunk.span = none → o.chunk.n = 0 →
          faults (.fatomAdd f) 8 8 ∧ faults (.fatomMin f) 8 8 ∧ faults (.fatomMax f) 8 8 ∧ faults (.fatomSwap f) 8 8 ∧
          faults (.fatomCas f) 8 8 ∧ faults (.fatomAnd f) 8 8 ∧ faults (.fatomOr f) 8 8 ∧
          (apertureOf (addrOf f 8 s) = 0xFFD → faults (.evinc f) 8 8))) ∧
  (∀ (s : State) (f : TF), Ready s →
      let o := openChunk s
      ((s.src.s.get f.y.toFin).toNat % 64 ≠ 0 →
        exec (.hoopj f) s = .next (takeFault 0x13 (s.src.s.get f.y.toFin) 0 o)) ∧
      ((s.src.s.get f.x.toFin).toNat % 64 ≠ 0 → o.chunk.span = none → s.shutGang s.cur = none →
        exec (.suspend f) s = .next (takeFault 0x13 (s.src.s.get f.x.toFin) 0 o)))

/-- R308, R295: SEND holds a message to a core of a cluster, the low 64 bytes of its register the payload; a destination that
names no core is fault 0x53.
R309: RECV and RECV_POLL pop the oldest message of their task; with none, RECV leaves its register empty until one comes
and RECV_POLL writes zeros. -/
def Obligations.MessageWords : Prop :=
  (∀ (s : State) (f : TF), Ready s →
      let o := openChunk s
      let d := s.src.s.get f.x.toFin
      (fld d 63 26 = 0 → fld d 12 7 < 48 → o.coreLines o.cur < o.capacity o.cur →
        exec (.send f) s = .next (done (holding (.send d ((s.src.v.get f.y.toFin).extractLsb' 0 512)) o))) ∧
      (fld d 63 26 ≠ 0 ∨ 48 ≤ fld d 12 7 → exec (.send f) s = .next (takeFault 0x53 0 0 o))) ∧
  (∀ (s : State) (f : TF), Ready s → s.svc.logMode ≠ 2 →
      let o := openChunk s
      let note := fun (ord : Nat) (v : Word64) (u : State) => u.modChunk fun k => { k with values := k.values ++ [⟨4, ord, [v]⟩] }
      (∀ q, o.nextMsg o.cur (o.ctx o.cur).kid none = some q →
        let u := note q.ord (BitVec.ofNat 64 q.msg.src.toNat) o
        let u := u.setCell (cellOf u.cur) ((u.cell (cellOf u.cur)).take q.id)
        let t := (u.modChunk fun k => { k with pops := k.pops ++ [q.id] }).modRegs fun r => r.putV f.x (msgVReg q.msg)
        exec (.recv f) s = .next (done t) ∧ exec (.recvPoll f) s = .next (done t)) ∧
      (o.nextMsg o.cur (o.ctx o.cur).kid none = none →
        exec (.recvPoll f) s = .next (done ((note 0 (BitVec.ofNat 64 (2 ^ 63)) o).modRegs fun r => r.putV f.x 0)) ∧
        ∃ t, exec (.recv f) s = .next t ∧ t.me.phase = .ok ∧ t.regs.vFull.getLsbD f.x.toNat = false ∧
          ∃ fl, t.regs.flights = o.regs.flights ++ [fl] ∧ fl.kind = .recv ∧ fl.dst = f.x))

/-! ## Far atomics, counters and ranges -/

/-- R295, R310, R311: a far atomic that is the first bundle of its chunk, to an aligned word that may be written, makes its
chunk a far atomic of its own: its handle pair is pending, the line is in the write signature where it is this package's.
R310: what a far atomic leaves in its word: the sum, the signed smaller and larger, the operand, the second operand where
the word equals the first, the conjunction and the disjunction.
R305, R307: EVINC to an event counter and RGRAB of a range of the job that exists, each the first bundle of its chunk,
make it a far atomic of their own; an address elsewhere is fault 0x11, a range that does not exist fault 0x4B.
The model's own readings that this rests on: log 12. -/
def Obligations.AtomicWords : Prop :=
  ((∀ (s : State) (f : MF) (ps : List (Nat × Nat)), Runs s → Settled s → Full s →
        let o := openChunk s
        let a := addrOf f 8 s
        o.chunk.span = none → o.chunk.n = 0 → a.toNat % 8 = 0 → (apertureOf a < 0xFFC ∨ apertureOf a = 0xFFD) →
        locate o (o.ctx o.cur) .write a 8 = .ok ps →
        let x := s.src.s.get (f.b + 1).toFin
        let completes := fun (i : Instr) (op : BitVec 3) (y : Word64) => ∃ t, exec i s = .next t ∧ t.me.phase = .ok ∧
          t.me.cutAfter = some .atomic ∧ t.chunk.atomic = some (.fatom op x y f.x (firstKey ps)) ∧
          t.regs.hst.get (hIdx f.x) = .atomic ∧ t.regs.hst.get (hNext f.x) = .atomic ∧ t.mem = s.mem ∧
          (isRemote (firstKey ps / 128) = false → t.chunk.wsig = sigAdd o.chunk.wsig (firstKey ps / 128))
        completes (.fatomAdd f) 0 0 ∧ completes (.fatomMin f) 1 0 ∧ completes (.fatomMax f) 2 0 ∧ completes (.fatomSwap f) 3 0 ∧
          completes (.fatomCas f) 4 (s.src.s.get (f.b + 2).toFin) ∧ completes (.fatomAnd f) 5 0 ∧ completes (.fatomOr f) 6 0) ∧
    (∀ m a b : Word64,
        atomicNew 0 m a b = m + a ∧ (atomicNew 1 m a b).toInt = min m.toInt a.toInt ∧
        (atomicNew 2 m a b).toInt = max m.toInt a.toInt ∧ atomicNew 3 m a b = a ∧
        atomicNew 4 a a b = b ∧ (m ≠ a → atomicNew 4 m a b = m) ∧ atomicNew 5 m a b = m &&& a ∧ atomicNew 6 m a b = m ||| a)) ∧
  (∀ s : State, Runs s → Settled s → Full s →
      let o := openChunk s
      o.chunk.span = none → o.chunk.n = 0 →
      (∀ (f : MF) ps, apertureOf (addrOf f 8 s) = 0xFFD → locate o (o.ctx o.cur) .write (addrOf f 8 s) 8 = .ok ps →
        exec (.evinc f) s = .next (done (ending .atomic (atomicHeld (.evinc (s.src.s.get f.x.toFin) (firstKey ps))
          (o.modChunk fun k => { k with wsig := sigAdd k.wsig (firstKey ps / 128) }))))) ∧
      (∀ f : MF, apertureOf (addrOf f 8 s) ≠ 0xFFD → exec (.evinc f) s = .next (takeFault 0x11 (addrOf f 8 s) 0 o)) ∧
      (∀ f : TF, let n := (s.src.s.get f.y.toFin).toNat
        (n < 16 → ((s.job (o.ctx o.cur).kid).ranges.find n).isSome = true →
          exec (.rgrab f) s = .next (done (ending .atomic (atomicHeld (.rgrab n f.x) o)))) ∧
        (16 ≤ n ∨ (s.job (o.ctx o.cur).kid).ranges.find n = none → exec (.rgrab f) s = .next (takeFault 0x4B 0 0 o))))

/-! ## Hoops and the shutter -/

/-- R315, R316, R317: HOOPJ holds an attachment, CBR a vote, and control runs ahead by the guess; a HOOPQ is on its way to the
slot's home.
R318: inside a shutter routine SHUT closes the shutter with the end of its chunk, and SHUTV with a vote. -/
def Obligations.HoopAndShutterWords : Prop :=
  (∀ s : State, Runs s → Settled s → Full s →
      let o := openChunk s
      (∀ f : TF, RecordAt o (s.src.s.get f.y.toFin) →
        exec (.hoopj f) s = .next (done (holding (.hoopj (s.src.s.get f.y.toFin)) o))) ∧
      (∀ f : JF, o.chunk.span = none →
        let x := s.src.s.get f.x.toFin
        let guess := if f.c.getLsbD 2 then f.c.getLsbD 3 else bitAt x 0
        let tgt := s.src.pc + 8 * f.off.signExtend 64
        let other := s.src.advancePc (if guess then .seq else .jump tgt)
        exec (.cbr f) s = .next (done (ending .cbr
          (((holding (.vote (s.src.s.get f.y.toFin) (bitAt x 0) (f.c.extractLsb' 0 2)) o).modChunk fun k =>
            { k with after := some { guess := guess, alt := (other.pc, other.levels, other.lc), cbr := s.src.pc, resolved := false,
                                     word := 0, tag := 0 } }).modMe fun c =>
            { c with next := if guess then .jump tgt else .seq })))) ∧
      (s.svc.logMode ≠ 2 → ∀ f : TF,
        let y := s.src.s.get f.y.toFin
        let asks := fun (i : Instr) (q : Nat) => ∃ t, exec i s = .next t ∧ t.me.phase = .ok ∧
          (∃ fl, t.regs.flights = o.regs.flights ++ [fl] ∧ fl.kind = .hoopq ∧ fl.dst = f.x ∧ fl.href = y ∧ fl.code.toNat = q) ∧
          (t.cell (cellOf s.cur)).inject = (s.cell (cellOf s.cur)).inject ++ (if s.slotHome (hrefSlot y) = s.pkg then []
            else [.req (.query (s.slotHome (hrefSlot y)) s.cur (s.ctx s.cur).kid y q) s.cur s.csn])
        asks (.hoopqRes f) 0 ∧ asks (.hoopqEpoch f) 1 ∧ asks (.hoopqArr f) 2 ∧ asks (.hoopqState f) 3)) ∧
  (∀ s : State, Runs s → Settled s → Full s →
      let o := openChunk s
      o.chunk.span = none → (s.shutGang s.cur).isSome = true →
      (∀ p, exec (.shut p) s = .next (done (ending .shut (holding (.shut none) o)))) ∧
      (∀ f : TF, exec (.shutv f) s = .next (done (ending .shut (holding (.shut (some (bitAt (s.src.s.get f.x.toFin) 0,
        f.f7.extractLsb' 0 2, if f.f7.extractLsb' 0 2 = 3 then s.src.s.get f.z.toFin else 0, f.y))) o)))))

/-! ## Events of a core, its cell and its cluster -/

/-- R127, R185: in a cycle the arbiter of a cell assigns a lone queue head its next four beats and touches no core of
another cell; an operation whose beats are all assigned writes its destinations and its flags and leaves its queue. R220: the
matrix engine performs, for the next core in round robin whose queue holds one, one of the operations that may go first, and
the core after it is next; where the order is open a free value says which.
The model's own readings that this rests on: log 1. -/
def Obligations.VectorAndMatrixEvents : Prop :=
  ∀ s : State, s.paused = false →
    (∀ cell j o, j < 4 → (s.core (cell * 4 + j)).regs.vHead = some o →
      (∀ k, k < 4 → k ≠ j → (s.core (cell * 4 + k)).regs.vHead = none) →
      ∃ t, exec (.vectorArbitration cell) s = .next t ∧ t.mem = s.mem ∧
        (∀ i, i / 4 ≠ cell → t.core i = s.core i) ∧
        (t.core (cell * 4 + j)).regs = (s.core (cell * 4 + j)).regs.setBeats o.id (o.beats - 4)) ∧
    (∀ core o q, (s.core core).regs.vq = o :: q → o.beats = 0 →
      exec (.vectorOpComplete core) s = .next (s.modCore core (Core.onAll (Regs.endVOp o)))) ∧
    (∀ r : Regs, ∀ o q, r.vq = o :: q → (∀ x ∈ q, x.id ≠ o.id) →
      Regs.endVOp o r = ({ r with vq := q, fstat := r.fstat ||| o.flags.setWidth 64 } : Regs).apply o.writes) ∧
    (∀ cell i o q, ((List.range 4).map fun j => cell * 4 + ((s.cell cell).mptr + j) % 4).find?
        (fun i => !(s.core i).regs.mq.isEmpty) = some i → (s.core i).regs.mq = o :: q →
      ∃ p ∈ readyMOps (((s.core i).task.map Task.det).getD false) [] (o :: q),
        exec (.matrixOpPerform cell) s = .next ((({ s with moment := s.moment + 1 } : State).setCell cell
          { s.cell cell with mptr := (i + 1) % 4 }).modCore i (Core.onAll (Regs.performId p))))

/-- R158: the data of a load writes its destinations and its flags (R78) and ends its flight. R168, R169, R251: an escape load reads one sector that is
still to be read, where none of them is kept waiting by an earlier escape load, a claim or a granule in transit, and lands once
all have been read. R171: the reply of a split-phase load with nothing still to come writes its destination and ends its flight, once it has read the lines that a claim or a move kept from it,
and one that met poison raises the fault of its chunk. R115: the stream unit fetches ahead of a bound read stream, up to four
registers, whose lines enter the running chunk's read signature, and drains what has been pushed. R230: a weave window that a
core waits for comes into its cell's store, and the core's WIN names it, where it can be read; where it cannot, the core asks again.
The model's own readings that this rests on: log 14, log 43. -/
def Obligations.LoadAndStreamEvents : Prop :=
  ∀ (s : State) (core : Nat), s.paused = false →
    (∀ id f, (s.core core).regs.flights.find? (fun x => x.id == id) = some f → f.kind = .load →
      exec (.loadDataArrival core id) s =
        .next (s.modCore core (Core.onAll (Regs.endFlight id fun r =>
          ({ r with fstat := r.fstat ||| f.flags.setWidth 64 } : Regs).land s core f.writes)))) ∧
    (∀ id f, (s.core core).regs.flights.find? (fun x => x.id == id) = some f → f.kind = .ldx →
      (f.todo = [] → exec (.loadDataArrival core id) s = .next (s.landEscape core f)) ∧
      (f.todo ≠ [] → (∀ q ∈ f.todo, (earlierSectors id (s.core core).regs.flights).contains (q.2.1 / 32) = false ∧
          s.claimed (q.2.1 / 128) = false ∧ s.inTransit (q.2.1 / 128) = false) →
        ∃ q ∈ f.todo, exec (.loadDataArrival core id) s =
          .next (({ s with moment := s.moment + 1 } : State).readSector core f q))) ∧
    (∀ id f, (s.core core).regs.flights.find? (fun x => x.id == id && x.kind == .ldreq) = some f →
      (f.poison = none → f.todo = [] → exec (.ldreqReply core id) s =
        .next (s.modCore core (Core.onAll (Regs.endFlight id fun r => r.land s core f.writes)))) ∧
      (∀ a, f.poison = some a → f.todo = [] → exec (.ldreqReply core id) s = .next (s.lateFault core f a)) ∧
      (∀ t g, (∀ p ∈ f.todo, isRemote (p.2.1 / 128) = false ∧ s.claimed (p.2.1 / 128) = false ∧ s.inTransit (p.2.1 / 128) = false) →
        s.readLate core f = (t, g) → g.poison = none →
        exec (.ldreqReply core id) s =
          .next (t.modCore core (Core.onAll (Regs.endFlight id fun r => r.land t core g.writes))))) ∧
    (∀ q st k, q < 8 → (s.core core).run = some k → (s.core core).regs.stream (24 + q) = some st → st.write = false →
      let p := st.pos + st.ahead * ({ s with cur := core } : State).perReg st
      st.ahead < 4 → p < st.total →
      ∃ t, exec (.streamPrefetchArrival core q) s = .next t ∧ t.mem = s.mem ∧
        (t.core core).regs.stream (24 + q) = some { st with ahead := st.ahead + 1 } ∧
        (t.core core).run = some { k with rsig := (({ s with cur := core } : State).streamLines st p).foldl sigAdd k.rsig }) ∧
    (∀ q st, q < 8 → (s.core core).regs.stream (24 + q) = some st → 0 < st.buf →
      ∃ t, exec (.streamPushDrain core q) s = .next t ∧ t.mem = s.mem ∧
        (t.core core).regs.stream (24 + q) = some { st with buf := st.buf - 1 }) ∧
    (∀ d k, (s.core core).need = .weave d → (s.core core).run = some k →
      let w := (s.core core).src.wtab
      let a := windowAddr w (d / 64)
      let again := s.modCore core fun c => { c with need := .none }
      let far := (s.linesAt (s.ctx core) a windowBytes).any fun l => isRemote l && (k.remote.find l).isNone
      (far = true ∨ (s.readNowFrom k.remote (s.ctx core) a windowBytes).2.isOk = false →
        exec (.weaveWindowLoad core) s = .next again) ∧
      (∀ u bs, far = false → s.readNowFrom k.remote (s.ctx core) a windowBytes = (u, .ok bs) →
        ∃ t, exec (.weaveWindowLoad core) s = .next t ∧ t.mem = u.mem ∧ (t.core core).need = .none ∧
          (t.core core).weaveGot.find (d / 64) = some bs ∧ fld (t.core core).regs.wtab 50 45 = d / 64 % 64 ∧
          (t.cell (cellOf core)).weave = some ((s.ctx core).kid, fld w 44 0, d / 64, bs)))

/-- R102: a cluster with fewer than eight running commands starts the oldest that waits, and asks other packages
for its source lines there. R99: a running command completes once every earlier claim on its lines is written and
every line of another package is there. R98, R103-R108: a command that completes leaves its cluster's queue, what it wrote is in
memory with no byte outside its lines changed, its outcome, with its flags or its code, is recorded, and every h register that is
pending on its handle, on any core, is full with that outcome; no CSN is given. R111, R179, R178, R107, R108: a tile fetch resolves, its slot full or in error, and its outcome is
recorded. R124, R311: the reply of a far atomic replaces what its h register holds; R391: it is split off from those that stage 0
combined it with, and one for a unit of the package changes nothing more.
The model's own readings that this rests on: log 17, log 21. -/
def Obligations.EngineEvents : Prop :=
  ∀ s : State, s.paused = false →
    (∀ cl x, (s.cluster cl).copyQ.find? (fun c => !c.running) = some x →
      ((s.cluster cl).copyQ.filter (·.running)).length < 8 →
      ∃ t, exec (.copyStart cl) s = .next t ∧ t.mem = s.mem ∧ t.cores = s.cores ∧
        (t.cluster cl).copyQ = (s.cluster cl).copyQ.map (fun y => if y.ord = x.ord then { y with running := true } else y) ∧
        t.outs = s.outs ++ (x.srcs.filter isRemote).map fun l =>
          Out.forward (remoteOwner l) (FwdReq.read s.pkg x.core x.kid l (2 * x.ord + 1))) ∧
    (∀ cl seq x, (s.cluster cl).copyQ.find? (fun c => c.seq == seq) = some x → s.copyReady x = true →
      exec (.copyComplete cl seq) s = .next ((s.finishCopy cl x).1.transferDone x (s.finishCopy cl x).2)) ∧
    (∀ cl x,
      let d := copyDesc x.desc
      let u := (s.finishCopy cl x).1
      let r := (s.finishCopy cl x).2
      let b := (x.srcs.foldl (fun s l => if isRemote l then s else (s.readLine x.kid l).1) (s.copyWalks cl x d)).copyDirty cl x d r.n
      let v := mkHandle (if r.code = 0 then 1 else 2) 0 (if r.code = 0 then r.fl.toNat else r.code.toNat) s.pkg (dieOf x.core)
        (cluField x.core) 0 x.seq
      (u.cluster cl).copyQ.map (·.ord) = ((s.cluster cl).copyQ.map (·.ord)).filter (· != x.ord) ∧ u.csn = s.csn ∧
      (Claims.Plain b x.kid r.cells → Claims.Stored b u r.cells) ∧
      (x.gang = none → (u.cluster (hCluster v)).outcomes.find (hKey v) = some v ∧
        ∀ i n, (s.core i).regs.hst.get n = .pending → setPhase ((s.core i).regs.h.get n) 0 0 = setPhase v 0 0 →
          (u.core i).regs.h.get n = v ∧ (u.core i).regs.hst.get n = .settled)) ∧
    (∀ core slot u, slot < 4 → (s.core core).regs.slots.get (slotIdx slot) = u → u.st = .fetching → u.chunk.isSome = true →
      let v := slotHandle s.pkg core u
      ∃ t, exec (.tileFetchComplete core slot) s = .next t ∧ t.mem = s.mem ∧
        (t.core core).regs.slots.get (slotIdx slot) = { u with st := if u.code = 0 then .full else .error } ∧
        (t.cluster (hCluster v)).outcomes.find (hKey v) = some v) ∧
    (∀ r : AtomicReply, ∀ h, (s.core r.core).atomicOut = some h →
      exec (.farAtomicReply r) s = .next ((s.splitReply r.core).modCore r.core fun c =>
        { c.onAll (Regs.atomicResolves h r.code r.csn r.old.toNat) with atomicOut := none })) ∧
    (∀ r : AtomicReply, (s.core r.core).atomicOut = none → r.core = unitCore →
      exec (.farAtomicReply r) s = .next (s.splitReply r.core))

/-- R37: a walk that has begun ends: its entry is in the cluster's TLB and the accesses that waited for a page it covers may
resume; one that faults installs nothing, and its fault waits for each of them. R39: one that an invalidation has covered
installs nothing, and its accesses walk again; an invalidation that completes leaves no entry that it names in any TLB. R40, R252, R259:
an access from another package is served by its owner, or goes on with its page, once no batch of window parts that is due waits. R40, R44, R260: a reply, deciphered and with this
package's own parts over it, goes to the chunk of the core that waits for its line.
The model's own readings that this rests on: log 44, log 45, log 59. -/
def Obligations.TranslationEvents : Prop :=
  ∀ s : State, s.paused = false →
    (∀ cl id w, (s.cluster cl).walks.find? (fun x => x.id == id) = some w → w.begun = true →
      (w.void_ = true → ∃ t, exec (.walkComplete cl id) s = .next t ∧ t.mem = s.mem ∧ (t.cluster cl).tlb = (s.cluster cl).tlb ∧
        ∀ i n, (i, n) ∈ s.walkers w → (t.core i).need = .none) ∧
      (∀ s1 e, w.void_ = false → s.walkNow w.kid cl (w.va * 4096) = (s1, .ok e) →
        ∃ t, exec (.walkComplete cl id) s = .next t ∧ t.mem = s1.mem ∧ (t.cluster cl).tlb.head? = some e ∧
          (e.va ≤ w.va * 4096 → w.va * 4096 < e.va + e.size → ∀ i n, (i, n) ∈ s.walkers w → (t.core i).need = .resume)) ∧
      (∀ s1 code, w.void_ = false → s.walkNow w.kid cl (w.va * 4096) = (s1, .error code) →
        ∃ t, exec (.walkComplete cl id) s = .next t ∧ t.mem = s1.mem ∧ (t.cluster cl).tlb = (s1.cluster cl).tlb ∧
          (s.walkers w ≠ [] → ({ kid := w.kid, va := w.va, code := code, cores := (s.walkers w).map (·.1) } : WalkFault) ∈
            (t.cluster cl).walkFaults) ∧
          ∀ i n, (i, n) ∈ s.walkers w → (t.core i).need = .none)) ∧
    (∀ job j, s.sysJobs.find? (fun x => x.id == job && x.f == 3) = some j →
      ∃ t, exec (.tlbInvalidationComplete job) s = .next t ∧
        (∀ p ∈ t.clusters, ∀ e ∈ p.2.tlb, tlbMatches j.x j.y e.kid e.va e.size = false)) ∧
    (∀ r : FwdReq, s.movedPage r.kid r.addr = none → r.addr < hbmSize → s.claimed (r.addr / 128) = false →
      s.inTransit (r.addr / 128) = false → s.itemsOf 0 = [] → s.batchesHold = false → combinedWell r = true →
      exec (.forwardedAccess r) s = .next (match r.atomic with
        | some a => let t := s.countForward (s.pageOf r.kid r.addr / 4096) r.pkg
                    { t with items := t.items ++ [.remoteAtomic a r.more r.line] }
        | none => (s.countForward (s.pageOf r.kid r.addr / 4096) r.pkg).serveForward r)) ∧
    (∀ r : FwdReq, ∀ m, s.movedPage r.kid r.addr = some m → combinedWell r = true → exec (.forwardedAccess r) s = .next (s.forwardOn r m)) ∧
    (∀ core line (x : CipherLine) poison, core ≠ unitCore → (s.core core).need = .remote line x.tag →
      let d := s.overlayParts line (s.decipher x.kid (remoteAddr line / 128) x.key x.data)
      ∃ t, exec (.forwardedReply core line x poison) s = .next t ∧ t.mem = s.mem ∧
        t.core core = (s.core core).takeLine line x.tag d poison ∧ (∀ j, j ≠ core → t.core j = s.core j) ∧
        (t.core core).need = .none ∧ ∃ k, (t.core core).run = some k ∧ (k.remote.find line).isSome = true)

/-- R41: every 64 µs the counts that have reached MIGTHR ask for a migration and start again. R42: a page that its owner moves
leaves for the package that asked, is received there, and its group is retargeted everywhere else, once nothing here knows the
page by its name. R43, R320: a key that retires leaves no TLB entry under it and its key ID Free. R383: a granule that has been
copied is free again, and its pseudo-channel's next follows.
The model's own readings that this rests on: log 37 (the granules of a pseudo-channel are copied one after another, in ascending
order), log 41, log 62. -/
def Obligations.PageEvents : Prop :=
  ∀ s : State,
    (s.paused = false → s.lastMig + 96000 ≤ s.cyc →
      ∃ t, exec .migrationInterval s = .next t ∧ t.mem = s.mem ∧ t.lastMig = s.lastMig + 96000 ∧
        (∀ e ∈ t.mig, ∀ p ∈ e.counts, p.2 = 0) ∧
        (fld s.svc.migthr 15 0 ≠ 0 → ∀ e ∈ s.mig, ∀ p ∈ e.counts, fld s.svc.migthr 15 0 ≤ p.2 → (e.page, p.1) ∈ t.migQ)) ∧
    (∀ m : PageMove, s.paused = false → s.domain = true → m.owner = s.pkg → m.dest ≠ s.pkg → m.dest < s.npkg →
      s.group m.kid 0 0 m.base m.size ≠ [] → (m.base / 4096, m.dest) ∈ s.migQ → m.frame % m.size = 0 →
      s.pageInUse (m.base / 128) (m.size / 128) = false →
      exec (.migration m) s = .next (s.pageOut m (s.group m.kid 0 0 m.base m.size))) ∧
    (∀ m : PageMove, s.paused = false → s.domain = true → m.owner ≠ s.pkg → m.dest = s.pkg → m.frame % m.size = 0 →
      m.frame + m.size ≤ hbmSize → m.data.length = m.size → m.size % 4096 = 0 →
      s.pageInUse (m.frame / 128) (m.size / 128) = false →
      s.pageInUse (remoteKey m.owner m.base / 128) (m.size / 128) = false →
      exec (.migration m) s = .next (s.pageIn m (s.group m.kid 2 m.owner m.base m.size))) ∧
    (∀ r : Retarget, s.paused = false → r.dest ≠ s.pkg →
      s.pageInUse (remoteKey r.owner r.base / 128) (r.size / 128) = false →
      exec (.retargetRequest r) s = .next ((s.retarget (s.group r.kid 2 r.owner r.base r.size) r.dest 2 r.frame).followPage
        r.owner r.base r.dest r.frame r.size)) ∧
    (∀ kid, s.paused = false → (s.keys.get kid (.free, 0)).1 = .retiring → (∀ j ∈ s.sysJobs, j.x.toNat ≠ kid) →
      ∃ t, exec (.keyRetireComplete kid) s = .next t ∧ (t.keys.get kid (.free, 0)).1 = .free ∧
        (∀ p ∈ t.clusters, ∀ e ∈ p.2.tlb, e.kid ≠ kid)) ∧
    (∀ x l, s.paused = false → s.transit = x :: l →
      (x.rest = none → exec .granuleCopyComplete s = .next { s with transit := l }) ∧
      (∀ pc n, x.rest = some (pc, n + 1) → exec .granuleCopyComplete s = .next { s with
        transit := l ++ [{ base := granuleBase pc (524287 - n), size := 2048, rest := some (pc, n) }] }) ∧
      (∀ pc, x.rest = some (pc, 0) → exec .granuleCopyComplete s = .next { s with transit := l }))

/-- R53, R399: a snoop drops the line from the L2 slice that holds it and is answered with whether it was there. R400: the host's
answer to a back-invalidate snoop ends its copy, and the line is no longer being snooped. R256, R400: a host write to device memory
waits for its grant, a host write to its own memory changes that memory, and a host read of device memory returns the committed bytes. R63: a cell decides its
carve-out every 64 µs and starts its counts again, and applies none while a log is written or replayed (R417). R64: a quad takes
its new role, one that leaves the cache once its lines have room in the quads that stay.
The model's own readings that this rests on: log 30, log 34, log 48 (what a host's snoop does here and how it is answered is the
model's choice), log 64 (when the 64 µs intervals count from). -/
def Obligations.HostAndCacheEvents : Prop :=
  ∀ s : State,
    (∀ hpa, ∃ t, exec (.hostSnoop hpa) s = .next t ∧ t.mem = s.mem ∧
      t.outs.getLast? = some (.snoopReply (hostKey hpa / 128) (s.l2Way (hostKey hpa / 128)).isSome) ∧
      (∀ p ∈ t.l2, ∀ w ∈ p.2, w.line ≠ hostKey hpa / 128)) ∧
    (∀ line, s.snooping line = true →
      ∃ t, exec (.backInvalidateSnoopResponse line) s = .next t ∧ t.mem = s.mem ∧ t.cores = s.cores ∧ line ∉ t.snoops ∧
        t.snooping line = false ∧
        (∀ p ∈ t.l2, ∀ x ∈ p.2, x.line = line → x.snooped = false)) ∧
    (∀ hpa data, s.inHdm hpa data.length = true →
      exec (.hostMemWrite hpa data) s =
        .next { s with items := s.items ++ [.host (cellsFrom (hpa - s.hdmBase) data) none none] }) ∧
    (∀ hpa data, s.inHdm hpa data.length = false → hpa + data.length ≤ 2 ^ 52 →
      ∃ t, exec (.hostMemWrite hpa data) s = .next t ∧ t.mem = memWriteN s.mem (hostKey hpa) data ∧ t.cores = s.cores) ∧
    (∀ hpa len, s.paused = false → s.afterPause = false → s.inHdm hpa len = true → (linesOf (hpa - s.hdmBase) len).any s.snooping = false →
      (linesOf (hpa - s.hdmBase) len).any s.claimed = false → (linesOf (hpa - s.hdmBase) len).any s.inTransit = false →
      ∃ t, exec (.hostMemRead hpa len) s = .next t ∧ t.mem = s.mem ∧
        t.outs.getLast? = some (.hostData (memReadN s.mem (hpa - s.hdmBase) len)
          ((linesOf (hpa - s.hdmBase) len).any s.poisoned))) ∧
    (∀ cell, s.paused = false → (s.cell cell).cfgJob ≠ 0 → cmFixed (s.cell cell).cmcfg = false →
      (s.cell cell).lastCarve + 96000 ≤ s.cyc →
      ∃ t, exec (.carveoutInterval cell) s = .next t ∧ t.mem = s.mem ∧ t.cores = s.cores ∧
        (t.cell cell).cntA = 0 ∧ (t.cell cell).cntG = 0 ∧ (t.cell cell).cntL = 0 ∧
        (t.cell cell).lastCarve = (s.cell cell).lastCarve + 96000 ∧
        (s.svc.logMode ≠ 0 ∨ (s.cell cell).decide63 = none → (t.cell cell).change = (s.cell cell).change) ∧
        (∀ q r, s.svc.logMode = 0 → (s.cell cell).change = [] → (s.cell cell).decide63 = some (q, r) →
          (t.cell cell).change = [(q, r)])) ∧
    (∀ cell quad r, s.paused = false → (s.cell cell).change.find quad = some r →
      ((s.cell cell).role quad ≠ 1 ∨ s.quadFree cell = true) →
      exec (.quadRoleChange cell quad) s = .next (s.setRole cell quad r.toNat))

/-! ## Events of tasks and chunks -/

/-- R327, R338: a placed task starts together with the members of its gang that were placed with it, once what their starts read is
here: with the constant bank and s0 to s7 as the scheduler gives them, pc = ENTRY, and its entry check. R128, R342: a core at rest
that is asked to save writes its context, as one commit whose bytes are then in memory and whose signature squashes what it meets,
and its task, marked to resume, goes to the end of its cluster's ready list or spill ring, its core free; R367: a save that faults
abandons the task; R370: a handler whose slice has expired fails there; R377: a member of a gang that restarts leaves its core
unsaved once its messages have left. R130, R328: a saved task continues, with its gang, with the registers of its save area. What a
start or a resume reads that is not here is asked for first, and a line that a copy has claimed is waited for.
The model's own readings that this rests on: log 17, log 24, log 25, log 36, log 55, log 56. -/
def Obligations.TaskEvents : Prop :=
  ∀ (s : State) (core : Nat) (t : Task), (s.core core).task = some t →
    (∀ s' bs, s.readAll (s.ctx core) t.startReads = (s', .ok bs) →
      let c := (s.startTask core).core core
      let s0 := if t.contSave.isSome then ofBytes (bs.getLastD []) else t.s0.toNat
      c.regs = startRegs t (if recW t.words 1 = 0 then 0 else ofBytes (bs.headD []))
        (if recShut t.words = true then s0 / 2 ^ 64 * 2 ^ 64 + t.member else s0) ∧
      c.regs.pc = recW t.words 0 ∧ c.regs.entry = true ∧ (∀ x, c.task = some x → x.started = true) ∧ c.run = none ∧ c.pend = none) ∧
    (match s.resumeRegs core t with
      | (u, .error a) => s.resumeTask core = u.cannotRun core t 0x0B a
      | (_, .ok (r, st)) =>
        let c := (s.resumeTask core).core core
        c.regs = r ∧ c.stalls = st ∧ c.run = none ∧ c.pend = none ∧
          c.task = some { t with entryAt := none, atClosure := false } ∧
          c.wait = if t.atClosure = true then .shutter else .none) ∧
    (s.paused = false →
      (∀ wait i used f, (wait, i, used, f) ∈
          [(CoreWait.start, Instr.taskStart core, s.startLines (s.mates core t), State.startTask),
           (CoreWait.resume, Instr.contextResume core, s.resumeLines (s.mates core t), State.resumeTask)] →
        (s.core core).wait = wait → s.anyClaimed used = false →
        (s.notHere used = [] → exec i s = .next (((s.mates core t).foldl f s).dropFar used)) ∧
        (s.notHere used ≠ [] → s.mayRead (s.notHere used) = true → exec i s = .next (s.ask t.kid (s.notHere used)))) ∧
      (∀ why, (s.core core).saveWhy = some why → (s.core core).atRest = true → (s.core core).fault = none →
        let stands := ((s.core core).wait = .none ∧ s.shutGang core = none) ∨ ((s.core core).wait = .shutter ∧ why = .shutter)
        (why = .restart → ((s.core core).wait = .none ∨ (s.core core).wait = .shutter) → s.sentAll core = true →
          exec (.contextSave core) s = .next (s.requeue core { t with lastPart := (s.core core).lastPart })) ∧
        (why = .slice → t.handlerOf.isSome = true → stands →
          exec (.contextSave core) s = .next ((s.taskEnds core t).handlerFails core t)) ∧
        (why ≠ .restart → (why = .slice → t.handlerOf = none) → stands →
          (∀ code a, s.saveCells core t.save false = .error (code, a) →
            exec (.contextSave core) s = .next ((s.saveWalk core t.save).cannotRun core t 0x0B a)) ∧
          (∀ m, s.saveCells core t.save false = .ok m → s.saveReady core m = true →
            let x := { ((s.core core).notesParts m s.window).savedTask t why with
              keep := if why = .spin then some core else t.keep }
            exec (.contextSave core) s = .next ((s.saveContext core t.kid t.save m).requeue core x) ∧
            x.words = t.words ∧ x.save = t.save ∧ x.resume = true ∧ (x.atClosure = true ↔ why = .shutter) ∧
            (x.entryAt = if (s.core core).regs.entry = true then some (s.core core).regs.pc else none))))) ∧
    (∀ m, s.svc.logMode = 0 → s.registrations = [] →
      let b := (s.saveWalk core t.save).dirtyAt (s.ctx core) t.save saveSize
      let u := s.saveContext core t.kid t.save m
      b.svc.logMode = 0 → b.registrations = [] → Claims.Plain b t.kid m →
      u.csn = b.csn + 1 ∧ Claims.Stored b u m ∧ ∀ j, Claims.Met (cellsSig m) b u j) ∧
    (∀ x : Task, x.gang = none → (∀ y ∈ (s.core core).regs.slots.toList, y.st ≠ .fetching) →
      let u := s.requeue core x
      (u.core core).task = none ∧ u.mem = s.mem ∧ (∀ j, j ≠ core → u.core j = s.core j) ∧
        ∃ e, e.tasks = [x] ∧ ((u.cluster (clusterOf core)).ready.getLast? = some e ∨
          (u.cluster (clusterOf core)).spill.getLast? = some e)) ∧
    (t.gang = none → s.mates core t = [core])

/-- R235, R237, R418: a running chunk of a task that does not wait ends at its target T, at 4,096 bundles, and in replay at
its logged length; it becomes pending where no chunk is. R242: a pending chunk that meets every condition requests its commit, once
the lines of other packages that its held work needs are here; those are asked for first, which no rule says: it is the model's
choice (log 56). R243: the latches of its cluster and its die offer the next request in round robin. R244, R246, R237: a squash
for a conflict takes the running chunk, or the pending chunk with the younger one, away; the registers return to the chunk's
start, from which it runs again, memory and the CSN stay, and T halves, not below 64; a commit of a chunk on its first try counts as
clean, and every fourth in a row doubles T, not above 4,096; after another try the count starts again.
The model's own readings that this rests on: log 23, log 56. -/
def Obligations.ChunkEvents : Prop :=
  ∀ (s : State),
    (∀ core k, (s.core core).wait = .none → (s.core core).run = some k → k.span = none → k.ended = none → k.fault = none →
      let ends := fun (i : Instr) => 0 < k.n → (s.core core).pend = none →
        ∃ t, exec i s = .next t ∧ t.mem = s.mem ∧ (t.core core).run = none ∧
          (t.core core).pend = some { k with ended := some .plain } ∧ (t.core core).requested = false ∧
          ∀ j, j ≠ core → t.core j = s.core j
      ((s.core core).target ≤ k.n → k.n < 4096 → s.svc.logMode ≠ 2 → (s.core core).speculating = false →
        ends (.chunkTargetReached core)) ∧
      (4096 ≤ k.n → s.svc.logMode ≠ 2 → ends (.chunkLimitReached core)) ∧
      (s.atReplayLen core = true → ends (.replayChunkCut core))) ∧
    (∀ core k, s.paused = false → (s.core core).pend = some k → s.mayRequest core k = true →
      k.atomic = none →
      (s.heldMissing core k = [] → (s.core core).requested = false → exec (.commitRequest core) s = .next
        ((s.setDirties (s.ctx core).kid (clusterOf core) k.dirty).modCore core fun c => { c with requested := true })) ∧
      (s.heldMissing core k ≠ [] → s.mayRead (s.heldMissing core k) = true →
        exec (.commitRequest core) s = .next (s.ask (s.ctx core).kid (s.heldMissing core k)))) ∧
    (∀ i k, (s.core i).run = some k →
      let t := conflictSquash s i false
      (t.core i).run = none ∧ (t.core i).pend = (s.core i).pend ∧
        (t.core i).regs = { k.start with nextId := (s.core i).regs.nextId } ∧
        (t.core i).target = max 64 ((s.core i).target / 2) ∧ (t.core i).clean = 0 ∧
        t.mem = s.mem ∧ t.csn = s.csn ∧ ∀ j, j ≠ i → t.core j = s.core j) ∧
    (∀ i k, (s.core i).pend = some k →
      let t := conflictSquash s i true
      (t.core i).run = none ∧ (t.core i).pend = none ∧ (t.core i).fault = none ∧ (t.core i).wait = .none ∧
        (t.core i).requested = false ∧ (t.core i).regs = { k.start with nextId := (s.core i).regs.nextId } ∧
        ((s.core i).run = none → (t.core i).target = max 64 ((s.core i).target / 2)) ∧ (t.core i).clean = 0 ∧
        t.mem = s.mem ∧ t.csn = s.csn ∧ ∀ j, j ≠ i → t.core j = s.core j) ∧
    (∀ (c : Machine.Core) k csn win,
      let d := c.granted k csn win
      (k.first = true → d.clean = c.clean + 1 ∧
        d.target = if (c.clean + 1) % 4 = 0 then min 4096 (2 * c.target) else c.target) ∧
      (k.first = false → d.clean = 0 ∧ d.target = c.target)) ∧
    (∀ cl i, s.paused = false → (s.cluster cl).offer = none →
      roundRobin (coresOf cl) (s.cluster cl).ptr s.asksLatch = some i →
      exec (.clusterLatchOffer cl) s = .next (s.setCluster cl { s.cluster cl with offer := some i })) ∧
    (∀ d cl, s.paused = false → (s.die d).offer = none →
      roundRobin (clustersOf d) (s.die d).ptr (fun cl => (s.cluster cl).offer.isSome) = some cl →
      exec (.dieLatchOffer d) s = .next (s.setDie d { s.die d with offer := some cl }))

/-- R243, R244, R384: the package latch grants one item that is due, the free choice saying which where the order is open;
an unassigned KIND in a replayed log makes the replay diverge, and a log at its limit ends. R239, R244, R245: the grant of a chunk
that ends plainly, with no work held until its grant, advances the CSN by one, puts its held bytes into committed memory and
changes no byte outside their lines, takes the chunk from its core, squashes every chunk of another core that its write signature
meets and leaves every other core as it was. R312, R389: a far atomic to another package leaves through its cell's injection
queue, and its chunk is settled.
The model's own readings that this rests on: log 21, log 23. -/
def Obligations.GrantEvents : Prop :=
  ∀ s : State,
    (s.logOver = true → exec .packageLatchGrant s = .next s.endReplay ∧ s.endReplay.svc.logMode = 0 ∧ s.endReplay.mem = s.mem ∧
      s.endReplay.cores = s.cores ∧ s.endReplay.csn = s.csn) ∧
    (s.logOver = false → s.badEntry = true → exec .packageLatchGrant s = .next s.diverge) ∧
    (s.paused = false → s.logOver = false → s.badEntry = false → s.picks ≠ [] →
      ∃ q ∈ s.picks, exec .packageLatchGrant s = .next (({ s with moment := s.moment + 1 } : State).grantPick q)) ∧
    (∀ i k t chosen, s.svc.logMode = 0 → s.registrations = [] → (s.core i).pend = some k → (s.core i).run = none →
      k.ended = some .plain → k.held = [] → k.afterError = false →
      (∀ x ∈ (s.core i).regs.slots.toList, x.chunk ≠ some k.seq) → Claims.Plain s t.kid k.stores →
      let u := s.grantPick (.chunk i k t chosen)
      u.csn = s.csn + 1 ∧ Claims.Stored s u k.stores ∧ (u.core i).pend = none ∧ (u.core i).run = none ∧
        (u.core i).regs.pc = (s.core i).regs.pc ∧ (u.core i).regs.s = (s.core i).regs.s ∧
        ∀ j, j ≠ i → Claims.Met k.wsig s u j) ∧
    (∀ core t k op x y h at_, s.paused = false → s.svc.logMode = 0 → (s.core core).task = some t →
      (s.core core).pend = some k → k.atomic = some (.fatom op x y h at_) → isRemote (at_ / 128) = true →
      s.mayRequest core k = true → (s.core core).lastPart = none → k.stores = [] → k.afterError = false →
      (s.core core).run = none → s.registrations = [] →
      ∃ u, exec (.remoteAtomicRelease core) s = .next u ∧ u.mem = s.mem ∧ u.csn = s.csn ∧ (u.core core).pend = none ∧
        (u.core core).atomicOut = some h ∧
        (u.cell (cellOf core)).inject.getLast? = some (.req (.atomic (remoteOwner (at_ / 128))
          { pkg := s.pkg, core := core, kid := t.kid, op := op, a := x, b := y,
            addr := remoteAddr (at_ / 128) + at_ % 128 }) core s.csn))

/-! ## Events of messages, windows, hoops and the shutter -/

/-- R389, R308: the oldest entry of an injection queue leaves it: a message for a core of a package that exists, an error message
back where none exists, a request for stage 0. R390, R308: a message that arrives takes an entry of its core's queue; at a sealed
cell and for a core that does not exist its sender is told, and under a key ID that is not Installed it is dropped. R182: a `wfence`
ends once its window is reached. R258, R263, R42: a part reaches its home, in time or late, or goes on with its page; R259: the
batch of a window that is due asks for its grant. R358, R391: what stage 0 has held leaves it, a lone request as it is. R318,
R347-R349: a shutter whose members have all closed evaluates its closure, and then opens its next phase, is saved whole, or ends.
R315, R352: a join fills a free slot; a refused one, and one for a slot that another hoop holds, writes a record, and one with
the descriptor and the key ID of the slot's own hoop changes nothing. R354: a slot home examines a vote: refused with 0x30, 0x32 or
0x33 in the order of the rule, or counted, with its place in the arrival map, and the round completed once all have come.
R357: a drop is refused for a slot, a member or a drop that is not there, and otherwise counts. R356: a round that times out gives
every voter 0x31, also before anything more reaches the slot. R316: the reply of a `hoopq` writes its register. R317, R358: a
result goes to the core whose vote it answers, and one that nothing waits for is discarded; R361, R365: a result with ERR takes the
speculative chunks away and its code waits for delivery at the `cbr`, a right guess frees them, with a fault that they held
for delivery, and a wrong one takes them away and goes on at the other address. R348: the closure gives every voter its result
word and is counted; a phase that opens starts each member at its routine, as an entry point with no loop open, and a member with
none waits as one that has closed.
The model's own readings that this rests on: log 25, log 26, log 27, log 28, log 31, log 45, log 60. -/
def Obligations.MessageHoopAndWindowEvents : Prop :=
  ∀ s : State,
    (∀ cell q, s.paused = false →
      let u := s.setCell cell { s.cell cell with inject := q }
      (∀ m c, (s.cell cell).inject = .msg m c :: q →
        (s.packageExists (m.dst.toNat / 2 ^ 16) = true → exec (.injectionSend cell) s = .next (u.dispatchMsg m)) ∧
        (s.packageExists (m.dst.toNat / 2 ^ 16) = false → exec (.injectionSend cell) s = .next (u.undeliverable m))) ∧
      (∀ o c n, (s.cell cell).inject = .req o c n :: q → s.mayInject (.req o c n) = true →
        exec (.injectionSend cell) s = .next (u.stage0 c o))) ∧
    (∀ m : Msg, coreOfId (m.dst.toNat % 2 ^ 16) = none → exec (.messageArrival m) s = .next (s.undeliverable m)) ∧
    (∀ (m : Msg) i, coreOfId (m.dst.toNat % 2 ^ 16) = some i → m.dst.toNat / 2 ^ 16 = s.pkg →
      ((s.cell (cellOf i)).sealed_ = true → exec (.messageArrival m) s = .next (s.undeliverable m)) ∧
      ((s.cell (cellOf i)).sealed_ = false → s.keyGone m.kid = true → exec (.messageArrival m) s = .next s) ∧
      ((s.cell (cellOf i)).sealed_ = false → s.keyGone m.kid = false → s.paused = false → (s.cell (cellOf i)).hasEntry i = true →
        exec (.messageArrival m) s = .next (s.acceptMsg m))) ∧
    (∀ core n, s.paused = false → (s.core core).wait = .window n → n ≤ s.window →
      exec (.wfenceResume core) s = .next (s.modCore core fun c => { c with wait := .none })) ∧
    (∀ p : Part,
      (∀ m, s.movedPage p.kid p.addr = some m → exec (.windowPartArrival p) s =
        .next { s with outs := s.outs ++ [.part m.owner { p with addr := m.frame + (p.addr - m.base) }] }) ∧
      (s.movedPage p.kid p.addr = none → p.home ≠ s.pkg →
        exec (.windowPartArrival p) s = .next { s with late := s.late ++ [p] }) ∧
      (s.movedPage p.kid p.addr = none → p.home = s.pkg → (∀ w, s.lastBatch = some w → w < p.win) →
        exec (.windowPartArrival p) s = .next { s with parts := s.parts ++ [p] }) ∧
      (∀ w, s.movedPage p.kid p.addr = none → p.home = s.pkg → s.lastBatch = some w → p.win ≤ w →
        exec (.windowPartArrival p) s = .next
          ((({ s with late := s.late ++ [p] } : State).packageError 0 6 (BitVec.ofNat 64 p.addr) p.kid).raiseVerdict p.kid 0
            (if s.svc.logMode = 1 then 2 else 1)))) ∧
    (∀ win, s.batchDue win = true → s.hasBatch win = false → (∀ w, s.lastBatch = some w → w < win) →
      ((∃ p ∈ s.parts, p.win = win) ∨ s.late ≠ []) → (∀ p ∈ s.parts, win ≤ p.win) →
      exec (.windowBatchRequest win) s = .next { s with items := s.items ++ [.batch win] }) ∧
    (∀ h l, s.holds = h :: l → exec .combineHoldExpiry s = .next (s.release h)) ∧
    (∀ h, s.holds = [h] → h.out.combines = true → exec .combineHoldExpiry s = .next (({ s with holds := [] } : State).letGo h.out)) ∧
    (∀ gang g m l, s.paused = false → s.gangs.find gang = some g → g.members = m :: l → g.shut = true → g.restart = false →
      (let used := (s.closureLines (s.ctx m.2) g).eraseDups
       g.out = none → (∀ x ∈ g.members, g.ended.any (·.1 == x.1) = true) → s.anyClaimed used = false →
        (s.notHere used = [] → exec (.shutterClose gang) s = .next (s.closePhase gang g (s.ctx m.2))) ∧
        (s.notHere used ≠ [] → s.mayRead (s.notHere used) = true →
          exec (.shutterClose gang) s = .next (s.ask (s.ctx m.2).kid (s.notHere used)))) ∧
      (let c := s.ctx m.2
       let used := if (∃ x ∈ g.members, (s.core x.2).saveWhy ≠ none) ∧ g.out.map (·.1) ≠ some true then []
         else (s.openingLines c g).eraseDups
       g.out.isSome = true → g.transfers = 0 → s.allAtBarrier g = true → s.sentWithin g = true →
        (∃ x ∈ g.members, (s.core x.2).saveWhy ≠ some .shutter) → s.anyClaimed used = false →
        (s.notHere used ≠ [] → s.mayRead (s.notHere used) = true →
          exec (.shutterReopen gang) s = .next (s.ask c.kid (s.notHere used))) ∧
        (s.notHere used = [] →
          (∀ u a, s.nextPhase c g = (u, .error a) → exec (.shutterReopen gang) s = .next (u.shutFails g a)) ∧
          (∀ u n, s.nextPhase c g = (u, .ok n) →
            let g' : Gang := { g with phase := n, out := g.out.map fun o => (false, o.2) }
            exec (.shutterReopen gang) s =
              .next (({ u with gangs := u.gangs.put gang g' } : State).enterPhase gang g' c))))) ∧
    (∀ gang (g : Gang) c,
      (g.phase = 0xFFFF → s.enterPhase gang g c = g.members.foldl State.shutEnds s) ∧
      (g.phase ≠ 0xFFFF → (∃ x ∈ g.members, (s.core x.2).saveWhy ≠ none) →
        s.enterPhase gang g c = g.members.foldl (fun s m => s.modCore m.2 fun c => { c with saveWhy := some .shutter }) s) ∧
      (let used := (s.openingLines c g).eraseDups
       g.phase ≠ 0xFFFF → (∀ x ∈ g.members, (s.core x.2).saveWhy = none) → s.anyClaimed used = false → s.notHere used = [] →
        (∀ u rs, s.routines c g = (u, .ok rs) → s.enterPhase gang g c = (u.dropFar used).openPhase gang g rs) ∧
        (∀ u a, s.routines c g = (u, .error a) → s.enterPhase gang g c = (u.dropFar used).shutFails g a))) ∧
    (∀ gang (g : Gang) rs, (g.members.map (·.2)).Nodup →
      let u := s.openPhase gang g rs
      u.mem = s.mem ∧
      (∃ x, u.gangs.find gang = some x ∧ x.out = none ∧ x.phase = g.phase ∧ x.members = g.members ∧
        x.ended = ((List.zip g.members rs).filter fun p => p.2 == 0).map fun p => (p.1.1, none)) ∧
      ∀ p ∈ List.zip g.members rs,
        (p.2 = 0 → u.core p.1.2 = s.core p.1.2) ∧
        (p.2 ≠ 0 → (u.core p.1.2).regs = { (s.core p.1.2).regs with pc := p.2, entry := true, levels := [] } ∧
          (u.core p.1.2).wait = .none)) ∧
    (∀ gang (g : Gang) c u, (g.members.map (·.2)).Nodup → (∀ p ∈ s.gangs, p.2.todo = []) →
      let votes := g.members.map fun m => ((g.ended.find? (·.1 == m.1)).map (·.2)).getD none
      let v := (List.zip g.members votes).foldl (fun s p => match p.2 with
        | some v => s.modCore p.1.2 fun c => { c with regs := c.regs.putS v.2.2.2 (closureResult g votes).1 }
        | none => s) s
      v.transferList c g = (u, .ok []) →
      let t := s.closePhase gang g c
      t.mem = u.mem ∧
      t.gangs.find gang = some { g with closures := g.closures + 1, ended := [], out := some (true, (closureResult g votes).2),
                                        transfers := 0, todo := [] } ∧
      ∀ p ∈ List.zip g.members votes,
        (∀ x, p.2 = some x → (t.core p.1.2).regs = (s.core p.1.2).regs.putS x.2.2.2 (closureResult g votes).1) ∧
        (p.2 = none → t.core p.1.2 = s.core p.1.2)) ∧
    (∀ j : Join,
      let refused := s.packageError 0 6 j.addr j.kid
      (j.desc = none → exec (.hoopJoinArrival j) s = .next refused) ∧
      (∀ d, j.desc = some d →
        let slot := fld (word512 d 1) 11 0
        let t := (s.mapOk j.kid (word512 d 0) ((fld (word512 d 1) 37 12 + 255) / 256 * 64)).1
        let maps := (s.mapOk j.kid (word512 d 0) ((fld (word512 d 1) 37 12 + 255) / 256 * 64)).2
        (hoopBad d = true → exec (.hoopJoinArrival j) s = .next refused) ∧
        (hoopBad d = false → maps = false → exec (.hoopJoinArrival j) s = .next (t.packageError 0 6 j.addr j.kid)) ∧
        (hoopBad d = false → maps = true →
          (t.hoops.find slot = none →
            exec (.hoopJoinArrival j) s = .next { t with hoops := t.hoops.put slot (newHoop j.kid j.addr d) }) ∧
          (∀ h, t.hoops.find slot = some h → exec (.hoopJoinArrival j) s =
            .next (if h.addr = j.addr ∧ h.kid = j.kid then t else t.packageError 0 6 j.addr j.kid))))) ∧
    (∀ v : Vote,
      let slot := hrefSlot v.href
      let i := hrefMidx v.href
      let u := s.expireFirst slot
      let back := (v.pkg, v.core, v.tag)
      (u.hoops.find slot = none →
        exec (.voteArrival v) s = .next (u.sendResult slot (resultWord 0 0x30 false false) back)) ∧
      (∀ h, u.hoops.find slot = some h →
        let refuse := fun (x : State) (code : Nat) => x.sendResult slot (resultWord h.round code h.shrunk false) back
        (h.kid ≠ v.kid ∨ fld v.href 63 38 ≠ 0 ∨ h.nmem ≤ i → exec (.voteArrival v) s = .next (refuse u 0x30)) ∧
        (∀ x vb d, h.kid = v.kid → fld v.href 63 38 = 0 → i < h.nmem → u.mapBits h i true = (x, vb, d) →
          (d = true → exec (.voteArrival v) s = .next (refuse x 0x30)) ∧
          (d = false → v.opr ≠ h.opr → exec (.voteArrival v) s = .next (refuse x 0x32)) ∧
          (d = false → v.opr = h.opr → vb ≠ (h.round % 2 == 1) → exec (.voteArrival v) s = .next (refuse x 0x33)) ∧
          (d = false → v.opr = h.opr → vb = (h.round % 2 == 1) →
            let h' : Hoop := { h with arr := h.arr + 1, truth := h.truth + bit v.pred,
                                      timer := if h.arr = 0 ∧ h.fixed.isNone then some ((x.setMap h i fun b => b ^^^ 1).dt + 1000 * h.tmo)
                                        else h.timer,
                                      voters := h.voters ++ [back] }
            let y : State := { x.setMap h i fun b => b ^^^ 1 with hoops := (x.setMap h i fun b => b ^^^ 1).hoops.put slot h' }
            (h.fixed = none → exec (.voteArrival v) s = .next (y.checkRound slot)) ∧
            (∀ w, h.fixed = some w → exec (.voteArrival v) s = .next ((y.sendResult slot w back).checkRound slot)))))) ∧
    (∀ d : Drop,
      let slot := hrefSlot d.href
      let i := hrefMidx d.href
      let u := s.expireFirst slot
      (u.hoops.find slot = none → exec (.hoopdropArrival d) s = .next (u.report d.pkg d.ctr false)) ∧
      (∀ h, u.hoops.find slot = some h →
        (h.nmem ≤ i → exec (.hoopdropArrival d) s = .next (u.report d.pkg d.ctr false)) ∧
        (∀ x v, i < h.nmem → u.mapBits h i true = (x, v, true) →
          exec (.hoopdropArrival d) s = .next (x.report d.pkg d.ctr false)) ∧
        (∀ x v, i < h.nmem → u.mapBits h i true = (x, v, false) →
          let arrived := v != (h.round % 2 == 1)
          let y := (x.setMap h i fun b => b ||| 2).report d.pkg d.ctr true
          let h' : Hoop := { h with epoch := h.epoch + 1, shrunk := true, live := if arrived then h.live else h.live - 1,
                                    leaving := if arrived then h.leaving + 1 else h.leaving }
          exec (.hoopdropArrival d) s = .next (({ y with hoops := y.hoops.put slot h' } : State).checkRound slot)))) ∧
    (∀ slot h at_, s.hoops.find slot = some h → h.timer = some at_ →
      (at_ ≤ s.dt → s.expireFirst slot = s.expire slot h ∧ exec (.hoopRoundTimeout slot) s = .next
        (h.voters.foldl (fun s v => s.sendResult slot (resultWord h.round 0x31 h.shrunk false) v)
          { s with hoops := s.hoops.put slot { h with timer := none, fixed := some (resultWord h.round 0x31 h.shrunk false) } })) ∧
      (s.dt < at_ → s.expireFirst slot = s)) ∧
    (∀ core f value, s.paused = false → (s.core core).hoopqFlight = some f →
      (s.slotHome (hrefSlot f.href) = s.pkg → value = s.hoopValue (s.ctx core).kid f.href f.code.toNat) →
      exec (.hoopqReply core value) s = .next (s.modCore core fun c =>
        (c.onChunkOf f.chunk (Chunk.fillValue 2 f.id 0 [value])).onAll (Regs.endFlight f.id fun r => r.putS f.dst value))) ∧
    (∀ core tag word,
      ((s.core core).spec = none → exec (.voteResultArrival core tag word) s = .next s) ∧
      (∀ p, (s.core core).spec = some p →
        (p.resolved = true ∨ p.tag ≠ tag → exec (.voteResultArrival core tag word) s = .next s) ∧
        (s.paused = false → s.svc.logMode ≠ 2 → p.resolved = false → p.tag = tag →
          exec (.voteResultArrival core tag word) s = .next (s.resolve core p word)))) ∧
    (∀ core p (w : Word64),
      let t := s.resolve core p w
      t.mem = s.mem ∧ (∀ j, j ≠ core → t.core j = s.core j) ∧
      (bitAt w 2 = true ∨ bitAt w 0 ≠ p.guess ∨ (s.core core).heldFault.isSome = true →
        (t.core core).run = none ∧ (t.core core).pend = none) ∧
      (bitAt w 2 = true ∨ (bitAt w 0 = p.guess ∧ (s.core core).heldFault.isSome = true) → ∀ x ∈ t.token, x.1 ≠ core) ∧
      (bitAt w 2 = true →
        (t.core core).wait = .deliver ∧ (t.core core).spec = none ∧
        (t.core core).carry = (s.core core).carry ++ [⟨5, 0, [w]⟩] ∧
        (p.guess = true → (t.core core).regs.pc = p.alt.1) ∧
        (p.guess = false → ∀ k, (s.core core).pend = some k → (t.core core).regs.pc = k.start.pc) ∧
        ∃ f, (t.core core).fault = some f ∧ f.code = w.extractLsb' 8 8 ∧ f.pc = (t.core core).regs.pc ∧ f.fpc = p.cbr) ∧
      (bitAt w 2 = false → bitAt w 0 = p.guess → (s.core core).heldFault = none →
        t.core core = { s.core core with spec := some { p with resolved := true, word := w } }) ∧
      (∀ f, bitAt w 2 = false → bitAt w 0 = p.guess → (s.core core).heldFault = some f →
        (t.core core).wait = .deliver ∧ (t.core core).fault = some f) ∧
      (bitAt w 2 = false → bitAt w 0 ≠ p.guess →
        (t.core core).regs.pc = p.alt.1 ∧ (t.core core).regs.levels = p.alt.2.1 ∧ (t.core core).regs.lc = p.alt.2.2 ∧
        (t.core core).spec = some { p with resolved := true, word := w, guess := bitAt w 0 }))

/-! ## Events of launching and scheduling -/

/-- R401, R429: the control word of a ring that is enabled sets HEAD and TAIL to 0, one written while EN = 1 keeps SIZE, and one
with EN = 0 stands as written; an enabled ring with an illegal SIZE stops, and one that has stopped is not reported again; a
doorbell has the head examined again, unless ERR stands, and brings the package back to Run, one that claims more than the ring
holds stops the ring; clearing ERR leaves the ring to the next doorbell; a ring examines the record at its head once the package is
brought up, asks for the lines of other packages that it needs, waits for a line that a copy has claimed, and stops at one that is
poisoned. R341, R402: a record whose predecessor is still at work waits, one whose predecessor is not known, or has failed where the
record says skip, or whose job has no context is taken and its completion record, with its reason, is queued, one that only has
failed is held, and any other is taken. R336-R338, R343: a scheduler makes its next choice, and places the entry that goes first
on the cores that it fits; R331: a spilled entry comes back; R338,
R343: a gang whose reservation has run out releases its cores, but an urgent head keeps them; R339, R346: a scheduler with a free
core takes an entry of another cluster, and the round of those that would have taken it is over; R342, R370, R458: a slice ends with
a save where an entry waits, with the end of a handler, or starts again; R343: an entry that has waited 8 ms is urgent.
The model's own readings that this rests on: log 17, log 33, log 35, log 46 (when the package is brought up). -/
def Obligations.LaunchAndScheduleEvents : Prop :=
  ∀ s : State,
    (∀ ring (word : Word64), ring < 16 →
      (bitAt word 7 = false →
        exec (.launchRingEnable ring word) s = .next (s.setRing ring { s.ring ring with
          ctl := if (s.ring ring).en = true then setFld (word &&& 0xFF9F) 4 0 (s.ring ring).size else word &&& 0xFF9F })) ∧
      (let u := s.setRing ring { s.ring ring with ctl := word &&& 0xFF9F, head := 0, tail := 0 }
       bitAt word 7 = true → (s.ring ring).en = false →
        (6 ≤ fld word 4 0 → fld word 4 0 ≤ 16 → exec (.launchRingEnable ring word) s = .next u) ∧
        ((s.ring ring).err = false → (fld word 4 0 < 6 ∨ 16 < fld word 4 0) →
          exec (.launchRingEnable ring word) s = .next (u.ringErr ring)) ∧
        ((s.ring ring).err = true → exec (.launchRingEnable ring word) s = .next u)) ∧
      (let u := s.setRing ring { s.ring ring with ctl := setFld (word &&& 0xFF9F) 4 0 (s.ring ring).size }
       bitAt word 7 = true → (s.ring ring).en = true →
        (6 ≤ (s.ring ring).size → (s.ring ring).size ≤ 16 → exec (.launchRingEnable ring word) s = .next u) ∧
        ((s.ring ring).err = false → ((s.ring ring).size < 6 ∨ 16 < (s.ring ring).size) →
          exec (.launchRingEnable ring word) s = .next (u.ringErr ring)) ∧
        ((s.ring ring).err = true → exec (.launchRingEnable ring word) s = .next u))) ∧
    (∀ ring tail, ring < 16 →
      let u := (s.setRing ring { s.ring ring with tail := tail, examine := true, stopped := false }).backToRun
      let large := (s.ring ring).sizeBad = true ∨ 2 ^ (s.ring ring).size < (tail - (s.ring ring).head).toNat
      ((s.ring ring).err = true →
        exec (.launchRingDoorbell ring tail) s = .next (s.setRing ring { s.ring ring with tail := tail }).backToRun) ∧
      ((s.ring ring).err = false → (s.ring ring).en = false ∨ ¬ large → exec (.launchRingDoorbell ring tail) s = .next u) ∧
      ((s.ring ring).err = false → (s.ring ring).en = true → large →
        exec (.launchRingDoorbell ring tail) s = .next (u.ringErr ring))) ∧
    (∀ ring, let u := s.ringErr ring
      (u.ring ring).err = true ∧ (u.ring ring).stopped = true ∧ (u.ring ring).examine = false ∧ u.mem = s.mem ∧ u.cores = s.cores ∧
        u.outs = s.outs ++ [.msix 2]) ∧
    (∀ ring, ring < 16 → exec (.launchRingErrClear ring) s = .next (s.setRing ring { s.ring ring with err := false })) ∧
    (∀ ring, ring < 16 → s.paused = false → (s.ring ring).en = true → (s.ring ring).err = false → (s.ring ring).stopped = false →
      (s.ring ring).examine = true → s.broughtUp = true →
      let k := s.hpaKey (fld (s.ring ring).base 51 12 * 4096 + 64 * ((s.ring ring).head.toNat % 2 ^ (s.ring ring).size))
      let l := launchRec (BitVec.ofNat 512 (ofBytes (memReadN s.mem k 64)))
      ((s.ring ring).head = (s.ring ring).tail →
        exec (.launchRecord ring) s = .next (s.setRing ring { s.ring ring with examine := false })) ∧
      ((s.ring ring).head ≠ (s.ring ring).tail → s.mayRead (s.launchMissing l) = true → s.anyClaimed (s.launchLines l) = false →
        exec (.launchRecord ring) s = .next (if s.poisoned (k / 128) then s.ringErr ring else s.examine ring l))) ∧
    (∀ ring l,
      let u := s.examine ring l
      let n := s.nextLaunch
      let taken := u.nextLaunch = n + 1 ∧ (u.ring ring).head = (s.ring ring).head + 1
      let refused := fun (reason : Nat) => taken ∧ u.mem = s.mem ∧ u.items = s.items ++ [.record n] ∧
        u.launches.find n = some { ring := ring, kid := l.kid, lseq := l.lseq, crec := l.crec, live := 0, tasks := 0, level := 3,
                                   reason := reason, completed := false }
      (l.prev = 0 → s.launchMissing l ≠ [] → u = s.ask l.kid (s.launchMissing l)) ∧
      (l.prev = 0 → s.launchMissing l = [] → taken ∧ ((s.takeHead ring l).1.contextBad l.kid = true → refused 1)) ∧
      (l.prev ≠ 0 →
        let last := ((s.ring ring).seqs.filter fun p => p.1 == l.prev).getLast?
        (last = none → refused 3) ∧
        (∀ x m p, last = some (x, m) → s.launches.find m = some p →
          (p.completed = false → u = s.setRing ring { s.ring ring with waitp := true, held := false, examine := false }) ∧
          (p.completed = true → 2 ≤ p.level → l.proc = false → l.skip = true → refused 4) ∧
          (p.completed = true → 2 ≤ p.level → l.proc = false → l.skip = false →
            u = s.setRing ring { s.ring ring with held := true, waitp := false, examine := false })))) ∧
    (∀ cl t, s.paused = false → cl < 384 → s.schedule cl = some t → exec (.taskPlacement cl) s = .next t) ∧
    (∀ cl, s.unrunEntry cl = none → (s.cluster cl).draining = false → s.joining cl = none → s.urgentFirst cl = none →
      s.toReserve cl = none →
      let fits := (s.cluster cl).listed.filter fun e => (s.fit cl e).isSome
      (s.pickEntry cl fits = none → s.schedule cl = none) ∧
      (∀ e l, s.pickEntry cl fits = some e → s.fit cl e = some l → s.schedule cl = some (s.placeEntry cl e l))) ∧
    (∀ cl (e : Entry) t i, e.tasks = [t] → t.gang = none →
      let u := s.placeEntry cl e [i]
      (u.core i).task = some { t with keep := none } ∧
      (u.core i).wait = (if t.resume = true then .resume else .start) ∧ (u.core i).run = none ∧ (u.core i).pend = none ∧
      (u.core i).target = 1024 ∧
      (∀ x, x ∈ (u.cluster cl).ready ∨ x ∈ (u.cluster cl).spill → x.id ≠ e.id) ∧
      (∀ x ∈ (u.cluster cl).resvs, x.entry ≠ e.id)) ∧
    (∀ cl e l, s.paused = false → (s.cluster cl).spill = e :: l → (s.cluster cl).ready.length < 1024 →
      exec (.spillReturn cl) s =
        .next (s.setCluster cl { s.cluster cl with ready := (s.cluster cl).ready ++ [e], spill := l })) ∧
    (∀ cl r, s.paused = false → s.expired cl = some r →
      ((s.cluster cl).urgentHead.map (·.id) ≠ some r.entry →
        ∃ t, exec (.gangReservationExpiry cl) s = .next t ∧ t.mem = s.mem ∧ t.cores = s.cores ∧
          (∀ x ∈ (t.cluster cl).resvs, x.entry ≠ r.entry)) ∧
      ((s.cluster cl).urgentHead.map (·.id) = some r.entry →
        ∃ t, exec (.gangReservationExpiry cl) s = .next t ∧ t.mem = s.mem ∧ t.cores = s.cores ∧
          (t.cluster cl).resvs = (s.cluster cl).resvs.map fun x => if x.entry = r.entry then { x with until_ := none } else x)) ∧
    (∀ cl v e, s.paused = false → cl < 384 → s.stealDue cl = true → s.stealFrom cl = some (v, e) →
      (∀ j, j < cl % 48 → s.stealDue (cl / 48 * 48 + j) = false) →
      ∃ t, exec (.stealAttempt cl) s = .next t ∧
        (∀ l x i, s.fit cl e = some l → l = [i] → e.tasks = [x] → x.gang = none → (t.core i).task = some { x with keep := none }) ∧
        (∀ x ∈ (t.cluster v).ready, x.id ≠ e.id) ∧
        (∀ x, x = cl ∨ x ∈ s.losers cl v e → (t.cluster x).nextSteal = (s.cyc / 256 + 1) * 256)) ∧
    (∀ core t, s.paused = false → (s.core core).task = some t → t.firmware = false →
      1500 * (s.job t.kid).slice ≤ s.cyc - (s.core core).sliceFrom → (s.core core).saveWhy = none → (s.core core).fault = none →
      (s.core core).wait ≠ .start → (s.core core).wait ≠ .resume →
      let again := s.modCore core fun c => { c with sliceFrom := s.cyc }
      (t.handlerOf.isSome = true → exec (.sliceExpiry core) s = .next (s.askSave core .slice)) ∧
      (t.handlerOf = none → t.gang = none →
        exec (.sliceExpiry core) s =
          .next (if ((s.cluster (clusterOf core)).ready ++ (s.cluster (clusterOf core)).spill).any
              (fun e => (s.fit (clusterOf core) e).isNone) then again.askSave core .slice
            else again)) ∧
      (∀ g x, t.handlerOf = none → t.gang = some g → s.gangs.find g = some x → 2 ≤ x.size → x.shut = false →
        exec (.sliceExpiry core) s = .next again)) ∧
    (∀ cl e, s.paused = false → (e ∈ (s.cluster cl).ready ∨ e ∈ (s.cluster cl).spill) → e.urgent = none →
      12000000 ≤ s.cyc - e.since →
      ∃ t, exec (.entryUrgent cl e.id) s = .next t ∧ t.mem = s.mem ∧ t.cores = s.cores ∧
        { e with urgent := some s.cyc } ∈ (t.cluster cl).listed)

/-! ## Events of faults, repair and links -/

/-- R146: an encoding that does not decode takes its fault. R365, R367, R370, R457: the fault of a core at rest is delivered once its
context is saved, and its core is then free, with the handler's task at the end of a ready list or spill ring as an urgent entry, or,
where the fault buffer is full or others wait for it, held with its fault; a save that faults abandons its task, a handler fails,
firmware starts again; R372: a held task whose turn has come takes a fault-buffer entry, and one that has waited 64 µs gives up its
core. R373: a detected error by its row: counted, squashed, refetched or poisoned, and recorded. R375, R385: a cell that is to be
sealed is sealed once no span runs on it, and every `seal` that waited for it is reported; its path is sealed, its cores have no task
but one that is held for its fault, and the logical cell has a spare, its memory empty, or is sealed itself. R384: a swap ends the
running chunks and copies its cluster once the drain has ended, and ends the pause with the spare in the map; the batches of the
windows that have closed come first then. R425: the counters are compared and start again after each second.
The model's own readings that this rests on: log 36, log 37, log 38 (which errors of which unit the hardware can report is the
model's reading). -/
def Obligations.FaultAndRepairEvents : Prop :=
  ∀ s : State,
    (∀ w, Runs s → exec (.illegalEncoding w) s = .next (takeFault (decodeFault w) 0 0 (openChunk s))) ∧
    (∀ core t f, s.paused = false → (s.core core).task = some t → (s.core core).fault = some f →
      (s.core core).wait = .deliver → (s.core core).pend = none → (s.core core).run = none →
      (t.firmware = true →
        exec (.faultDelivery core) s = .next ((s.coreError core f.code 9 0 f.fpc 0).startFirmware core)) ∧
      (t.firmware = false → (s.core core).regs.vq = [] → (s.core core).regs.mq = [] → (s.core core).regs.flights = [] →
        (s.core core).atomicOut = none → s.inTransit (s.trapBase t.kid / 128) = false →
        (t.handlerOf.isSome = true → exec (.faultDelivery core) s = .next ((s.taskEnds core t).handlerFails core t)) ∧
        (∀ code a, t.handlerOf = none → s.saveCells core t.save true = .error (code, a) →
          exec (.faultDelivery core) s = .next ((s.saveWalk core t.save).cannotRun core t 0x0B a)) ∧
        (∀ m, t.handlerOf = none → s.saveCells core t.save true = .ok m → s.saveReady core m = true →
          exec (.faultDelivery core) s = .next (s.deliverCore core t f m)))) ∧
    (∀ core t f m,
      let v := s.saveContext core t.kid t.save m
      let u := s.deliverCore core t f m
      (4096 ≤ v.bufferUsed ∨ v.fbQueue ≠ [] →
        u.fbQueue = v.fbQueue ++ [t.id] ∧ u.svc.ovf = true ∧ u.mem = v.mem ∧
        (u.core core).wait = .held (v.cyc + 96000) ∧ (u.core core).fault = none ∧
        ∃ p, u.parked.find t.id = some p ∧ p.fault = f ∧ p.hasEntry = false ∧ p.task.words = t.words ∧ p.task.resume = true) ∧
      (v.bufferUsed < 4096 → v.fbQueue = [] →
        (u.core core).task = none ∧ u.fseq = v.fseq + 1 ∧
        ∀ p, u.parked.find t.id = some p →
          p.fault = f ∧ p.hasEntry = true ∧ p.fseq = v.fseq + 1 ∧ p.task.words = t.words ∧ p.task.resume = true ∧
          ∃ e h, (e ∈ (u.cluster (clusterOf core)).ready ∨ e ∈ (u.cluster (clusterOf core)).spill) ∧ e.urgent.isSome = true ∧
            e.tasks = [h] ∧ h.handlerOf = some t.id ∧ h.kid = t.kid ∧ h.started = false)) ∧
    (∀ core p, s.paused = false → (s.core core).fault = none → s.heldTurn = some p → p.core = core →
      s.inTransit (s.trapBase p.task.kid / 128) = false → exec (.faultDelivery core) s = .next (s.takeTurn p)) ∧
    (∀ core u, s.paused = false → (s.core core).wait = .held u → u ≤ s.cyc →
      exec (.faultHoldExpiry core) s = .next (s.freeCore core)) ∧
    (∀ e : ErrReport, reportLegal e = true →
      (e.row = 0 ∨ e.row = 1 → exec (.detectedError e) s = .next ((s.reportError e 1).coreStateError e)) ∧
      (e.row = 2 → exec (.detectedError e) s = .next (
        if holdsLine e.line (s.core e.core).pend then (s.reportError e 1).squashError e.core true
        else if holdsLine e.line (s.core e.core).run then (s.reportError e 1).squashError e.core false else s.reportError e 1)) ∧
      (e.row = 3 → exec (.detectedError e) s = .next ((s.reportError e 1).dropLine e)) ∧
      (e.row = 4 ∨ e.row = 5 → exec (.detectedError e) s = .next (((s.reportError e 1).dropLine e).setPoison e.line)) ∧
      (e.row = 6 → exec (.detectedError e) s = .next (((s.reportError e 1).setPoison e.line).spareRow e.line)) ∧
      (e.row = 7 → exec (.detectedError e) s = .next ((s.reportError e 1).setPoison e.line)) ∧
      (e.row = 8 →
        (e.unit = 2 → exec (.detectedError e) s =
          .next ((s.reportError e 0).countEvent 1 ((homeSlice e.line).1 * 32 + e.idx))) ∧
        (e.unit = 4 → exec (.detectedError e) s =
          .next ((s.reportError e 0).countEvent 2 ((hbmPlace (e.line * 128)).1 * 64 + (hbmPlace (e.line * 128)).2))) ∧
        (e.unit = 6 → exec (.detectedError e) s = .next ((s.reportError e 0).countEvent 0 e.idx)) ∧
        (e.unit ≠ 2 → e.unit ≠ 4 → e.unit ≠ 6 → exec (.detectedError e) s = .next (s.reportError e 0)))) ∧
    (∀ (p : BitVec 15) cell,
      let die := ppathDie (p.setWidth 64)
      let path := ppathCell (p.setWidth 64)
      let jobs := s.sysJobs.filter fun j => j.f == 0 && ppathDie j.x == die && ppathCell j.x == path
      s.logicalOf die path = some cell → (s.cell cell).sealing = true →
      (s.paused = false ∨ s.swaps.head?.map (·.2.1) = some (cell / 32)) →
      (∀ j, j < 4 → ∀ k, (s.core (cell * 4 + j)).run = some k → k.span = none) →
      exec (.cellSeal p) s = .next (jobs.foldl (fun (s : State) j => s.reportHere j.z true)
        (({ s with sysJobs := s.sysJobs.filter fun j => !jobs.contains j } : State).sealCell die path cell))) ∧
    (∀ die path cell, s.logicalOf die path = some cell →
      let u := s.sealCell die path cell
      let spares := (((s.die die).sealPath path).spares (path / 64)).filter fun p => !s.cellTested die (path / 64 * 64 + p)
      path ∈ (u.die die).sealedCells ∧
      (∀ j, j < 4 → (s.core (cell * 4 + j)).keepsHeld = false → (u.core (cell * 4 + j)).task = none) ∧
      (spares = [] → (u.cell cell).sealed_ = true) ∧
      (∀ p l, spares = p :: l → (u.cell cell).sealed_ = false ∧ (u.die die).cellMap.get (cell % 1536) (cell % 32) = p ∧
        ∀ a, cellKey cell 0 ≤ a → a < cellKey cell 0 + 2 ^ 18 → memRead u.mem a = memRead [] a)) ∧
    (∀ die x, s.paused = false → s.swaps.find? (fun y => y.1 == die) = some x → s.drained x.2.1 = true →
      (∀ p ∈ s.cores, p.2.inSpan = false) →
      ∃ t, exec (.clusterSwapCopy die) s = .next t ∧ t.paused = true ∧ (t.cluster x.2.1).tlb = [] ∧ t.pauseWin = some s.window ∧
        t.swaps.head? = some x ∧
        (s.svc.logMode ≠ 2 → t.mem = s.mem ∧ ∀ i k, (s.core i).run = some k → 0 < k.n → k.ended = none → k.fault = none →
          (s.core i).pend = none →
          (t.core i).run = none ∧ (t.core i).pend = some { k with ended := some .plain })) ∧
    (∀ die cl spare l, s.paused = true → s.svc.pst ≠ .standby → s.swaps = (die, cl, spare) :: l → s.sealsFirst cl = false →
      ∃ t, exec .clusterSwapResume s = .next t ∧ t.paused = false ∧ t.swaps = l ∧
        t.pauseWin = s.closedInPause ∧ (t.die die).clusterMap.find (cl % 48) = some spare) ∧
    (s.lastCheck + 1000000000 ≤ s.dt →
      exec .predictiveCounterCheck s = .next ((s.cells.map (·.1)).foldl State.checkCell
        (s.counters.foldl (fun (s : State) p =>
          if s.threshold (p.1 / 2 ^ 32) ≠ 0 ∧ s.threshold (p.1 / 2 ^ 32) ≤ p.2 then s.crossed (p.1 / 2 ^ 32) (p.1 % 2 ^ 32) else s)
          { s with lastCheck := s.lastCheck + 1000000000, counters := [] })))

/-- R393-R395: a good data flit gives its slot return and is taken in, any other good flit gives its slot return, a damaged one is
kept and its repair begins with round 1; a request for parity or for a retransmission of a flit that is still kept is answered with
it; R394: parity repairs the flit, or, damaged itself, is asked for again. R396, R407: once lanes have trained again, every repair
that was open restarts. R397: a timing message steers the clock, forms the domain where there is none, and a large offset is
recorded; a clock that has been silent for 1 ms is recorded. R404-R407: a queue pair performs its next posted work entry, or flushes
it once it has stopped: it reads the entry, fails one that cannot be read or is illegal, and sends what a good one asks for; an entry
completes, or fails: its code, IDX and WRID go to the status block and its queue pair has stopped; what the other end sends asks for
its place among the host's writes, with the last piece's count.
The model's own readings that this rests on: log 17, log 39, log 40, log 42, log 59. -/
def Obligations.LinkEvents : Prop :=
  ∀ s : State,
    (∀ port (f : BitVec 2176), port < 18 → (s.port port).retraining = false →
      (flitGood f = true →
        (flitType f = 1 → exec (.flitReceive port f) s = .next ((s.setPort port ((s.port port).takeReturn f)).takeFlit port f)) ∧
        (flitType f ≠ 1 → exec (.flitReceive port f) s = .next (s.setPort port ((s.port port).takeReturn f)))) ∧
      (flitGood f = false → exec (.flitReceive port f) s = .next ((s.setPort port { s.port port with
        broken := (s.port port).broken.put (s.port port).expected.toNat
          { flit := f, stamp := s.dt, rounds := 0, parity := [], tries := 0, resend := false } }).askRepair port
            (s.port port).expected 1))) ∧
    (∀ port seq f, (s.port port).retraining = false → (s.port port).sentFlit seq = some f →
      (∀ round, round = 1 ∨ round = 2 → exec (.repairRequestReceive port seq round) s =
        .next { s with outs := s.outs ++ [.parity port seq round (parityOf f round)] }) ∧
      exec (.retransmitRequestReceive port seq) s = .next { s with outs := s.outs ++ [.flit port f] }) ∧
    (∀ port (seq : BitVec 16) b x, (s.port port).retraining = false → (s.port port).broken.find seq.toNat = some b → b.resend = false →
      exec (.repairParityReceive port seq (b.rounds + 1) x true) s =
        .next (s.tryRepair port seq { b with rounds := b.rounds + 1, parity := b.parity ++ [x], tries := 0 }) ∧
      exec (.repairParityReceive port seq (b.rounds + 1) x false) s = .next (s.badParity port seq (b.rounds + 1) b)) ∧
    (∀ port, (s.port port).retraining = true →
      let fresh := (s.port port).broken.map fun p => (p.1, { p.2 with rounds := 0, parity := [], tries := 0, resend := false })
      exec (.laneRetrainDone port) s = .next (fresh.foldl (fun (s : State) p => s.askRepair port (BitVec.ofNat 16 p.1) 1)
        (s.setPort port { s.port port with retraining := false, broken := fresh }))) ∧
    (∀ m : TimingMsg, s.svc.pkgSet = true → 2 ≤ s.npkg → s.master = false →
      let came : Nat := (((s.port m.port).firstSeen.find? fun p => p.1 == m.seq).map (·.2)).getD s.dt
      let offset : Int := (came : Int) - (m.stamp : Int)
      let u := ({ s with lastTiming := some s.dt, steer := steerFor offset } : State).setPort m.port
        { s.port m.port with firstSeen := (s.port m.port).firstSeen.filter fun p => p.1 != m.seq }
      (s.domain = false → exec (.timingMessage m) s = .next u.joinDomain) ∧
      (s.domain = true → -20 ≤ offset → offset ≤ 20 → exec (.timingMessage m) s = .next u) ∧
      (s.domain = true → (offset < -20 ∨ 20 < offset) → exec (.timingMessage m) s = .next (u.packageError 0 6 0 0))) ∧
    (∀ at_, s.lastTiming = some at_ → s.domain = true → at_ + 1000000 ≤ s.dt →
      exec .clockTimeout s = .next (({ s with lastTiming := none, steer := 0 } : State).packageError 0 6 0 0)) ∧
    (∀ qp x, s.qps.find qp = some x →
      (s.paused = false → x.running = none → x.index < s.counter x.kid x.pc →
        (x.stopped = false → s.anyClaimed (s.entryLinesOf x x.index) = false → s.workMissing x x.index = [] →
          exec (.rdmaEntryPerform qp) s = .next (s.performWork qp x x.index)) ∧
        (x.stopped = false → s.anyClaimed (s.entryLinesOf x x.index) = false → s.workMissing x x.index ≠ [] →
          s.mayRead (s.workMissing x x.index) = true →
          exec (.rdmaEntryPerform qp) s = .next (s.ask x.kid (s.workMissing x x.index))) ∧
        (x.stopped = true → exec (.rdmaEntryPerform qp) s =
          .next ((s.bumpCc x (2 ^ 32)).setQp qp { x with index := x.index + 1 }))) ∧
      (∀ i, x.running = some i →
        exec (.rdmaEntryComplete qp 0) s = .next ((s.bumpCc x 1).setQp qp { x with running := none, index := i + 1 }) ∧
        (∀ code : BitVec 7, code ≠ 0 → code ≤ 6 →
          exec (.rdmaEntryComplete qp code) s = .next (s.failEntry qp x i code x.wrid))) ∧
      (∀ i, match s.readWork x i with
        | (v, .error code) => s.performWork qp x i = v.failEntry qp x i code 0
        | (v, .ok w) =>
          (workBad w = true → s.performWork qp x i = v.failEntry qp x i 1 (recW w 4)) ∧
          (workBad w = false → match v.localBytes x w with
            | (z, .error code) => s.performWork qp x i = z.failEntry qp x i code (recW w 4)
            | (z, .ok bs) =>
              let u := s.performWork qp x i
              u.mem = z.mem ∧ u.cores = z.cores ∧ u.items = z.items ∧
              u.qps.find qp = some { x with running := some i, wrid := recW w 4 } ∧
              u.outs = z.outs ++ [.rdma qp (fld (recW w 0) 63 56) (recW w 2) (fld (recW w 3) 31 0) x.peer (z.keyOf x.kid) bs])) ∧
      (∀ i (code : BitVec 7) (wrid : Word64),
        let u := s.failEntry qp x i code wrid
        u.qps.find qp = some { x with stopped := true, running := none,
                                      index := if i + 1 < s.counter x.kid x.pc then s.counter x.kid x.pc else i + 1 } ∧
        ∀ v ps, s.locateW (s.qpCtx x) .write x.status 16 = (v, .ok ps) →
          .host (cellsAt ps (bytesOf 8 (i % 2 ^ 32 * 2 ^ 32 + code.toNat * 2 + 1) ++ bytesOf 8 wrid.toNat)) (some x.kid) none ∈ u.items) ∧
      (∀ a bs rc v ps, 0 < bs.length → bs.length < 4096 → s.locateW (s.qpCtx x) .write a bs.length = (v, .ok ps) →
        (s.landData x a bs rc).items = s.items ++ [.host (cellsAt ps bs) (some x.kid) rc]) ∧
      (∀ r : RdmaIn, r.qp = qp → r.send = false →
        exec (.rdmaIncoming r) s = .next (s.landData x r.addr (s.openPayload x.kid r.addr r.key r.data) none)) ∧
      (∀ (r : RdmaIn) b t, r.qp = qp → r.send = true → x.recvBufs = b :: t →
        exec (.rdmaIncoming r) s = .next ((s.landData x (b + r.addr) (s.openPayload x.kid (b + r.addr) r.key r.data)
          (if r.last then some (x.kid, s.counterKey x.kid x.rc) else none)).setQp qp
            { x with recvBufs := if r.last then t else b :: t })))

/-! ## Events of service -/

/-- R371, R398, R415, R421, R422, R426, R429: writes of LOGCTL, LOGPTR, FBSTAT, WINLEN, PKGNUM, STCTL and PWRCTL, and of a register by
its number or BAR0 offset (R401). R415: MODE takes the value written, 0b11 as 0b00, but 0b00 where SIZE is not 12 to 28, and the
change takes effect once no launch is live; DIV is cleared by a 1, and SIZE, LIM and IDX take the value written. PKGNUM takes one write, before any task has started and before the domain has formed. R426: a
self-test starts where its unit may enter it and ends with a pass or a failure, which a free value gives, or stops for an urgent
entry (R427). R429: the package enters Standby when nothing lives and leaves it when asked. R428: power is checked every 1 ms. R420:
new firmware waits for the next cold reset. R430: a cold reset leaves nothing of the last run but the clocks, and the firmware starts
on the four cores of every die supervisor cell.
The model's own readings that this rests on: log 40, log 46. -/
def Obligations.ServiceEvents : Prop :=
  ∀ s : State,
    (∀ v, ∃ t, exec (.logModeWrite v) s = .next t ∧ t.mem = s.mem ∧ t.cores = s.cores ∧ t.csn = s.csn ∧
      t.svc.logptr = s.svc.logptr ∧ fld t.svc.logctl 63 52 = 0 ∧ fld t.svc.logctl 51 2 = fld v 51 2 ∧
      (let size := fld s.svc.logptr 62 58
       fld t.svc.logctl 1 0 = if (fld v 1 0 = 1 ∨ fld v 1 0 = 2) ∧ 12 ≤ size ∧ size ≤ 28 then fld v 1 0 else 0) ∧
      (s.anyLive = false → t.svc.logMode = fld t.svc.logctl 1 0) ∧ (s.anyLive = true → t.svc.logMode = s.svc.logMode)) ∧
    (∀ v, ∃ t, exec (.logptrWrite v) s = .next t ∧ t.mem = s.mem ∧ t.cores = s.cores ∧ t.csn = s.csn ∧
      t.svc.logctl = s.svc.logctl ∧ t.svc.logMode = s.svc.logMode ∧
      bitAt t.svc.logptr 63 = (bitAt s.svc.logptr 63 && !bitAt v 63) ∧ fld t.svc.logptr 57 56 = 0 ∧
      fld t.svc.logptr 62 58 = fld v 62 58 ∧ fld t.svc.logptr 55 28 = fld v 55 28 ∧ fld t.svc.logptr 27 0 = fld v 27 0) ∧
    (∃ t, exec .logDivClear s = .next t ∧ t.mem = s.mem ∧ t.cores = s.cores ∧ fld t.svc.logptr 63 63 = 0 ∧
      fld t.svc.logptr 62 0 = fld s.svc.logptr 62 0) ∧
    exec .fbstatOvfClear s = .next { s with svc := { s.svc with ovf := false } } ∧
    (∀ n, s.svc.pkgSet = false → s.domain = false → s.nextTask = 1 → ∃ t, exec (.pkgnumWrite n) s = .next t ∧ t.mem = s.mem ∧
      t.cores = s.cores ∧ t.svc.pkgSet = true ∧ fld t.svc.pkgnum 9 0 = n.toNat ∧ n.toNat < t.npkg) ∧
    (∀ n, s.svc.pkgSet = true ∨ s.domain = true ∨ s.nextTask ≠ 1 → exec (.pkgnumWrite n) s = .next s) ∧
    (∀ v : Word64, (s.domain = true ∨ (1 ≤ fld v 7 0 ∧ fld v 7 0 ≤ 4) ∨ 161 ≤ fld v 7 0 → exec (.winlenWrite v) s = .next s) ∧
      (s.domain = false → (fld v 7 0 = 0 ∨ 5 ≤ fld v 7 0 ∧ fld v 7 0 ≤ 160) → exec (.winlenWrite v) s =
        .next { s with svc := { s.svc with winlen := BitVec.ofNat 64 (fld v 7 0) } })) ∧
    (∀ v, (bitAt s.svc.stctl 63 = true → exec (.selfTestRequest v) s = .next s) ∧
      (bitAt s.svc.stctl 63 = false → exec (.selfTestRequest v) s =
        .next { s with svc := { s.svc with stctl := v &&& 0xC000000000007FFF } })) ∧
    (bitAt s.svc.stctl 63 = true → s.selfTest = none → s.mayTest = true →
      ∃ t, exec .selfTestStart s = .next t ∧ t.mem = s.mem ∧ t.cores = s.cores ∧
        t.selfTest = some (bit s.stSlice * 2 ^ 15 + s.stDie * 2 ^ 12 + s.stPath) ∧
        (∀ c, s.stSlice = false → s.testedCell s.stDie s.stPath = some c → (t.cell c).testing = true)) ∧
    (∀ x, s.selfTest = some x →
      let u : State := { s with moment := s.moment + 1 }
      let pass := Config.choice s.moment % 2 == 1
      u.testRuns x = true →
        (u.cellUnderTest = none → exec .selfTestComplete s = .next (u.endTest x pass)) ∧
        (∀ c, u.cellUnderTest = some c →
          exec .selfTestComplete s = .next (if u.urgentIn (c / 32) ∧ !(u.cell c).sealing then
            ({ u with selfTest := none } : State).afterTest c else u.endTest x pass))) ∧
    (∃ t, exec .standbyRequest s = .next t ∧ fld t.svc.pwrctl 1 0 = 1 ∧ t.mem = s.mem ∧ t.cores = s.cores ∧
      (s.svc.pst ≠ .standby → t.svc.pst = .entering)) ∧
    (fld s.svc.pwrctl 1 0 = 1 → s.anyLive = false → s.svc.pst ≠ .standby → s.paused = false →
      (∀ p ∈ s.rings, (p.2.en && p.2.examine) = false) →
      exec .standbyEntry s = .next { s with paused := true, svc := { s.svc with pst := .standby } }) ∧
    (∃ t, exec .runRequest s = .next t ∧ fld t.svc.pwrctl 1 0 = 0 ∧ t.svc.pst = .run ∧ t.mem = s.mem ∧ t.cores = s.cores ∧
      (s.svc.pst = .standby → t.paused = false)) ∧
    (s.lastPower + 1000000 ≤ s.dt → ∃ t, exec .powerCheck s = .next t ∧ t.mem = s.mem ∧ t.cores = s.cores ∧
      t.lastPower = s.lastPower + 1000000 ∧
      t.svc.bub = nextBub s.svc.pwrctl s.svc.bub t.svc.power.toNat t.svc.temp.toNat) ∧
    (∀ image, exec (.firmwareUpdate image) s = .next { s with firmware := image }) ∧
    (∀ reg word, reg < 64 → exec (.registerWrite reg word) s = .next ((s.writeSup reg word).getD s)) ∧
    (∀ g word, g < 16 →
      exec (.registerWrite (0x1000 + 0x40 * g) word) s = .next (if (s.ring g).en then s
        else s.setRing g { s.ring g with base := word &&& 0x000FFFFFFFFFF000 }) ∧
      exec (.registerWrite (0x1008 + 0x40 * g) word) s = exec (.launchRingEnable g word) s ∧
      exec (.registerWrite (0x1010 + 0x40 * g) word) s = exec (.launchRingDoorbell g (word.setWidth 32)) s ∧
      exec (.registerWrite (0x1020 + 0x40 * g) word) s = (if bitAt word 2 then exec (.launchRingErrClear g) s else .next s)) ∧
    (∀ reg word, 64 ≤ reg → (reg < 0x1000 ∨ 0x1400 ≤ reg) → exec (.registerWrite reg word) s = .next s) ∧
    (∃ t, exec .coldReset s = .next t ∧ t.resets = s.resets + 1 ∧ t.csn = 0 ∧ t.domain = false ∧ t.launches = [] ∧ t.items = [] ∧
      t.firmware = s.firmware ∧ t.image = s.firmware ∧ t.dt = s.dt ∧
      ∀ j, j < 32 → (t.core (firstSup + j)).regs.pc = Config.firmwareEntry s.firmware (firstSup + j) ∧
        (t.core (firstSup + j)).task.isSome = true)

/-! ## The encoding -/

/-- R131, R139, R146: every well-formed bundle decodes from its encoding, with every operand at every value it admits. -/
def Obligations.DecodeOfEncode : Prop := ∀ b : Bundle, b.wf = true → decode (encode b) = .ok b

/-- R144, R145, R146: every value that decodes is the encoding of the bundle it decodes to, and that bundle is well formed; every
other value is refused with fault 0x01, 0x02 or 0x03. -/
def Obligations.EncodeOfDecode : Prop :=
  ∀ w : Word64, (∀ b, decode w = .ok b → b.wf = true ∧ encode b = w) ∧
    (∀ c, decode w = .error c → c = 0x01 ∨ c = 0x02 ∨ c = 0x03)

/-- R131-R143, the worked encodings of the spec: the words stand for the instructions that it gives them for. -/
def Obligations.WorkedWords : Prop :=
  decode 0x008604C0840003E8 = .ok ⟨.xlit false 0x3E8, some (.addI
    { ty := 2, d := 3, dk := false, ak := 0, a := 2, aw := false, bk := 3, b := 0, bw := false })⟩ ∧
  decode 0x568C028A80000000 = .ok ⟨.nop true, some (.fma
    { ty := 2, d := 6, dk := false, ak := 0, a := 1, aw := false, bk := 2, b := 5, bw := false })⟩ ∧
  decode 0x0000535503001000 = .ok ⟨.blk { mrg := true, sig := 0x001, dif := 0, dig := 0x5355 }, none⟩ ∧
  decode 0x0000002430718800 = .ok ⟨.ldx
    { p := false, x := 7, b := 3, xw := false, bw := false, f3 := 2, off10 := 0, ext := 0x24 }, none⟩ ∧
  decode 0x728402CE80000000 = .ok ⟨.nop true, some (.cvtf
    { ty := 2, d := 2, dk := false, ak := 0, a := 1, aw := false, bk := 3, b := 7, bw := false })⟩ ∧
  decode 0xFFFFFFFB14448400 = .ok ⟨.bs { x := 4, y := 9, xw := false, yw := false, c := 2, f9 := 0, off := 0xFFFFFFFB }, none⟩ ∧
  decode 0x000000004840D00C = .ok ⟨.mma
    { p := false, x := 4, y := 1, z := 20, xw := false, yw := false, zw := false, f7 := 12, ext := 0 }, none⟩ ∧
  decode 0x008604C2840003E8 = .error 0x02 ∧ decode 0x000000007E000000 = .error 0x01 ∧ decode 0x0000000094448400 = .error 0x03

/-! ## The machine as a whole -/

/-- R131, R133, R146, R290: where it is the turn of a core that may run and its fetch gives a word, one step decodes the word
and runs the control word, then the arithmetic word, then ends the bundle; a word that waits, faults or is cut ends the
step there, and at an entry point only a `blk` with MRG = 1 runs: anything else, also a word that does not decode, takes fault
0x06. What goes on beside it follows.
The model's own readings that this rests on: log 4, log 9. -/
def Obligations.StepRunsTheDecodedBundle : Prop :=
  ∀ (s t : State) (i : Nat) (w : Word64), s.turn = some i →
    let s' : State := { s with turn := none }
    s'.runnable i = true → fetchAct (s'.atFetch i) = .ok (w, t) →
    let ends := fun (u : State) => step s = .next (u.settleStep s.outs.length)
    (∀ c u, decode w = .error c → (t.regs.entry = false ∨ looksMerge w = true) → exec (.illegalEncoding w) t = .next u → ends u) ∧
    (∀ c, decode w = .error c → t.regs.entry = true → looksMerge w = false → ends (takeFault 0x06 0 0 t)) ∧
    (∀ b, decode w = .ok b → t.regs.entry = true → isMerge b.ctl = false → ends (takeFault 0x06 0 0 t)) ∧
    (∀ b, decode w = .ok b → (t.regs.entry = true → isMerge b.ctl = true) →
      let t' := if t.regs.entry = true then clearEntry t else t
      (∀ u, exec b.ctl t' = .next u → u.me.phase ≠ .ok → ends u) ∧
      (∀ u, exec b.ctl t' = .next u → u.me.phase = .ok → b.arith = none → ends (finishBundle b u)) ∧
      (∀ u a v, exec b.ctl t' = .next u → u.me.phase = .ok → b.arith = some a → exec a u = .next v →
        ends (if v.me.phase = .ok then finishBundle b v else unissue t' v)))

/-- R246, R361, R365, R457: what taking a fault does. In a chunk that is not speculative, the core's registers return to the
chunk's start, the chunk is gone, and the fault record, with the chunk's start and the bundle's own address, waits for its
delivery; memory and every other core stay. In a speculative chunk the fault is held with it until the vote's result. On a core
of a supervisor cell the firmware starts again, at once where no older chunk of it is pending. -/
def Obligations.FaultEntry : Prop :=
  ∀ (s : State) (code : Code) (addr aux : Word64) (k : Chunk), s.me.run = some k →
    let t := takeFault code addr aux s
    (s.me.speculating = false → (isSup s.cur = false ∨ s.me.pend ≠ none) →
      t.regs = { k.start with nextId := s.regs.nextId } ∧ t.me.run = none ∧ t.me.pend = s.me.pend ∧ t.me.task = s.me.task ∧
      t.me.wait = .deliver ∧ t.mem = s.mem ∧ (∀ j, j ≠ s.cur → t.core j = s.core j) ∧
      (∃ f, t.me.fault = some f ∧ f.code = code ∧ f.pc = k.start.pc ∧ f.fpc = s.src.pc ∧ f.aux = aux ∧
        f.addr = if 0x10 ≤ code ∧ code ≤ 0x21 then addr else 0)) ∧
    (s.me.speculating = true →
      t.me.wait = .vote ∧ t.regs = s.regs ∧ t.me.task = s.me.task ∧ t.mem = s.mem ∧ (∀ j, j ≠ s.cur → t.core j = s.core j) ∧
      ∃ f, t.me.run = some { k with fault := some f } ∧ f.code = code ∧ f.pc = k.start.pc ∧ f.fpc = s.src.pc) ∧
    (isSup s.cur = true → s.me.speculating = false → s.me.pend = none →
      t.me.run = none ∧ t.me.pend = none ∧ t.me.fault = none ∧ t.me.wait = .none ∧
      t.regs = { Regs.reset with pc := Config.firmwareEntry s.image s.cur } ∧ (∀ x, t.me.task = some x → x.firmware = true) ∧
      (∀ j, j ≠ s.cur → t.core j = s.core j))

/-- R155, R235, R295: a control or arithmetic word that is done leaves all of committed memory as it was, every other core, and
its own core's task and the registers that it read from. A `blk`, whose mismatch is recorded in memory, and every word while a log
is replayed, when a word that differs from the log writes an error record, are left out of this statement. R107, R124: a `tfetch` whose slot gives up an earlier fetch makes that fetch's handle resolve
wherever it stands, and changes nothing else of another core. -/
def Obligations.WordFrame : Prop :=
  ∀ (i : Instr) (s t : State), isEvent i = false → (∀ f, i ≠ .blk f) → s.svc.logMode ≠ 2 → exec i s = .next t →
    t.me.phase = .ok →
    t.mem = s.mem ∧ t.cur = s.cur ∧ t.me.task = s.me.task ∧ t.src = s.src ∧
    ((∀ f, i ≠ .tfetch f) → ∀ j, j ≠ s.cur → t.core j = s.core j) ∧
    (∀ j, j ≠ s.cur → t.core j = s.core j ∨ ∃ v, t.core j = (s.core j).onAll (Regs.resolveH j v))

/-- No instruction and no event is ever refused, and a step always ends in a next state: the machine runs for any number of
steps from any state.
The model's own readings that this rests on: log 49. -/
def Obligations.NothingStops : Prop :=
  (∀ (i : Instr) (s : State) (r : Refusal), exec i s ≠ .refused r) ∧ ∀ (n : Nat) (s : State), RunsFor n s

/-- R239: memory keeps its canonical form over every step from every state: a byte has one place. -/
def Obligations.StepKeepsMemoryOk : Prop :=
  ∀ s t : State, MemoryOk s → step s = .next t → MemoryOk t

/-- R78, R220, R235, R286: over every step from every state in which they hold, FSTAT's reserved bits stay 0 on every core, no more
than eight matrix operations are queued, a chunk has at most 4,096 bundles with those that its span is still to execute, and the
registers that a squash restores are such registers. -/
def Obligations.StepKeepsCoresOk : Prop :=
  ∀ s t : State, CoresOk s → step s = .next t → CoresOk t

/-- R259, R260: after every step no store of this package's own is read back past the time by which its home must have
applied it.
The model's own readings that this rests on: log 32. -/
def Obligations.StepKeepsPartsOk : Prop := ∀ s t : State, step s = .next t → PartsOk t

/-- R239: a byte that is written reads back and no other byte changes; a run of bytes likewise; every write keeps the canonical
form, and in canonical form memories that read alike are equal.
The model's own readings that this rests on: log 2. -/
def Obligations.MemoryReadsBack : Prop :=
  ∀ m : List Host.Cell, Memory.wf m = true →
    (∀ k v j, Memory.wf (memWrite m k v) = true ∧ memRead (memWrite m k v) j = if j = k then v else memRead m j) ∧
    (∀ k bs j, Memory.wf (memWriteN m k bs) = true ∧
      memRead (memWriteN m k bs) j = if k ≤ j ∧ j < k + bs.length then bs.getD (j - k) 0 else memRead m j) ∧
    (∀ k bs, memReadN (memWriteN m k bs) k bs.length = bs) ∧
    (∀ m', Memory.wf m' = true → (∀ k, memRead m k = memRead m' k) → m = m')

/-- R61, R237, R401, R422, R425, R428: what reset leaves: no task on any core, T = 1,024, every quad cache, the
service registers at their reset values, every ring disabled, no hoop slot in use, CSN 0, memory and its invariants in order.
The reset of the clocks, of general registers and of memory's bytes is the model's choice (log 2, log 3). -/
def Obligations.ResetState : Prop :=
  let s := State.reset
  (∀ i, (s.core i).task = none ∧ (s.core i).target = 1024 ∧ (s.core i).run = none) ∧ (∀ i, (s.cell i).roles = 0x5555) ∧
    (∀ g, (s.ring g).en = false ∧ (s.ring g).err = false) ∧ (∀ n, s.hoops.find n = none) ∧ s.csn = 0 ∧ s.domain = false ∧
    s.svc.logMode = 0 ∧ fld s.svc.migthr 15 0 = 256 ∧ fld s.svc.pthr 63 48 = 2 ∧ fld s.svc.pthr 47 32 = 32 ∧
    fld s.svc.pthr 31 16 = 64 ∧ fld s.svc.pthr 15 0 = 1000 ∧ fld s.svc.pwrctl 47 32 = 3200 ∧ fld s.svc.pwrctl 31 24 = 105 ∧
    MemoryOk s ∧ PartsOk s ∧ CoresOk s
end

