-- ==== Sys2Proof/Laws/Decode.lean ====
section
/-!
SUPPORT. The fields of the words that the encoder lays out, as the decoder takes them out (R134, R139).
-/
namespace Sys2Proof

/-- A field of the lower part of a concatenation. -/
theorem extract_append_lo {n m : Nat} (a : BitVec n) (b : BitVec m) (i w : Nat) (h : i + w ≤ m) :
    (a ++ b).extractLsb' i w = b.extractLsb' i w := by
  ext j hj
  simp [BitVec.getElem_extractLsb', BitVec.getLsbD_append, show i + j < m by omega]

/-- A field of the upper part of a concatenation. -/
theorem extract_append_hi {n m : Nat} (a : BitVec n) (b : BitVec m) (i w : Nat) (h : m ≤ i) :
    (a ++ b).extractLsb' i w = a.extractLsb' (i - m) w := by
  ext j hj
  have e : i + j - m = i - m + j := by omega
  simp [BitVec.getElem_extractLsb', BitVec.getLsbD_append, show ¬ i + j < m by omega, e]

/-- The whole of a vector as a field. -/
theorem extract_all {n : Nat} (a : BitVec n) : a.extractLsb' 0 n = a := by ext j hj; simp

theorem bit_append_lo {n m : Nat} (a : BitVec n) (b : BitVec m) (i : Nat) (h : i < m) : (a ++ b).getLsbD i = b.getLsbD i := by
  simp [BitVec.getLsbD_append, h]
theorem bit_append_hi {n m : Nat} (a : BitVec n) (b : BitVec m) (i : Nat) (h : m ≤ i) :
    (a ++ b).getLsbD i = a.getLsbD (i - m) := by
  simp [BitVec.getLsbD_append, Nat.not_lt.2 h]
theorem bit1_get (b : Bool) : (bit1 b).getLsbD 0 = b := by cases b <;> rfl

theorem MF.ofWord_toWord (op : BitVec 6) (f : MF) (w : Word) :
    MF.ofWord (MF.toWord op f) w = { f with ext := if f.p then 0 else w } := by
  simp (disch := decide) only [MF.ofWord, MF.toWord, extract_append_hi, extract_append_lo, bit_append_hi, bit_append_lo,
    Nat.reduceSub, extract_all, bit1_get]
theorem TF.ofWord_toWord (op : BitVec 6) (f : TF) (w : Word) :
    TF.ofWord (TF.toWord op f) w = { f with ext := if f.p then 0 else w } := by
  simp (disch := decide) only [TF.ofWord, TF.toWord, extract_append_hi, extract_append_lo, bit_append_hi, bit_append_lo,
    Nat.reduceSub, extract_all, bit1_get]
theorem JF.ofWord_toWord (op : BitVec 6) (f : JF) (w : Word) : JF.ofWord (JF.toWord op f) w = { f with off := w } := by
  simp (disch := decide) only [JF.ofWord, JF.toWord, extract_append_hi, extract_append_lo, bit_append_hi, bit_append_lo,
    Nat.reduceSub, extract_all, bit1_get]
theorem Arith.ofWord_toWord (op : BitVec 7) (f : Arith) : Arith.ofWord (Arith.toWord op f) = f := by
  simp (disch := decide) only [Arith.ofWord, Arith.toWord, extract_append_hi, extract_append_lo, bit_append_hi,
    bit_append_lo, Nat.reduceSub, extract_all, bit1_get]

/-! ## Opcode, P and the function value of a word -/

theorem MF.toWord_op (op : BitVec 6) (f : MF) : (MF.toWord op f).extractLsb' 25 6 = op := by
  simp (disch := decide) only [MF.toWord, extract_append_hi, extract_append_lo, Nat.reduceSub, extract_all]
theorem TF.toWord_op (op : BitVec 6) (f : TF) : (TF.toWord op f).extractLsb' 25 6 = op := by
  simp (disch := decide) only [TF.toWord, extract_append_hi, extract_append_lo, Nat.reduceSub, extract_all]
theorem JF.toWord_op (op : BitVec 6) (f : JF) : (JF.toWord op f).extractLsb' 25 6 = op := by
  simp (disch := decide) only [JF.toWord, extract_append_hi, extract_append_lo, Nat.reduceSub, extract_all]
theorem Arith.toWord_op (op : BitVec 7) (f : Arith) : (Arith.toWord op f).extractLsb' 25 7 = op := by
  simp (disch := decide) only [Arith.toWord, extract_append_hi, Nat.reduceSub, extract_all]
theorem MF.toWord_p (op : BitVec 6) (f : MF) : (MF.toWord op f).getLsbD 31 = f.p := by
  simp (disch := decide) only [MF.toWord, bit_append_hi, Nat.reduceSub, bit1_get]
theorem TF.toWord_p (op : BitVec 6) (f : TF) : (TF.toWord op f).getLsbD 31 = f.p := by
  simp (disch := decide) only [TF.toWord, bit_append_hi, Nat.reduceSub, bit1_get]
theorem JF.toWord_p (op : BitVec 6) (f : JF) : (JF.toWord op f).getLsbD 31 = false := by
  simp (disch := decide) only [JF.toWord, bit_append_hi, Nat.reduceSub, bit1_get]
theorem MF.toWord_f3 (op : BitVec 6) (f : MF) : (MF.toWord op f).extractLsb' 10 3 = f.f3 := by
  simp (disch := decide) only [MF.toWord, extract_append_hi, extract_append_lo, Nat.reduceSub, extract_all]
theorem TF.toWord_f7 (op : BitVec 6) (f : TF) : (TF.toWord op f).extractLsb' 0 7 = f.f7 := by
  simp (disch := decide) only [TF.toWord, extract_append_lo, extract_all]

/-- The two words of a bundle. -/
theorem bundle_word0 (a b : Word) : (a ++ b : Word64).extractLsb' 0 32 = b := by
  simp (disch := decide) only [extract_append_lo, extract_all]
theorem bundle_word1 (a b : Word) : (a ++ b : Word64).extractLsb' 32 32 = a := by
  simp (disch := decide) only [extract_append_hi, Nat.reduceSub, extract_all]

end Sys2Proof
end

