-- ==== Sys2Proof/Laws/State.lean ====
section
/-!
SUPPORT. What each update of the state, of a core and of its registers leaves, field by field, and what it is read back as.
-/
namespace Sys2Proof

/-! ## Sorted association lists -/

@[simp] theorem NMap.get_put_self {α : Type} (m : NMap α) (k : Nat) (x d : α) : (NMap.put m k x).get k d = x := by
  induction m with
  | nil => simp [NMap.put, NMap.get]
  | cons p t ih =>
    obtain ⟨j, y⟩ := p
    simp only [NMap.put]
    split
    · simp [NMap.get]
    · split
      · simp [NMap.get]
      · next h => simp [NMap.get, ih, Ne.symm h]

theorem NMap.get_put_ne {α : Type} (m : NMap α) (k j : Nat) (x d : α) (h : j ≠ k) :
    (NMap.put m k x).get j d = m.get j d := by
  induction m with
  | nil => simp [NMap.put, NMap.get, Ne.symm h]
  | cons p t ih =>
    obtain ⟨i, y⟩ := p
    simp only [NMap.put]
    split
    · simp [NMap.get, Ne.symm h]
    · split
      · next h' => subst h'; simp [NMap.get, Ne.symm h]
      · simp [NMap.get, ih]

@[simp] theorem NMap.find_put_self {α : Type} (m : NMap α) (k : Nat) (x : α) : (NMap.put m k x).find k = some x := by
  induction m with
  | nil => simp [NMap.put, NMap.find]
  | cons p t ih =>
    obtain ⟨j, y⟩ := p
    simp only [NMap.put]
    split
    · simp [NMap.find]
    · split
      · simp [NMap.find]
      · next h => simp [NMap.find, ih, Ne.symm h]

theorem NMap.find_put_ne {α : Type} (m : NMap α) (k j : Nat) (x : α) (h : j ≠ k) :
    (NMap.put m k x).find j = m.find j := by
  induction m with
  | nil => simp [NMap.put, NMap.find, Ne.symm h]
  | cons p t ih =>
    obtain ⟨i, y⟩ := p
    simp only [NMap.put]
    split
    · simp [NMap.find, Ne.symm h]
    · split
      · next h' => subst h'; simp [NMap.find, Ne.symm h]
      · simp [NMap.find, ih]

@[simp] theorem NMap.put_put {α : Type} (m : NMap α) (k : Nat) (x y : α) : (NMap.put m k x).put k y = m.put k y := by
  induction m with
  | nil => simp [NMap.put]
  | cons p t ih =>
    obtain ⟨j, z⟩ := p
    simp only [NMap.put]
    split
    · simp [NMap.put]
    · split
      · simp [NMap.put]
      · next h1 h2 => simp [NMap.put, h1, h2, ih]

namespace Machine

/-! ## The parts of the state -/

@[simp] theorem State.setCore_cur (s : State) (i : Nat) (x : Core) : (s.setCore i x).cur = s.cur := rfl
@[simp] theorem State.setCore_turn (s : State) (i : Nat) (x : Core) : (s.setCore i x).turn = s.turn := rfl
@[simp] theorem State.setCore_moment (s : State) (i : Nat) (x : Core) : (s.setCore i x).moment = s.moment := rfl
@[simp] theorem State.setCore_cyc (s : State) (i : Nat) (x : Core) : (s.setCore i x).cyc = s.cyc := rfl
@[simp] theorem State.setCore_dt (s : State) (i : Nat) (x : Core) : (s.setCore i x).dt = s.dt := rfl
@[simp] theorem State.setCore_mem (s : State) (i : Nat) (x : Core) : (s.setCore i x).mem = s.mem := rfl
@[simp] theorem State.setCore_poison (s : State) (i : Nat) (x : Core) : (s.setCore i x).poison = s.poison := rfl
@[simp] theorem State.setCore_lineKey (s : State) (i : Nat) (x : Core) : (s.setCore i x).lineKey = s.lineKey := rfl
@[simp] theorem State.setCore_l2 (s : State) (i : Nat) (x : Core) : (s.setCore i x).l2 = s.l2 := rfl
@[simp] theorem State.setCore_snoops (s : State) (i : Nat) (x : Core) : (s.setCore i x).snoops = s.snoops := rfl
@[simp] theorem State.setCore_keys (s : State) (i : Nat) (x : Core) : (s.setCore i x).keys = s.keys := rfl
@[simp] theorem State.setCore_resets (s : State) (i : Nat) (x : Core) : (s.setCore i x).resets = s.resets := rfl
@[simp] theorem State.setCore_cores (s : State) (i : Nat) (x : Core) : (s.setCore i x).cores = s.cores.put i x := rfl
@[simp] theorem State.setCore_cells (s : State) (i : Nat) (x : Core) : (s.setCore i x).cells = s.cells := rfl
@[simp] theorem State.setCore_clusters (s : State) (i : Nat) (x : Core) : (s.setCore i x).clusters = s.clusters := rfl
@[simp] theorem State.setCore_dies (s : State) (i : Nat) (x : Core) : (s.setCore i x).dies = s.dies := rfl
@[simp] theorem State.setCore_csn (s : State) (i : Nat) (x : Core) : (s.setCore i x).csn = s.csn := rfl
@[simp] theorem State.setCore_latchPtr (s : State) (i : Nat) (x : Core) : (s.setCore i x).latchPtr = s.latchPtr := rfl
@[simp] theorem State.setCore_token (s : State) (i : Nat) (x : Core) : (s.setCore i x).token = s.token := rfl
@[simp] theorem State.setCore_items (s : State) (i : Nat) (x : Core) : (s.setCore i x).items = s.items := rfl
@[simp] theorem State.setCore_parts (s : State) (i : Nat) (x : Core) : (s.setCore i x).parts = s.parts := rfl
@[simp] theorem State.setCore_late (s : State) (i : Nat) (x : Core) : (s.setCore i x).late = s.late := rfl
@[simp] theorem State.setCore_unapplied (s : State) (i : Nat) (x : Core) : (s.setCore i x).unapplied = s.unapplied := rfl
@[simp] theorem State.setCore_lastBatch (s : State) (i : Nat) (x : Core) : (s.setCore i x).lastBatch = s.lastBatch := rfl
@[simp] theorem State.setCore_jobs (s : State) (i : Nat) (x : Core) : (s.setCore i x).jobs = s.jobs := rfl
@[simp] theorem State.setCore_launches (s : State) (i : Nat) (x : Core) : (s.setCore i x).launches = s.launches := rfl
@[simp] theorem State.setCore_nextLaunch (s : State) (i : Nat) (x : Core) : (s.setCore i x).nextLaunch = s.nextLaunch := rfl
@[simp] theorem State.setCore_rings (s : State) (i : Nat) (x : Core) : (s.setCore i x).rings = s.rings := rfl
@[simp] theorem State.setCore_registrations (s : State) (i : Nat) (x : Core) : (s.setCore i x).registrations = s.registrations := rfl
@[simp] theorem State.setCore_waking (s : State) (i : Nat) (x : Core) : (s.setCore i x).waking = s.waking := rfl
@[simp] theorem State.setCore_restarting (s : State) (i : Nat) (x : Core) : (s.setCore i x).restarting = s.restarting := rfl
@[simp] theorem State.setCore_gangs (s : State) (i : Nat) (x : Core) : (s.setCore i x).gangs = s.gangs := rfl
@[simp] theorem State.setCore_nextTask (s : State) (i : Nat) (x : Core) : (s.setCore i x).nextTask = s.nextTask := rfl
@[simp] theorem State.setCore_parked (s : State) (i : Nat) (x : Core) : (s.setCore i x).parked = s.parked := rfl
@[simp] theorem State.setCore_fseq (s : State) (i : Nat) (x : Core) : (s.setCore i x).fseq = s.fseq := rfl
@[simp] theorem State.setCore_fbQueue (s : State) (i : Nat) (x : Core) : (s.setCore i x).fbQueue = s.fbQueue := rfl
@[simp] theorem State.setCore_hoops (s : State) (i : Nat) (x : Core) : (s.setCore i x).hoops = s.hoops := rfl
@[simp] theorem State.setCore_mig (s : State) (i : Nat) (x : Core) : (s.setCore i x).mig = s.mig := rfl
@[simp] theorem State.setCore_migQ (s : State) (i : Nat) (x : Core) : (s.setCore i x).migQ = s.migQ := rfl
@[simp] theorem State.setCore_lastMig (s : State) (i : Nat) (x : Core) : (s.setCore i x).lastMig = s.lastMig := rfl
@[simp] theorem State.setCore_transit (s : State) (i : Nat) (x : Core) : (s.setCore i x).transit = s.transit := rfl
@[simp] theorem State.setCore_moved (s : State) (i : Nat) (x : Core) : (s.setCore i x).moved = s.moved := rfl
@[simp] theorem State.setCore_sysJobs (s : State) (i : Nat) (x : Core) : (s.setCore i x).sysJobs = s.sysJobs := rfl
@[simp] theorem State.setCore_npkg (s : State) (i : Nat) (x : Core) : (s.setCore i x).npkg = s.npkg := rfl
@[simp] theorem State.setCore_domain (s : State) (i : Nat) (x : Core) : (s.setCore i x).domain = s.domain := rfl
@[simp] theorem State.setCore_hopD (s : State) (i : Nat) (x : Core) : (s.setCore i x).hopD = s.hopD := rfl
@[simp] theorem State.setCore_hdmBase (s : State) (i : Nat) (x : Core) : (s.setCore i x).hdmBase = s.hdmBase := rfl
@[simp] theorem State.setCore_lastTiming (s : State) (i : Nat) (x : Core) : (s.setCore i x).lastTiming = s.lastTiming := rfl
@[simp] theorem State.setCore_lastSent (s : State) (i : Nat) (x : Core) : (s.setCore i x).lastSent = s.lastSent := rfl
@[simp] theorem State.setCore_steer (s : State) (i : Nat) (x : Core) : (s.setCore i x).steer = s.steer := rfl
@[simp] theorem State.setCore_holds (s : State) (i : Nat) (x : Core) : (s.setCore i x).holds = s.holds := rfl
@[simp] theorem State.setCore_splits (s : State) (i : Nat) (x : Core) : (s.setCore i x).splits = s.splits := rfl
@[simp] theorem State.setCore_qps (s : State) (i : Nat) (x : Core) : (s.setCore i x).qps = s.qps := rfl
@[simp] theorem State.setCore_ports (s : State) (i : Nat) (x : Core) : (s.setCore i x).ports = s.ports := rfl
@[simp] theorem State.setCore_svc (s : State) (i : Nat) (x : Core) : (s.setCore i x).svc = s.svc := rfl
@[simp] theorem State.setCore_counters (s : State) (i : Nat) (x : Core) : (s.setCore i x).counters = s.counters := rfl
@[simp] theorem State.setCore_lastCheck (s : State) (i : Nat) (x : Core) : (s.setCore i x).lastCheck = s.lastCheck := rfl
@[simp] theorem State.setCore_lastPower (s : State) (i : Nat) (x : Core) : (s.setCore i x).lastPower = s.lastPower := rfl
@[simp] theorem State.setCore_selfTest (s : State) (i : Nat) (x : Core) : (s.setCore i x).selfTest = s.selfTest := rfl
@[simp] theorem State.setCore_swaps (s : State) (i : Nat) (x : Core) : (s.setCore i x).swaps = s.swaps := rfl
@[simp] theorem State.setCore_spent (s : State) (i : Nat) (x : Core) : (s.setCore i x).spent = s.spent := rfl
@[simp] theorem State.setCore_paused (s : State) (i : Nat) (x : Core) : (s.setCore i x).paused = s.paused := rfl
@[simp] theorem State.setCore_pauseWin (s : State) (i : Nat) (x : Core) : (s.setCore i x).pauseWin = s.pauseWin := rfl
@[simp] theorem State.setCore_firmware (s : State) (i : Nat) (x : Core) : (s.setCore i x).firmware = s.firmware := rfl
@[simp] theorem State.setCore_image (s : State) (i : Nat) (x : Core) : (s.setCore i x).image = s.image := rfl
@[simp] theorem State.setCore_mail (s : State) (i : Nat) (x : Core) : (s.setCore i x).mail = s.mail := rfl
@[simp] theorem State.setCore_fwd (s : State) (i : Nat) (x : Core) : (s.setCore i x).fwd = s.fwd := rfl
@[simp] theorem State.setCore_asked (s : State) (i : Nat) (x : Core) : (s.setCore i x).asked = s.asked := rfl
@[simp] theorem State.setCore_inputs (s : State) (i : Nat) (x : Core) : (s.setCore i x).inputs = s.inputs := rfl
@[simp] theorem State.setCore_outside (s : State) (i : Nat) (x : Core) : (s.setCore i x).outside = s.outside := rfl
@[simp] theorem State.setCore_outs (s : State) (i : Nat) (x : Core) : (s.setCore i x).outs = s.outs := rfl
@[simp] theorem State.setCore_msgOrd (s : State) (i : Nat) (x : Core) : (s.setCore i x).msgOrd = s.msgOrd := rfl
@[simp] theorem State.core_setCore (s : State) (i : Nat) (x : Core) : (s.setCore i x).core i = x := by simp [State.core]
theorem State.core_setCore_ne (s : State) (i j : Nat) (x : Core) (h : j ≠ i) : (s.setCore i x).core j = s.core j := by
  simp [State.core, NMap.get_put_ne _ _ _ _ _ h]
@[simp] theorem State.cell_setCore (s : State) (i j : Nat) (x : Core) : (s.setCore i x).cell j = s.cell j := rfl
@[simp] theorem State.cluster_setCore (s : State) (i j : Nat) (x : Core) : (s.setCore i x).cluster j = s.cluster j := rfl
@[simp] theorem State.die_setCore (s : State) (i j : Nat) (x : Core) : (s.setCore i x).die j = s.die j := rfl
@[simp] theorem State.job_setCore (s : State) (i j : Nat) (x : Core) : (s.setCore i x).job j = s.job j := rfl
@[simp] theorem State.setCore_setCore (s : State) (i : Nat) (x y : Core) : (s.setCore i x).setCore i y = s.setCore i y := by
  simp [State.setCore]
@[simp] theorem State.setCell_cur (s : State) (i : Nat) (x : Cell) : (s.setCell i x).cur = s.cur := rfl
@[simp] theorem State.setCell_turn (s : State) (i : Nat) (x : Cell) : (s.setCell i x).turn = s.turn := rfl
@[simp] theorem State.setCell_moment (s : State) (i : Nat) (x : Cell) : (s.setCell i x).moment = s.moment := rfl
@[simp] theorem State.setCell_cyc (s : State) (i : Nat) (x : Cell) : (s.setCell i x).cyc = s.cyc := rfl
@[simp] theorem State.setCell_dt (s : State) (i : Nat) (x : Cell) : (s.setCell i x).dt = s.dt := rfl
@[simp] theorem State.setCell_mem (s : State) (i : Nat) (x : Cell) : (s.setCell i x).mem = s.mem := rfl
@[simp] theorem State.setCell_poison (s : State) (i : Nat) (x : Cell) : (s.setCell i x).poison = s.poison := rfl
@[simp] theorem State.setCell_lineKey (s : State) (i : Nat) (x : Cell) : (s.setCell i x).lineKey = s.lineKey := rfl
@[simp] theorem State.setCell_l2 (s : State) (i : Nat) (x : Cell) : (s.setCell i x).l2 = s.l2 := rfl
@[simp] theorem State.setCell_snoops (s : State) (i : Nat) (x : Cell) : (s.setCell i x).snoops = s.snoops := rfl
@[simp] theorem State.setCell_keys (s : State) (i : Nat) (x : Cell) : (s.setCell i x).keys = s.keys := rfl
@[simp] theorem State.setCell_resets (s : State) (i : Nat) (x : Cell) : (s.setCell i x).resets = s.resets := rfl
@[simp] theorem State.setCell_cores (s : State) (i : Nat) (x : Cell) : (s.setCell i x).cores = s.cores := rfl
@[simp] theorem State.setCell_cells (s : State) (i : Nat) (x : Cell) : (s.setCell i x).cells = s.cells.put i x := rfl
@[simp] theorem State.setCell_clusters (s : State) (i : Nat) (x : Cell) : (s.setCell i x).clusters = s.clusters := rfl
@[simp] theorem State.setCell_dies (s : State) (i : Nat) (x : Cell) : (s.setCell i x).dies = s.dies := rfl
@[simp] theorem State.setCell_csn (s : State) (i : Nat) (x : Cell) : (s.setCell i x).csn = s.csn := rfl
@[simp] theorem State.setCell_latchPtr (s : State) (i : Nat) (x : Cell) : (s.setCell i x).latchPtr = s.latchPtr := rfl
@[simp] theorem State.setCell_token (s : State) (i : Nat) (x : Cell) : (s.setCell i x).token = s.token := rfl
@[simp] theorem State.setCell_items (s : State) (i : Nat) (x : Cell) : (s.setCell i x).items = s.items := rfl
@[simp] theorem State.setCell_parts (s : State) (i : Nat) (x : Cell) : (s.setCell i x).parts = s.parts := rfl
@[simp] theorem State.setCell_late (s : State) (i : Nat) (x : Cell) : (s.setCell i x).late = s.late := rfl
@[simp] theorem State.setCell_unapplied (s : State) (i : Nat) (x : Cell) : (s.setCell i x).unapplied = s.unapplied := rfl
@[simp] theorem State.setCell_lastBatch (s : State) (i : Nat) (x : Cell) : (s.setCell i x).lastBatch = s.lastBatch := rfl
@[simp] theorem State.setCell_jobs (s : State) (i : Nat) (x : Cell) : (s.setCell i x).jobs = s.jobs := rfl
@[simp] theorem State.setCell_launches (s : State) (i : Nat) (x : Cell) : (s.setCell i x).launches = s.launches := rfl
@[simp] theorem State.setCell_nextLaunch (s : State) (i : Nat) (x : Cell) : (s.setCell i x).nextLaunch = s.nextLaunch := rfl
@[simp] theorem State.setCell_rings (s : State) (i : Nat) (x : Cell) : (s.setCell i x).rings = s.rings := rfl
@[simp] theorem State.setCell_registrations (s : State) (i : Nat) (x : Cell) : (s.setCell i x).registrations = s.registrations := rfl
@[simp] theorem State.setCell_waking (s : State) (i : Nat) (x : Cell) : (s.setCell i x).waking = s.waking := rfl
@[simp] theorem State.setCell_restarting (s : State) (i : Nat) (x : Cell) : (s.setCell i x).restarting = s.restarting := rfl
@[simp] theorem State.setCell_gangs (s : State) (i : Nat) (x : Cell) : (s.setCell i x).gangs = s.gangs := rfl
@[simp] theorem State.setCell_nextTask (s : State) (i : Nat) (x : Cell) : (s.setCell i x).nextTask = s.nextTask := rfl
@[simp] theorem State.setCell_parked (s : State) (i : Nat) (x : Cell) : (s.setCell i x).parked = s.parked := rfl
@[simp] theorem State.setCell_fseq (s : State) (i : Nat) (x : Cell) : (s.setCell i x).fseq = s.fseq := rfl
@[simp] theorem State.setCell_fbQueue (s : State) (i : Nat) (x : Cell) : (s.setCell i x).fbQueue = s.fbQueue := rfl
@[simp] theorem State.setCell_hoops (s : State) (i : Nat) (x : Cell) : (s.setCell i x).hoops = s.hoops := rfl
@[simp] theorem State.setCell_mig (s : State) (i : Nat) (x : Cell) : (s.setCell i x).mig = s.mig := rfl
@[simp] theorem State.setCell_migQ (s : State) (i : Nat) (x : Cell) : (s.setCell i x).migQ = s.migQ := rfl
@[simp] theorem State.setCell_lastMig (s : State) (i : Nat) (x : Cell) : (s.setCell i x).lastMig = s.lastMig := rfl
@[simp] theorem State.setCell_transit (s : State) (i : Nat) (x : Cell) : (s.setCell i x).transit = s.transit := rfl
@[simp] theorem State.setCell_moved (s : State) (i : Nat) (x : Cell) : (s.setCell i x).moved = s.moved := rfl
@[simp] theorem State.setCell_sysJobs (s : State) (i : Nat) (x : Cell) : (s.setCell i x).sysJobs = s.sysJobs := rfl
@[simp] theorem State.setCell_npkg (s : State) (i : Nat) (x : Cell) : (s.setCell i x).npkg = s.npkg := rfl
@[simp] theorem State.setCell_domain (s : State) (i : Nat) (x : Cell) : (s.setCell i x).domain = s.domain := rfl
@[simp] theorem State.setCell_hopD (s : State) (i : Nat) (x : Cell) : (s.setCell i x).hopD = s.hopD := rfl
@[simp] theorem State.setCell_hdmBase (s : State) (i : Nat) (x : Cell) : (s.setCell i x).hdmBase = s.hdmBase := rfl
@[simp] theorem State.setCell_lastTiming (s : State) (i : Nat) (x : Cell) : (s.setCell i x).lastTiming = s.lastTiming := rfl
@[simp] theorem State.setCell_lastSent (s : State) (i : Nat) (x : Cell) : (s.setCell i x).lastSent = s.lastSent := rfl
@[simp] theorem State.setCell_steer (s : State) (i : Nat) (x : Cell) : (s.setCell i x).steer = s.steer := rfl
@[simp] theorem State.setCell_holds (s : State) (i : Nat) (x : Cell) : (s.setCell i x).holds = s.holds := rfl
@[simp] theorem State.setCell_splits (s : State) (i : Nat) (x : Cell) : (s.setCell i x).splits = s.splits := rfl
@[simp] theorem State.setCell_qps (s : State) (i : Nat) (x : Cell) : (s.setCell i x).qps = s.qps := rfl
@[simp] theorem State.setCell_ports (s : State) (i : Nat) (x : Cell) : (s.setCell i x).ports = s.ports := rfl
@[simp] theorem State.setCell_svc (s : State) (i : Nat) (x : Cell) : (s.setCell i x).svc = s.svc := rfl
@[simp] theorem State.setCell_counters (s : State) (i : Nat) (x : Cell) : (s.setCell i x).counters = s.counters := rfl
@[simp] theorem State.setCell_lastCheck (s : State) (i : Nat) (x : Cell) : (s.setCell i x).lastCheck = s.lastCheck := rfl
@[simp] theorem State.setCell_lastPower (s : State) (i : Nat) (x : Cell) : (s.setCell i x).lastPower = s.lastPower := rfl
@[simp] theorem State.setCell_selfTest (s : State) (i : Nat) (x : Cell) : (s.setCell i x).selfTest = s.selfTest := rfl
@[simp] theorem State.setCell_swaps (s : State) (i : Nat) (x : Cell) : (s.setCell i x).swaps = s.swaps := rfl
@[simp] theorem State.setCell_spent (s : State) (i : Nat) (x : Cell) : (s.setCell i x).spent = s.spent := rfl
@[simp] theorem State.setCell_paused (s : State) (i : Nat) (x : Cell) : (s.setCell i x).paused = s.paused := rfl
@[simp] theorem State.setCell_pauseWin (s : State) (i : Nat) (x : Cell) : (s.setCell i x).pauseWin = s.pauseWin := rfl
@[simp] theorem State.setCell_firmware (s : State) (i : Nat) (x : Cell) : (s.setCell i x).firmware = s.firmware := rfl
@[simp] theorem State.setCell_image (s : State) (i : Nat) (x : Cell) : (s.setCell i x).image = s.image := rfl
@[simp] theorem State.setCell_mail (s : State) (i : Nat) (x : Cell) : (s.setCell i x).mail = s.mail := rfl
@[simp] theorem State.setCell_fwd (s : State) (i : Nat) (x : Cell) : (s.setCell i x).fwd = s.fwd := rfl
@[simp] theorem State.setCell_asked (s : State) (i : Nat) (x : Cell) : (s.setCell i x).asked = s.asked := rfl
@[simp] theorem State.setCell_inputs (s : State) (i : Nat) (x : Cell) : (s.setCell i x).inputs = s.inputs := rfl
@[simp] theorem State.setCell_outside (s : State) (i : Nat) (x : Cell) : (s.setCell i x).outside = s.outside := rfl
@[simp] theorem State.setCell_outs (s : State) (i : Nat) (x : Cell) : (s.setCell i x).outs = s.outs := rfl
@[simp] theorem State.setCell_msgOrd (s : State) (i : Nat) (x : Cell) : (s.setCell i x).msgOrd = s.msgOrd := rfl
@[simp] theorem State.cell_setCell (s : State) (i : Nat) (x : Cell) : (s.setCell i x).cell i = x := by simp [State.cell]
theorem State.cell_setCell_ne (s : State) (i j : Nat) (x : Cell) (h : j ≠ i) : (s.setCell i x).cell j = s.cell j := by
  simp [State.cell, NMap.get_put_ne _ _ _ _ _ h]
@[simp] theorem State.core_setCell (s : State) (i j : Nat) (x : Cell) : (s.setCell i x).core j = s.core j := rfl
@[simp] theorem State.cluster_setCell (s : State) (i j : Nat) (x : Cell) : (s.setCell i x).cluster j = s.cluster j := rfl
@[simp] theorem State.die_setCell (s : State) (i j : Nat) (x : Cell) : (s.setCell i x).die j = s.die j := rfl
@[simp] theorem State.job_setCell (s : State) (i j : Nat) (x : Cell) : (s.setCell i x).job j = s.job j := rfl
@[simp] theorem State.setCell_setCell (s : State) (i : Nat) (x y : Cell) : (s.setCell i x).setCell i y = s.setCell i y := by
  simp [State.setCell]
@[simp] theorem State.setCluster_cur (s : State) (i : Nat) (x : Cluster) : (s.setCluster i x).cur = s.cur := rfl
@[simp] theorem State.setCluster_turn (s : State) (i : Nat) (x : Cluster) : (s.setCluster i x).turn = s.turn := rfl
@[simp] theorem State.setCluster_moment (s : State) (i : Nat) (x : Cluster) : (s.setCluster i x).moment = s.moment := rfl
@[simp] theorem State.setCluster_cyc (s : State) (i : Nat) (x : Cluster) : (s.setCluster i x).cyc = s.cyc := rfl
@[simp] theorem State.setCluster_dt (s : State) (i : Nat) (x : Cluster) : (s.setCluster i x).dt = s.dt := rfl
@[simp] theorem State.setCluster_mem (s : State) (i : Nat) (x : Cluster) : (s.setCluster i x).mem = s.mem := rfl
@[simp] theorem State.setCluster_poison (s : State) (i : Nat) (x : Cluster) : (s.setCluster i x).poison = s.poison := rfl
@[simp] theorem State.setCluster_lineKey (s : State) (i : Nat) (x : Cluster) : (s.setCluster i x).lineKey = s.lineKey := rfl
@[simp] theorem State.setCluster_l2 (s : State) (i : Nat) (x : Cluster) : (s.setCluster i x).l2 = s.l2 := rfl
@[simp] theorem State.setCluster_snoops (s : State) (i : Nat) (x : Cluster) : (s.setCluster i x).snoops = s.snoops := rfl
@[simp] theorem State.setCluster_keys (s : State) (i : Nat) (x : Cluster) : (s.setCluster i x).keys = s.keys := rfl
@[simp] theorem State.setCluster_resets (s : State) (i : Nat) (x : Cluster) : (s.setCluster i x).resets = s.resets := rfl
@[simp] theorem State.setCluster_cores (s : State) (i : Nat) (x : Cluster) : (s.setCluster i x).cores = s.cores := rfl
@[simp] theorem State.setCluster_cells (s : State) (i : Nat) (x : Cluster) : (s.setCluster i x).cells = s.cells := rfl
@[simp] theorem State.setCluster_clusters (s : State) (i : Nat) (x : Cluster) : (s.setCluster i x).clusters = s.clusters.put i x := rfl
@[simp] theorem State.setCluster_dies (s : State) (i : Nat) (x : Cluster) : (s.setCluster i x).dies = s.dies := rfl
@[simp] theorem State.setCluster_csn (s : State) (i : Nat) (x : Cluster) : (s.setCluster i x).csn = s.csn := rfl
@[simp] theorem State.setCluster_latchPtr (s : State) (i : Nat) (x : Cluster) : (s.setCluster i x).latchPtr = s.latchPtr := rfl
@[simp] theorem State.setCluster_token (s : State) (i : Nat) (x : Cluster) : (s.setCluster i x).token = s.token := rfl
@[simp] theorem State.setCluster_items (s : State) (i : Nat) (x : Cluster) : (s.setCluster i x).items = s.items := rfl
@[simp] theorem State.setCluster_parts (s : State) (i : Nat) (x : Cluster) : (s.setCluster i x).parts = s.parts := rfl
@[simp] theorem State.setCluster_late (s : State) (i : Nat) (x : Cluster) : (s.setCluster i x).late = s.late := rfl
@[simp] theorem State.setCluster_unapplied (s : State) (i : Nat) (x : Cluster) : (s.setCluster i x).unapplied = s.unapplied := rfl
@[simp] theorem State.setCluster_lastBatch (s : State) (i : Nat) (x : Cluster) : (s.setCluster i x).lastBatch = s.lastBatch := rfl
@[simp] theorem State.setCluster_jobs (s : State) (i : Nat) (x : Cluster) : (s.setCluster i x).jobs = s.jobs := rfl
@[simp] theorem State.setCluster_launches (s : State) (i : Nat) (x : Cluster) : (s.setCluster i x).launches = s.launches := rfl
@[simp] theorem State.setCluster_nextLaunch (s : State) (i : Nat) (x : Cluster) : (s.setCluster i x).nextLaunch = s.nextLaunch := rfl
@[simp] theorem State.setCluster_rings (s : State) (i : Nat) (x : Cluster) : (s.setCluster i x).rings = s.rings := rfl
@[simp] theorem State.setCluster_registrations (s : State) (i : Nat) (x : Cluster) : (s.setCluster i x).registrations = s.registrations := rfl
@[simp] theorem State.setCluster_waking (s : State) (i : Nat) (x : Cluster) : (s.setCluster i x).waking = s.waking := rfl
@[simp] theorem State.setCluster_restarting (s : State) (i : Nat) (x : Cluster) : (s.setCluster i x).restarting = s.restarting := rfl
@[simp] theorem State.setCluster_gangs (s : State) (i : Nat) (x : Cluster) : (s.setCluster i x).gangs = s.gangs := rfl
@[simp] theorem State.setCluster_nextTask (s : State) (i : Nat) (x : Cluster) : (s.setCluster i x).nextTask = s.nextTask := rfl
@[simp] theorem State.setCluster_parked (s : State) (i : Nat) (x : Cluster) : (s.setCluster i x).parked = s.parked := rfl
@[simp] theorem State.setCluster_fseq (s : State) (i : Nat) (x : Cluster) : (s.setCluster i x).fseq = s.fseq := rfl
@[simp] theorem State.setCluster_fbQueue (s : State) (i : Nat) (x : Cluster) : (s.setCluster i x).fbQueue = s.fbQueue := rfl
@[simp] theorem State.setCluster_hoops (s : State) (i : Nat) (x : Cluster) : (s.setCluster i x).hoops = s.hoops := rfl
@[simp] theorem State.setCluster_mig (s : State) (i : Nat) (x : Cluster) : (s.setCluster i x).mig = s.mig := rfl
@[simp] theorem State.setCluster_migQ (s : State) (i : Nat) (x : Cluster) : (s.setCluster i x).migQ = s.migQ := rfl
@[simp] theorem State.setCluster_lastMig (s : State) (i : Nat) (x : Cluster) : (s.setCluster i x).lastMig = s.lastMig := rfl
@[simp] theorem State.setCluster_transit (s : State) (i : Nat) (x : Cluster) : (s.setCluster i x).transit = s.transit := rfl
@[simp] theorem State.setCluster_moved (s : State) (i : Nat) (x : Cluster) : (s.setCluster i x).moved = s.moved := rfl
@[simp] theorem State.setCluster_sysJobs (s : State) (i : Nat) (x : Cluster) : (s.setCluster i x).sysJobs = s.sysJobs := rfl
@[simp] theorem State.setCluster_npkg (s : State) (i : Nat) (x : Cluster) : (s.setCluster i x).npkg = s.npkg := rfl
@[simp] theorem State.setCluster_domain (s : State) (i : Nat) (x : Cluster) : (s.setCluster i x).domain = s.domain := rfl
@[simp] theorem State.setCluster_hopD (s : State) (i : Nat) (x : Cluster) : (s.setCluster i x).hopD = s.hopD := rfl
@[simp] theorem State.setCluster_hdmBase (s : State) (i : Nat) (x : Cluster) : (s.setCluster i x).hdmBase = s.hdmBase := rfl
@[simp] theorem State.setCluster_lastTiming (s : State) (i : Nat) (x : Cluster) : (s.setCluster i x).lastTiming = s.lastTiming := rfl
@[simp] theorem State.setCluster_lastSent (s : State) (i : Nat) (x : Cluster) : (s.setCluster i x).lastSent = s.lastSent := rfl
@[simp] theorem State.setCluster_steer (s : State) (i : Nat) (x : Cluster) : (s.setCluster i x).steer = s.steer := rfl
@[simp] theorem State.setCluster_holds (s : State) (i : Nat) (x : Cluster) : (s.setCluster i x).holds = s.holds := rfl
@[simp] theorem State.setCluster_splits (s : State) (i : Nat) (x : Cluster) : (s.setCluster i x).splits = s.splits := rfl
@[simp] theorem State.setCluster_qps (s : State) (i : Nat) (x : Cluster) : (s.setCluster i x).qps = s.qps := rfl
@[simp] theorem State.setCluster_ports (s : State) (i : Nat) (x : Cluster) : (s.setCluster i x).ports = s.ports := rfl
@[simp] theorem State.setCluster_svc (s : State) (i : Nat) (x : Cluster) : (s.setCluster i x).svc = s.svc := rfl
@[simp] theorem State.setCluster_counters (s : State) (i : Nat) (x : Cluster) : (s.setCluster i x).counters = s.counters := rfl
@[simp] theorem State.setCluster_lastCheck (s : State) (i : Nat) (x : Cluster) : (s.setCluster i x).lastCheck = s.lastCheck := rfl
@[simp] theorem State.setCluster_lastPower (s : State) (i : Nat) (x : Cluster) : (s.setCluster i x).lastPower = s.lastPower := rfl
@[simp] theorem State.setCluster_selfTest (s : State) (i : Nat) (x : Cluster) : (s.setCluster i x).selfTest = s.selfTest := rfl
@[simp] theorem State.setCluster_swaps (s : State) (i : Nat) (x : Cluster) : (s.setCluster i x).swaps = s.swaps := rfl
@[simp] theorem State.setCluster_spent (s : State) (i : Nat) (x : Cluster) : (s.setCluster i x).spent = s.spent := rfl
@[simp] theorem State.setCluster_paused (s : State) (i : Nat) (x : Cluster) : (s.setCluster i x).paused = s.paused := rfl
@[simp] theorem State.setCluster_pauseWin (s : State) (i : Nat) (x : Cluster) : (s.setCluster i x).pauseWin = s.pauseWin := rfl
@[simp] theorem State.setCluster_firmware (s : State) (i : Nat) (x : Cluster) : (s.setCluster i x).firmware = s.firmware := rfl
@[simp] theorem State.setCluster_image (s : State) (i : Nat) (x : Cluster) : (s.setCluster i x).image = s.image := rfl
@[simp] theorem State.setCluster_mail (s : State) (i : Nat) (x : Cluster) : (s.setCluster i x).mail = s.mail := rfl
@[simp] theorem State.setCluster_fwd (s : State) (i : Nat) (x : Cluster) : (s.setCluster i x).fwd = s.fwd := rfl
@[simp] theorem State.setCluster_asked (s : State) (i : Nat) (x : Cluster) : (s.setCluster i x).asked = s.asked := rfl
@[simp] theorem State.setCluster_inputs (s : State) (i : Nat) (x : Cluster) : (s.setCluster i x).inputs = s.inputs := rfl
@[simp] theorem State.setCluster_outside (s : State) (i : Nat) (x : Cluster) : (s.setCluster i x).outside = s.outside := rfl
@[simp] theorem State.setCluster_outs (s : State) (i : Nat) (x : Cluster) : (s.setCluster i x).outs = s.outs := rfl
@[simp] theorem State.setCluster_msgOrd (s : State) (i : Nat) (x : Cluster) : (s.setCluster i x).msgOrd = s.msgOrd := rfl
@[simp] theorem State.cluster_setCluster (s : State) (i : Nat) (x : Cluster) : (s.setCluster i x).cluster i = x := by simp [State.cluster]
theorem State.cluster_setCluster_ne (s : State) (i j : Nat) (x : Cluster) (h : j ≠ i) : (s.setCluster i x).cluster j = s.cluster j := by
  simp [State.cluster, NMap.get_put_ne _ _ _ _ _ h]
@[simp] theorem State.core_setCluster (s : State) (i j : Nat) (x : Cluster) : (s.setCluster i x).core j = s.core j := rfl
@[simp] theorem State.cell_setCluster (s : State) (i j : Nat) (x : Cluster) : (s.setCluster i x).cell j = s.cell j := rfl
@[simp] theorem State.die_setCluster (s : State) (i j : Nat) (x : Cluster) : (s.setCluster i x).die j = s.die j := rfl
@[simp] theorem State.job_setCluster (s : State) (i j : Nat) (x : Cluster) : (s.setCluster i x).job j = s.job j := rfl
@[simp] theorem State.setCluster_setCluster (s : State) (i : Nat) (x y : Cluster) : (s.setCluster i x).setCluster i y = s.setCluster i y := by
  simp [State.setCluster]
@[simp] theorem State.setDie_cur (s : State) (i : Nat) (x : Die) : (s.setDie i x).cur = s.cur := rfl
@[simp] theorem State.setDie_turn (s : State) (i : Nat) (x : Die) : (s.setDie i x).turn = s.turn := rfl
@[simp] theorem State.setDie_moment (s : State) (i : Nat) (x : Die) : (s.setDie i x).moment = s.moment := rfl
@[simp] theorem State.setDie_cyc (s : State) (i : Nat) (x : Die) : (s.setDie i x).cyc = s.cyc := rfl
@[simp] theorem State.setDie_dt (s : State) (i : Nat) (x : Die) : (s.setDie i x).dt = s.dt := rfl
@[simp] theorem State.setDie_mem (s : State) (i : Nat) (x : Die) : (s.setDie i x).mem = s.mem := rfl
@[simp] theorem State.setDie_poison (s : State) (i : Nat) (x : Die) : (s.setDie i x).poison = s.poison := rfl
@[simp] theorem State.setDie_lineKey (s : State) (i : Nat) (x : Die) : (s.setDie i x).lineKey = s.lineKey := rfl
@[simp] theorem State.setDie_l2 (s : State) (i : Nat) (x : Die) : (s.setDie i x).l2 = s.l2 := rfl
@[simp] theorem State.setDie_snoops (s : State) (i : Nat) (x : Die) : (s.setDie i x).snoops = s.snoops := rfl
@[simp] theorem State.setDie_keys (s : State) (i : Nat) (x : Die) : (s.setDie i x).keys = s.keys := rfl
@[simp] theorem State.setDie_resets (s : State) (i : Nat) (x : Die) : (s.setDie i x).resets = s.resets := rfl
@[simp] theorem State.setDie_cores (s : State) (i : Nat) (x : Die) : (s.setDie i x).cores = s.cores := rfl
@[simp] theorem State.setDie_cells (s : State) (i : Nat) (x : Die) : (s.setDie i x).cells = s.cells := rfl
@[simp] theorem State.setDie_clusters (s : State) (i : Nat) (x : Die) : (s.setDie i x).clusters = s.clusters := rfl
@[simp] theorem State.setDie_dies (s : State) (i : Nat) (x : Die) : (s.setDie i x).dies = s.dies.put i x := rfl
@[simp] theorem State.setDie_csn (s : State) (i : Nat) (x : Die) : (s.setDie i x).csn = s.csn := rfl
@[simp] theorem State.setDie_latchPtr (s : State) (i : Nat) (x : Die) : (s.setDie i x).latchPtr = s.latchPtr := rfl
@[simp] theorem State.setDie_token (s : State) (i : Nat) (x : Die) : (s.setDie i x).token = s.token := rfl
@[simp] theorem State.setDie_items (s : State) (i : Nat) (x : Die) : (s.setDie i x).items = s.items := rfl
@[simp] theorem State.setDie_parts (s : State) (i : Nat) (x : Die) : (s.setDie i x).parts = s.parts := rfl
@[simp] theorem State.setDie_late (s : State) (i : Nat) (x : Die) : (s.setDie i x).late = s.late := rfl
@[simp] theorem State.setDie_unapplied (s : State) (i : Nat) (x : Die) : (s.setDie i x).unapplied = s.unapplied := rfl
@[simp] theorem State.setDie_lastBatch (s : State) (i : Nat) (x : Die) : (s.setDie i x).lastBatch = s.lastBatch := rfl
@[simp] theorem State.setDie_jobs (s : State) (i : Nat) (x : Die) : (s.setDie i x).jobs = s.jobs := rfl
@[simp] theorem State.setDie_launches (s : State) (i : Nat) (x : Die) : (s.setDie i x).launches = s.launches := rfl
@[simp] theorem State.setDie_nextLaunch (s : State) (i : Nat) (x : Die) : (s.setDie i x).nextLaunch = s.nextLaunch := rfl
@[simp] theorem State.setDie_rings (s : State) (i : Nat) (x : Die) : (s.setDie i x).rings = s.rings := rfl
@[simp] theorem State.setDie_registrations (s : State) (i : Nat) (x : Die) : (s.setDie i x).registrations = s.registrations := rfl
@[simp] theorem State.setDie_waking (s : State) (i : Nat) (x : Die) : (s.setDie i x).waking = s.waking := rfl
@[simp] theorem State.setDie_restarting (s : State) (i : Nat) (x : Die) : (s.setDie i x).restarting = s.restarting := rfl
@[simp] theorem State.setDie_gangs (s : State) (i : Nat) (x : Die) : (s.setDie i x).gangs = s.gangs := rfl
@[simp] theorem State.setDie_nextTask (s : State) (i : Nat) (x : Die) : (s.setDie i x).nextTask = s.nextTask := rfl
@[simp] theorem State.setDie_parked (s : State) (i : Nat) (x : Die) : (s.setDie i x).parked = s.parked := rfl
@[simp] theorem State.setDie_fseq (s : State) (i : Nat) (x : Die) : (s.setDie i x).fseq = s.fseq := rfl
@[simp] theorem State.setDie_fbQueue (s : State) (i : Nat) (x : Die) : (s.setDie i x).fbQueue = s.fbQueue := rfl
@[simp] theorem State.setDie_hoops (s : State) (i : Nat) (x : Die) : (s.setDie i x).hoops = s.hoops := rfl
@[simp] theorem State.setDie_mig (s : State) (i : Nat) (x : Die) : (s.setDie i x).mig = s.mig := rfl
@[simp] theorem State.setDie_migQ (s : State) (i : Nat) (x : Die) : (s.setDie i x).migQ = s.migQ := rfl
@[simp] theorem State.setDie_lastMig (s : State) (i : Nat) (x : Die) : (s.setDie i x).lastMig = s.lastMig := rfl
@[simp] theorem State.setDie_transit (s : State) (i : Nat) (x : Die) : (s.setDie i x).transit = s.transit := rfl
@[simp] theorem State.setDie_moved (s : State) (i : Nat) (x : Die) : (s.setDie i x).moved = s.moved := rfl
@[simp] theorem State.setDie_sysJobs (s : State) (i : Nat) (x : Die) : (s.setDie i x).sysJobs = s.sysJobs := rfl
@[simp] theorem State.setDie_npkg (s : State) (i : Nat) (x : Die) : (s.setDie i x).npkg = s.npkg := rfl
@[simp] theorem State.setDie_domain (s : State) (i : Nat) (x : Die) : (s.setDie i x).domain = s.domain := rfl
@[simp] theorem State.setDie_hopD (s : State) (i : Nat) (x : Die) : (s.setDie i x).hopD = s.hopD := rfl
@[simp] theorem State.setDie_hdmBase (s : State) (i : Nat) (x : Die) : (s.setDie i x).hdmBase = s.hdmBase := rfl
@[simp] theorem State.setDie_lastTiming (s : State) (i : Nat) (x : Die) : (s.setDie i x).lastTiming = s.lastTiming := rfl
@[simp] theorem State.setDie_lastSent (s : State) (i : Nat) (x : Die) : (s.setDie i x).lastSent = s.lastSent := rfl
@[simp] theorem State.setDie_steer (s : State) (i : Nat) (x : Die) : (s.setDie i x).steer = s.steer := rfl
@[simp] theorem State.setDie_holds (s : State) (i : Nat) (x : Die) : (s.setDie i x).holds = s.holds := rfl
@[simp] theorem State.setDie_splits (s : State) (i : Nat) (x : Die) : (s.setDie i x).splits = s.splits := rfl
@[simp] theorem State.setDie_qps (s : State) (i : Nat) (x : Die) : (s.setDie i x).qps = s.qps := rfl
@[simp] theorem State.setDie_ports (s : State) (i : Nat) (x : Die) : (s.setDie i x).ports = s.ports := rfl
@[simp] theorem State.setDie_svc (s : State) (i : Nat) (x : Die) : (s.setDie i x).svc = s.svc := rfl
@[simp] theorem State.setDie_counters (s : State) (i : Nat) (x : Die) : (s.setDie i x).counters = s.counters := rfl
@[simp] theorem State.setDie_lastCheck (s : State) (i : Nat) (x : Die) : (s.setDie i x).lastCheck = s.lastCheck := rfl
@[simp] theorem State.setDie_lastPower (s : State) (i : Nat) (x : Die) : (s.setDie i x).lastPower = s.lastPower := rfl
@[simp] theorem State.setDie_selfTest (s : State) (i : Nat) (x : Die) : (s.setDie i x).selfTest = s.selfTest := rfl
@[simp] theorem State.setDie_swaps (s : State) (i : Nat) (x : Die) : (s.setDie i x).swaps = s.swaps := rfl
@[simp] theorem State.setDie_spent (s : State) (i : Nat) (x : Die) : (s.setDie i x).spent = s.spent := rfl
@[simp] theorem State.setDie_paused (s : State) (i : Nat) (x : Die) : (s.setDie i x).paused = s.paused := rfl
@[simp] theorem State.setDie_pauseWin (s : State) (i : Nat) (x : Die) : (s.setDie i x).pauseWin = s.pauseWin := rfl
@[simp] theorem State.setDie_firmware (s : State) (i : Nat) (x : Die) : (s.setDie i x).firmware = s.firmware := rfl
@[simp] theorem State.setDie_image (s : State) (i : Nat) (x : Die) : (s.setDie i x).image = s.image := rfl
@[simp] theorem State.setDie_mail (s : State) (i : Nat) (x : Die) : (s.setDie i x).mail = s.mail := rfl
@[simp] theorem State.setDie_fwd (s : State) (i : Nat) (x : Die) : (s.setDie i x).fwd = s.fwd := rfl
@[simp] theorem State.setDie_asked (s : State) (i : Nat) (x : Die) : (s.setDie i x).asked = s.asked := rfl
@[simp] theorem State.setDie_inputs (s : State) (i : Nat) (x : Die) : (s.setDie i x).inputs = s.inputs := rfl
@[simp] theorem State.setDie_outside (s : State) (i : Nat) (x : Die) : (s.setDie i x).outside = s.outside := rfl
@[simp] theorem State.setDie_outs (s : State) (i : Nat) (x : Die) : (s.setDie i x).outs = s.outs := rfl
@[simp] theorem State.setDie_msgOrd (s : State) (i : Nat) (x : Die) : (s.setDie i x).msgOrd = s.msgOrd := rfl
@[simp] theorem State.die_setDie (s : State) (i : Nat) (x : Die) : (s.setDie i x).die i = x := by simp [State.die]
theorem State.die_setDie_ne (s : State) (i j : Nat) (x : Die) (h : j ≠ i) : (s.setDie i x).die j = s.die j := by
  simp [State.die, NMap.get_put_ne _ _ _ _ _ h]
@[simp] theorem State.core_setDie (s : State) (i j : Nat) (x : Die) : (s.setDie i x).core j = s.core j := rfl
@[simp] theorem State.cell_setDie (s : State) (i j : Nat) (x : Die) : (s.setDie i x).cell j = s.cell j := rfl
@[simp] theorem State.cluster_setDie (s : State) (i j : Nat) (x : Die) : (s.setDie i x).cluster j = s.cluster j := rfl
@[simp] theorem State.job_setDie (s : State) (i j : Nat) (x : Die) : (s.setDie i x).job j = s.job j := rfl
@[simp] theorem State.setDie_setDie (s : State) (i : Nat) (x y : Die) : (s.setDie i x).setDie i y = s.setDie i y := by
  simp [State.setDie]
@[simp] theorem State.setJob_cur (s : State) (i : Nat) (x : Job) : (s.setJob i x).cur = s.cur := rfl
@[simp] theorem State.setJob_turn (s : State) (i : Nat) (x : Job) : (s.setJob i x).turn = s.turn := rfl
@[simp] theorem State.setJob_moment (s : State) (i : Nat) (x : Job) : (s.setJob i x).moment = s.moment := rfl
@[simp] theorem State.setJob_cyc (s : State) (i : Nat) (x : Job) : (s.setJob i x).cyc = s.cyc := rfl
@[simp] theorem State.setJob_dt (s : State) (i : Nat) (x : Job) : (s.setJob i x).dt = s.dt := rfl
@[simp] theorem State.setJob_mem (s : State) (i : Nat) (x : Job) : (s.setJob i x).mem = s.mem := rfl
@[simp] theorem State.setJob_poison (s : State) (i : Nat) (x : Job) : (s.setJob i x).poison = s.poison := rfl
@[simp] theorem State.setJob_lineKey (s : State) (i : Nat) (x : Job) : (s.setJob i x).lineKey = s.lineKey := rfl
@[simp] theorem State.setJob_l2 (s : State) (i : Nat) (x : Job) : (s.setJob i x).l2 = s.l2 := rfl
@[simp] theorem State.setJob_snoops (s : State) (i : Nat) (x : Job) : (s.setJob i x).snoops = s.snoops := rfl
@[simp] theorem State.setJob_keys (s : State) (i : Nat) (x : Job) : (s.setJob i x).keys = s.keys := rfl
@[simp] theorem State.setJob_resets (s : State) (i : Nat) (x : Job) : (s.setJob i x).resets = s.resets := rfl
@[simp] theorem State.setJob_cores (s : State) (i : Nat) (x : Job) : (s.setJob i x).cores = s.cores := rfl
@[simp] theorem State.setJob_cells (s : State) (i : Nat) (x : Job) : (s.setJob i x).cells = s.cells := rfl
@[simp] theorem State.setJob_clusters (s : State) (i : Nat) (x : Job) : (s.setJob i x).clusters = s.clusters := rfl
@[simp] theorem State.setJob_dies (s : State) (i : Nat) (x : Job) : (s.setJob i x).dies = s.dies := rfl
@[simp] theorem State.setJob_csn (s : State) (i : Nat) (x : Job) : (s.setJob i x).csn = s.csn := rfl
@[simp] theorem State.setJob_latchPtr (s : State) (i : Nat) (x : Job) : (s.setJob i x).latchPtr = s.latchPtr := rfl
@[simp] theorem State.setJob_token (s : State) (i : Nat) (x : Job) : (s.setJob i x).token = s.token := rfl
@[simp] theorem State.setJob_items (s : State) (i : Nat) (x : Job) : (s.setJob i x).items = s.items := rfl
@[simp] theorem State.setJob_parts (s : State) (i : Nat) (x : Job) : (s.setJob i x).parts = s.parts := rfl
@[simp] theorem State.setJob_late (s : State) (i : Nat) (x : Job) : (s.setJob i x).late = s.late := rfl
@[simp] theorem State.setJob_unapplied (s : State) (i : Nat) (x : Job) : (s.setJob i x).unapplied = s.unapplied := rfl
@[simp] theorem State.setJob_lastBatch (s : State) (i : Nat) (x : Job) : (s.setJob i x).lastBatch = s.lastBatch := rfl
@[simp] theorem State.setJob_jobs (s : State) (i : Nat) (x : Job) : (s.setJob i x).jobs = s.jobs.put i x := rfl
@[simp] theorem State.setJob_launches (s : State) (i : Nat) (x : Job) : (s.setJob i x).launches = s.launches := rfl
@[simp] theorem State.setJob_nextLaunch (s : State) (i : Nat) (x : Job) : (s.setJob i x).nextLaunch = s.nextLaunch := rfl
@[simp] theorem State.setJob_rings (s : State) (i : Nat) (x : Job) : (s.setJob i x).rings = s.rings := rfl
@[simp] theorem State.setJob_registrations (s : State) (i : Nat) (x : Job) : (s.setJob i x).registrations = s.registrations := rfl
@[simp] theorem State.setJob_waking (s : State) (i : Nat) (x : Job) : (s.setJob i x).waking = s.waking := rfl
@[simp] theorem State.setJob_restarting (s : State) (i : Nat) (x : Job) : (s.setJob i x).restarting = s.restarting := rfl
@[simp] theorem State.setJob_gangs (s : State) (i : Nat) (x : Job) : (s.setJob i x).gangs = s.gangs := rfl
@[simp] theorem State.setJob_nextTask (s : State) (i : Nat) (x : Job) : (s.setJob i x).nextTask = s.nextTask := rfl
@[simp] theorem State.setJob_parked (s : State) (i : Nat) (x : Job) : (s.setJob i x).parked = s.parked := rfl
@[simp] theorem State.setJob_fseq (s : State) (i : Nat) (x : Job) : (s.setJob i x).fseq = s.fseq := rfl
@[simp] theorem State.setJob_fbQueue (s : State) (i : Nat) (x : Job) : (s.setJob i x).fbQueue = s.fbQueue := rfl
@[simp] theorem State.setJob_hoops (s : State) (i : Nat) (x : Job) : (s.setJob i x).hoops = s.hoops := rfl
@[simp] theorem State.setJob_mig (s : State) (i : Nat) (x : Job) : (s.setJob i x).mig = s.mig := rfl
@[simp] theorem State.setJob_migQ (s : State) (i : Nat) (x : Job) : (s.setJob i x).migQ = s.migQ := rfl
@[simp] theorem State.setJob_lastMig (s : State) (i : Nat) (x : Job) : (s.setJob i x).lastMig = s.lastMig := rfl
@[simp] theorem State.setJob_transit (s : State) (i : Nat) (x : Job) : (s.setJob i x).transit = s.transit := rfl
@[simp] theorem State.setJob_moved (s : State) (i : Nat) (x : Job) : (s.setJob i x).moved = s.moved := rfl
@[simp] theorem State.setJob_sysJobs (s : State) (i : Nat) (x : Job) : (s.setJob i x).sysJobs = s.sysJobs := rfl
@[simp] theorem State.setJob_npkg (s : State) (i : Nat) (x : Job) : (s.setJob i x).npkg = s.npkg := rfl
@[simp] theorem State.setJob_domain (s : State) (i : Nat) (x : Job) : (s.setJob i x).domain = s.domain := rfl
@[simp] theorem State.setJob_hopD (s : State) (i : Nat) (x : Job) : (s.setJob i x).hopD = s.hopD := rfl
@[simp] theorem State.setJob_hdmBase (s : State) (i : Nat) (x : Job) : (s.setJob i x).hdmBase = s.hdmBase := rfl
@[simp] theorem State.setJob_lastTiming (s : State) (i : Nat) (x : Job) : (s.setJob i x).lastTiming = s.lastTiming := rfl
@[simp] theorem State.setJob_lastSent (s : State) (i : Nat) (x : Job) : (s.setJob i x).lastSent = s.lastSent := rfl
@[simp] theorem State.setJob_steer (s : State) (i : Nat) (x : Job) : (s.setJob i x).steer = s.steer := rfl
@[simp] theorem State.setJob_holds (s : State) (i : Nat) (x : Job) : (s.setJob i x).holds = s.holds := rfl
@[simp] theorem State.setJob_splits (s : State) (i : Nat) (x : Job) : (s.setJob i x).splits = s.splits := rfl
@[simp] theorem State.setJob_qps (s : State) (i : Nat) (x : Job) : (s.setJob i x).qps = s.qps := rfl
@[simp] theorem State.setJob_ports (s : State) (i : Nat) (x : Job) : (s.setJob i x).ports = s.ports := rfl
@[simp] theorem State.setJob_svc (s : State) (i : Nat) (x : Job) : (s.setJob i x).svc = s.svc := rfl
@[simp] theorem State.setJob_counters (s : State) (i : Nat) (x : Job) : (s.setJob i x).counters = s.counters := rfl
@[simp] theorem State.setJob_lastCheck (s : State) (i : Nat) (x : Job) : (s.setJob i x).lastCheck = s.lastCheck := rfl
@[simp] theorem State.setJob_lastPower (s : State) (i : Nat) (x : Job) : (s.setJob i x).lastPower = s.lastPower := rfl
@[simp] theorem State.setJob_selfTest (s : State) (i : Nat) (x : Job) : (s.setJob i x).selfTest = s.selfTest := rfl
@[simp] theorem State.setJob_swaps (s : State) (i : Nat) (x : Job) : (s.setJob i x).swaps = s.swaps := rfl
@[simp] theorem State.setJob_spent (s : State) (i : Nat) (x : Job) : (s.setJob i x).spent = s.spent := rfl
@[simp] theorem State.setJob_paused (s : State) (i : Nat) (x : Job) : (s.setJob i x).paused = s.paused := rfl
@[simp] theorem State.setJob_pauseWin (s : State) (i : Nat) (x : Job) : (s.setJob i x).pauseWin = s.pauseWin := rfl
@[simp] theorem State.setJob_firmware (s : State) (i : Nat) (x : Job) : (s.setJob i x).firmware = s.firmware := rfl
@[simp] theorem State.setJob_image (s : State) (i : Nat) (x : Job) : (s.setJob i x).image = s.image := rfl
@[simp] theorem State.setJob_mail (s : State) (i : Nat) (x : Job) : (s.setJob i x).mail = s.mail := rfl
@[simp] theorem State.setJob_fwd (s : State) (i : Nat) (x : Job) : (s.setJob i x).fwd = s.fwd := rfl
@[simp] theorem State.setJob_asked (s : State) (i : Nat) (x : Job) : (s.setJob i x).asked = s.asked := rfl
@[simp] theorem State.setJob_inputs (s : State) (i : Nat) (x : Job) : (s.setJob i x).inputs = s.inputs := rfl
@[simp] theorem State.setJob_outside (s : State) (i : Nat) (x : Job) : (s.setJob i x).outside = s.outside := rfl
@[simp] theorem State.setJob_outs (s : State) (i : Nat) (x : Job) : (s.setJob i x).outs = s.outs := rfl
@[simp] theorem State.setJob_msgOrd (s : State) (i : Nat) (x : Job) : (s.setJob i x).msgOrd = s.msgOrd := rfl
@[simp] theorem State.job_setJob (s : State) (i : Nat) (x : Job) : (s.setJob i x).job i = x := by simp [State.job]
theorem State.job_setJob_ne (s : State) (i j : Nat) (x : Job) (h : j ≠ i) : (s.setJob i x).job j = s.job j := by
  simp [State.job, NMap.get_put_ne _ _ _ _ _ h]
@[simp] theorem State.core_setJob (s : State) (i j : Nat) (x : Job) : (s.setJob i x).core j = s.core j := rfl
@[simp] theorem State.cell_setJob (s : State) (i j : Nat) (x : Job) : (s.setJob i x).cell j = s.cell j := rfl
@[simp] theorem State.cluster_setJob (s : State) (i j : Nat) (x : Job) : (s.setJob i x).cluster j = s.cluster j := rfl
@[simp] theorem State.die_setJob (s : State) (i j : Nat) (x : Job) : (s.setJob i x).die j = s.die j := rfl
@[simp] theorem State.setJob_setJob (s : State) (i : Nat) (x y : Job) : (s.setJob i x).setJob i y = s.setJob i y := by
  simp [State.setJob]

/-! ## The current core -/

@[simp] theorem State.modMe_cur (s : State) (f : Core → Core) : (s.modMe f).cur = s.cur := rfl
@[simp] theorem State.modMe_turn (s : State) (f : Core → Core) : (s.modMe f).turn = s.turn := rfl
@[simp] theorem State.modMe_moment (s : State) (f : Core → Core) : (s.modMe f).moment = s.moment := rfl
@[simp] theorem State.modMe_cyc (s : State) (f : Core → Core) : (s.modMe f).cyc = s.cyc := rfl
@[simp] theorem State.modMe_dt (s : State) (f : Core → Core) : (s.modMe f).dt = s.dt := rfl
@[simp] theorem State.modMe_mem (s : State) (f : Core → Core) : (s.modMe f).mem = s.mem := rfl
@[simp] theorem State.modMe_poison (s : State) (f : Core → Core) : (s.modMe f).poison = s.poison := rfl
@[simp] theorem State.modMe_lineKey (s : State) (f : Core → Core) : (s.modMe f).lineKey = s.lineKey := rfl
@[simp] theorem State.modMe_l2 (s : State) (f : Core → Core) : (s.modMe f).l2 = s.l2 := rfl
@[simp] theorem State.modMe_snoops (s : State) (f : Core → Core) : (s.modMe f).snoops = s.snoops := rfl
@[simp] theorem State.modMe_keys (s : State) (f : Core → Core) : (s.modMe f).keys = s.keys := rfl
@[simp] theorem State.modMe_resets (s : State) (f : Core → Core) : (s.modMe f).resets = s.resets := rfl
@[simp] theorem State.modMe_cells (s : State) (f : Core → Core) : (s.modMe f).cells = s.cells := rfl
@[simp] theorem State.modMe_clusters (s : State) (f : Core → Core) : (s.modMe f).clusters = s.clusters := rfl
@[simp] theorem State.modMe_dies (s : State) (f : Core → Core) : (s.modMe f).dies = s.dies := rfl
@[simp] theorem State.modMe_csn (s : State) (f : Core → Core) : (s.modMe f).csn = s.csn := rfl
@[simp] theorem State.modMe_latchPtr (s : State) (f : Core → Core) : (s.modMe f).latchPtr = s.latchPtr := rfl
@[simp] theorem State.modMe_token (s : State) (f : Core → Core) : (s.modMe f).token = s.token := rfl
@[simp] theorem State.modMe_items (s : State) (f : Core → Core) : (s.modMe f).items = s.items := rfl
@[simp] theorem State.modMe_parts (s : State) (f : Core → Core) : (s.modMe f).parts = s.parts := rfl
@[simp] theorem State.modMe_late (s : State) (f : Core → Core) : (s.modMe f).late = s.late := rfl
@[simp] theorem State.modMe_unapplied (s : State) (f : Core → Core) : (s.modMe f).unapplied = s.unapplied := rfl
@[simp] theorem State.modMe_lastBatch (s : State) (f : Core → Core) : (s.modMe f).lastBatch = s.lastBatch := rfl
@[simp] theorem State.modMe_jobs (s : State) (f : Core → Core) : (s.modMe f).jobs = s.jobs := rfl
@[simp] theorem State.modMe_launches (s : State) (f : Core → Core) : (s.modMe f).launches = s.launches := rfl
@[simp] theorem State.modMe_nextLaunch (s : State) (f : Core → Core) : (s.modMe f).nextLaunch = s.nextLaunch := rfl
@[simp] theorem State.modMe_rings (s : State) (f : Core → Core) : (s.modMe f).rings = s.rings := rfl
@[simp] theorem State.modMe_registrations (s : State) (f : Core → Core) : (s.modMe f).registrations = s.registrations := rfl
@[simp] theorem State.modMe_waking (s : State) (f : Core → Core) : (s.modMe f).waking = s.waking := rfl
@[simp] theorem State.modMe_restarting (s : State) (f : Core → Core) : (s.modMe f).restarting = s.restarting := rfl
@[simp] theorem State.modMe_gangs (s : State) (f : Core → Core) : (s.modMe f).gangs = s.gangs := rfl
@[simp] theorem State.modMe_nextTask (s : State) (f : Core → Core) : (s.modMe f).nextTask = s.nextTask := rfl
@[simp] theorem State.modMe_parked (s : State) (f : Core → Core) : (s.modMe f).parked = s.parked := rfl
@[simp] theorem State.modMe_fseq (s : State) (f : Core → Core) : (s.modMe f).fseq = s.fseq := rfl
@[simp] theorem State.modMe_fbQueue (s : State) (f : Core → Core) : (s.modMe f).fbQueue = s.fbQueue := rfl
@[simp] theorem State.modMe_hoops (s : State) (f : Core → Core) : (s.modMe f).hoops = s.hoops := rfl
@[simp] theorem State.modMe_mig (s : State) (f : Core → Core) : (s.modMe f).mig = s.mig := rfl
@[simp] theorem State.modMe_migQ (s : State) (f : Core → Core) : (s.modMe f).migQ = s.migQ := rfl
@[simp] theorem State.modMe_lastMig (s : State) (f : Core → Core) : (s.modMe f).lastMig = s.lastMig := rfl
@[simp] theorem State.modMe_transit (s : State) (f : Core → Core) : (s.modMe f).transit = s.transit := rfl
@[simp] theorem State.modMe_moved (s : State) (f : Core → Core) : (s.modMe f).moved = s.moved := rfl
@[simp] theorem State.modMe_sysJobs (s : State) (f : Core → Core) : (s.modMe f).sysJobs = s.sysJobs := rfl
@[simp] theorem State.modMe_npkg (s : State) (f : Core → Core) : (s.modMe f).npkg = s.npkg := rfl
@[simp] theorem State.modMe_domain (s : State) (f : Core → Core) : (s.modMe f).domain = s.domain := rfl
@[simp] theorem State.modMe_hopD (s : State) (f : Core → Core) : (s.modMe f).hopD = s.hopD := rfl
@[simp] theorem State.modMe_hdmBase (s : State) (f : Core → Core) : (s.modMe f).hdmBase = s.hdmBase := rfl
@[simp] theorem State.modMe_lastTiming (s : State) (f : Core → Core) : (s.modMe f).lastTiming = s.lastTiming := rfl
@[simp] theorem State.modMe_lastSent (s : State) (f : Core → Core) : (s.modMe f).lastSent = s.lastSent := rfl
@[simp] theorem State.modMe_steer (s : State) (f : Core → Core) : (s.modMe f).steer = s.steer := rfl
@[simp] theorem State.modMe_holds (s : State) (f : Core → Core) : (s.modMe f).holds = s.holds := rfl
@[simp] theorem State.modMe_splits (s : State) (f : Core → Core) : (s.modMe f).splits = s.splits := rfl
@[simp] theorem State.modMe_qps (s : State) (f : Core → Core) : (s.modMe f).qps = s.qps := rfl
@[simp] theorem State.modMe_ports (s : State) (f : Core → Core) : (s.modMe f).ports = s.ports := rfl
@[simp] theorem State.modMe_svc (s : State) (f : Core → Core) : (s.modMe f).svc = s.svc := rfl
@[simp] theorem State.modMe_counters (s : State) (f : Core → Core) : (s.modMe f).counters = s.counters := rfl
@[simp] theorem State.modMe_lastCheck (s : State) (f : Core → Core) : (s.modMe f).lastCheck = s.lastCheck := rfl
@[simp] theorem State.modMe_lastPower (s : State) (f : Core → Core) : (s.modMe f).lastPower = s.lastPower := rfl
@[simp] theorem State.modMe_selfTest (s : State) (f : Core → Core) : (s.modMe f).selfTest = s.selfTest := rfl
@[simp] theorem State.modMe_swaps (s : State) (f : Core → Core) : (s.modMe f).swaps = s.swaps := rfl
@[simp] theorem State.modMe_spent (s : State) (f : Core → Core) : (s.modMe f).spent = s.spent := rfl
@[simp] theorem State.modMe_paused (s : State) (f : Core → Core) : (s.modMe f).paused = s.paused := rfl
@[simp] theorem State.modMe_pauseWin (s : State) (f : Core → Core) : (s.modMe f).pauseWin = s.pauseWin := rfl
@[simp] theorem State.modMe_firmware (s : State) (f : Core → Core) : (s.modMe f).firmware = s.firmware := rfl
@[simp] theorem State.modMe_image (s : State) (f : Core → Core) : (s.modMe f).image = s.image := rfl
@[simp] theorem State.modMe_mail (s : State) (f : Core → Core) : (s.modMe f).mail = s.mail := rfl
@[simp] theorem State.modMe_fwd (s : State) (f : Core → Core) : (s.modMe f).fwd = s.fwd := rfl
@[simp] theorem State.modMe_asked (s : State) (f : Core → Core) : (s.modMe f).asked = s.asked := rfl
@[simp] theorem State.modMe_inputs (s : State) (f : Core → Core) : (s.modMe f).inputs = s.inputs := rfl
@[simp] theorem State.modMe_outside (s : State) (f : Core → Core) : (s.modMe f).outside = s.outside := rfl
@[simp] theorem State.modMe_outs (s : State) (f : Core → Core) : (s.modMe f).outs = s.outs := rfl
@[simp] theorem State.modMe_msgOrd (s : State) (f : Core → Core) : (s.modMe f).msgOrd = s.msgOrd := rfl
@[simp] theorem State.me_setMe (s : State) (c : Core) : (s.setMe c).me = c := by simp [State.setMe, State.me]
@[simp] theorem State.me_modMe (s : State) (f : Core → Core) : (s.modMe f).me = f s.me := by simp [State.modMe]
@[simp] theorem State.setMe_cur (s : State) (c : Core) : (s.setMe c).cur = s.cur := rfl
@[simp] theorem State.setMe_setMe (s : State) (c d : Core) : (s.setMe c).setMe d = s.setMe d := by simp [State.setMe]
@[simp] theorem State.modMe_modMe (s : State) (f g : Core → Core) : (s.modMe f).modMe g = s.modMe (fun c => g (f c)) := by
  simp [State.modMe]
@[simp] theorem State.cell_modMe (s : State) (f : Core → Core) (i : Nat) : (s.modMe f).cell i = s.cell i := rfl
@[simp] theorem State.cluster_modMe (s : State) (f : Core → Core) (i : Nat) : (s.modMe f).cluster i = s.cluster i := rfl
@[simp] theorem State.die_modMe (s : State) (f : Core → Core) (i : Nat) : (s.modMe f).die i = s.die i := rfl
@[simp] theorem State.job_modMe (s : State) (f : Core → Core) (i : Nat) : (s.modMe f).job i = s.job i := rfl
theorem State.core_modMe_ne (s : State) (f : Core → Core) (i : Nat) (h : i ≠ s.cur) : (s.modMe f).core i = s.core i := by
  simp [State.modMe, State.setMe, State.core_setCore_ne _ _ _ _ h]
@[simp] theorem State.regs_modMe (s : State) (f : Core → Core) : (s.modMe f).regs = (f s.me).regs := by simp [State.regs]
@[simp] theorem State.src_modMe (s : State) (f : Core → Core) : (s.modMe f).src = (f s.me).src := by simp [State.src]
@[simp] theorem State.chunk_modMe (s : State) (f : Core → Core) : (s.modMe f).chunk = (f s.me).chunk := by simp [State.chunk]
@[simp] theorem State.regs_modRegs (s : State) (f : Regs → Regs) : (s.modRegs f).regs = f s.regs := by
  simp [State.modRegs, State.regs]
@[simp] theorem State.src_modRegs (s : State) (f : Regs → Regs) : (s.modRegs f).src = s.src := by
  simp [State.modRegs, State.src]
@[simp] theorem State.cur_modRegs (s : State) (f : Regs → Regs) : (s.modRegs f).cur = s.cur := rfl
@[simp] theorem State.cur_modChunk (s : State) (f : Chunk → Chunk) : (s.modChunk f).cur = s.cur := rfl
@[simp] theorem State.src_modChunk (s : State) (f : Chunk → Chunk) : (s.modChunk f).src = s.src := by
  simp [State.modChunk, State.src]
@[simp] theorem State.regs_modChunk (s : State) (f : Chunk → Chunk) : (s.modChunk f).regs = s.regs := by
  simp [State.modChunk, State.regs]
@[simp] theorem State.chunk_modChunk (s : State) (f : Chunk → Chunk) : (s.modChunk f).chunk = f s.chunk := by
  simp [State.modChunk, State.chunk, Core.chunk]
@[simp] theorem State.me_modRegs (s : State) (f : Regs → Regs) : (s.modRegs f).me = { s.me with regs := f s.me.regs } := by
  simp [State.modRegs]
@[simp] theorem State.modRegs_modRegs (s : State) (f g : Regs → Regs) :
    (s.modRegs f).modRegs g = s.modRegs (fun r => g (f r)) := by simp [State.modRegs]

/-! ## The registers of a core -/

@[simp] theorem Regs.putS_pc (r : Regs) (i : BitVec 5) (x : Word64) : (r.putS i x).pc = r.pc := rfl
@[simp] theorem Regs.putS_v (r : Regs) (i : BitVec 5) (x : Word64) : (r.putS i x).v = r.v := rfl
@[simp] theorem Regs.putS_m (r : Regs) (i : BitVec 5) (x : Word64) : (r.putS i x).m = r.m := rfl
@[simp] theorem Regs.putS_h (r : Regs) (i : BitVec 5) (x : Word64) : (r.putS i x).h = r.h := rfl
@[simp] theorem Regs.putS_k (r : Regs) (i : BitVec 5) (x : Word64) : (r.putS i x).k = r.k := rfl
@[simp] theorem Regs.putS_lc (r : Regs) (i : BitVec 5) (x : Word64) : (r.putS i x).lc = r.lc := rfl
@[simp] theorem Regs.putS_e (r : Regs) (i : BitVec 5) (x : Word64) : (r.putS i x).e = r.e := rfl
@[simp] theorem Regs.putS_asum (r : Regs) (i : BitVec 5) (x : Word64) : (r.putS i x).asum = r.asum := rfl
@[simp] theorem Regs.putS_aerr (r : Regs) (i : BitVec 5) (x : Word64) : (r.putS i x).aerr = r.aerr := rfl
@[simp] theorem Regs.putS_vFull (r : Regs) (i : BitVec 5) (x : Word64) : (r.putS i x).vFull = r.vFull := rfl
@[simp] theorem Regs.putS_hFull (r : Regs) (i : BitVec 5) (x : Word64) : (r.putS i x).hFull = r.hFull := rfl
@[simp] theorem Regs.putS_hst (r : Regs) (i : BitVec 5) (x : Word64) : (r.putS i x).hst = r.hst := rfl
@[simp] theorem Regs.putS_levels (r : Regs) (i : BitVec 5) (x : Word64) : (r.putS i x).levels = r.levels := rfl
@[simp] theorem Regs.putS_frm (r : Regs) (i : BitVec 5) (x : Word64) : (r.putS i x).frm = r.frm := rfl
@[simp] theorem Regs.putS_sidx (r : Regs) (i : BitVec 5) (x : Word64) : (r.putS i x).sidx = r.sidx := rfl
@[simp] theorem Regs.putS_fstat (r : Regs) (i : BitVec 5) (x : Word64) : (r.putS i x).fstat = r.fstat := rfl
@[simp] theorem Regs.putS_msel (r : Regs) (i : BitVec 5) (x : Word64) : (r.putS i x).msel = r.msel := rfl
@[simp] theorem Regs.putS_vshare (r : Regs) (i : BitVec 5) (x : Word64) : (r.putS i x).vshare = r.vshare := rfl
@[simp] theorem Regs.putS_g (r : Regs) (i : BitVec 5) (x : Word64) : (r.putS i x).g = r.g := rfl
@[simp] theorem Regs.putS_pane (r : Regs) (i : BitVec 5) (x : Word64) : (r.putS i x).pane = r.pane := rfl
@[simp] theorem Regs.putS_wseed (r : Regs) (i : BitVec 5) (x : Word64) : (r.putS i x).wseed = r.wseed := rfl
@[simp] theorem Regs.putS_wtab (r : Regs) (i : BitVec 5) (x : Word64) : (r.putS i x).wtab = r.wtab := rfl
@[simp] theorem Regs.putS_q (r : Regs) (i : BitVec 5) (x : Word64) : (r.putS i x).q = r.q := rfl
@[simp] theorem Regs.putS_slots (r : Regs) (i : BitVec 5) (x : Word64) : (r.putS i x).slots = r.slots := rfl
@[simp] theorem Regs.putS_flights (r : Regs) (i : BitVec 5) (x : Word64) : (r.putS i x).flights = r.flights := rfl
@[simp] theorem Regs.putS_vq (r : Regs) (i : BitVec 5) (x : Word64) : (r.putS i x).vq = r.vq := rfl
@[simp] theorem Regs.putS_mq (r : Regs) (i : BitVec 5) (x : Word64) : (r.putS i x).mq = r.mq := rfl
@[simp] theorem Regs.putS_entry (r : Regs) (i : BitVec 5) (x : Word64) : (r.putS i x).entry = r.entry := rfl
@[simp] theorem Regs.putS_nextId (r : Regs) (i : BitVec 5) (x : Word64) : (r.putS i x).nextId = r.nextId := rfl
@[simp] theorem Regs.putV_pc (r : Regs) (i : BitVec 5) (x : VReg) : (r.putV i x).pc = r.pc := rfl
@[simp] theorem Regs.putV_s (r : Regs) (i : BitVec 5) (x : VReg) : (r.putV i x).s = r.s := rfl
@[simp] theorem Regs.putV_m (r : Regs) (i : BitVec 5) (x : VReg) : (r.putV i x).m = r.m := rfl
@[simp] theorem Regs.putV_h (r : Regs) (i : BitVec 5) (x : VReg) : (r.putV i x).h = r.h := rfl
@[simp] theorem Regs.putV_k (r : Regs) (i : BitVec 5) (x : VReg) : (r.putV i x).k = r.k := rfl
@[simp] theorem Regs.putV_lc (r : Regs) (i : BitVec 5) (x : VReg) : (r.putV i x).lc = r.lc := rfl
@[simp] theorem Regs.putV_e (r : Regs) (i : BitVec 5) (x : VReg) : (r.putV i x).e = r.e := rfl
@[simp] theorem Regs.putV_asum (r : Regs) (i : BitVec 5) (x : VReg) : (r.putV i x).asum = r.asum := rfl
@[simp] theorem Regs.putV_aerr (r : Regs) (i : BitVec 5) (x : VReg) : (r.putV i x).aerr = r.aerr := rfl
@[simp] theorem Regs.putV_sFull (r : Regs) (i : BitVec 5) (x : VReg) : (r.putV i x).sFull = r.sFull := rfl
@[simp] theorem Regs.putV_hFull (r : Regs) (i : BitVec 5) (x : VReg) : (r.putV i x).hFull = r.hFull := rfl
@[simp] theorem Regs.putV_hst (r : Regs) (i : BitVec 5) (x : VReg) : (r.putV i x).hst = r.hst := rfl
@[simp] theorem Regs.putV_levels (r : Regs) (i : BitVec 5) (x : VReg) : (r.putV i x).levels = r.levels := rfl
@[simp] theorem Regs.putV_frm (r : Regs) (i : BitVec 5) (x : VReg) : (r.putV i x).frm = r.frm := rfl
@[simp] theorem Regs.putV_sidx (r : Regs) (i : BitVec 5) (x : VReg) : (r.putV i x).sidx = r.sidx := rfl
@[simp] theorem Regs.putV_fstat (r : Regs) (i : BitVec 5) (x : VReg) : (r.putV i x).fstat = r.fstat := rfl
@[simp] theorem Regs.putV_msel (r : Regs) (i : BitVec 5) (x : VReg) : (r.putV i x).msel = r.msel := rfl
@[simp] theorem Regs.putV_vshare (r : Regs) (i : BitVec 5) (x : VReg) : (r.putV i x).vshare = r.vshare := rfl
@[simp] theorem Regs.putV_g (r : Regs) (i : BitVec 5) (x : VReg) : (r.putV i x).g = r.g := rfl
@[simp] theorem Regs.putV_pane (r : Regs) (i : BitVec 5) (x : VReg) : (r.putV i x).pane = r.pane := rfl
@[simp] theorem Regs.putV_wseed (r : Regs) (i : BitVec 5) (x : VReg) : (r.putV i x).wseed = r.wseed := rfl
@[simp] theorem Regs.putV_wtab (r : Regs) (i : BitVec 5) (x : VReg) : (r.putV i x).wtab = r.wtab := rfl
@[simp] theorem Regs.putV_q (r : Regs) (i : BitVec 5) (x : VReg) : (r.putV i x).q = r.q := rfl
@[simp] theorem Regs.putV_slots (r : Regs) (i : BitVec 5) (x : VReg) : (r.putV i x).slots = r.slots := rfl
@[simp] theorem Regs.putV_flights (r : Regs) (i : BitVec 5) (x : VReg) : (r.putV i x).flights = r.flights := rfl
@[simp] theorem Regs.putV_vq (r : Regs) (i : BitVec 5) (x : VReg) : (r.putV i x).vq = r.vq := rfl
@[simp] theorem Regs.putV_mq (r : Regs) (i : BitVec 5) (x : VReg) : (r.putV i x).mq = r.mq := rfl
@[simp] theorem Regs.putV_entry (r : Regs) (i : BitVec 5) (x : VReg) : (r.putV i x).entry = r.entry := rfl
@[simp] theorem Regs.putV_nextId (r : Regs) (i : BitVec 5) (x : VReg) : (r.putV i x).nextId = r.nextId := rfl
@[simp] theorem Regs.putM_pc (r : Regs) (i : BitVec 3) (x : MReg) : (r.putM i x).pc = r.pc := rfl
@[simp] theorem Regs.putM_s (r : Regs) (i : BitVec 3) (x : MReg) : (r.putM i x).s = r.s := rfl
@[simp] theorem Regs.putM_v (r : Regs) (i : BitVec 3) (x : MReg) : (r.putM i x).v = r.v := rfl
@[simp] theorem Regs.putM_h (r : Regs) (i : BitVec 3) (x : MReg) : (r.putM i x).h = r.h := rfl
@[simp] theorem Regs.putM_k (r : Regs) (i : BitVec 3) (x : MReg) : (r.putM i x).k = r.k := rfl
@[simp] theorem Regs.putM_lc (r : Regs) (i : BitVec 3) (x : MReg) : (r.putM i x).lc = r.lc := rfl
@[simp] theorem Regs.putM_e (r : Regs) (i : BitVec 3) (x : MReg) : (r.putM i x).e = r.e := rfl
@[simp] theorem Regs.putM_asum (r : Regs) (i : BitVec 3) (x : MReg) : (r.putM i x).asum = r.asum := rfl
@[simp] theorem Regs.putM_aerr (r : Regs) (i : BitVec 3) (x : MReg) : (r.putM i x).aerr = r.aerr := rfl
@[simp] theorem Regs.putM_sFull (r : Regs) (i : BitVec 3) (x : MReg) : (r.putM i x).sFull = r.sFull := rfl
@[simp] theorem Regs.putM_vFull (r : Regs) (i : BitVec 3) (x : MReg) : (r.putM i x).vFull = r.vFull := rfl
@[simp] theorem Regs.putM_hFull (r : Regs) (i : BitVec 3) (x : MReg) : (r.putM i x).hFull = r.hFull := rfl
@[simp] theorem Regs.putM_hst (r : Regs) (i : BitVec 3) (x : MReg) : (r.putM i x).hst = r.hst := rfl
@[simp] theorem Regs.putM_levels (r : Regs) (i : BitVec 3) (x : MReg) : (r.putM i x).levels = r.levels := rfl
@[simp] theorem Regs.putM_frm (r : Regs) (i : BitVec 3) (x : MReg) : (r.putM i x).frm = r.frm := rfl
@[simp] theorem Regs.putM_sidx (r : Regs) (i : BitVec 3) (x : MReg) : (r.putM i x).sidx = r.sidx := rfl
@[simp] theorem Regs.putM_fstat (r : Regs) (i : BitVec 3) (x : MReg) : (r.putM i x).fstat = r.fstat := rfl
@[simp] theorem Regs.putM_msel (r : Regs) (i : BitVec 3) (x : MReg) : (r.putM i x).msel = r.msel := rfl
@[simp] theorem Regs.putM_vshare (r : Regs) (i : BitVec 3) (x : MReg) : (r.putM i x).vshare = r.vshare := rfl
@[simp] theorem Regs.putM_g (r : Regs) (i : BitVec 3) (x : MReg) : (r.putM i x).g = r.g := rfl
@[simp] theorem Regs.putM_pane (r : Regs) (i : BitVec 3) (x : MReg) : (r.putM i x).pane = r.pane := rfl
@[simp] theorem Regs.putM_wseed (r : Regs) (i : BitVec 3) (x : MReg) : (r.putM i x).wseed = r.wseed := rfl
@[simp] theorem Regs.putM_wtab (r : Regs) (i : BitVec 3) (x : MReg) : (r.putM i x).wtab = r.wtab := rfl
@[simp] theorem Regs.putM_q (r : Regs) (i : BitVec 3) (x : MReg) : (r.putM i x).q = r.q := rfl
@[simp] theorem Regs.putM_slots (r : Regs) (i : BitVec 3) (x : MReg) : (r.putM i x).slots = r.slots := rfl
@[simp] theorem Regs.putM_flights (r : Regs) (i : BitVec 3) (x : MReg) : (r.putM i x).flights = r.flights := rfl
@[simp] theorem Regs.putM_vq (r : Regs) (i : BitVec 3) (x : MReg) : (r.putM i x).vq = r.vq := rfl
@[simp] theorem Regs.putM_mq (r : Regs) (i : BitVec 3) (x : MReg) : (r.putM i x).mq = r.mq := rfl
@[simp] theorem Regs.putM_entry (r : Regs) (i : BitVec 3) (x : MReg) : (r.putM i x).entry = r.entry := rfl
@[simp] theorem Regs.putM_nextId (r : Regs) (i : BitVec 3) (x : MReg) : (r.putM i x).nextId = r.nextId := rfl
@[simp] theorem Regs.emptyS_pc (r : Regs) (i : BitVec 5) : (r.emptyS i).pc = r.pc := rfl
@[simp] theorem Regs.emptyS_s (r : Regs) (i : BitVec 5) : (r.emptyS i).s = r.s := rfl
@[simp] theorem Regs.emptyS_v (r : Regs) (i : BitVec 5) : (r.emptyS i).v = r.v := rfl
@[simp] theorem Regs.emptyS_m (r : Regs) (i : BitVec 5) : (r.emptyS i).m = r.m := rfl
@[simp] theorem Regs.emptyS_h (r : Regs) (i : BitVec 5) : (r.emptyS i).h = r.h := rfl
@[simp] theorem Regs.emptyS_k (r : Regs) (i : BitVec 5) : (r.emptyS i).k = r.k := rfl
@[simp] theorem Regs.emptyS_lc (r : Regs) (i : BitVec 5) : (r.emptyS i).lc = r.lc := rfl
@[simp] theorem Regs.emptyS_e (r : Regs) (i : BitVec 5) : (r.emptyS i).e = r.e := rfl
@[simp] theorem Regs.emptyS_asum (r : Regs) (i : BitVec 5) : (r.emptyS i).asum = r.asum := rfl
@[simp] theorem Regs.emptyS_aerr (r : Regs) (i : BitVec 5) : (r.emptyS i).aerr = r.aerr := rfl
@[simp] theorem Regs.emptyS_vFull (r : Regs) (i : BitVec 5) : (r.emptyS i).vFull = r.vFull := rfl
@[simp] theorem Regs.emptyS_hFull (r : Regs) (i : BitVec 5) : (r.emptyS i).hFull = r.hFull := rfl
@[simp] theorem Regs.emptyS_hst (r : Regs) (i : BitVec 5) : (r.emptyS i).hst = r.hst := rfl
@[simp] theorem Regs.emptyS_levels (r : Regs) (i : BitVec 5) : (r.emptyS i).levels = r.levels := rfl
@[simp] theorem Regs.emptyS_frm (r : Regs) (i : BitVec 5) : (r.emptyS i).frm = r.frm := rfl
@[simp] theorem Regs.emptyS_sidx (r : Regs) (i : BitVec 5) : (r.emptyS i).sidx = r.sidx := rfl
@[simp] theorem Regs.emptyS_fstat (r : Regs) (i : BitVec 5) : (r.emptyS i).fstat = r.fstat := rfl
@[simp] theorem Regs.emptyS_msel (r : Regs) (i : BitVec 5) : (r.emptyS i).msel = r.msel := rfl
@[simp] theorem Regs.emptyS_vshare (r : Regs) (i : BitVec 5) : (r.emptyS i).vshare = r.vshare := rfl
@[simp] theorem Regs.emptyS_g (r : Regs) (i : BitVec 5) : (r.emptyS i).g = r.g := rfl
@[simp] theorem Regs.emptyS_pane (r : Regs) (i : BitVec 5) : (r.emptyS i).pane = r.pane := rfl
@[simp] theorem Regs.emptyS_wseed (r : Regs) (i : BitVec 5) : (r.emptyS i).wseed = r.wseed := rfl
@[simp] theorem Regs.emptyS_wtab (r : Regs) (i : BitVec 5) : (r.emptyS i).wtab = r.wtab := rfl
@[simp] theorem Regs.emptyS_q (r : Regs) (i : BitVec 5) : (r.emptyS i).q = r.q := rfl
@[simp] theorem Regs.emptyS_slots (r : Regs) (i : BitVec 5) : (r.emptyS i).slots = r.slots := rfl
@[simp] theorem Regs.emptyS_flights (r : Regs) (i : BitVec 5) : (r.emptyS i).flights = r.flights := rfl
@[simp] theorem Regs.emptyS_vq (r : Regs) (i : BitVec 5) : (r.emptyS i).vq = r.vq := rfl
@[simp] theorem Regs.emptyS_mq (r : Regs) (i : BitVec 5) : (r.emptyS i).mq = r.mq := rfl
@[simp] theorem Regs.emptyS_entry (r : Regs) (i : BitVec 5) : (r.emptyS i).entry = r.entry := rfl
@[simp] theorem Regs.emptyS_nextId (r : Regs) (i : BitVec 5) : (r.emptyS i).nextId = r.nextId := rfl
@[simp] theorem Regs.emptyV_pc (r : Regs) (i : BitVec 5) : (r.emptyV i).pc = r.pc := rfl
@[simp] theorem Regs.emptyV_s (r : Regs) (i : BitVec 5) : (r.emptyV i).s = r.s := rfl
@[simp] theorem Regs.emptyV_v (r : Regs) (i : BitVec 5) : (r.emptyV i).v = r.v := rfl
@[simp] theorem Regs.emptyV_m (r : Regs) (i : BitVec 5) : (r.emptyV i).m = r.m := rfl
@[simp] theorem Regs.emptyV_h (r : Regs) (i : BitVec 5) : (r.emptyV i).h = r.h := rfl
@[simp] theorem Regs.emptyV_k (r : Regs) (i : BitVec 5) : (r.emptyV i).k = r.k := rfl
@[simp] theorem Regs.emptyV_lc (r : Regs) (i : BitVec 5) : (r.emptyV i).lc = r.lc := rfl
@[simp] theorem Regs.emptyV_e (r : Regs) (i : BitVec 5) : (r.emptyV i).e = r.e := rfl
@[simp] theorem Regs.emptyV_asum (r : Regs) (i : BitVec 5) : (r.emptyV i).asum = r.asum := rfl
@[simp] theorem Regs.emptyV_aerr (r : Regs) (i : BitVec 5) : (r.emptyV i).aerr = r.aerr := rfl
@[simp] theorem Regs.emptyV_sFull (r : Regs) (i : BitVec 5) : (r.emptyV i).sFull = r.sFull := rfl
@[simp] theorem Regs.emptyV_hFull (r : Regs) (i : BitVec 5) : (r.emptyV i).hFull = r.hFull := rfl
@[simp] theorem Regs.emptyV_hst (r : Regs) (i : BitVec 5) : (r.emptyV i).hst = r.hst := rfl
@[simp] theorem Regs.emptyV_levels (r : Regs) (i : BitVec 5) : (r.emptyV i).levels = r.levels := rfl
@[simp] theorem Regs.emptyV_frm (r : Regs) (i : BitVec 5) : (r.emptyV i).frm = r.frm := rfl
@[simp] theorem Regs.emptyV_sidx (r : Regs) (i : BitVec 5) : (r.emptyV i).sidx = r.sidx := rfl
@[simp] theorem Regs.emptyV_fstat (r : Regs) (i : BitVec 5) : (r.emptyV i).fstat = r.fstat := rfl
@[simp] theorem Regs.emptyV_msel (r : Regs) (i : BitVec 5) : (r.emptyV i).msel = r.msel := rfl
@[simp] theorem Regs.emptyV_vshare (r : Regs) (i : BitVec 5) : (r.emptyV i).vshare = r.vshare := rfl
@[simp] theorem Regs.emptyV_g (r : Regs) (i : BitVec 5) : (r.emptyV i).g = r.g := rfl
@[simp] theorem Regs.emptyV_pane (r : Regs) (i : BitVec 5) : (r.emptyV i).pane = r.pane := rfl
@[simp] theorem Regs.emptyV_wseed (r : Regs) (i : BitVec 5) : (r.emptyV i).wseed = r.wseed := rfl
@[simp] theorem Regs.emptyV_wtab (r : Regs) (i : BitVec 5) : (r.emptyV i).wtab = r.wtab := rfl
@[simp] theorem Regs.emptyV_q (r : Regs) (i : BitVec 5) : (r.emptyV i).q = r.q := rfl
@[simp] theorem Regs.emptyV_slots (r : Regs) (i : BitVec 5) : (r.emptyV i).slots = r.slots := rfl
@[simp] theorem Regs.emptyV_flights (r : Regs) (i : BitVec 5) : (r.emptyV i).flights = r.flights := rfl
@[simp] theorem Regs.emptyV_vq (r : Regs) (i : BitVec 5) : (r.emptyV i).vq = r.vq := rfl
@[simp] theorem Regs.emptyV_mq (r : Regs) (i : BitVec 5) : (r.emptyV i).mq = r.mq := rfl
@[simp] theorem Regs.emptyV_entry (r : Regs) (i : BitVec 5) : (r.emptyV i).entry = r.entry := rfl
@[simp] theorem Regs.emptyV_nextId (r : Regs) (i : BitVec 5) : (r.emptyV i).nextId = r.nextId := rfl
@[simp] theorem Regs.setLc_pc (r : Regs) (i : BitVec 2) (x : Word64) : (r.setLc i x).pc = r.pc := rfl
@[simp] theorem Regs.setLc_s (r : Regs) (i : BitVec 2) (x : Word64) : (r.setLc i x).s = r.s := rfl
@[simp] theorem Regs.setLc_v (r : Regs) (i : BitVec 2) (x : Word64) : (r.setLc i x).v = r.v := rfl
@[simp] theorem Regs.setLc_m (r : Regs) (i : BitVec 2) (x : Word64) : (r.setLc i x).m = r.m := rfl
@[simp] theorem Regs.setLc_h (r : Regs) (i : BitVec 2) (x : Word64) : (r.setLc i x).h = r.h := rfl
@[simp] theorem Regs.setLc_k (r : Regs) (i : BitVec 2) (x : Word64) : (r.setLc i x).k = r.k := rfl
@[simp] theorem Regs.setLc_e (r : Regs) (i : BitVec 2) (x : Word64) : (r.setLc i x).e = r.e := rfl
@[simp] theorem Regs.setLc_asum (r : Regs) (i : BitVec 2) (x : Word64) : (r.setLc i x).asum = r.asum := rfl
@[simp] theorem Regs.setLc_aerr (r : Regs) (i : BitVec 2) (x : Word64) : (r.setLc i x).aerr = r.aerr := rfl
@[simp] theorem Regs.setLc_sFull (r : Regs) (i : BitVec 2) (x : Word64) : (r.setLc i x).sFull = r.sFull := rfl
@[simp] theorem Regs.setLc_vFull (r : Regs) (i : BitVec 2) (x : Word64) : (r.setLc i x).vFull = r.vFull := rfl
@[simp] theorem Regs.setLc_hFull (r : Regs) (i : BitVec 2) (x : Word64) : (r.setLc i x).hFull = r.hFull := rfl
@[simp] theorem Regs.setLc_hst (r : Regs) (i : BitVec 2) (x : Word64) : (r.setLc i x).hst = r.hst := rfl
@[simp] theorem Regs.setLc_levels (r : Regs) (i : BitVec 2) (x : Word64) : (r.setLc i x).levels = r.levels := rfl
@[simp] theorem Regs.setLc_frm (r : Regs) (i : BitVec 2) (x : Word64) : (r.setLc i x).frm = r.frm := rfl
@[simp] theorem Regs.setLc_sidx (r : Regs) (i : BitVec 2) (x : Word64) : (r.setLc i x).sidx = r.sidx := rfl
@[simp] theorem Regs.setLc_fstat (r : Regs) (i : BitVec 2) (x : Word64) : (r.setLc i x).fstat = r.fstat := rfl
@[simp] theorem Regs.setLc_msel (r : Regs) (i : BitVec 2) (x : Word64) : (r.setLc i x).msel = r.msel := rfl
@[simp] theorem Regs.setLc_vshare (r : Regs) (i : BitVec 2) (x : Word64) : (r.setLc i x).vshare = r.vshare := rfl
@[simp] theorem Regs.setLc_g (r : Regs) (i : BitVec 2) (x : Word64) : (r.setLc i x).g = r.g := rfl
@[simp] theorem Regs.setLc_pane (r : Regs) (i : BitVec 2) (x : Word64) : (r.setLc i x).pane = r.pane := rfl
@[simp] theorem Regs.setLc_wseed (r : Regs) (i : BitVec 2) (x : Word64) : (r.setLc i x).wseed = r.wseed := rfl
@[simp] theorem Regs.setLc_wtab (r : Regs) (i : BitVec 2) (x : Word64) : (r.setLc i x).wtab = r.wtab := rfl
@[simp] theorem Regs.setLc_q (r : Regs) (i : BitVec 2) (x : Word64) : (r.setLc i x).q = r.q := rfl
@[simp] theorem Regs.setLc_slots (r : Regs) (i : BitVec 2) (x : Word64) : (r.setLc i x).slots = r.slots := rfl
@[simp] theorem Regs.setLc_flights (r : Regs) (i : BitVec 2) (x : Word64) : (r.setLc i x).flights = r.flights := rfl
@[simp] theorem Regs.setLc_vq (r : Regs) (i : BitVec 2) (x : Word64) : (r.setLc i x).vq = r.vq := rfl
@[simp] theorem Regs.setLc_mq (r : Regs) (i : BitVec 2) (x : Word64) : (r.setLc i x).mq = r.mq := rfl
@[simp] theorem Regs.setLc_entry (r : Regs) (i : BitVec 2) (x : Word64) : (r.setLc i x).entry = r.entry := rfl
@[simp] theorem Regs.setLc_nextId (r : Regs) (i : BitVec 2) (x : Word64) : (r.setLc i x).nextId = r.nextId := rfl
@[simp] theorem Regs.setStream_pc (r : Regs) (i : Nat) (x : Option Stream) : (r.setStream i x).pc = r.pc := rfl
@[simp] theorem Regs.setStream_s (r : Regs) (i : Nat) (x : Option Stream) : (r.setStream i x).s = r.s := rfl
@[simp] theorem Regs.setStream_v (r : Regs) (i : Nat) (x : Option Stream) : (r.setStream i x).v = r.v := rfl
@[simp] theorem Regs.setStream_m (r : Regs) (i : Nat) (x : Option Stream) : (r.setStream i x).m = r.m := rfl
@[simp] theorem Regs.setStream_h (r : Regs) (i : Nat) (x : Option Stream) : (r.setStream i x).h = r.h := rfl
@[simp] theorem Regs.setStream_k (r : Regs) (i : Nat) (x : Option Stream) : (r.setStream i x).k = r.k := rfl
@[simp] theorem Regs.setStream_lc (r : Regs) (i : Nat) (x : Option Stream) : (r.setStream i x).lc = r.lc := rfl
@[simp] theorem Regs.setStream_e (r : Regs) (i : Nat) (x : Option Stream) : (r.setStream i x).e = r.e := rfl
@[simp] theorem Regs.setStream_asum (r : Regs) (i : Nat) (x : Option Stream) : (r.setStream i x).asum = r.asum := rfl
@[simp] theorem Regs.setStream_aerr (r : Regs) (i : Nat) (x : Option Stream) : (r.setStream i x).aerr = r.aerr := rfl
@[simp] theorem Regs.setStream_sFull (r : Regs) (i : Nat) (x : Option Stream) : (r.setStream i x).sFull = r.sFull := rfl
@[simp] theorem Regs.setStream_vFull (r : Regs) (i : Nat) (x : Option Stream) : (r.setStream i x).vFull = r.vFull := rfl
@[simp] theorem Regs.setStream_hFull (r : Regs) (i : Nat) (x : Option Stream) : (r.setStream i x).hFull = r.hFull := rfl
@[simp] theorem Regs.setStream_hst (r : Regs) (i : Nat) (x : Option Stream) : (r.setStream i x).hst = r.hst := rfl
@[simp] theorem Regs.setStream_levels (r : Regs) (i : Nat) (x : Option Stream) : (r.setStream i x).levels = r.levels := rfl
@[simp] theorem Regs.setStream_frm (r : Regs) (i : Nat) (x : Option Stream) : (r.setStream i x).frm = r.frm := rfl
@[simp] theorem Regs.setStream_sidx (r : Regs) (i : Nat) (x : Option Stream) : (r.setStream i x).sidx = r.sidx := rfl
@[simp] theorem Regs.setStream_fstat (r : Regs) (i : Nat) (x : Option Stream) : (r.setStream i x).fstat = r.fstat := rfl
@[simp] theorem Regs.setStream_msel (r : Regs) (i : Nat) (x : Option Stream) : (r.setStream i x).msel = r.msel := rfl
@[simp] theorem Regs.setStream_vshare (r : Regs) (i : Nat) (x : Option Stream) : (r.setStream i x).vshare = r.vshare := rfl
@[simp] theorem Regs.setStream_g (r : Regs) (i : Nat) (x : Option Stream) : (r.setStream i x).g = r.g := rfl
@[simp] theorem Regs.setStream_pane (r : Regs) (i : Nat) (x : Option Stream) : (r.setStream i x).pane = r.pane := rfl
@[simp] theorem Regs.setStream_wseed (r : Regs) (i : Nat) (x : Option Stream) : (r.setStream i x).wseed = r.wseed := rfl
@[simp] theorem Regs.setStream_wtab (r : Regs) (i : Nat) (x : Option Stream) : (r.setStream i x).wtab = r.wtab := rfl
@[simp] theorem Regs.setStream_slots (r : Regs) (i : Nat) (x : Option Stream) : (r.setStream i x).slots = r.slots := rfl
@[simp] theorem Regs.setStream_flights (r : Regs) (i : Nat) (x : Option Stream) : (r.setStream i x).flights = r.flights := rfl
@[simp] theorem Regs.setStream_vq (r : Regs) (i : Nat) (x : Option Stream) : (r.setStream i x).vq = r.vq := rfl
@[simp] theorem Regs.setStream_mq (r : Regs) (i : Nat) (x : Option Stream) : (r.setStream i x).mq = r.mq := rfl
@[simp] theorem Regs.setStream_entry (r : Regs) (i : Nat) (x : Option Stream) : (r.setStream i x).entry = r.entry := rfl
@[simp] theorem Regs.setStream_nextId (r : Regs) (i : Nat) (x : Option Stream) : (r.setStream i x).nextId = r.nextId := rfl

@[simp] theorem Regs.putS_get_self (r : Regs) (i : BitVec 5) (x : Word64) : (r.putS i x).s.get i.toFin = x := by
  simp [Regs.putS, Vector.get_eq_getElem]
theorem Regs.putS_get_ne (r : Regs) (i j : BitVec 5) (x : Word64) (h : j ≠ i) : (r.putS i x).s.get j.toFin = r.s.get j.toFin := by
  have h' : i.toNat ≠ j.toNat := fun e => h (BitVec.eq_of_toNat_eq e.symm)
  simp [Regs.putS, Vector.get_eq_getElem, Vector.getElem_set_ne, h']
@[simp] theorem Regs.putV_get_self (r : Regs) (i : BitVec 5) (x : VReg) : (r.putV i x).v.get i.toFin = x := by
  simp [Regs.putV, Vector.get_eq_getElem]
theorem Regs.putV_get_ne (r : Regs) (i j : BitVec 5) (x : VReg) (h : j ≠ i) : (r.putV i x).v.get j.toFin = r.v.get j.toFin := by
  have h' : i.toNat ≠ j.toNat := fun e => h (BitVec.eq_of_toNat_eq e.symm)
  simp [Regs.putV, Vector.get_eq_getElem, Vector.getElem_set_ne, h']
@[simp] theorem Regs.putM_get_self (r : Regs) (i : BitVec 3) (x : MReg) : (r.putM i x).m.get i.toFin = x := by
  simp [Regs.putM, Vector.get_eq_getElem]
theorem Regs.putM_get_ne (r : Regs) (i j : BitVec 3) (x : MReg) (h : j ≠ i) : (r.putM i x).m.get j.toFin = r.m.get j.toFin := by
  have h' : i.toNat ≠ j.toNat := fun e => h (BitVec.eq_of_toNat_eq e.symm)
  simp [Regs.putM, Vector.get_eq_getElem, Vector.getElem_set_ne, h']

end Machine
end Sys2Proof
end

