-- ==== Sys2Proof/Laws/Issue.lean ====
section
/-!
SUPPORT. Running an effect: what a sequence of effects gives, and how an instruction or an event ends.
-/
namespace Sys2Proof.Machine
open Sys2Proof.Claims

/-! ## Sequences of effects -/

@[simp] theorem Act.pure_apply {α : Type} (a : α) (s : State) : (pure a : Act α) s = .ok (a, s) := rfl
@[simp] theorem Act.get_apply (s : State) : (get : Act State) s = .ok (s, s) := rfl
@[simp] theorem Act.set_apply (s t : State) : (set t : Act PUnit) s = .ok (⟨⟩, t) := rfl
@[simp] theorem Act.bind_apply {α β : Type} (m : Act α) (f : α → Act β) (s : State) :
    (m >>= f) s = match m s with
      | .ok p => f p.1 p.2
      | .error e => .error e := by
  show (do let p ← m s; f p.1 p.2 : Except Stop _) = _
  cases m s <;> rfl
@[simp] theorem Act.map_apply {α β : Type} (m : Act α) (g : α → β) (s : State) :
    (g <$> m) s = match m s with
      | .ok p => .ok (g p.1, p.2)
      | .error e => .error e := by
  show (do let p ← m s; pure (g p.1, p.2) : Except Stop _) = _
  cases m s <;> rfl
@[simp] theorem change_apply (f : State → State) (s : State) : change f s = .ok ((), f s) := rfl
@[simp] theorem onRegs_apply (f : Regs → Regs) (s : State) : onRegs f s = .ok ((), s.modRegs f) := rfl
@[simp] theorem onMe_apply (f : Core → Core) (s : State) : onMe f s = .ok ((), s.modMe f) := rfl
@[simp] theorem onChunk_apply (f : Chunk → Chunk) (s : State) : onChunk f s = .ok ((), s.modChunk f) := rfl
@[simp] theorem setNext_apply (n : NextPc) (s : State) : setNext n s = .ok ((), s.modMe fun c => { c with next := n }) := rfl
@[simp] theorem hold_apply (h : Held) (s : State) :
    hold h s = .ok ((), s.modChunk fun k => { k with held := k.held ++ [h] }) := rfl
@[simp] theorem faultWith_apply {α : Type} (code : Code) (a b : Word64) (s : State) :
    (faultWith code a b : Act α) s = .error (.fault code a b) := rfl
@[simp] theorem raise_apply {α : Type} (code : Code) (s : State) : (raise code : Act α) s = .error (.fault code 0 0) := rfl
@[simp] theorem waitFor_apply {α : Type} (n : Need) (s : State) : (waitFor n : Act α) s = .error (.wait n) := rfl
@[simp] theorem cutHere_apply {α : Type} (s : State) : (cutHere : Act α) s = .error .cut := rfl
@[simp] theorem faultIf_false (code : Code) (s : State) : faultIf false code s = .ok ((), s) := rfl
@[simp] theorem faultIf_true (code : Code) (s : State) : faultIf true code s = .error (.fault code 0 0) := rfl
@[simp] theorem waitIf_false (n : Need) (s : State) : waitIf false n s = .ok ((), s) := rfl
@[simp] theorem waitIf_true (n : Need) (s : State) : waitIf true n s = .error (.wait n) := rfl
@[simp] theorem liftStop_ok {α : Type} (a : α) (s : State) : liftStop (.ok a) s = .ok (a, s) := rfl
@[simp] theorem liftStop_error {α : Type} (e : Stop) (s : State) : (liftStop (.error e) : Act α) s = .error e := rfl
@[simp] theorem fresh_apply (s : State) :
    fresh s = .ok (s.regs.nextId, s.modRegs fun r => { r with nextId := r.nextId + 1 }) := rfl

/-! ## How a word and an event end -/

/-- A word whose effect comes to its end is done. -/
theorem issue_ok {m : Act Unit} {s t : State} (hr : Runs s) (h : m (openChunk s) = .ok ((), t)) :
    issue m s = .next (done t) := by
  unfold Runs at hr
  obtain ⟨k, hk⟩ := Option.isSome_iff_exists.mp hr
  simp [issue, hk, h, done]

/-- A word that faults takes its exception. -/
theorem issue_fault {m : Act Unit} {s : State} {code : Code} {a x : Word64} (hr : Runs s)
    (h : m (openChunk s) = .error (.fault code a x)) : issue m s = .next (takeFault code a x (openChunk s)) := by
  obtain ⟨k, hk⟩ := Option.isSome_iff_exists.mp hr
  simp [issue, hk, h]

/-- A word that waits changes only what the core waits for. -/
theorem issue_wait {m : Act Unit} {s : State} {n : Need} (hr : Runs s)
    (h : m (openChunk s) = .error (.wait n)) : issue m s = .next (block n (openChunk s)) := by
  obtain ⟨k, hk⟩ := Option.isSome_iff_exists.mp hr
  simp [issue, hk, h]

/-- A word never asks for a refusal. -/
theorem issue_not_refused (m : Act Unit) (s : State) (r : Refusal) : issue m s ≠ .refused r := by
  unfold issue; split <;> [simp; skip]; split <;> simp

/-- On a core that runs a task a word always answers a next state. -/
theorem issue_next {m : Act Unit} {s : State} (hr : Runs s) : ∃ t, issue m s = .next t := by
  obtain ⟨k, hk⟩ := Option.isSome_iff_exists.mp hr
  simp only [issue, hk]
  split <;> exact ⟨_, rfl⟩

@[simp] theorem event_true (s : State) : event true s = .next s := rfl
@[simp] theorem event_false (s : State) : event false s = .fault .notEnabled := rfl
theorem event_not_refused (b : Bool) (s : State) (r : Refusal) : event b s ≠ .refused r := by
  unfold event; split <;> simp

/-! ## Opening a chunk leaves what an instruction reads -/

@[simp] theorem openChunk_cur (s : State) : (openChunk s).cur = s.cur := by unfold openChunk; split <;> rfl
@[simp] theorem openChunk_mem (s : State) : (openChunk s).mem = s.mem := by unfold openChunk; split <;> rfl
@[simp] theorem openChunk_src (s : State) : (openChunk s).src = s.src := by
  unfold openChunk; split <;> simp [State.src]
@[simp] theorem openChunk_task (s : State) : (openChunk s).me.task = s.me.task := by
  unfold openChunk; split <;> simp
@[simp] theorem openChunk_lit (s : State) : (openChunk s).me.lit = s.me.lit := by
  unfold openChunk; split <;> simp
@[simp] theorem openChunk_stream (s : State) (i : Nat) : (openChunk s).regs.stream i = s.regs.stream i := by
  unfold openChunk; split
  · simp [State.regs]
  · simp [State.regs]; rfl
@[simp] theorem openChunk_job (s : State) (i : Nat) : (openChunk s).job i = s.job i := by unfold openChunk; split <;> rfl
@[simp] theorem openChunk_cell (s : State) (i : Nat) : (openChunk s).cell i = s.cell i := by unfold openChunk; split <;> rfl
@[simp] theorem openChunk_cluster (s : State) (i : Nat) : (openChunk s).cluster i = s.cluster i := by
  unfold openChunk; split <;> rfl
@[simp] theorem openChunk_svc (s : State) : (openChunk s).svc = s.svc := by unfold openChunk; split <;> rfl

theorem openChunk_ready {s : State} (h : Ready s) : Ready (openChunk s) := by
  obtain ⟨h1, h2, h3, h4⟩ := h
  refine ⟨?_, ?_, ?_, ?_⟩
  · simpa [Runs] using h1
  · intro n; simpa using h2 n
  · simpa [Full] using h3
  · intro i; simpa using h4 i

end Sys2Proof.Machine
end

