-- ==== Sys2Proof/Laws/Operands.lean ====
section
/-!
SUPPORT. Reading operands and writing results on a core that is ready: what each shared operation gives.
-/
namespace Sys2Proof.Machine
open Sys2Proof.Claims

theorem waitOn_ok {s : State} (h : Settled s) (n : RegName) : waitOn n s = .ok ((), s) := by
  simp [waitOn, h n]

theorem Full.s {s : State} (h : Full s) (i : BitVec 5) : s.src.sFull.getLsbD i.toNat = true := by
  rw [h.1, BitVec.getLsbD_allOnes]; simpa using i.isLt

theorem Full.v {s : State} (h : Full s) (i : BitVec 5) : s.src.vFull.getLsbD i.toNat = true := by
  rw [h.2, BitVec.getLsbD_allOnes]; simpa using i.isLt

theorem ready_stream {s : State} (h : Ready s) (i : Nat) : s.bound i = none := by
  simp [State.bound, h.2.2.2 i]

theorem readS_ok {s : State} (hs : Settled s) (hf : Full s) (i : BitVec 5) (w : Bool) :
    readS i w s = .ok (s.src.s.get i.toFin, s) := by
  simp [readS, waitOn_ok hs, Full.s hf, fullCheck]

@[simp] theorem readK_ok (s : State) (i : BitVec 5) : readK i s = .ok (s.src.k.get i.toFin, s) := by
  simp [readK]

@[simp] theorem bundleLit_ok (s : State) : bundleLit s = .ok (s.me.lit, s) := by simp [bundleLit]

theorem readM_ok {s : State} (hs : Settled s) (i : BitVec 3) : readM i s = .ok (maskVal s i, s) := by
  simp [readM, waitOn_ok hs, maskVal]

theorem activeMask_ok {s : State} (hs : Settled s) :
    activeMask s = .ok ((maskVal s (s.src.msel.extractLsb' 0 3)).toNat, s) := by
  simp [activeMask, readM_ok hs]

theorem vget_mod (r : Regs) (i : BitVec 5) :
    r.v.get ⟨i.toNat % 32, Nat.mod_lt _ (by decide)⟩ = r.v.get i.toFin := by
  congr 1; apply Fin.ext; simpa using Nat.mod_eq_of_lt i.isLt

theorem readV_ok {s : State} (h : Ready s) (i : BitVec 5) (w : Bool) :
    readV i.toNat w s = .ok (s.src.v.get i.toFin, s) := by
  simp [readV, ready_stream h, waitOn_ok h.2.1, Full.v h.2.2.1, fullCheck, vget_mod]

theorem oldV_ok {s : State} (h : Ready s) (i : BitVec 5) : oldV i.toNat s = .ok (s.src.v.get i.toFin, s) := by
  simp [oldV, ready_stream h, waitOn_ok h.2.1, vget_mod]

/-- The vector registers that the sources of an arithmetic word name, once read. -/
def vecVals (s : State) (l : List (BitVec 5 × Bool)) (m : NMap VReg) : NMap VReg :=
  l.foldl (fun m p => match m.find p.1.toNat with
    | some _ => m
    | none => m.put p.1.toNat (s.src.v.get p.1.toFin)) m

theorem readVs_ok {s : State} (h : Ready s) (l : List (BitVec 5 × Bool)) (m : NMap VReg) :
    readVs (l.map fun p => (p.1.toNat, p.2)) m s = .ok (vecVals s l m, s) := by
  induction l generalizing m with
  | nil => rfl
  | cons p t ih =>
    simp only [List.map_cons, readVs, vecVals, List.foldl_cons]
    split
    · next hf => simp only [hf]; exact ih m
    · next hf =>
      simp only [hf, Act.bind_apply, readV_ok h]
      exact ih _

/-- The vector registers among the sources, as register numbers. -/
def vecNames (f : Arith) (b : Bool) : List (BitVec 5 × Bool) :=
  (if f.ak = 0 then [(f.a, f.aw)] else []) ++ (if b && f.bk == 0 then [(f.b, f.bw)] else [])

theorem vecSrcs_eq (f : Arith) (b : Bool) : vecSrcs f b = (vecNames f b).map fun p => (p.1.toNat, p.2) := by
  unfold vecSrcs vecNames
  split <;> split <;> rfl

theorem NMap.get_of_find {α : Type} (m : NMap α) (k : Nat) (d x : α) (h : m.find k = some x) : m.get k d = x := by
  induction m with
  | nil => simp [NMap.find] at h
  | cons p t ih =>
    obtain ⟨j, y⟩ := p
    simp only [NMap.find] at h
    simp only [NMap.get]
    split
    · next hj => simpa [hj] using h
    · next hj => simp [hj] at h; exact ih h

/-- What has been read stays, and what is named is there. -/
theorem vecVals_find (s : State) (l : List (BitVec 5 × Bool)) (m : NMap VReg) (i : BitVec 5)
    (hm : ∀ j : BitVec 5, ∀ x, m.find j.toNat = some x → x = s.src.v.get j.toFin)
    (h : (∃ w, (i, w) ∈ l) ∨ m.find i.toNat = some (s.src.v.get i.toFin)) :
    (vecVals s l m).find i.toNat = some (s.src.v.get i.toFin) := by
  induction l generalizing m with
  | nil => simpa [vecVals] using h
  | cons p t ih =>
    have e : vecVals s (p :: t) m = vecVals s t (match m.find p.1.toNat with
      | some _ => m
      | none => m.put p.1.toNat (s.src.v.get p.1.toFin)) := rfl
    rw [e]
    cases hp : m.find p.1.toNat with
    | some x =>
      refine ih m hm ?_
      rcases h with ⟨w, hw⟩ | h
      · rcases List.mem_cons.mp hw with rfl | hw
        · exact .inr (by rw [hp, hm _ _ hp])
        · exact .inl ⟨w, hw⟩
      · exact .inr h
    | none =>
      refine ih _ ?_ ?_
      · intro j x hx
        by_cases hj : j = p.1
        · subst hj; simpa using hx.symm
        · have : j.toNat ≠ p.1.toNat := fun e => hj (BitVec.eq_of_toNat_eq e)
          simp only [NMap.find_put_ne _ _ _ _ this] at hx; exact hm _ _ hx
      · by_cases hj : i = p.1
        · subst hj; exact .inr (by simp)
        · have hn : i.toNat ≠ p.1.toNat := fun e => hj (BitVec.eq_of_toNat_eq e)
          rcases h with ⟨w, hw⟩ | h
          · rcases List.mem_cons.mp hw with rfl | hw
            · exact absurd rfl hj
            · exact .inl ⟨w, hw⟩
          · exact .inr (by simp only [NMap.find_put_ne _ _ _ _ hn]; exact h)

theorem vecVals_get {s : State} {l : List (BitVec 5 × Bool)} {i : BitVec 5} {w : Bool} (h : (i, w) ∈ l) :
    (vecVals s l []).get i.toNat 0 = s.src.v.get i.toFin :=
  NMap.get_of_find _ _ _ _ (vecVals_find s l [] i (by simp [NMap.find]) (.inl ⟨w, h⟩))

theorem srcElems_ok {s : State} (h : Ready s) (cls : Cls) (ty : BitVec 3) (n w : Nat) (regs : NMap VReg) (k : BitVec 2)
    (i : BitVec 5) (wt : Bool) (hr : k = 0 → regs.get i.toNat 0 = s.src.v.get i.toFin) :
    srcElems cls ty n w regs k i wt s = .ok (source s cls ty n w k i, s) := by
  obtain ⟨-, hs, hf, -⟩ := h
  unfold srcElems source
  split
  · next hk => rw [hr hk]; rfl
  · split
    · simp [readS_ok hs hf]
    · split <;> simp

/-- No stream that a ready core could pop or push rounds anything. -/
theorem planVector_ok {s : State} (h : Ready s) (srcs : List (Nat × Bool)) (own : Bool) (d : BitVec 5) (w : Nat)
    (act : List Bool) : planVector srcs own d w act s = .ok ((), s) := by
  have hn (l : List (Nat × Bool)) : ((l.map (·.1)).eraseDups.map s.popped).filter (fun l => !l.isEmpty) = [] := by
    simp [List.filter_eq_nil_iff, State.popped, ready_stream h]
  have hl : ((((srcs.map (·.1)).eraseDups.map s.popped) ++ [if own then activeNos act else [],
      s.pushed d.toNat (activeBits w act)]).filter fun l => !l.isEmpty).length < 2 := by
    rw [List.filter_append, hn]
    simp only [State.pushed, ready_stream h, List.nil_append, List.filter_cons, List.filter_nil, List.isEmpty_nil]
    split <;> simp
    split <;> simp
  simp only [planVector, planDraws, Act.bind_apply, Act.get_apply, if_pos (Or.inr hl), Act.pure_apply]

/-- Reading the operands of form E or T. -/
theorem readElems_ok {s : State} (h : Ready s) (op : Nat) (f : Arith) : readElems op f s = .ok (operands op f s, s) := by
  have hs := h.2.1
  have hp := planVector_ok h
  have hu := ready_stream h
  have ha : ∀ b, f.ak = 0 → (vecVals s (vecNames f b) []).get f.a.toNat 0 = s.src.v.get f.a.toFin :=
    fun b hk => vecVals_get (w := f.aw) (by simp [vecNames, hk])
  have hb : f.bk = 0 → (vecVals s (vecNames f true) []).get f.b.toNat 0 = s.src.v.get f.b.toFin :=
    fun hk => vecVals_get (w := f.bw) (by simp [vecNames, hk])
  have h0 := readVs_ok h (vecNames f !(aInfo op).unary) []
  rw [← vecSrcs_eq] at h0
  have ha' := srcElems_ok h (aInfo op).cls f.ty (if f.dk then 1 else 4096 / tyWidth (aInfo op).cls f.ty)
    (tyWidth (aInfo op).cls f.ty) (vecVals s (vecNames f !(aInfo op).unary) []) f.ak f.a f.aw (ha _)
  unfold readElems operands
  cases hun : (aInfo op).unary
  · have hb' := srcElems_ok h (aInfo op).cls f.ty (if f.dk then 1 else 4096 / tyWidth (aInfo op).cls f.ty)
      (tyWidth (aInfo op).cls f.ty) (vecVals s (vecNames f true) []) f.bk f.b f.bw hb
    rw [hun] at h0 ha'
    cases hdk : f.dk <;> cases hfm : (aInfo op).form <;> rw [hdk] at ha' hb' <;>
      simp at h0 ha' hb' <;>
      simp [h0, ha', hb', hu, hp, hun, hfm, activeMask_ok hs, readV_ok h, readS_ok hs h.2.2.1]
  · rw [hun] at h0 ha'
    cases hdk : f.dk <;> cases hfm : (aInfo op).form <;> rw [hdk] at ha' <;>
      simp at h0 ha' <;>
      simp [h0, ha', hu, hp, hun, hfm, activeMask_ok hs, readV_ok h, readS_ok hs h.2.2.1]

@[simp] theorem raiseFlags_apply (fl : Flags) (s : State) :
    raiseFlags fl s = .ok ((), s.modRegs fun r => { r with fstat := r.fstat ||| fl.setWidth 64 }) := rfl

theorem writeS_ok {s : State} (h : Settled s) (d : BitVec 5) (v : Word64) :
    writeS d v s = .ok ((), s.modRegs (·.putS d v)) := by simp [writeS, waitOn_ok h]

theorem vecWrite_ok {s : State} (h : Ready s) (i : BitVec 5) (new bits : Nat) :
    vecWrite i new bits s = .ok ([.v i (mergeBits (s.src.v.get i.toFin).toNat new bits)], s) := by
  simp [vecWrite, ready_stream h, oldV_ok h]

/-- A chunk is open on the current core, and its bundle has raised no flag and reserved no index yet. -/
def Opened (s : State) : Prop := s.me.run.isSome = true ∧ s.me.due = 0 ∧ s.me.draws = []

@[simp] theorem openChunk_opened (s : State) : Opened (openChunk s) := by
  unfold Opened openChunk
  split
  · next k hk => simp [hk]
  · simp

theorem Opened.chunk {s : State} (h : Opened s) (f : Core → Core) (hf : (f s.me).run = s.me.run) :
    (f s.me).chunk = s.chunk := by
  obtain ⟨k, hk⟩ := Option.isSome_iff_exists.mp h.1
  simp [State.chunk, Core.chunk, hf, hk]

theorem enqueueV_ok {s : State} (h : Opened s) (beats : Nat) (ws : List RegWrite) (fl : Flags) :
    enqueueV beats ws fl s = .ok ((), queued beats ws fl s) := by
  obtain ⟨k, hk⟩ := Option.isSome_iff_exists.mp h.1
  simp [enqueueV, takeDue, h.2.1, queued, State.chunk, State.modRegs, Core.chunk, hk]

/-- Finishing an instruction of form E or T. -/
theorem finish_ok {s : State} (h : Ready s) (ho : Opened s) (op : Nat) (f : Arith) (e : Elems) (res : List Nat) (fl : Flags) :
    finish op f e res fl s = .ok ((), elementResult op f e res fl s) := by
  unfold finish elementResult
  split
  · simp [writeS_ok h.2.1, scalarResult]
  · simp [vecWrite_ok h, enqueueV_ok ho]

/-- An element-by-element instruction on a ready core. -/
theorem elementOp_ok {s : State} (h : Ready s) (op : Nat) (f : Arith) (g : Nat → Nat → Nat → Nat → Nat × Flags) :
    issue (elementOp op f g) s = .next (done (
      let t := openChunk s
      let e := operands op f t
      let rs := mapActive (0, flNone) (g e.w) e.act e.a e.b e.d
      elementResult op f e (rs.map (·.1)) (rs.foldl (fun x r => x ||| r.2) flNone) t)) := by
  have h' := openChunk_ready h
  exact issue_ok h.1 (by simp [elementOp, readElems_ok h', finish_ok h' (openChunk_opened s)])

end Sys2Proof.Machine
end

