-- ==== Sys2Proof/Laws/Frame.lean ====
section
/-!
SUPPORT. What the shared effects leave alone: an effect that comes to its end leaves committed memory (but for what a replay that diverges records), every other core, and
on its own core the task, the literal and the registers as they stood before the bundle (R133, R155, R235).
-/
namespace Sys2Proof.Machine
open Sys2Proof.Claims

/-- What no effect of a bundle changes while it comes to its end. -/
structure Local (s t : State) : Prop where
  cur : t.cur = s.cur
  mem : s.svc.logMode ≠ 2 → t.mem = s.mem ∧ t.svc.logMode ≠ 2
  others : ∀ j, j ≠ s.cur → t.core j = s.core j
  src : t.me.src = s.me.src
  task : t.me.task = s.me.task
  lit : t.me.lit = s.me.lit
  run : s.me.run.isSome = true → t.me.run.isSome = true

theorem Local.refl (s : State) : Local s s := ⟨rfl, fun h => ⟨rfl, h⟩, fun _ _ => rfl, rfl, rfl, rfl, id⟩
theorem Local.trans {s t u : State} (a : Local s t) (b : Local t u) : Local s u :=
  ⟨b.cur.trans a.cur, fun h => ⟨(b.mem (a.mem h).2).1.trans (a.mem h).1, (b.mem (a.mem h).2).2⟩, fun j h => (b.others j (a.cur ▸ h)).trans (a.others j h), b.src.trans a.src,
    b.task.trans a.task, b.lit.trans a.lit, fun h => b.run (a.run h)⟩

/-- Nor do the effects that leave the streams. -/
def Kept (s t : State) : Prop := Local s t ∧ t.me.regs.q = s.me.regs.q

theorem Kept.refl (s : State) : Kept s s := ⟨.refl s, rfl⟩
theorem Kept.trans {s t u : State} (a : Kept s t) (b : Kept t u) : Kept s u := ⟨a.1.trans b.1, b.2.trans a.2⟩

/-- An effect that comes to its end relates its states. -/
def Keeps {α : Type} (m : Act α) : Prop := ∀ s a t, m s = .ok (a, t) → Kept s t

theorem Keeps.pure {α : Type} (a : α) : Keeps (pure a : Act α) := by
  intro s b t h; cases h; exact .refl s
theorem Keeps.get : Keeps (get : Act State) := by intro s b t h; cases h; exact .refl s
theorem Keeps.bind {α β : Type} {m : Act α} {f : α → Act β} (hm : Keeps m) (hf : ∀ a, Keeps (f a)) : Keeps (m >>= f) := by
  intro s b t h
  rw [Act.bind_apply] at h
  cases hr : m s with
  | error e => simp [hr] at h
  | ok p => rw [hr] at h; exact (hm s p.1 p.2 hr).trans (hf p.1 p.2 b t h)
theorem Keeps.map {α β : Type} {m : Act α} {g : α → β} (hm : Keeps m) : Keeps (g <$> m) := by
  intro s b t h
  rw [Act.map_apply] at h
  cases hr : m s with
  | error e => simp [hr] at h
  | ok p => rw [hr] at h; cases h; exact hm s p.1 p.2 hr
theorem Keeps.faultWith {α : Type} (c : Code) (a b : Word64) : Keeps (faultWith c a b : Act α) := by
  intro s x t h; simp at h
theorem Keeps.raise {α : Type} (c : Code) : Keeps (raise c : Act α) := by intro s x t h; simp at h
theorem Keeps.waitFor {α : Type} (n : Need) : Keeps (waitFor n : Act α) := by intro s x t h; simp at h
theorem Keeps.cutHere {α : Type} : Keeps (cutHere : Act α) := by intro s x t h; simp at h
theorem Keeps.faultIf (b : Bool) (c : Code) : Keeps (faultIf b c) := by
  cases b
  · exact .pure ()
  · exact .raise c
theorem Keeps.waitIf (b : Bool) (n : Need) : Keeps (waitIf b n) := by
  cases b
  · exact .pure ()
  · exact .waitFor n
theorem Keeps.liftStop {α : Type} (x : Except Stop α) : Keeps (liftStop x) := by
  intro s b t h; cases x <;> simp at h; obtain ⟨-, rfl⟩ := h; exact .refl s
theorem Keeps.forM {α : Type} {f : α → Act PUnit} (h : ∀ a, Keeps (f a)) (l : List α) : Keeps (l.forM f) := by
  induction l with
  | nil => exact .pure _
  | cons a t ih => exact .bind (h a) fun _ => ih
theorem Keeps.mapM {α β : Type} {f : α → Act β} (h : ∀ a, Keeps (f a)) (l : List α) : Keeps (l.mapM f) := by
  induction l with
  | nil => rw [List.mapM_nil]; exact .pure _
  | cons a t ih => rw [List.mapM_cons]; exact .bind (h a) fun _ => .bind ih fun _ => .pure _

/-- A change of the current core that leaves what `Kept` names. -/
theorem Kept.modMe (s : State) (f : Core → Core) (h1 : (f s.me).src = s.me.src) (h2 : (f s.me).task = s.me.task)
    (h3 : (f s.me).lit = s.me.lit) (h4 : s.me.run.isSome = true → (f s.me).run.isSome = true)
    (h5 : (f s.me).regs.q = s.me.regs.q) : Kept s (s.modMe f) :=
  ⟨⟨rfl, fun h => ⟨rfl, h⟩, fun j h => State.core_modMe_ne s f j h, by simpa, by simpa, by simpa, by simpa⟩, by simpa⟩
theorem Keeps.onRegs (f : Regs → Regs) (h : ∀ r, (f r).q = r.q) : Keeps (onRegs f) := by
  intro s a t e; cases e; exact .modMe s _ rfl rfl rfl id (h _)
theorem Keeps.onChunk (f : Chunk → Chunk) : Keeps (onChunk f) := by
  intro s a t e; cases e; exact .modMe s _ rfl rfl rfl (fun _ => rfl) rfl
theorem Keeps.setNext (n : NextPc) : Keeps (setNext n) := by
  intro s a t e; cases e; exact .modMe s _ rfl rfl rfl id rfl
theorem Keeps.hold (h : Held) : Keeps (hold h) := .onChunk _
theorem Keeps.fresh : Keeps fresh := by
  intro s a t e; cases e; exact .modMe s _ rfl rfl rfl id rfl

/-- A change that leaves the cores and memory. -/
theorem Kept.of_cores {s t : State} (h1 : t.cur = s.cur) (h2 : t.cores = s.cores) (h3 : s.svc.logMode ≠ 2 → t.mem = s.mem ∧ t.svc.logMode ≠ 2) : Kept s t := by
  have e : ∀ j, t.core j = s.core j := fun j => by simp [State.core, h2]
  have m : t.me = s.me := by simp [State.me, h1, e]
  exact ⟨⟨h1, h3, fun j _ => e j, by rw [m], by rw [m], by rw [m], by rw [m]; exact id⟩, by rw [m]⟩

theorem Keeps.change (f : State → State) (h : ∀ s, Kept s (f s)) : Keeps (change f) := by
  intro s a t e; cases e; exact h s

theorem Keeps.noteValue (vk ord : Nat) (vals : List Word64) : Keeps (noteValue vk ord vals) := .onChunk _

theorem Keeps.waitOn (n : RegName) : Keeps (waitOn n) := by
  refine .bind .get fun s => ?_
  split
  · exact .waitFor _
  · exact .pure ()
theorem Keeps.fullCheck (a b : Bool) : Keeps (fullCheck a b) := by
  unfold Machine.fullCheck; split
  · exact .pure ()
  · split
    · exact .raise _
    · exact .waitFor _
theorem Keeps.readS (i : BitVec 5) (w : Bool) : Keeps (readS i w) :=
  .bind (.waitOn _) fun _ => .bind .get fun _ => .bind (.fullCheck _ _) fun _ => .pure _
theorem Keeps.readK (i : BitVec 5) : Keeps (readK i) := .bind .get fun _ => .pure _
theorem Keeps.readM (i : BitVec 3) : Keeps (readM i) := .bind (.waitOn _) fun _ => .bind .get fun _ => .pure _
theorem Keeps.activeMask : Keeps activeMask := .bind .get fun _ => .bind (.readM _) fun _ => .pure _

theorem Keeps.touchSpan (l : Nat) : Keeps (touchSpan l) := by
  refine .bind .get fun s => ?_
  dsimp only
  split
  · exact .pure ()
  · split
    · exact .pure ()
    · split
      · exact .raise _
      · exact .onChunk _
theorem Keeps.enterRead (l : Nat) : Keeps (enterRead l) := .bind (.touchSpan l) fun _ => .onChunk _
theorem Keeps.enterWrite (l : Nat) : Keeps (enterWrite l) := .bind (.touchSpan l) fun _ => .onChunk _
/-! ## Committed reads and writes leave the cores -/

/-- What a committed read leaves: the cores, memory, and the log's mode and control (R51). -/
structure Calm (s t : State) : Prop where
  cores : t.cores = s.cores
  cur : t.cur = s.cur
  mem : t.mem = s.mem
  mode : t.svc.logMode = s.svc.logMode
  ctl : t.svc.logctl = s.svc.logctl

theorem Calm.refl (s : State) : Calm s s := ⟨rfl, rfl, rfl, rfl, rfl⟩
theorem Calm.trans {s t u : State} (a : Calm s t) (b : Calm t u) : Calm s u :=
  ⟨b.cores.trans a.cores, b.cur.trans a.cur, b.mem.trans a.mem, b.mode.trans a.mode, b.ctl.trans a.ctl⟩
theorem Calm.foldl {α : Type} {f : State → α → State} (h : ∀ s a, Calm s (f s a)) (l : List α) (s : State) :
    Calm s (l.foldl f s) := by
  induction l generalizing s with
  | nil => exact .refl s
  | cons a t ih => exact (h s a).trans (ih _)

theorem countMismatch_calm (s : State) : Calm s s.countMismatch := ⟨rfl, rfl, rfl, rfl, rfl⟩

theorem dropCopies_calm (s : State) (w : Way) : Calm s (s.dropCopies w) := ⟨rfl, rfl, rfl, rfl, rfl⟩

theorem backInvalidate_calm (s : State) (w : Way) : Calm s (s.backInvalidate w) := by
  unfold State.backInvalidate
  dsimp only
  split <;> exact ⟨rfl, rfl, rfl, rfl, rfl⟩

theorem l2Put_calm (s : State) (w : Way) : Calm s (s.l2Put w) := by
  unfold State.l2Put
  dsimp only
  split
  · exact ⟨rfl, rfl, rfl, rfl, rfl⟩
  · refine Calm.trans ?_ (backInvalidate_calm _ _)
    exact ⟨rfl, rfl, rfl, rfl, rfl⟩

theorem recall_calm (s : State) (w : Way) : Calm s (s.recall w).1 := by
  unfold State.recall
  split <;> exact ⟨rfl, rfl, rfl, rfl, rfl⟩

theorem readLine_calm (s : State) (kid line : Nat) : Calm s (s.readLine kid line).1 := by
  unfold State.readLine
  split
  · split
    · exact .refl s
    · exact countMismatch_calm s
  · split
    · split
      · exact (recall_calm s _).trans (l2Put_calm _ _)
      · exact countMismatch_calm s
    · exact l2Put_calm s _

theorem modWay_calm (s : State) (line : Nat) (f : Way → Way) : Calm s (s.modWay line f) := ⟨rfl, rfl, rfl, rfl, rfl⟩

theorem cellGone_calm (cell : Nat) (s : State) (l : CLine) : Calm s (s.cellGone cell l) := by
  unfold State.cellGone
  split
  · exact .refl s
  · split
    · split
      · exact modWay_calm _ _ _
      · exact l2Put_calm _ _
    · split
      · exact .refl s
      · exact modWay_calm _ _ _

theorem trimSet_calm (cell : Nat) (s : State) (set : Nat) : Calm s (s.trimSet cell set) := by
  unfold State.trimSet
  dsimp only
  split
  · exact .refl s
  · refine Calm.trans ?_ (Calm.foldl (cellGone_calm cell) _ _)
    exact ⟨rfl, rfl, rfl, rfl, rfl⟩

theorem cachePut_calm (s : State) (cell : Nat) (x : CLine) : Calm s (s.cachePut cell x) := by
  unfold State.cachePut
  refine Calm.trans ?_ (trimSet_calm _ _ _)
  exact ⟨rfl, rfl, rfl, rfl, rfl⟩

theorem cellFill_calm (s : State) (kid cell line : Nat) (old need : BitVec 4) :
    Calm s (s.cellFill kid cell line old need).1 := by
  have h := readLine_calm s kid line
  unfold State.cellFill
  dsimp only
  split
  · exact h
  · next w _ =>
    split
    · exact h
    · dsimp only
      exact h.trans ((l2Put_calm _ (w.share (cellCluster cell))).trans (cachePut_calm _ cell _))

/-- A core's read through its cell's cache role. -/
theorem cellRead_calm (s : State) (kid core k n : Nat) : Calm s (s.cellRead kid core k n).1 := by
  unfold State.cellRead
  dsimp only
  split
  · exact readLine_calm _ _ _
  · split
    · exact cellFill_calm _ _ _ _ _ _
    · split
      · exact countMismatch_calm s
      · split
        · exact cachePut_calm _ _ _
        · exact cellFill_calm _ _ _ _ _ _

theorem coreRead_calm (s : State) (i k n : Nat) : Calm s (s.coreRead i k n).1 := by
  have c := cellRead_calm s (s.ctx i).kid i k n
  unfold State.coreRead
  dsimp only
  split
  · exact ⟨c.cores, c.cur, c.mem, rfl, rfl⟩
  · exact c

theorem sampled_calm (s : State) (line : Nat) (take : Bool) : Calm s (s.sampled line take) := by
  unfold State.sampled
  dsimp only
  split <;> exact ⟨rfl, rfl, rfl, rfl, rfl⟩

theorem snapCopies_calm (s : State) (line : Nat) : Calm s (s.snapCopies line) := by
  unfold State.snapCopies
  generalize s.clusters = l
  induction l generalizing s with
  | nil => exact .refl s
  | cons p t ih =>
    rw [List.foldl_cons]
    have h := ih (if p.2.copyQ.any (·.srcs.contains line) then
      let (m, q) := s.snapCmds line s.moment p.2.copyQ
      { s with moment := m, clusters := s.clusters.put p.1 { p.2 with copyQ := q } }
    else s)
    refine Calm.trans ?_ h
    split
    · exact ⟨rfl, rfl, rfl, rfl, rfl⟩
    · exact .refl s

theorem l2Put_svc (s : State) (w : Way) : (s.l2Put w).svc = s.svc := by
  unfold State.l2Put
  dsimp only
  split
  · rfl
  · unfold State.backInvalidate
    dsimp only
    split <;> rfl

theorem snapCopies_svc (s : State) (line : Nat) : (s.snapCopies line).svc = s.svc := by
  unfold State.snapCopies
  generalize s.clusters = l
  induction l generalizing s with
  | nil => rfl
  | cons p t ih =>
    rw [List.foldl_cons, ih]
    split <;> rfl

theorem writeLine_keeps (s : State) (kid line : Nat) (m d : Line) :
    (s.writeLine kid line m d).cores = s.cores ∧ (s.writeLine kid line m d).cur = s.cur ∧
      (s.writeLine kid line m d).svc = s.svc := by
  have h := snapCopies_calm s line
  have hv := snapCopies_svc s line
  unfold State.writeLine
  dsimp only
  split
  · exact ⟨h.cores, h.cur, hv⟩
  · exact ⟨(l2Put_calm _ _).cores.trans h.cores, (l2Put_calm _ _).cur.trans h.cur, (l2Put_svc _ _).trans hv⟩

theorem writeKey_keeps (s : State) (kid k : Nat) (bs : List Byte) :
    (s.writeKey kid k bs).cores = s.cores ∧ (s.writeKey kid k bs).cur = s.cur ∧ (s.writeKey kid k bs).svc = s.svc := by
  unfold State.writeKey
  generalize pieces (bs.length / 128 + 2) k bs.length = l
  have : ∀ (l : List (Nat × Nat)) (a : State × List Byte), a.1.cores = s.cores → a.1.cur = s.cur → a.1.svc = s.svc →
      let r := l.foldl (fun (a : State × List Byte) p =>
        let (m, d) := lineBytes (p.1 % 128) (a.2.take p.2)
        (a.1.writeLine kid (p.1 / 128) m d, a.2.drop p.2)) a
      r.1.cores = s.cores ∧ r.1.cur = s.cur ∧ r.1.svc = s.svc := by
    intro l
    induction l with
    | nil => intro a h1 h2 h3; exact ⟨h1, h2, h3⟩
    | cons p t ih =>
      intro a h1 h2 h3
      rw [List.foldl_cons]
      obtain ⟨e1, e2, e3⟩ := writeLine_keeps a.1 kid (p.1 / 128) (lineBytes (p.1 % 128) (a.2.take p.2)).1
        (lineBytes (p.1 % 128) (a.2.take p.2)).2
      exact ih _ (e1.trans h1) (e2.trans h2) (e3.trans h3)
  exact this l (s, bs) rfl rfl rfl

theorem errorRecord_keeps (s : State) (e : ErrRec) :
    (s.errorRecord e).cores = s.cores ∧ (s.errorRecord e).cur = s.cur := by
  unfold State.errorRecord
  dsimp only
  split
  · exact ⟨rfl, rfl⟩
  · obtain ⟨e1, e2, -⟩ := writeKey_keeps s 0 ((fld s.svc.errbase 51 12 * 4096 + 32 * (fld s.svc.errptr 19 0 %
      2 ^ fld s.svc.errptr 47 43)) % hbmSize) (bytesOf 8 (e.code.toNat * 2 ^ 56 + e.cls * 2 ^ 52 + e.unit * 2 ^ 48 +
      s.pkg * 2 ^ 34 + e.die * 2 ^ 31 + e.pclu * 2 ^ 25 + e.pcell * 2 ^ 19 + e.idx % 2 ^ 19) ++ bytesOf 8 e.addr.toNat ++
      bytesOf 8 s.dt ++ bytesOf 8 (e.kid * 2 ^ 54 + s.csn % 2 ^ 54))
    exact ⟨e1, e2⟩

theorem writeWord_keeps (s : State) (kid k v : Nat) :
    (s.writeWord kid k v).cores = s.cores ∧ (s.writeWord kid k v).cur = s.cur ∧ (s.writeWord kid k v).svc = s.svc :=
  writeKey_keeps s kid k _

theorem readKey_calm (s : State) (kid k n : Nat) : Calm s (s.readKey kid k n).1 := by
  unfold State.readKey
  generalize pieces (n / 128 + 2) k n = l
  have : ∀ (l : List (Nat × Nat)) (a : State × List Byte × Bool), Calm s a.1 →
      Calm s (l.foldl (fun (a : State × List Byte × Bool) p =>
        let (s, d, po) := a.1.readLine kid (p.1 / 128)
        (s, a.2.1 ++ bytesOf p.2 (d.toNat >>> (8 * (p.1 % 128))), a.2.2 || po)) a).1 := by
    intro l
    induction l with
    | nil => intro a h; exact h
    | cons p t ih => intro a h; rw [List.foldl_cons]; exact ih _ (h.trans (readLine_calm _ _ _))
  exact this l (s, [], false) (.refl s)

theorem readWord_calm (s : State) (kid k : Nat) : Calm s (s.readWord kid k).1 := by
  unfold State.readWord
  exact readKey_calm s kid k 8

theorem raiseLaunch_keeps (u : State) (launch lvl : Nat) :
    (u.raiseLaunch launch lvl).cores = u.cores ∧ (u.raiseLaunch launch lvl).cur = u.cur := by
  unfold State.raiseLaunch
  split <;> exact ⟨rfl, rfl⟩

theorem raiseVerdict_eq (s : State) (kid launch lvl : Nat) : s.raiseVerdict kid launch lvl =
    ((s.readWord 0 (s.jobBase kid + 0x38)).1.writeWord 0 (s.jobBase kid + 0x38)
      (verdictUp (BitVec.ofNat 64 (s.readWord 0 (s.jobBase kid + 0x38)).2.1) lvl).toNat).raiseLaunch launch lvl := by
  delta State.raiseVerdict; with_reducible rfl

theorem raiseVerdict_keeps (s : State) (kid launch lvl : Nat) :
    (s.raiseVerdict kid launch lvl).cores = s.cores ∧ (s.raiseVerdict kid launch lvl).cur = s.cur := by
  have c := readWord_calm s 0 (s.jobBase kid + 0x38)
  have e := raiseVerdict_eq s kid launch lvl
  rw [e, (raiseLaunch_keeps _ _ _).1, (raiseLaunch_keeps _ _ _).2, (writeWord_keeps _ _ _ _).1, (writeWord_keeps _ _ _ _).2.1]
  exact ⟨c.cores, c.cur⟩

theorem diverge_keeps (s : State) : s.diverge.cores = s.cores ∧ s.diverge.cur = s.cur := by
  unfold State.diverge
  have : ∀ (l : NMap Launch) (u : State),
      (l.foldl (fun (s : State) p => if p.2.completed then s else s.raiseVerdict p.2.kid p.1 2) u).cores = u.cores ∧
      (l.foldl (fun (s : State) p => if p.2.completed then s else s.raiseVerdict p.2.kid p.1 2) u).cur = u.cur := by
    intro l
    induction l with
    | nil => intro u; exact ⟨rfl, rfl⟩
    | cons p t ih =>
      intro u
      rw [List.foldl_cons]
      obtain ⟨h1, h2⟩ := raiseVerdict_keeps u p.2.kid p.1 2
      cases p.2.completed
      · simp only [Bool.false_eq_true, if_false]; exact ⟨(ih _).1.trans h1, (ih _).2.trans h2⟩
      · simp only [if_true]; exact ih u
  dsimp only
  rw [(this _ _).1, (this _ _).2]
  exact errorRecord_keeps _ _

theorem replayValue_keeps (s : State) (c vk n : Nat) : Kept s (s.replayValue c vk n).1 := by
  unfold State.replayValue
  split
  · exact .refl s
  · next h =>
    dsimp only
    split
    · exact .refl s
    · exact .of_cores (diverge_keeps s).2 (diverge_keeps s).1 fun e => absurd e (by simpa using h)

theorem Keeps.replayed (vk n : Nat) : Keeps (replayed vk n) := by
  intro s a t h
  simp only [Machine.replayed, Act.bind_apply, Act.get_apply, Act.set_apply] at h
  have k := replayValue_keeps s s.cur vk n
  cases hr : (s.replayValue s.cur vk n).2 with
  | none => simp [hr] at h; obtain ⟨-, rfl⟩ := h; exact k
  | some es =>
    simp only [hr, Act.bind_apply, Machine.noteValue, onChunk_apply, Act.pure_apply] at h
    cases h
    exact k.trans (.modMe _ _ rfl rfl rfl (fun _ => rfl) rfl)

theorem Keeps.loggedValue (vk : Nat) (v : Word64) : Keeps (loggedValue vk v) := by
  refine .bind (.replayed vk 1) fun r => ?_
  split
  · exact .pure _
  · exact .bind (.noteValue _ _ _) fun _ => .pure _

theorem waitIf_ok {b : Bool} {n : Need} {s t : State} {u : Unit} (h : waitIf b n s = .ok (u, t)) : t = s := by
  cases b
  · cases h; rfl
  · simp at h

theorem Calm.kept {s t : State} (c : Calm s t) : Kept s t :=
  .of_cores c.cur c.cores fun h => ⟨c.mem, c.mode ▸ h⟩

theorem Keeps.sampled (line : Nat) (take : Bool) : Keeps (Machine.change (·.sampled line take)) :=
  .change _ fun s => (sampled_calm s line take).kept

theorem Keeps.holdLine (l : Nat) : Keeps (holdLine l) := by
  have take (u : ULine) : Keeps (Machine.change fun s =>
      (s.modChunk fun k => { k with ulines := u :: k.ulines }).trimSet (cellOf s.cur) u.set) :=
    .change _ fun s => Kept.trans (.modMe s _ rfl rfl rfl (fun _ => rfl) rfl) (trimSet_calm _ _ _).kept
  refine .bind .get fun s => ?_
  dsimp only
  split
  · exact .pure ()
  · split
    · exact take _
    · split
      · exact take _
      · exact .cutHere

/-- Bytes of a line that is not another package's, read for the running chunk. -/
theorem readLineRaw_local {k n : Nat} {s t : State} {a : Line × Bool} (hl : isRemote (k / 128) = false)
    (h : readLineRaw k n s = .ok (a, t)) :
    s.claimed (k / 128) = false ∧ s.inTransit (k / 128) = false ∧
    a = ((s.sampled (k / 128) false).coreRead s.cur k n).2 ∧ Kept s t := by
  have c0 := sampled_calm s (k / 128) false
  simp only [readLineRaw, Act.bind_apply, Act.get_apply, change_apply] at h
  cases h1 : s.claimed (k / 128) with
  | true => simp [h1] at h
  | false =>
    cases h2 : s.inTransit (k / 128) with
    | true => simp [h1, h2] at h
    | false =>
      simp only [h1, h2, waitIf_false, hl, Bool.false_eq_true, if_false, Act.bind_apply, Act.get_apply, Act.set_apply,
        Act.pure_apply] at h
      cases h
      rw [c0.cur]
      exact ⟨rfl, rfl, rfl, Calm.kept (c0.trans (coreRead_calm _ _ _ _))⟩

theorem Keeps.readLineRaw (k n : Nat) : Keeps (readLineRaw k n) := by
  intro s a t h
  cases hl : isRemote (k / 128) with
  | false => exact (readLineRaw_local hl h).2.2.2
  | true =>
    revert s a t
    show Keeps (Machine.readLineRaw k n)
    refine .bind .get fun s => ?_
    dsimp only
    refine .bind (.waitIf _ _) fun _ => .bind (.waitIf _ _) fun _ => .bind (.sampled _ _) fun _ => ?_
    rw [if_pos hl]
    split
    · exact .pure _
    · refine .bind (.replayed _ _) fun r => ?_
      split
      · exact .bind (.onChunk _) fun _ => .pure _
      · exact .waitFor _

theorem Keeps.readLineAct (k n : Nat) (a : Word64) : Keeps (readLineAct k n a) := by
  refine .bind (.readLineRaw _ _) fun p => ?_
  split
  · split
    · exact .faultWith _ _ _
    · exact .pure _

theorem Keeps.readPiecesPo (sig : Bool) (a : Word64) (l : List (Nat × Nat)) : Keeps (readPiecesPo sig a l) := by
  induction l generalizing a with
  | nil => exact .pure _
  | cons p t ih =>
    obtain ⟨k, n⟩ := p
    have rest : ∀ r : Line × Bool, Keeps (do
        let s ← (MonadState.get : Act State)
        let raw := bytesOf n (r.1.toNat >>> (8 * (k % 128)))
        let me := s.me
        let own := (List.range n).zipWith (fun j b => overlayByte me.chunk.stores me.pendStores (k + j) b) raw
        let q ← Machine.readPiecesPo sig (a + BitVec.ofNat 64 n) t
        Pure.pure (own ++ q.1, if r.2 && !me.covers (k / 128) then some a else q.2)) :=
      fun r => .bind .get fun _ => .bind (ih _) fun _ => .pure _
    unfold Machine.readPiecesPo
    dsimp only
    split
    · exact .bind (.enterRead _) fun _ => .bind (.readLineRaw _ _) rest
    · exact .bind (.readLineRaw _ _) rest

theorem Keeps.readPieces (sig : Bool) (a : Word64) (l : List (Nat × Nat)) : Keeps (readPieces sig a l) := by
  refine .bind (.readPiecesPo _ _ _) fun r => ?_
  split
  split
  · exact .faultWith _ _ _
  · exact .pure _

theorem Keeps.chunkRead (a : Word64) (n : Nat) : Keeps (chunkRead a n) :=
  .bind .get fun _ => .bind (.liftStop _) fun _ => .readPieces _ _ _

theorem Keeps.writePieces (l : List (Nat × Nat)) (bs : List (BitVec 8 × BitVec 8)) : Keeps (writePieces l bs) := by
  induction l generalizing bs with
  | nil => exact .pure _
  | cons p t ih =>
    obtain ⟨k, n⟩ := p
    unfold Machine.writePieces
    exact .bind .get fun _ => .bind (.waitIf _ _) fun _ => .bind (.waitIf _ _) fun _ => .bind (.enterWrite _) fun _ =>
      .bind (.sampled _ _) fun _ => .bind (.holdLine _) fun _ => .bind (.onChunk _) fun _ => ih _

theorem Keeps.noteDirty (a : Word64) (n : Nat) : Keeps (noteDirty a n) := .bind .get fun _ => .onChunk _

theorem Keeps.chunkWriteBits (a : Word64) (bs : List (BitVec 8 × BitVec 8)) : Keeps (chunkWriteBits a bs) := by
  refine .bind .get fun _ => .bind (.liftStop _) fun _ => ?_
  dsimp only
  split
  · exact .bind (.noteDirty _ _) fun _ => .writePieces _ _
  · exact .writePieces _ _

theorem Keeps.chunkWrite (a : Word64) (bs : List Byte) : Keeps (chunkWrite a bs) := .chunkWriteBits _ _
theorem Keeps.checkAlign (a : Word64) (n : Nat) : Keeps (checkAlign a n) := by
  unfold Machine.checkAlign; split
  · exact .pure _
  · exact .faultWith _ _ _

/-! ## Rounding -/

theorem Keeps.readCommittedGo (a : Word64) (l : List (Nat × Nat)) : Keeps (readCommitted.go a l) := by
  induction l generalizing a with
  | nil => exact .pure _
  | cons p t ih =>
    obtain ⟨k, n⟩ := p
    unfold readCommitted.go
    exact .bind (.readLineAct _ _ _) fun _ => .bind (ih _) fun _ => .pure _
theorem Keeps.readCommitted (a : Word64) (n : Nat) : Keeps (readCommitted a n) :=
  .bind .get fun _ => .bind (.liftStop _) fun _ => .readCommittedGo _ _

theorem Keeps.eitherRow (a b : List Nat) : Keeps (eitherRow a b) := by
  intro s r t e
  unfold Machine.eitherRow at e
  split at e <;> cases e
  · exact .refl _
  · exact .of_cores rfl rfl fun h => ⟨rfl, h⟩

theorem Keeps.weaveRow (d : Nat) : Keeps (weaveRow d) := by
  refine .bind .get fun s => ?_
  refine .bind (.faultIf _ _) fun _ => .bind (.faultIf _ _) fun _ => ?_
  split
  · exact .bind (.readCommitted _ _) fun _ => .waitFor _
  · dsimp only
    split
    · exact .bind (.onRegs _ fun _ => rfl) fun _ => .eitherRow _ _
    · exact .bind (.pure _) fun _ => .eitherRow _ _

theorem Keeps.reserveIdx (n : Nat) : Keeps (reserveIdx n) :=
  .bind .get fun _ => .bind (.onRegs _ fun _ => rfl) fun _ => .pure _

theorem Keeps.onMe (f : Core → Core) (h1 : ∀ c, (f c).src = c.src) (h2 : ∀ c, (f c).task = c.task)
    (h3 : ∀ c, (f c).lit = c.lit) (h4 : ∀ c, (f c).run = c.run) (h5 : ∀ c, (f c).regs.q = c.regs.q) : Keeps (onMe f) := by
  intro s a t e; cases e; exact .modMe s _ (h1 _) (h2 _) (h3 _) (fun h => by rw [h4]; exact h) (h5 _)

theorem Keeps.takeIdx (n : Nat) : Keeps (takeIdx n) := by
  refine .bind .get fun _ => ?_
  split
  · exact .bind (.reserveIdx _) fun _ => .pure _
  · exact .bind (.onMe _ (fun _ => rfl) (fun _ => rfl) (fun _ => rfl) (fun _ => rfl) fun _ => rfl) fun _ => .pure _

theorem Keeps.roundAll (frm : Word64) (keep : Bool) (c : Nat) (xs : List (FVal × Nat)) : Keeps (roundAll frm keep c xs) := by
  unfold Machine.roundAll
  dsimp only
  split
  · split
    · exact .pure _
    · exact .bind (.weaveRow _) fun _ => .bind .get fun _ => .bind (.takeIdx _) fun _ => .pure _
  · split
    · exact .bind .get fun _ => .bind (.waitIf _ _) fun _ => .bind (.onRegs _ fun _ => rfl) fun _ => .pure _
    · exact .pure _

theorem Keeps.roundActive (act : List Bool) (frm : Word64) (keep : Bool) (c : Nat) (vs : List FVal) :
    Keeps (roundActive act frm keep c vs) := .bind (.roundAll _ _ _ _) fun _ => .pure _

theorem Keeps.convertElems (act : List Bool) (frm : Word64) (src dst : Nat) (xs : List Nat) :
    Keeps (convertElems act frm src dst xs) := .bind (.roundAll _ _ _ _) fun _ => .pure _

theorem Keeps.qrndPoints (seed : BitVec 32) (l : List ((Nat × Nat) × Bool)) (rows : NMap (List Nat)) :
    Keeps (qrndPoints seed l rows) := by
  induction l generalizing rows with
  | nil => exact .pure _
  | cons p t ih =>
    obtain ⟨⟨d, i⟩, b⟩ := p
    cases b
    · exact .bind (ih _) fun _ => .pure _
    · unfold Machine.qrndPoints
      dsimp only
      split
      · exact .bind (.pure _) fun _ => .bind (ih _) fun _ => .pure _
      · exact .bind (.weaveRow _) fun _ => .bind (ih _) fun _ => .pure _

theorem readOne_ok {s : State} (h : Ready s) (cls : Cls) (f : Arith) (n w : Nat) :
    readOne cls f n w s = .ok (source s cls f.ty n w f.ak f.a, s) := by
  have h0 := readVs_ok h (vecNames f false) []
  rw [← vecSrcs_eq] at h0
  simp only [readOne, Act.bind_apply, h0]
  exact srcElems_ok h _ _ _ _ _ _ _ _ fun hk => vecVals_get (w := f.aw) (by simp [vecNames, hk])

/-- What is kept keeps a core ready. -/
theorem Kept.ready {s t : State} (k : Kept s t) (h : Ready s) : Ready t := by
  obtain ⟨h1, h2, h3, h4⟩ := h
  have hs : t.src = s.src := k.1.src
  refine ⟨?_, ?_, ?_, ?_⟩
  · unfold Runs; rw [k.1.task]; exact h1
  · intro n; rw [hs]; exact h2 n
  · unfold Full; rw [hs]; exact h3
  · intro i; rw [hs]; exact h4 i

end Sys2Proof.Machine
end

