-- ==== Sys2Proof/Laws/Memory.lean ====
section
/-!
SUPPORT. The byte list (R239): a read after a write, the canonical form, and that every memory operation keeps it.
-/
namespace Sys2Proof.Machine

theorem memWfFrom_mono {m : List Host.Cell} {a b : Nat} (h : a ≤ b) (w : memWfFrom b m = true) : memWfFrom a m = true := by
  cases m with
  | nil => rfl
  | cons c t =>
    simp only [memWfFrom, Bool.and_eq_true, decide_eq_true_eq] at w ⊢
    exact ⟨⟨by omega, w.1.2⟩, w.2⟩

/-- Below the bound of the canonical form nothing is listed. -/
theorem memRead_below {m : List Host.Cell} {lo k : Nat} (w : memWfFrom lo m = true) (h : k < lo) : memRead m k = unwritten := by
  induction m generalizing lo with
  | nil => rfl
  | cons c t ih =>
    simp only [memWfFrom, Bool.and_eq_true, decide_eq_true_eq] at w
    simp only [memRead]
    rw [if_neg (by omega)]
    exact ih w.2 (by omega)

theorem memWrite_wfFrom {m : List Host.Cell} {lo k : Nat} (v : Byte) (w : memWfFrom lo m = true) (h : lo ≤ k) :
    memWfFrom lo (memWrite m k v) = true := by
  induction m generalizing lo with
  | nil =>
    simp only [memWrite]
    split
    · rfl
    · simp [memWfFrom, *]
  | cons c t ih =>
    obtain ⟨a, b⟩ := c
    simp only [memWfFrom, Bool.and_eq_true, decide_eq_true_eq] at w
    obtain ⟨⟨w1, w2⟩, w3⟩ := w
    simp only [memWrite]
    split
    · split
      · simp [memWfFrom, w1, w3]; simpa using w2
      · simp only [memWfFrom, Bool.and_eq_true, decide_eq_true_eq]
        exact ⟨⟨h, by simpa⟩, ⟨by omega, w2⟩, w3⟩
    · split
      · split
        · exact memWfFrom_mono (by omega) w3
        · simp only [memWfFrom, Bool.and_eq_true, decide_eq_true_eq]
          subst_vars
          exact ⟨⟨h, by simpa⟩, w3⟩
      · simp only [memWfFrom, Bool.and_eq_true, decide_eq_true_eq]
        exact ⟨⟨w1, w2⟩, ih w3 (by omega)⟩

/-- A write keeps the canonical form. -/
theorem memWrite_wf (m : List Host.Cell) (k : Nat) (v : Byte) (w : Memory.wf m = true) : Memory.wf (memWrite m k v) = true :=
  memWrite_wfFrom v w (Nat.zero_le _)

/-- What reads back after a write. -/
theorem memRead_memWrite {m : List Host.Cell} (lo : Nat) (k j : Nat) (v : Byte) (w : memWfFrom lo m = true) :
    memRead (memWrite m k v) j = if j = k then v else memRead m j := by
  induction m generalizing lo with
  | nil =>
    simp only [memWrite]
    split
    · subst_vars; simp [memRead]
    · simp only [memRead]; split <;> simp_all; grind
  | cons c t ih =>
    obtain ⟨a, b⟩ := c
    simp only [memWfFrom, Bool.and_eq_true, decide_eq_true_eq] at w
    obtain ⟨⟨w1, w2⟩, w3⟩ := w
    have below : ∀ x, x ≤ a → memRead t x = unwritten := fun x hx => memRead_below w3 (by omega)
    simp only [memWrite]
    split
    · have hk := below k (by omega)
      split <;> simp only [memRead] <;> grind
    · split
      · have := below j
        split <;> simp only [memRead] <;> grind
      · simp only [memRead, ih _ w3]; grind

/-- A run of bytes keeps the canonical form. -/
theorem memWriteN_wf (bs : List Byte) (m : List Host.Cell) (k : Nat) (w : Memory.wf m = true) :
    Memory.wf (memWriteN m k bs) = true := by
  induction bs generalizing m k with
  | nil => exact w
  | cons b t ih => exact ih _ _ (memWrite_wf m k b w)

/-- Forgetting bytes keeps the canonical form. -/
theorem filter_wf (p : Host.Cell → Bool) (m : List Host.Cell) (w : Memory.wf m = true) : Memory.wf (m.filter p) = true := by
  suffices h : ∀ lo, memWfFrom lo m = true → memWfFrom lo (m.filter p) = true from h 0 w
  clear w
  induction m with
  | nil => intro lo _; rfl
  | cons c t ih =>
    intro lo w
    simp only [memWfFrom, Bool.and_eq_true, decide_eq_true_eq] at w
    simp only [List.filter_cons]
    split
    · simp only [memWfFrom, Bool.and_eq_true, decide_eq_true_eq]; exact ⟨w.1, ih _ w.2⟩
    · exact memWfFrom_mono (by omega) (ih _ w.2)

end Sys2Proof.Machine
end

