-- ==== Sys2Proof/Laws/PerInstr.lean ====
section
/-!
SUPPORT. One family of statements over every constructor: what the encoder puts where the decoder looks first (R131, R132,
R134, R139). A control word carries its instruction's opcode and P; an arithmetic word carries its opcode and no control word.
-/
namespace Sys2Proof.Laws

/-- Where an instruction is a control word, its word 0 carries P and the control opcode; where it is an arithmetic word, its
word carries the arithmetic opcode; no instruction is both. -/
def Coded.Statement (i : Instr) : Prop :=
  (∀ p, i.paired = some p → (encodeCtl i).1.getLsbD 31 = p ∧ (encodeCtl i).1.extractLsb' 25 6 = ctlOp i) ∧
    (∀ op f, Machine.arithOf i = some (op, f) → i.paired = none ∧ encodeArith i = Arith.toWord (BitVec.ofNat 7 op) f ∧
      (encodeArith i).extractLsb' 25 7 = BitVec.ofNat 7 op)

/-- A control word of format M. -/
theorem Coded.ofM {i : Instr} {f : MF} (h1 : i.paired = some f.p) (h2 : (encodeCtl i).1 = MF.toWord (ctlOp i) f)
    (h3 : Machine.arithOf i = none) : Coded.Statement i := by
  refine ⟨fun p h => ?_, fun op g h => by rw [h3] at h; cases h⟩
  rw [h1] at h; cases h
  rw [h2]; exact ⟨MF.toWord_p _ _, MF.toWord_op _ _⟩
/-- A control word of format T. -/
theorem Coded.ofT {i : Instr} {f : TF} (h1 : i.paired = some f.p) (h2 : (encodeCtl i).1 = TF.toWord (ctlOp i) f)
    (h3 : Machine.arithOf i = none) : Coded.Statement i := by
  refine ⟨fun p h => ?_, fun op g h => by rw [h3] at h; cases h⟩
  rw [h1] at h; cases h
  rw [h2]; exact ⟨TF.toWord_p _ _, TF.toWord_op _ _⟩
/-- A control word of format J. -/
theorem Coded.ofJ {i : Instr} {f : JF} (h1 : i.paired = some false) (h2 : (encodeCtl i).1 = JF.toWord (ctlOp i) f)
    (h3 : Machine.arithOf i = none) : Coded.Statement i := by
  refine ⟨fun p h => ?_, fun op g h => by rw [h3] at h; cases h⟩
  rw [h1] at h; cases h
  rw [h2]; exact ⟨JF.toWord_p _ _, JF.toWord_op _ _⟩
/-- A control word of format N. -/
theorem Coded.ofN {i : Instr} {p : Bool} (h1 : i.paired = some p)
    (h2 : (encodeCtl i).1 = bit1 p ++ ctlOp i ++ (0 : BitVec 25)) (h3 : Machine.arithOf i = none) : Coded.Statement i := by
  refine ⟨fun q h => ?_, fun op g h => by rw [h3] at h; cases h⟩
  rw [h1] at h; cases h
  rw [h2]
  constructor
  · simp (disch := decide) only [bit_append_hi, Nat.reduceSub, bit1_get]
  · simp (disch := decide) only [extract_append_hi, extract_append_lo, Nat.reduceSub, extract_all]
/-- An arithmetic word. -/
theorem Coded.ofArith {i : Instr} {op : Nat} {f : Arith} (h1 : Machine.arithOf i = some (op, f)) (h2 : i.paired = none) :
    Statement i := by
  refine ⟨fun p h => by (rw [h2] at h; cases h), fun o g h => ?_⟩
  rw [h1] at h; cases h
  have e : encodeArith i = Arith.toWord (BitVec.ofNat 7 op) f := by simp only [encodeArith, h1]
  exact ⟨h2, e, by rw [e]; exact Arith.toWord_op _ _⟩
/-- An event. -/
theorem Coded.ofEvent {i : Instr} (h1 : Machine.arithOf i = none) (h2 : i.paired = none) : Coded.Statement i :=
  ⟨fun p h => by (rw [h2] at h; cases h), fun op g h => by rw [h1] at h; cases h⟩

theorem Coded.nop (p : Bool) : Coded.Statement (.nop p) := Coded.ofN rfl rfl rfl
theorem Coded.blk (f : BlkF) : Coded.Statement (.blk f) := by
  refine ⟨fun p h => ?_, fun op g h => by cases h⟩
  cases h
  constructor
  · simp (disch := decide) only [encodeCtl, bit_append_hi, Nat.reduceSub, bit1_get]
  · simp (disch := decide) only [encodeCtl, extract_append_hi, extract_append_lo, Nat.reduceSub, extract_all]
theorem Coded.xlit (f : Bool) (lit : BitVec 24) : Coded.Statement (.xlit f lit) := by
  refine ⟨fun p h => ?_, fun op g h => by cases h⟩
  cases h
  constructor
  · simp (disch := decide) only [encodeCtl, bit_append_hi, Nat.reduceSub, bit1_get]
  · simp (disch := decide) only [encodeCtl, extract_append_hi, extract_append_lo, Nat.reduceSub, extract_all]
theorem Coded.cut (p : Bool) : Coded.Statement (.cut p) := Coded.ofN rfl rfl rfl
theorem Coded.span (n : BitVec 32) : Coded.Statement (.span n) := Coded.ofN (p := false) rfl rfl rfl
theorem Coded.setm (f : TF) : Coded.Statement (.setm f) := Coded.ofT rfl rfl rfl
theorem Coded.setrm (f : TF) : Coded.Statement (.setrm f) := Coded.ofT rfl rfl rfl
theorem Coded.setrmMode (f : TF) : Coded.Statement (.setrmMode f) := Coded.ofT rfl rfl rfl
theorem Coded.setrmImm (f : TF) : Coded.Statement (.setrmImm f) := Coded.ofT rfl rfl rfl
theorem Coded.setlc (f : TF) : Coded.Statement (.setlc f) := Coded.ofT rfl rfl rfl
theorem Coded.setlcImm (f : TF) : Coded.Statement (.setlcImm f) := Coded.ofT rfl rfl rfl
theorem Coded.jmp (f : JF) : Coded.Statement (.jmp f) := Coded.ofJ rfl rfl rfl
theorem Coded.jtab (f : JF) : Coded.Statement (.jtab f) := Coded.ofJ rfl rfl rfl
theorem Coded.bs (f : JF) : Coded.Statement (.bs f) := Coded.ofJ rfl rfl rfl
theorem Coded.bm (f : JF) : Coded.Statement (.bm f) := Coded.ofJ rfl rfl rfl
theorem Coded.loop (f : JF) : Coded.Statement (.loop f) := Coded.ofJ rfl rfl rfl
theorem Coded.lds (f : MF) : Coded.Statement (.lds f) := Coded.ofM rfl rfl rfl
theorem Coded.sts (f : MF) : Coded.Statement (.sts f) := Coded.ofM rfl rfl rfl
theorem Coded.ldv (f : MF) : Coded.Statement (.ldv f) := Coded.ofM rfl rfl rfl
theorem Coded.stv (f : MF) : Coded.Statement (.stv f) := Coded.ofM rfl rfl rfl
theorem Coded.ldp (f : MF) : Coded.Statement (.ldp f) := Coded.ofM rfl rfl rfl
theorem Coded.stp (f : MF) : Coded.Statement (.stp f) := Coded.ofM rfl rfl rfl
theorem Coded.gath (f : TF) : Coded.Statement (.gath f) := Coded.ofT rfl rfl rfl
theorem Coded.scat (f : TF) : Coded.Statement (.scat f) := Coded.ofT rfl rfl rfl
theorem Coded.ldx (f : MF) : Coded.Statement (.ldx f) := Coded.ofM rfl rfl rfl
theorem Coded.ldreq (f : MF) : Coded.Statement (.ldreq f) := Coded.ofM rfl rfl rfl
theorem Coded.strm (f : MF) : Coded.Statement (.strm f) := Coded.ofM rfl rfl rfl
theorem Coded.strmqLeft (f : TF) : Coded.Statement (.strmqLeft f) := Coded.ofT rfl rfl rfl
theorem Coded.strmqPos (f : TF) : Coded.Statement (.strmqPos f) := Coded.ofT rfl rfl rfl
theorem Coded.strmqState (f : TF) : Coded.Statement (.strmqState f) := Coded.ofT rfl rfl rfl
theorem Coded.strmqRegs (f : TF) : Coded.Statement (.strmqRegs f) := Coded.ofT rfl rfl rfl
theorem Coded.strmx (f : TF) : Coded.Statement (.strmx f) := Coded.ofT rfl rfl rfl
theorem Coded.cpy (f : MF) : Coded.Statement (.cpy f) := Coded.ofM rfl rfl rfl
theorem Coded.tfetch (f : MF) : Coded.Statement (.tfetch f) := Coded.ofM rfl rfl rfl
theorem Coded.htest (f : TF) : Coded.Statement (.htest f) := Coded.ofT rfl rfl rfl
theorem Coded.hcancel (f : TF) : Coded.Statement (.hcancel f) := Coded.ofT rfl rfl rfl
theorem Coded.wfence (p : Bool) : Coded.Statement (.wfence p) := Coded.ofN rfl rfl rfl
theorem Coded.ldh (f : MF) : Coded.Statement (.ldh f) := Coded.ofM rfl rfl rfl
theorem Coded.sth (f : MF) : Coded.Statement (.sth f) := Coded.ofM rfl rfl rfl
theorem Coded.mma (f : TF) : Coded.Statement (.mma f) := Coded.ofT rfl rfl rfl
theorem Coded.mmas (f : TF) : Coded.Statement (.mmas f) := Coded.ofT rfl rfl rfl
theorem Coded.mzero (f : TF) : Coded.Statement (.mzero f) := Coded.ofT rfl rfl rfl
theorem Coded.mreadF32 (f : TF) : Coded.Statement (.mreadF32 f) := Coded.ofT rfl rfl rfl
theorem Coded.mreadBf16 (f : TF) : Coded.Statement (.mreadBf16 f) := Coded.ofT rfl rfl rfl
theorem Coded.mreadF16 (f : TF) : Coded.Statement (.mreadF16 f) := Coded.ofT rfl rfl rfl
theorem Coded.mreadSum (f : TF) : Coded.Statement (.mreadSum f) := Coded.ofT rfl rfl rfl
theorem Coded.mreadErr (f : TF) : Coded.Statement (.mreadErr f) := Coded.ofT rfl rfl rfl
theorem Coded.msave (f : MF) : Coded.Statement (.msave f) := Coded.ofM rfl rfl rfl
theorem Coded.mrest (f : MF) : Coded.Statement (.mrest f) := Coded.ofM rfl rfl rfl
theorem Coded.accaddF32 (f : TF) : Coded.Statement (.accaddF32 f) := Coded.ofT rfl rfl rfl
theorem Coded.accaddI32 (f : TF) : Coded.Statement (.accaddI32 f) := Coded.ofT rfl rfl rfl
theorem Coded.wload (f : MF) : Coded.Statement (.wload f) := Coded.ofM rfl rfl rfl
theorem Coded.wseed (f : TF) : Coded.Statement (.wseed f) := Coded.ofT rfl rfl rfl
theorem Coded.wseedH (f : TF) : Coded.Statement (.wseedH f) := Coded.ofT rfl rfl rfl
theorem Coded.cregRd (f : TF) : Coded.Statement (.cregRd f) := Coded.ofT rfl rfl rfl
theorem Coded.cregWr (f : TF) : Coded.Statement (.cregWr f) := Coded.ofT rfl rfl rfl
theorem Coded.seal (f : TF) : Coded.Statement (.seal f) := Coded.ofT rfl rfl rfl
theorem Coded.unseal (f : TF) : Coded.Statement (.unseal f) := Coded.ofT rfl rfl rfl
theorem Coded.hoopdrop (f : TF) : Coded.Statement (.hoopdrop f) := Coded.ofT rfl rfl rfl
theorem Coded.tlbinv (f : TF) : Coded.Statement (.tlbinv f) := Coded.ofT rfl rfl rfl
theorem Coded.keyset (f : TF) : Coded.Statement (.keyset f) := Coded.ofT rfl rfl rfl
theorem Coded.keyret (f : TF) : Coded.Statement (.keyret f) := Coded.ofT rfl rfl rfl
theorem Coded.tspawn (f : MF) : Coded.Statement (.tspawn f) := Coded.ofM rfl rfl rfl
theorem Coded.tspawnc (f : MF) : Coded.Statement (.tspawnc f) := Coded.ofM rfl rfl rfl
theorem Coded.suspend (f : TF) : Coded.Statement (.suspend f) := Coded.ofT rfl rfl rfl
theorem Coded.done (p : Bool) : Coded.Statement (.done p) := Coded.ofN rfl rfl rfl
theorem Coded.evinc (f : MF) : Coded.Statement (.evinc f) := Coded.ofM rfl rfl rfl
theorem Coded.rgrab (f : TF) : Coded.Statement (.rgrab f) := Coded.ofT rfl rfl rfl
theorem Coded.send (f : TF) : Coded.Statement (.send f) := Coded.ofT rfl rfl rfl
theorem Coded.recv (f : TF) : Coded.Statement (.recv f) := Coded.ofT rfl rfl rfl
theorem Coded.recvPoll (f : TF) : Coded.Statement (.recvPoll f) := Coded.ofT rfl rfl rfl
theorem Coded.fatomAdd (f : MF) : Coded.Statement (.fatomAdd f) := Coded.ofM rfl rfl rfl
theorem Coded.fatomMin (f : MF) : Coded.Statement (.fatomMin f) := Coded.ofM rfl rfl rfl
theorem Coded.fatomMax (f : MF) : Coded.Statement (.fatomMax f) := Coded.ofM rfl rfl rfl
theorem Coded.fatomSwap (f : MF) : Coded.Statement (.fatomSwap f) := Coded.ofM rfl rfl rfl
theorem Coded.fatomCas (f : MF) : Coded.Statement (.fatomCas f) := Coded.ofM rfl rfl rfl
theorem Coded.fatomAnd (f : MF) : Coded.Statement (.fatomAnd f) := Coded.ofM rfl rfl rfl
theorem Coded.fatomOr (f : MF) : Coded.Statement (.fatomOr f) := Coded.ofM rfl rfl rfl
theorem Coded.cbr (f : JF) : Coded.Statement (.cbr f) := Coded.ofJ rfl rfl rfl
theorem Coded.hoopj (f : TF) : Coded.Statement (.hoopj f) := Coded.ofT rfl rfl rfl
theorem Coded.hoopqRes (f : TF) : Coded.Statement (.hoopqRes f) := Coded.ofT rfl rfl rfl
theorem Coded.hoopqEpoch (f : TF) : Coded.Statement (.hoopqEpoch f) := Coded.ofT rfl rfl rfl
theorem Coded.hoopqArr (f : TF) : Coded.Statement (.hoopqArr f) := Coded.ofT rfl rfl rfl
theorem Coded.hoopqState (f : TF) : Coded.Statement (.hoopqState f) := Coded.ofT rfl rfl rfl
theorem Coded.hoopqReply (core : Nat) (value : Word64) : Coded.Statement (.hoopqReply core value) := Coded.ofEvent rfl rfl
theorem Coded.shut (p : Bool) : Coded.Statement (.shut p) := Coded.ofN rfl rfl rfl
theorem Coded.shutv (f : TF) : Coded.Statement (.shutv f) := Coded.ofT rfl rfl rfl
theorem Coded.trap (f : TF) : Coded.Statement (.trap f) := Coded.ofT rfl rfl rfl
theorem Coded.addI (f : Arith) : Coded.Statement (.addI f) := Coded.ofArith rfl rfl
theorem Coded.subI (f : Arith) : Coded.Statement (.subI f) := Coded.ofArith rfl rfl
theorem Coded.adds (f : Arith) : Coded.Statement (.adds f) := Coded.ofArith rfl rfl
theorem Coded.subs (f : Arith) : Coded.Statement (.subs f) := Coded.ofArith rfl rfl
theorem Coded.mulI (f : Arith) : Coded.Statement (.mulI f) := Coded.ofArith rfl rfl
theorem Coded.mulh (f : Arith) : Coded.Statement (.mulh f) := Coded.ofArith rfl rfl
theorem Coded.div (f : Arith) : Coded.Statement (.div f) := Coded.ofArith rfl rfl
theorem Coded.rem (f : Arith) : Coded.Statement (.rem f) := Coded.ofArith rfl rfl
theorem Coded.and (f : Arith) : Coded.Statement (.and f) := Coded.ofArith rfl rfl
theorem Coded.or (f : Arith) : Coded.Statement (.or f) := Coded.ofArith rfl rfl
theorem Coded.xor (f : Arith) : Coded.Statement (.xor f) := Coded.ofArith rfl rfl
theorem Coded.andn (f : Arith) : Coded.Statement (.andn f) := Coded.ofArith rfl rfl
theorem Coded.shl (f : Arith) : Coded.Statement (.shl f) := Coded.ofArith rfl rfl
theorem Coded.shr (f : Arith) : Coded.Statement (.shr f) := Coded.ofArith rfl rfl
theorem Coded.sra (f : Arith) : Coded.Statement (.sra f) := Coded.ofArith rfl rfl
theorem Coded.rsh (f : Arith) : Coded.Statement (.rsh f) := Coded.ofArith rfl rfl
theorem Coded.minI (f : Arith) : Coded.Statement (.minI f) := Coded.ofArith rfl rfl
theorem Coded.maxI (f : Arith) : Coded.Statement (.maxI f) := Coded.ofArith rfl rfl
theorem Coded.absI (f : Arith) : Coded.Statement (.absI f) := Coded.ofArith rfl rfl
theorem Coded.negI (f : Arith) : Coded.Statement (.negI f) := Coded.ofArith rfl rfl
theorem Coded.clz (f : Arith) : Coded.Statement (.clz f) := Coded.ofArith rfl rfl
theorem Coded.popc (f : Arith) : Coded.Statement (.popc f) := Coded.ofArith rfl rfl
theorem Coded.madd (f : Arith) : Coded.Statement (.madd f) := Coded.ofArith rfl rfl
theorem Coded.ceqI (f : Arith) : Coded.Statement (.ceqI f) := Coded.ofArith rfl rfl
theorem Coded.cneI (f : Arith) : Coded.Statement (.cneI f) := Coded.ofArith rfl rfl
theorem Coded.cltI (f : Arith) : Coded.Statement (.cltI f) := Coded.ofArith rfl rfl
theorem Coded.cleI (f : Arith) : Coded.Statement (.cleI f) := Coded.ofArith rfl rfl
theorem Coded.ceqF (f : Arith) : Coded.Statement (.ceqF f) := Coded.ofArith rfl rfl
theorem Coded.cneF (f : Arith) : Coded.Statement (.cneF f) := Coded.ofArith rfl rfl
theorem Coded.cltF (f : Arith) : Coded.Statement (.cltF f) := Coded.ofArith rfl rfl
theorem Coded.cleF (f : Arith) : Coded.Statement (.cleF f) := Coded.ofArith rfl rfl
theorem Coded.mov (f : Arith) : Coded.Statement (.mov f) := Coded.ofArith rfl rfl
theorem Coded.sel (f : Arith) : Coded.Statement (.sel f) := Coded.ofArith rfl rfl
theorem Coded.mand (f : Arith) : Coded.Statement (.mand f) := Coded.ofArith rfl rfl
theorem Coded.mor (f : Arith) : Coded.Statement (.mor f) := Coded.ofArith rfl rfl
theorem Coded.mxor (f : Arith) : Coded.Statement (.mxor f) := Coded.ofArith rfl rfl
theorem Coded.mnot (f : Arith) : Coded.Statement (.mnot f) := Coded.ofArith rfl rfl
theorem Coded.mpop (f : Arith) : Coded.Statement (.mpop f) := Coded.ofArith rfl rfl
theorem Coded.mfirst (f : Arith) : Coded.Statement (.mfirst f) := Coded.ofArith rfl rfl
theorem Coded.addF (f : Arith) : Coded.Statement (.addF f) := Coded.ofArith rfl rfl
theorem Coded.subF (f : Arith) : Coded.Statement (.subF f) := Coded.ofArith rfl rfl
theorem Coded.mulF (f : Arith) : Coded.Statement (.mulF f) := Coded.ofArith rfl rfl
theorem Coded.fma (f : Arith) : Coded.Statement (.fma f) := Coded.ofArith rfl rfl
theorem Coded.fnma (f : Arith) : Coded.Statement (.fnma f) := Coded.ofArith rfl rfl
theorem Coded.minF (f : Arith) : Coded.Statement (.minF f) := Coded.ofArith rfl rfl
theorem Coded.maxF (f : Arith) : Coded.Statement (.maxF f) := Coded.ofArith rfl rfl
theorem Coded.absF (f : Arith) : Coded.Statement (.absF f) := Coded.ofArith rfl rfl
theorem Coded.negF (f : Arith) : Coded.Statement (.negF f) := Coded.ofArith rfl rfl
theorem Coded.exp2 (f : Arith) : Coded.Statement (.exp2 f) := Coded.ofArith rfl rfl
theorem Coded.log2 (f : Arith) : Coded.Statement (.log2 f) := Coded.ofArith rfl rfl
theorem Coded.rcp (f : Arith) : Coded.Statement (.rcp f) := Coded.ofArith rfl rfl
theorem Coded.rsqrt (f : Arith) : Coded.Statement (.rsqrt f) := Coded.ofArith rfl rfl
theorem Coded.cvti (f : Arith) : Coded.Statement (.cvti f) := Coded.ofArith rfl rfl
theorem Coded.cvtf (f : Arith) : Coded.Statement (.cvtf f) := Coded.ofArith rfl rfl
theorem Coded.packi (f : Arith) : Coded.Statement (.packi f) := Coded.ofArith rfl rfl
theorem Coded.packf (f : Arith) : Coded.Statement (.packf f) := Coded.ofArith rfl rfl
theorem Coded.widenI (f : Arith) : Coded.Statement (.widenI f) := Coded.ofArith rfl rfl
theorem Coded.widenF (f : Arith) : Coded.Statement (.widenF f) := Coded.ofArith rfl rfl
theorem Coded.perm (f : Arith) : Coded.Statement (.perm f) := Coded.ofArith rfl rfl
theorem Coded.slup (f : Arith) : Coded.Statement (.slup f) := Coded.ofArith rfl rfl
theorem Coded.sldn (f : Arith) : Coded.Statement (.sldn f) := Coded.ofArith rfl rfl
theorem Coded.zip (f : Arith) : Coded.Statement (.zip f) := Coded.ofArith rfl rfl
theorem Coded.unzip (f : Arith) : Coded.Statement (.unzip f) := Coded.ofArith rfl rfl
theorem Coded.bcast (f : Arith) : Coded.Statement (.bcast f) := Coded.ofArith rfl rfl
theorem Coded.comp (f : Arith) : Coded.Statement (.comp f) := Coded.ofArith rfl rfl
theorem Coded.rsumI (f : Arith) : Coded.Statement (.rsumI f) := Coded.ofArith rfl rfl
theorem Coded.rsumF (f : Arith) : Coded.Statement (.rsumF f) := Coded.ofArith rfl rfl
theorem Coded.rmaxI (f : Arith) : Coded.Statement (.rmaxI f) := Coded.ofArith rfl rfl
theorem Coded.rmaxF (f : Arith) : Coded.Statement (.rmaxF f) := Coded.ofArith rfl rfl
theorem Coded.rminI (f : Arith) : Coded.Statement (.rminI f) := Coded.ofArith rfl rfl
theorem Coded.rminF (f : Arith) : Coded.Statement (.rminF f) := Coded.ofArith rfl rfl
theorem Coded.scanI (f : Arith) : Coded.Statement (.scanI f) := Coded.ofArith rfl rfl
theorem Coded.scanF (f : Arith) : Coded.Statement (.scanF f) := Coded.ofArith rfl rfl
theorem Coded.dot4 (f : Arith) : Coded.Statement (.dot4 f) := Coded.ofArith rfl rfl
theorem Coded.tsel (f : Arith) : Coded.Statement (.tsel f) := Coded.ofArith rfl rfl
theorem Coded.pmerge (f : Arith) : Coded.Statement (.pmerge f) := Coded.ofArith rfl rfl
theorem Coded.qrnd (f : Arith) : Coded.Statement (.qrnd f) := Coded.ofArith rfl rfl
theorem Coded.vectorArbitration (cell : Nat) : Coded.Statement (.vectorArbitration cell) := Coded.ofEvent rfl rfl
theorem Coded.vectorOpComplete (core : Nat) : Coded.Statement (.vectorOpComplete core) := Coded.ofEvent rfl rfl
theorem Coded.matrixOpPerform (cell : Nat) : Coded.Statement (.matrixOpPerform cell) := Coded.ofEvent rfl rfl
theorem Coded.weaveWindowLoad (core : Nat) : Coded.Statement (.weaveWindowLoad core) := Coded.ofEvent rfl rfl
theorem Coded.walkComplete (cluster : Nat) (walk : Nat) : Coded.Statement (.walkComplete cluster walk) := Coded.ofEvent rfl rfl
theorem Coded.forwardedAccess (r : FwdReq) : Coded.Statement (.forwardedAccess r) := Coded.ofEvent rfl rfl
theorem Coded.forwardedReply (core : Nat) (line : Nat) (data : CipherLine) (poison : Bool) : Coded.Statement (.forwardedReply core line data poison) := Coded.ofEvent rfl rfl
theorem Coded.ldreqReply (core : Nat) (id : Nat) : Coded.Statement (.ldreqReply core id) := Coded.ofEvent rfl rfl
theorem Coded.migrationInterval : Coded.Statement .migrationInterval := Coded.ofEvent rfl rfl
theorem Coded.migration (m : PageMove) : Coded.Statement (.migration m) := Coded.ofEvent rfl rfl
theorem Coded.retargetRequest (r : Retarget) : Coded.Statement (.retargetRequest r) := Coded.ofEvent rfl rfl
theorem Coded.keyRetireComplete (kid : Nat) : Coded.Statement (.keyRetireComplete kid) := Coded.ofEvent rfl rfl
theorem Coded.hostSnoop (hpa : Nat) : Coded.Statement (.hostSnoop hpa) := Coded.ofEvent rfl rfl
theorem Coded.carveoutInterval (cell : Nat) : Coded.Statement (.carveoutInterval cell) := Coded.ofEvent rfl rfl
theorem Coded.quadRoleChange (cell : Nat) (quad : Nat) : Coded.Statement (.quadRoleChange cell quad) := Coded.ofEvent rfl rfl
theorem Coded.copyStart (cluster : Nat) : Coded.Statement (.copyStart cluster) := Coded.ofEvent rfl rfl
theorem Coded.copyComplete (cluster : Nat) (seq : Nat) : Coded.Statement (.copyComplete cluster seq) := Coded.ofEvent rfl rfl
theorem Coded.tileFetchComplete (core : Nat) (slot : Nat) : Coded.Statement (.tileFetchComplete core slot) := Coded.ofEvent rfl rfl
theorem Coded.streamPrefetchArrival (core : Nat) (q : Nat) : Coded.Statement (.streamPrefetchArrival core q) := Coded.ofEvent rfl rfl
theorem Coded.taskStart (core : Nat) : Coded.Statement (.taskStart core) := Coded.ofEvent rfl rfl
theorem Coded.contextSave (core : Nat) : Coded.Statement (.contextSave core) := Coded.ofEvent rfl rfl
theorem Coded.contextResume (core : Nat) : Coded.Statement (.contextResume core) := Coded.ofEvent rfl rfl
theorem Coded.chunkTargetReached (core : Nat) : Coded.Statement (.chunkTargetReached core) := Coded.ofEvent rfl rfl
theorem Coded.chunkLimitReached (core : Nat) : Coded.Statement (.chunkLimitReached core) := Coded.ofEvent rfl rfl
theorem Coded.replayChunkCut (core : Nat) : Coded.Statement (.replayChunkCut core) := Coded.ofEvent rfl rfl
theorem Coded.commitRequest (core : Nat) : Coded.Statement (.commitRequest core) := Coded.ofEvent rfl rfl
theorem Coded.clusterLatchOffer (cluster : Nat) : Coded.Statement (.clusterLatchOffer cluster) := Coded.ofEvent rfl rfl
theorem Coded.dieLatchOffer (die : Nat) : Coded.Statement (.dieLatchOffer die) := Coded.ofEvent rfl rfl
theorem Coded.packageLatchGrant : Coded.Statement .packageLatchGrant := Coded.ofEvent rfl rfl
theorem Coded.farAtomicReply (r : AtomicReply) : Coded.Statement (.farAtomicReply r) := Coded.ofEvent rfl rfl
theorem Coded.remoteAtomicRelease (core : Nat) : Coded.Statement (.remoteAtomicRelease core) := Coded.ofEvent rfl rfl
theorem Coded.combineHoldExpiry : Coded.Statement .combineHoldExpiry := Coded.ofEvent rfl rfl
theorem Coded.injectionSend (cell : Nat) : Coded.Statement (.injectionSend cell) := Coded.ofEvent rfl rfl
theorem Coded.messageArrival (m : Msg) : Coded.Statement (.messageArrival m) := Coded.ofEvent rfl rfl
theorem Coded.hostMemWrite (hpa : Nat) (data : List Byte) : Coded.Statement (.hostMemWrite hpa data) := Coded.ofEvent rfl rfl
theorem Coded.hostMemRead (hpa : Nat) (len : Nat) : Coded.Statement (.hostMemRead hpa len) := Coded.ofEvent rfl rfl
theorem Coded.windowPartArrival (p : Part) : Coded.Statement (.windowPartArrival p) := Coded.ofEvent rfl rfl
theorem Coded.windowBatchRequest (win : Nat) : Coded.Statement (.windowBatchRequest win) := Coded.ofEvent rfl rfl
theorem Coded.wfenceResume (core : Nat) : Coded.Statement (.wfenceResume core) := Coded.ofEvent rfl rfl
theorem Coded.hoopJoinArrival (j : Join) : Coded.Statement (.hoopJoinArrival j) := Coded.ofEvent rfl rfl
theorem Coded.voteArrival (v : Vote) : Coded.Statement (.voteArrival v) := Coded.ofEvent rfl rfl
theorem Coded.hoopRoundTimeout (slot : Nat) : Coded.Statement (.hoopRoundTimeout slot) := Coded.ofEvent rfl rfl
theorem Coded.hoopdropArrival (d : Drop) : Coded.Statement (.hoopdropArrival d) := Coded.ofEvent rfl rfl
theorem Coded.voteResultArrival (core : Nat) (tag : Nat) (word : Word64) : Coded.Statement (.voteResultArrival core tag word) := Coded.ofEvent rfl rfl
theorem Coded.shutterClose (gang : Nat) : Coded.Statement (.shutterClose gang) := Coded.ofEvent rfl rfl
theorem Coded.shutterReopen (gang : Nat) : Coded.Statement (.shutterReopen gang) := Coded.ofEvent rfl rfl
theorem Coded.launchRecord (ring : Nat) : Coded.Statement (.launchRecord ring) := Coded.ofEvent rfl rfl
theorem Coded.taskPlacement (cluster : Nat) : Coded.Statement (.taskPlacement cluster) := Coded.ofEvent rfl rfl
theorem Coded.spillReturn (cluster : Nat) : Coded.Statement (.spillReturn cluster) := Coded.ofEvent rfl rfl
theorem Coded.gangReservationExpiry (cluster : Nat) : Coded.Statement (.gangReservationExpiry cluster) := Coded.ofEvent rfl rfl
theorem Coded.stealAttempt (cluster : Nat) : Coded.Statement (.stealAttempt cluster) := Coded.ofEvent rfl rfl
theorem Coded.sliceExpiry (core : Nat) : Coded.Statement (.sliceExpiry core) := Coded.ofEvent rfl rfl
theorem Coded.entryUrgent (cluster : Nat) (entry : Nat) : Coded.Statement (.entryUrgent cluster entry) := Coded.ofEvent rfl rfl
theorem Coded.faultDelivery (core : Nat) : Coded.Statement (.faultDelivery core) := Coded.ofEvent rfl rfl
theorem Coded.faultHoldExpiry (core : Nat) : Coded.Statement (.faultHoldExpiry core) := Coded.ofEvent rfl rfl
theorem Coded.detectedError (e : ErrReport) : Coded.Statement (.detectedError e) := Coded.ofEvent rfl rfl
theorem Coded.cellSeal (ppath : BitVec 15) : Coded.Statement (.cellSeal ppath) := Coded.ofEvent rfl rfl
theorem Coded.clusterSwapCopy (die : Nat) : Coded.Statement (.clusterSwapCopy die) := Coded.ofEvent rfl rfl
theorem Coded.clusterSwapResume : Coded.Statement .clusterSwapResume := Coded.ofEvent rfl rfl
theorem Coded.predictiveCounterCheck : Coded.Statement .predictiveCounterCheck := Coded.ofEvent rfl rfl
theorem Coded.laneRetrainDone (port : Nat) : Coded.Statement (.laneRetrainDone port) := Coded.ofEvent rfl rfl
theorem Coded.flitReceive (port : Nat) (flit : BitVec 2176) : Coded.Statement (.flitReceive port flit) := Coded.ofEvent rfl rfl
theorem Coded.repairRequestReceive (port : Nat) (seq : BitVec 16) (round : Nat) : Coded.Statement (.repairRequestReceive port seq round) := Coded.ofEvent rfl rfl
theorem Coded.repairParityReceive (port : Nat) (seq : BitVec 16) (round : Nat) (parity : BitVec 128) (good : Bool) : Coded.Statement (.repairParityReceive port seq round parity good) := Coded.ofEvent rfl rfl
theorem Coded.retransmitRequestReceive (port : Nat) (seq : BitVec 16) : Coded.Statement (.retransmitRequestReceive port seq) := Coded.ofEvent rfl rfl
theorem Coded.timingMessage (m : TimingMsg) : Coded.Statement (.timingMessage m) := Coded.ofEvent rfl rfl
theorem Coded.clockTimeout : Coded.Statement .clockTimeout := Coded.ofEvent rfl rfl
theorem Coded.launchRingDoorbell (ring : Nat) (tail : BitVec 32) : Coded.Statement (.launchRingDoorbell ring tail) := Coded.ofEvent rfl rfl
theorem Coded.launchRingEnable (ring : Nat) (word : Word64) : Coded.Statement (.launchRingEnable ring word) := Coded.ofEvent rfl rfl
theorem Coded.launchRingErrClear (ring : Nat) : Coded.Statement (.launchRingErrClear ring) := Coded.ofEvent rfl rfl
theorem Coded.rdmaEntryPerform (qp : Nat) : Coded.Statement (.rdmaEntryPerform qp) := Coded.ofEvent rfl rfl
theorem Coded.rdmaEntryComplete (qp : Nat) (code : BitVec 7) : Coded.Statement (.rdmaEntryComplete qp code) := Coded.ofEvent rfl rfl
theorem Coded.rdmaIncoming (r : RdmaIn) : Coded.Statement (.rdmaIncoming r) := Coded.ofEvent rfl rfl
theorem Coded.logModeWrite (word : Word64) : Coded.Statement (.logModeWrite word) := Coded.ofEvent rfl rfl
theorem Coded.logptrWrite (word : Word64) : Coded.Statement (.logptrWrite word) := Coded.ofEvent rfl rfl
theorem Coded.logDivClear : Coded.Statement .logDivClear := Coded.ofEvent rfl rfl
theorem Coded.fbstatOvfClear : Coded.Statement .fbstatOvfClear := Coded.ofEvent rfl rfl
theorem Coded.pkgnumWrite (n : BitVec 10) : Coded.Statement (.pkgnumWrite n) := Coded.ofEvent rfl rfl
theorem Coded.winlenWrite (v : Word64) : Coded.Statement (.winlenWrite v) := Coded.ofEvent rfl rfl
theorem Coded.selfTestRequest (word : Word64) : Coded.Statement (.selfTestRequest word) := Coded.ofEvent rfl rfl
theorem Coded.selfTestStart : Coded.Statement .selfTestStart := Coded.ofEvent rfl rfl
theorem Coded.selfTestComplete : Coded.Statement .selfTestComplete := Coded.ofEvent rfl rfl
theorem Coded.standbyRequest : Coded.Statement .standbyRequest := Coded.ofEvent rfl rfl
theorem Coded.standbyEntry : Coded.Statement .standbyEntry := Coded.ofEvent rfl rfl
theorem Coded.runRequest : Coded.Statement .runRequest := Coded.ofEvent rfl rfl
theorem Coded.powerCheck : Coded.Statement .powerCheck := Coded.ofEvent rfl rfl
theorem Coded.firmwareUpdate (image : List Byte) : Coded.Statement (.firmwareUpdate image) := Coded.ofEvent rfl rfl
theorem Coded.registerWrite (reg : Nat) (word : Word64) : Coded.Statement (.registerWrite reg word) := Coded.ofEvent rfl rfl
theorem Coded.coldReset : Coded.Statement .coldReset := Coded.ofEvent rfl rfl
theorem Coded.loadDataArrival (core : Nat) (id : Nat) : Coded.Statement (.loadDataArrival core id) := Coded.ofEvent rfl rfl
theorem Coded.streamPushDrain (core : Nat) (q : Nat) : Coded.Statement (.streamPushDrain core q) := Coded.ofEvent rfl rfl
theorem Coded.tlbInvalidationComplete (job : Nat) : Coded.Statement (.tlbInvalidationComplete job) := Coded.ofEvent rfl rfl
theorem Coded.granuleCopyComplete : Coded.Statement .granuleCopyComplete := Coded.ofEvent rfl rfl
theorem Coded.backInvalidateSnoopResponse (line : Nat) : Coded.Statement (.backInvalidateSnoopResponse line) := Coded.ofEvent rfl rfl
theorem Coded.illegalEncoding (w : BitVec 64) : Coded.Statement (.illegalEncoding w) := Coded.ofEvent rfl rfl

end Sys2Proof.Laws
end

