-- ==== Sys2Proof/Tests/Slice0.lean ====
section
/-!
SUPPORT. Tests of the model: words laid out from the encoding tables of the spec and its worked examples, ill-formed terms that
the checks refuse, effects of single instructions worked out by hand from the rules, and for the statements with hypotheses
a state and operands that meet them.
-/
namespace Sys2Proof.Tests
set_option Elab.async false
open Sys2Proof.Machine Sys2Proof.Claims

/-! ## States -/

/-- Whether an effect comes to its end. -/
def good {α : Type} : Except Stop α → Bool
  | .ok _ => true
  | .error _ => false

theorem good_iff {α : Type} (x : Except Stop α) (h : good x = true) : ∃ a, x = .ok a := by
  cases x with
  | ok a => exact ⟨a, rfl⟩
  | error e => cases h

/-- The supervisor core of die 0 at a bundle. -/
def sup : State := beginBundle firstSup (State.reset.placeWord 0)

/-- A task of the job with key ID 1. -/
def task1 : Task :=
  { id := 1, kid := 1, words := 0, addr := 0x8000, save := 0x10000, stkBase := 0, stkLim := 0, tile := 0, launch := 1,
    regCluster := 0, s0 := 0, contSave := none, handlerOf := none, gang := none, member := 0, resume := false,
    firmware := false, started := true, entryAt := none, atClosure := false, lastPart := none }

/-- A page of two megabytes at address 0. -/
def page1 : TlbEntry :=
  { kid := 1, va := 0, size := 2 ^ 21, tgt := 0, owner := 0, frame := 0, w := true, x := true, sup := false, dirty := true }

/-- A core that runs `task1` with the given registers. -/
def userWith (r : Regs) : State :=
  { (State.reset.setCore 0 { Core.reset with task := some task1, regs := r, src := r }) with
    clusters := [(0, { Cluster.reset with tlb := [page1] })], keys := [(1, (.installed, 5))] }

/-- Such a core with registers as at a fresh start. -/
def user : State := userWith Regs.reset

/-! ## Words, each laid out by its fields (R131, R134, R139, R141, R143, R288) -/

/-- A lone control word with its word 1, as a bundle. -/
abbrev Lone := Word64 × Instr

/-- Whether a word decodes to a bundle. -/
def decodesTo (w : Word64) (b : Bundle) : Bool := match decode w with
  | .ok x => decide (x = b)
  | .error _ => false

/-- Whether a word is refused with a fault. -/
def refusedWith (w : Word64) (c : Code) : Bool := match decode w with
  | .ok _ => false
  | .error x => x == c

/-- Control words, part 1. -/
def controlWords1 : List Lone :=
  [(0#32 ++ 0#1 ++ 0x00#6 ++ 0#25, .nop false),
   (0#32 ++ 0#1 ++ 0x03#6 ++ 0#25, .cut false),
   (0x0#32 ++ 0#1 ++ 0x05#6 ++ 5#5 ++ 0#5 ++ 0#5 ++ 0#1 ++ 0#1 ++ 0#1 ++ 0#7, .setm ⟨false, 5, 0, 0, false, false, false, 0, 0x0⟩),
   (0x0#32 ++ 0#1 ++ 0x06#6 ++ 0#5 ++ 3#5 ++ 0#5 ++ 0#1 ++ 1#1 ++ 0#1 ++ 0#7, .setrm ⟨false, 0, 3, 0, false, true, false, 0, 0x0⟩),
   (0x0#32 ++ 0#1 ++ 0x06#6 ++ 0#5 ++ 6#5 ++ 0#5 ++ 0#1 ++ 0#1 ++ 0#1 ++ 1#7, .setrmMode ⟨false, 0, 6, 0, false, false, false, 1, 0x0⟩),
   (0x0#32 ++ 0#1 ++ 0x07#6 ++ 1#5 ++ 3#5 ++ 0#5 ++ 0#1 ++ 1#1 ++ 0#1 ++ 0#7, .setlc ⟨false, 1, 3, 0, false, true, false, 0, 0x0⟩),
   (0x40#32 ++ 0#1 ++ 0x10#6 ++ 2#5 ++ 7#5 ++ 0#1 ++ 1#1 ++ 3#3 ++ 0#10, .lds ⟨false, 2, 7, false, true, 3, 0, 0x40⟩),
   (0x40#32 ++ 0#1 ++ 0x11#6 ++ 2#5 ++ 7#5 ++ 1#1 ++ 1#1 ++ 3#3 ++ 0#10, .sts ⟨false, 2, 7, true, true, 3, 0, 0x40⟩),
   (0x40#32 ++ 0#1 ++ 0x12#6 ++ 2#5 ++ 7#5 ++ 0#1 ++ 1#1 ++ 3#3 ++ 0#10, .ldv ⟨false, 2, 7, false, true, 3, 0, 0x40⟩),
   (0x40#32 ++ 0#1 ++ 0x13#6 ++ 2#5 ++ 7#5 ++ 1#1 ++ 1#1 ++ 3#3 ++ 0#10, .stv ⟨false, 2, 7, true, true, 3, 0, 0x40⟩),
   (0x40#32 ++ 0#1 ++ 0x14#6 ++ 2#5 ++ 7#5 ++ 0#1 ++ 1#1 ++ 0#3 ++ 0#10, .ldp ⟨false, 2, 7, false, true, 0, 0, 0x40⟩),
   (0x40#32 ++ 0#1 ++ 0x15#6 ++ 2#5 ++ 7#5 ++ 1#1 ++ 1#1 ++ 0#3 ++ 0#10, .stp ⟨false, 2, 7, true, true, 0, 0, 0x40⟩),
   (0x0#32 ++ 0#1 ++ 0x16#6 ++ 2#5 ++ 3#5 ++ 20#5 ++ 0#1 ++ 1#1 ++ 1#1 ++ 6#7, .gath ⟨false, 2, 3, 20, false, true, true, 6, 0x0⟩),
   (0x0#32 ++ 0#1 ++ 0x17#6 ++ 2#5 ++ 3#5 ++ 20#5 ++ 1#1 ++ 1#1 ++ 1#1 ++ 6#7, .scat ⟨false, 2, 3, 20, true, true, true, 6, 0x0⟩),
   (0x40#32 ++ 0#1 ++ 0x18#6 ++ 2#5 ++ 7#5 ++ 0#1 ++ 1#1 ++ 3#3 ++ 0#10, .ldx ⟨false, 2, 7, false, true, 3, 0, 0x40⟩),
   (0x40#32 ++ 0#1 ++ 0x19#6 ++ 2#5 ++ 7#5 ++ 0#1 ++ 1#1 ++ 3#3 ++ 0#10, .ldreq ⟨false, 2, 7, false, true, 3, 0, 0x40⟩),
   (0x40#32 ++ 0#1 ++ 0x1A#6 ++ 26#5 ++ 7#5 ++ 0#1 ++ 1#1 ++ 0#3 ++ 0#10, .strm ⟨false, 26, 7, false, true, 0, 0, 0x40⟩),
   (0x0#32 ++ 0#1 ++ 0x1B#6 ++ 2#5 ++ 25#5 ++ 0#5 ++ 0#1 ++ 0#1 ++ 0#1 ++ 0#7, .strmqLeft ⟨false, 2, 25, 0, false, false, false, 0, 0x0⟩),
   (0x0#32 ++ 0#1 ++ 0x1B#6 ++ 2#5 ++ 25#5 ++ 0#5 ++ 0#1 ++ 0#1 ++ 0#1 ++ 1#7, .strmqPos ⟨false, 2, 25, 0, false, false, false, 1, 0x0⟩),
   (0x0#32 ++ 0#1 ++ 0x1B#6 ++ 2#5 ++ 25#5 ++ 0#5 ++ 0#1 ++ 0#1 ++ 0#1 ++ 2#7, .strmqState ⟨false, 2, 25, 0, false, false, false, 2, 0x0⟩),
   (0x0#32 ++ 0#1 ++ 0x1B#6 ++ 2#5 ++ 25#5 ++ 0#5 ++ 0#1 ++ 0#1 ++ 0#1 ++ 3#7, .strmqRegs ⟨false, 2, 25, 0, false, false, false, 3, 0x0⟩),
   (0x0#32 ++ 0#1 ++ 0x1C#6 ++ 0#5 ++ 25#5 ++ 0#5 ++ 0#1 ++ 0#1 ++ 0#1 ++ 0#7, .strmx ⟨false, 0, 25, 0, false, false, false, 0, 0x0⟩)]

theorem test_controlWords1 : (controlWords1.all fun p => decodesTo p.1 ⟨p.2, none⟩) = true := by decide +kernel

/-- Control words, part 2. -/
def controlWords2 : List Lone :=
  [(0x40#32 ++ 0#1 ++ 0x1D#6 ++ 2#5 ++ 7#5 ++ 0#1 ++ 1#1 ++ 0#3 ++ 0#10, .cpy ⟨false, 2, 7, false, true, 0, 0, 0x40⟩),
   (0x40#32 ++ 0#1 ++ 0x1E#6 ++ 2#5 ++ 7#5 ++ 1#1 ++ 1#1 ++ 3#3 ++ 0#10, .tfetch ⟨false, 2, 7, true, true, 3, 0, 0x40⟩),
   (0x0#32 ++ 0#1 ++ 0x1F#6 ++ 2#5 ++ 3#5 ++ 0#5 ++ 0#1 ++ 0#1 ++ 0#1 ++ 0#7, .htest ⟨false, 2, 3, 0, false, false, false, 0, 0x0⟩),
   (0x0#32 ++ 0#1 ++ 0x20#6 ++ 0#5 ++ 3#5 ++ 0#5 ++ 0#1 ++ 0#1 ++ 0#1 ++ 0#7, .hcancel ⟨false, 0, 3, 0, false, false, false, 0, 0x0⟩),
   (0#32 ++ 0#1 ++ 0x21#6 ++ 0#25, .wfence false),
   (0x40#32 ++ 0#1 ++ 0x22#6 ++ 2#5 ++ 7#5 ++ 0#1 ++ 1#1 ++ 0#3 ++ 0#10, .ldh ⟨false, 2, 7, false, true, 0, 0, 0x40⟩),
   (0x40#32 ++ 0#1 ++ 0x23#6 ++ 2#5 ++ 7#5 ++ 0#1 ++ 1#1 ++ 0#3 ++ 0#10, .sth ⟨false, 2, 7, false, true, 0, 0, 0x40⟩),
   (0x0#32 ++ 0#1 ++ 0x24#6 ++ 2#5 ++ 3#5 ++ 20#5 ++ 1#1 ++ 1#1 ++ 1#1 ++ 6#7, .mma ⟨false, 2, 3, 20, true, true, true, 6, 0x0⟩),
   (0x0#32 ++ 0#1 ++ 0x25#6 ++ 2#5 ++ 3#5 ++ 20#5 ++ 1#1 ++ 1#1 ++ 1#1 ++ 6#7, .mmas ⟨false, 2, 3, 20, true, true, true, 6, 0x0⟩),
   (0x0#32 ++ 0#1 ++ 0x26#6 ++ 2#5 ++ 0#5 ++ 0#5 ++ 0#1 ++ 0#1 ++ 0#1 ++ 0#7, .mzero ⟨false, 2, 0, 0, false, false, false, 0, 0x0⟩),
   (0x0#32 ++ 0#1 ++ 0x27#6 ++ 4#5 ++ 3#5 ++ 0#5 ++ 0#1 ++ 0#1 ++ 0#1 ++ 0#7, .mreadF32 ⟨false, 4, 3, 0, false, false, false, 0, 0x0⟩),
   (0x0#32 ++ 0#1 ++ 0x27#6 ++ 2#5 ++ 3#5 ++ 0#5 ++ 0#1 ++ 0#1 ++ 0#1 ++ 1#7, .mreadBf16 ⟨false, 2, 3, 0, false, false, false, 1, 0x0⟩),
   (0x0#32 ++ 0#1 ++ 0x27#6 ++ 2#5 ++ 3#5 ++ 0#5 ++ 0#1 ++ 0#1 ++ 0#1 ++ 2#7, .mreadF16 ⟨false, 2, 3, 0, false, false, false, 2, 0x0⟩),
   (0x0#32 ++ 0#1 ++ 0x27#6 ++ 2#5 ++ 3#5 ++ 0#5 ++ 0#1 ++ 0#1 ++ 0#1 ++ 3#7, .mreadSum ⟨false, 2, 3, 0, false, false, false, 3, 0x0⟩),
   (0x0#32 ++ 0#1 ++ 0x27#6 ++ 2#5 ++ 3#5 ++ 0#5 ++ 0#1 ++ 0#1 ++ 0#1 ++ 4#7, .mreadErr ⟨false, 2, 3, 0, false, false, false, 4, 0x0⟩),
   (0x40#32 ++ 0#1 ++ 0x28#6 ++ 2#5 ++ 7#5 ++ 0#1 ++ 1#1 ++ 0#3 ++ 0#10, .msave ⟨false, 2, 7, false, true, 0, 0, 0x40⟩),
   (0x40#32 ++ 0#1 ++ 0x29#6 ++ 2#5 ++ 7#5 ++ 0#1 ++ 1#1 ++ 0#3 ++ 0#10, .mrest ⟨false, 2, 7, false, true, 0, 0, 0x40⟩),
   (0x0#32 ++ 0#1 ++ 0x2A#6 ++ 2#5 ++ 3#5 ++ 0#5 ++ 0#1 ++ 0#1 ++ 0#1 ++ 0#7, .accaddF32 ⟨false, 2, 3, 0, false, false, false, 0, 0x0⟩),
   (0x0#32 ++ 0#1 ++ 0x2A#6 ++ 2#5 ++ 3#5 ++ 0#5 ++ 0#1 ++ 0#1 ++ 0#1 ++ 1#7, .accaddI32 ⟨false, 2, 3, 0, false, false, false, 1, 0x0⟩),
   (0x40#32 ++ 0#1 ++ 0x2B#6 ++ 2#5 ++ 7#5 ++ 1#1 ++ 1#1 ++ 0#3 ++ 0#10, .wload ⟨false, 2, 7, true, true, 0, 0, 0x40⟩),
   (0x0#32 ++ 0#1 ++ 0x2C#6 ++ 2#5 ++ 0#5 ++ 0#5 ++ 1#1 ++ 0#1 ++ 0#1 ++ 0#7, .wseed ⟨false, 2, 0, 0, true, false, false, 0, 0x0⟩),
   (0x0#32 ++ 0#1 ++ 0x2C#6 ++ 2#5 ++ 3#5 ++ 0#5 ++ 1#1 ++ 1#1 ++ 0#1 ++ 1#7, .wseedH ⟨false, 2, 3, 0, true, true, false, 1, 0x0⟩)]

theorem test_controlWords2 : (controlWords2.all fun p => decodesTo p.1 ⟨p.2, none⟩) = true := by decide +kernel

/-- Control words, part 3. -/
def controlWords3 : List Lone :=
  [(0x0#32 ++ 0#1 ++ 0x2E#6 ++ 2#5 ++ 0#5 ++ 0#5 ++ 0#1 ++ 0#1 ++ 0#1 ++ 5#7, .cregRd ⟨false, 2, 0, 0, false, false, false, 5, 0x0⟩),
   (0x0#32 ++ 0#1 ++ 0x2E#6 ++ 0#5 ++ 3#5 ++ 0#5 ++ 0#1 ++ 1#1 ++ 0#1 ++ 66#7, .cregWr ⟨false, 0, 3, 0, false, true, false, 66, 0x0⟩),
   (0x0#32 ++ 0#1 ++ 0x2F#6 ++ 2#5 ++ 0#5 ++ 20#5 ++ 1#1 ++ 0#1 ++ 1#1 ++ 0#7, .seal ⟨false, 2, 0, 20, true, false, true, 0, 0x0⟩),
   (0x0#32 ++ 0#1 ++ 0x2F#6 ++ 2#5 ++ 0#5 ++ 20#5 ++ 1#1 ++ 0#1 ++ 1#1 ++ 1#7, .unseal ⟨false, 2, 0, 20, true, false, true, 1, 0x0⟩),
   (0x0#32 ++ 0#1 ++ 0x2F#6 ++ 2#5 ++ 0#5 ++ 20#5 ++ 1#1 ++ 0#1 ++ 1#1 ++ 2#7, .hoopdrop ⟨false, 2, 0, 20, true, false, true, 2, 0x0⟩),
   (0x0#32 ++ 0#1 ++ 0x2F#6 ++ 2#5 ++ 3#5 ++ 20#5 ++ 1#1 ++ 1#1 ++ 1#1 ++ 3#7, .tlbinv ⟨false, 2, 3, 20, true, true, true, 3, 0x0⟩),
   (0x0#32 ++ 0#1 ++ 0x2F#6 ++ 2#5 ++ 3#5 ++ 20#5 ++ 1#1 ++ 1#1 ++ 1#1 ++ 4#7, .keyset ⟨false, 2, 3, 20, true, true, true, 4, 0x0⟩),
   (0x0#32 ++ 0#1 ++ 0x2F#6 ++ 2#5 ++ 0#5 ++ 20#5 ++ 1#1 ++ 0#1 ++ 1#1 ++ 5#7, .keyret ⟨false, 2, 0, 20, true, false, true, 5, 0x0⟩),
   (0x40#32 ++ 0#1 ++ 0x30#6 ++ 0#5 ++ 7#5 ++ 0#1 ++ 1#1 ++ 0#3 ++ 0#10, .tspawn ⟨false, 0, 7, false, true, 0, 0, 0x40⟩),
   (0x40#32 ++ 0#1 ++ 0x31#6 ++ 8#5 ++ 7#5 ++ 1#1 ++ 1#1 ++ 0#3 ++ 0#10, .tspawnc ⟨false, 8, 7, true, true, 0, 0, 0x40⟩),
   (0x0#32 ++ 0#1 ++ 0x32#6 ++ 2#5 ++ 0#5 ++ 0#5 ++ 1#1 ++ 0#1 ++ 0#1 ++ 0#7, .suspend ⟨false, 2, 0, 0, true, false, false, 0, 0x0⟩),
   (0#32 ++ 0#1 ++ 0x33#6 ++ 0#25, .done false),
   (0x40#32 ++ 0#1 ++ 0x34#6 ++ 2#5 ++ 7#5 ++ 1#1 ++ 1#1 ++ 0#3 ++ 0#10, .evinc ⟨false, 2, 7, true, true, 0, 0, 0x40⟩),
   (0x0#32 ++ 0#1 ++ 0x35#6 ++ 2#5 ++ 3#5 ++ 0#5 ++ 0#1 ++ 1#1 ++ 0#1 ++ 0#7, .rgrab ⟨false, 2, 3, 0, false, true, false, 0, 0x0⟩),
   (0x0#32 ++ 0#1 ++ 0x36#6 ++ 2#5 ++ 3#5 ++ 0#5 ++ 1#1 ++ 1#1 ++ 0#1 ++ 0#7, .send ⟨false, 2, 3, 0, true, true, false, 0, 0x0⟩),
   (0x0#32 ++ 0#1 ++ 0x37#6 ++ 2#5 ++ 0#5 ++ 0#5 ++ 0#1 ++ 0#1 ++ 0#1 ++ 0#7, .recv ⟨false, 2, 0, 0, false, false, false, 0, 0x0⟩),
   (0x0#32 ++ 0#1 ++ 0x37#6 ++ 2#5 ++ 0#5 ++ 0#5 ++ 0#1 ++ 0#1 ++ 0#1 ++ 1#7, .recvPoll ⟨false, 2, 0, 0, false, false, false, 1, 0x0⟩),
   (0x40#32 ++ 0#1 ++ 0x38#6 ++ 2#5 ++ 7#5 ++ 0#1 ++ 1#1 ++ 0#3 ++ 0#10, .fatomAdd ⟨false, 2, 7, false, true, 0, 0, 0x40⟩),
   (0x40#32 ++ 0#1 ++ 0x38#6 ++ 2#5 ++ 7#5 ++ 0#1 ++ 1#1 ++ 1#3 ++ 0#10, .fatomMin ⟨false, 2, 7, false, true, 1, 0, 0x40⟩),
   (0x40#32 ++ 0#1 ++ 0x38#6 ++ 2#5 ++ 7#5 ++ 0#1 ++ 1#1 ++ 2#3 ++ 0#10, .fatomMax ⟨false, 2, 7, false, true, 2, 0, 0x40⟩),
   (0x40#32 ++ 0#1 ++ 0x38#6 ++ 2#5 ++ 7#5 ++ 0#1 ++ 1#1 ++ 3#3 ++ 0#10, .fatomSwap ⟨false, 2, 7, false, true, 3, 0, 0x40⟩),
   (0x40#32 ++ 0#1 ++ 0x38#6 ++ 2#5 ++ 7#5 ++ 0#1 ++ 1#1 ++ 4#3 ++ 0#10, .fatomCas ⟨false, 2, 7, false, true, 4, 0, 0x40⟩)]

theorem test_controlWords3 : (controlWords3.all fun p => decodesTo p.1 ⟨p.2, none⟩) = true := by decide +kernel

/-- Control words, part 4. -/
def controlWords4 : List Lone :=
  [(0x40#32 ++ 0#1 ++ 0x38#6 ++ 2#5 ++ 7#5 ++ 0#1 ++ 1#1 ++ 5#3 ++ 0#10, .fatomAnd ⟨false, 2, 7, false, true, 5, 0, 0x40⟩),
   (0x40#32 ++ 0#1 ++ 0x38#6 ++ 2#5 ++ 7#5 ++ 0#1 ++ 1#1 ++ 6#3 ++ 0#10, .fatomOr ⟨false, 2, 7, false, true, 6, 0, 0x40⟩),
   (0x0#32 ++ 0#1 ++ 0x3A#6 ++ 0#5 ++ 3#5 ++ 0#5 ++ 0#1 ++ 1#1 ++ 0#1 ++ 0#7, .hoopj ⟨false, 0, 3, 0, false, true, false, 0, 0x0⟩),
   (0x0#32 ++ 0#1 ++ 0x3B#6 ++ 2#5 ++ 3#5 ++ 0#5 ++ 0#1 ++ 1#1 ++ 0#1 ++ 0#7, .hoopqRes ⟨false, 2, 3, 0, false, true, false, 0, 0x0⟩),
   (0x0#32 ++ 0#1 ++ 0x3B#6 ++ 2#5 ++ 3#5 ++ 0#5 ++ 0#1 ++ 1#1 ++ 0#1 ++ 1#7, .hoopqEpoch ⟨false, 2, 3, 0, false, true, false, 1, 0x0⟩),
   (0x0#32 ++ 0#1 ++ 0x3B#6 ++ 2#5 ++ 3#5 ++ 0#5 ++ 0#1 ++ 1#1 ++ 0#1 ++ 2#7, .hoopqArr ⟨false, 2, 3, 0, false, true, false, 2, 0x0⟩),
   (0x0#32 ++ 0#1 ++ 0x3B#6 ++ 2#5 ++ 3#5 ++ 0#5 ++ 0#1 ++ 1#1 ++ 0#1 ++ 3#7, .hoopqState ⟨false, 2, 3, 0, false, true, false, 3, 0x0⟩),
   (0#32 ++ 0#1 ++ 0x3C#6 ++ 0#25, .shut false),
   (0x0#32 ++ 0#1 ++ 0x3D#6 ++ 2#5 ++ 3#5 ++ 20#5 ++ 1#1 ++ 0#1 ++ 1#1 ++ 3#7, .shutv ⟨false, 2, 3, 20, true, false, true, 3, 0x0⟩),
   (0x0#32 ++ 0#1 ++ 0x3E#6 ++ 2#5 ++ 0#5 ++ 0#5 ++ 1#1 ++ 0#1 ++ 0#1 ++ 21#7, .trap ⟨false, 2, 0, 0, true, false, false, 21, 0x0⟩),
   (0x5355#32 ++ 0#1 ++ 0x01#6 ++ 1#1 ++ 0x9E4#12 ++ 0#12, .blk ⟨true, 0x9E4, 0, 0x5355⟩),
   (0x100#32 ++ 0#1 ++ 0x04#6 ++ 0#25, .span 0x100),
   (0x20005#32 ++ 0#1 ++ 0x06#6 ++ 0#5 ++ 0#5 ++ 0#5 ++ 0#1 ++ 0#1 ++ 0#1 ++ 2#7, .setrmImm ⟨false, 0, 0, 0, false, false, false, 2, 0x20005⟩),
   (0x3#32 ++ 0#1 ++ 0x07#6 ++ 2#5 ++ 0#5 ++ 0#5 ++ 0#1 ++ 0#1 ++ 0#1 ++ 1#7, .setlcImm ⟨false, 2, 0, 0, false, false, false, 1, 0x3⟩),
   (0xFFFFFFF0#32 ++ 0#1 ++ 0x08#6 ++ 0#5 ++ 0#5 ++ 0#1 ++ 0#1 ++ 0#4 ++ 0#9, .jmp ⟨0, 0, false, false, 0, 0, 0xFFFFFFF0⟩),
   (0x5#32 ++ 0#1 ++ 0x09#6 ++ 4#5 ++ 9#5 ++ 1#1 ++ 0#1 ++ 0#4 ++ 496#9, .jtab ⟨4, 9, true, false, 0, 496, 0x5⟩),
   (0x9#32 ++ 0#1 ++ 0x0A#6 ++ 4#5 ++ 0#5 ++ 1#1 ++ 0#1 ++ 12#4 ++ 63#9, .bs ⟨4, 0, true, false, 12, 63, 0x9⟩),
   (0x9#32 ++ 0#1 ++ 0x0B#6 ++ 3#5 ++ 0#5 ++ 0#1 ++ 0#1 ++ 2#4 ++ 4#9, .bm ⟨3, 0, false, false, 2, 4, 0x9⟩),
   (0x5#32 ++ 0#1 ++ 0x0C#6 ++ 0#5 ++ 0#5 ++ 0#1 ++ 0#1 ++ 1#4 ++ 0#9, .loop ⟨0, 0, false, false, 1, 0, 0x5⟩),
   (0x7#32 ++ 0#1 ++ 0x39#6 ++ 4#5 ++ 9#5 ++ 1#1 ++ 1#1 ++ 14#4 ++ 0#9, .cbr ⟨4, 9, true, true, 14, 0, 0x7⟩)]

theorem test_controlWords4 : (controlWords4.all fun p => decodesTo p.1 ⟨p.2, none⟩) = true := by decide +kernel

/-- An arithmetic word under a paired `nop` (R132, R134). -/
def underNop (op : BitVec 7) (ty : BitVec 3) (d : BitVec 5) (dk : BitVec 1) (ak : BitVec 2) (a : BitVec 5) (aw : BitVec 1)
    (bk : BitVec 2) (b : BitVec 5) (bw : BitVec 1) : Word64 :=
  op ++ ty ++ d ++ dk ++ ak ++ a ++ aw ++ bk ++ b ++ bw ++ 1#1 ++ 0#6 ++ 0#25

/-- Arithmetic words, part 1. -/
def arithWords1 : List Lone :=
  [(underNop 0x00 2 4 0 0 3 1 0 2 1, .addI ⟨2, 4, false, 0, 3, true, 0, 2, true⟩),
   (underNop 0x01 2 4 0 0 3 1 0 2 1, .subI ⟨2, 4, false, 0, 3, true, 0, 2, true⟩),
   (underNop 0x02 2 4 0 0 3 1 0 2 1, .adds ⟨2, 4, false, 0, 3, true, 0, 2, true⟩),
   (underNop 0x03 2 4 0 0 3 1 0 2 1, .subs ⟨2, 4, false, 0, 3, true, 0, 2, true⟩),
   (underNop 0x04 2 4 0 0 3 1 0 2 1, .mulI ⟨2, 4, false, 0, 3, true, 0, 2, true⟩),
   (underNop 0x05 2 4 0 0 3 1 0 2 1, .mulh ⟨2, 4, false, 0, 3, true, 0, 2, true⟩),
   (underNop 0x06 2 4 0 0 3 1 0 2 1, .div ⟨2, 4, false, 0, 3, true, 0, 2, true⟩),
   (underNop 0x07 2 4 0 0 3 1 0 2 1, .rem ⟨2, 4, false, 0, 3, true, 0, 2, true⟩),
   (underNop 0x08 2 4 0 0 3 1 0 2 1, .and ⟨2, 4, false, 0, 3, true, 0, 2, true⟩),
   (underNop 0x09 2 4 0 0 3 1 0 2 1, .or ⟨2, 4, false, 0, 3, true, 0, 2, true⟩),
   (underNop 0x0A 2 4 0 0 3 1 0 2 1, .xor ⟨2, 4, false, 0, 3, true, 0, 2, true⟩),
   (underNop 0x0B 2 4 0 0 3 1 0 2 1, .andn ⟨2, 4, false, 0, 3, true, 0, 2, true⟩),
   (underNop 0x0C 2 4 0 0 3 1 0 2 1, .shl ⟨2, 4, false, 0, 3, true, 0, 2, true⟩),
   (underNop 0x0D 2 4 0 0 3 1 0 2 1, .shr ⟨2, 4, false, 0, 3, true, 0, 2, true⟩),
   (underNop 0x0E 2 4 0 0 3 1 0 2 1, .sra ⟨2, 4, false, 0, 3, true, 0, 2, true⟩),
   (underNop 0x0F 2 4 0 0 3 1 0 2 1, .rsh ⟨2, 4, false, 0, 3, true, 0, 2, true⟩),
   (underNop 0x10 2 4 0 0 3 1 0 2 1, .minI ⟨2, 4, false, 0, 3, true, 0, 2, true⟩),
   (underNop 0x11 2 4 0 0 3 1 0 2 1, .maxI ⟨2, 4, false, 0, 3, true, 0, 2, true⟩),
   (underNop 0x12 2 4 0 0 3 1 0 0 0, .absI ⟨2, 4, false, 0, 3, true, 0, 0, false⟩),
   (underNop 0x13 2 4 0 0 3 1 0 0 0, .negI ⟨2, 4, false, 0, 3, true, 0, 0, false⟩),
   (underNop 0x14 2 4 0 0 3 1 0 0 0, .clz ⟨2, 4, false, 0, 3, true, 0, 0, false⟩),
   (underNop 0x15 2 4 0 0 3 1 0 0 0, .popc ⟨2, 4, false, 0, 3, true, 0, 0, false⟩),
   (underNop 0x16 2 4 0 0 3 1 0 2 1, .madd ⟨2, 4, false, 0, 3, true, 0, 2, true⟩),
   (underNop 0x18 2 4 0 0 3 1 0 2 1, .ceqI ⟨2, 4, false, 0, 3, true, 0, 2, true⟩),
   (underNop 0x19 2 4 0 0 3 1 0 2 1, .cneI ⟨2, 4, false, 0, 3, true, 0, 2, true⟩),
   (underNop 0x1A 2 4 0 0 3 1 0 2 1, .cltI ⟨2, 4, false, 0, 3, true, 0, 2, true⟩)]

theorem test_arithWords1 : (arithWords1.all fun p => decodesTo p.1 ⟨.nop true, some p.2⟩) = true := by decide +kernel

/-- Arithmetic words, part 2. -/
def arithWords2 : List Lone :=
  [(underNop 0x1B 2 4 0 0 3 1 0 2 1, .cleI ⟨2, 4, false, 0, 3, true, 0, 2, true⟩),
   (underNop 0x1C 2 4 0 0 3 1 0 2 1, .ceqF ⟨2, 4, false, 0, 3, true, 0, 2, true⟩),
   (underNop 0x1D 2 4 0 0 3 1 0 2 1, .cneF ⟨2, 4, false, 0, 3, true, 0, 2, true⟩),
   (underNop 0x1E 2 4 0 0 3 1 0 2 1, .cltF ⟨2, 4, false, 0, 3, true, 0, 2, true⟩),
   (underNop 0x1F 2 4 0 0 3 1 0 2 1, .cleF ⟨2, 4, false, 0, 3, true, 0, 2, true⟩),
   (underNop 0x20 2 4 0 0 3 1 0 0 0, .mov ⟨2, 4, false, 0, 3, true, 0, 0, false⟩),
   (underNop 0x21 2 4 0 0 3 1 0 2 1, .sel ⟨2, 4, false, 0, 3, true, 0, 2, true⟩),
   (underNop 0x22 0 4 0 0 3 0 0 2 0, .mand ⟨0, 4, false, 0, 3, false, 0, 2, false⟩),
   (underNop 0x23 0 4 0 0 3 0 0 2 0, .mor ⟨0, 4, false, 0, 3, false, 0, 2, false⟩),
   (underNop 0x24 0 4 0 0 3 0 0 2 0, .mxor ⟨0, 4, false, 0, 3, false, 0, 2, false⟩),
   (underNop 0x25 0 4 0 0 3 0 0 0 0, .mnot ⟨0, 4, false, 0, 3, false, 0, 0, false⟩),
   (underNop 0x26 0 4 1 0 3 0 0 0 0, .mpop ⟨0, 4, true, 0, 3, false, 0, 0, false⟩),
   (underNop 0x27 0 4 1 0 3 0 0 0 0, .mfirst ⟨0, 4, true, 0, 3, false, 0, 0, false⟩),
   (underNop 0x28 2 4 0 0 3 1 0 2 1, .addF ⟨2, 4, false, 0, 3, true, 0, 2, true⟩),
   (underNop 0x29 2 4 0 0 3 1 0 2 1, .subF ⟨2, 4, false, 0, 3, true, 0, 2, true⟩),
   (underNop 0x2A 2 4 0 0 3 1 0 2 1, .mulF ⟨2, 4, false, 0, 3, true, 0, 2, true⟩),
   (underNop 0x2B 2 4 0 0 3 1 0 2 1, .fma ⟨2, 4, false, 0, 3, true, 0, 2, true⟩),
   (underNop 0x2C 2 4 0 0 3 1 0 2 1, .fnma ⟨2, 4, false, 0, 3, true, 0, 2, true⟩),
   (underNop 0x2D 2 4 0 0 3 1 0 2 1, .minF ⟨2, 4, false, 0, 3, true, 0, 2, true⟩),
   (underNop 0x2E 2 4 0 0 3 1 0 2 1, .maxF ⟨2, 4, false, 0, 3, true, 0, 2, true⟩),
   (underNop 0x2F 2 4 0 0 3 1 0 0 0, .absF ⟨2, 4, false, 0, 3, true, 0, 0, false⟩),
   (underNop 0x30 2 4 0 0 3 1 0 0 0, .negF ⟨2, 4, false, 0, 3, true, 0, 0, false⟩),
   (underNop 0x31 2 4 0 0 3 1 0 0 0, .exp2 ⟨2, 4, false, 0, 3, true, 0, 0, false⟩),
   (underNop 0x32 2 4 0 0 3 1 0 0 0, .log2 ⟨2, 4, false, 0, 3, true, 0, 0, false⟩),
   (underNop 0x33 2 4 0 0 3 1 0 0 0, .rcp ⟨2, 4, false, 0, 3, true, 0, 0, false⟩),
   (underNop 0x34 2 4 0 0 3 1 0 0 0, .rsqrt ⟨2, 4, false, 0, 3, true, 0, 0, false⟩)]

theorem test_arithWords2 : (arithWords2.all fun p => decodesTo p.1 ⟨.nop true, some p.2⟩) = true := by decide +kernel

/-- Arithmetic words, part 3. -/
def arithWords3 : List Lone :=
  [(underNop 0x38 2 4 0 0 3 1 3 7 0, .cvti ⟨2, 4, false, 0, 3, true, 3, 7, false⟩),
   (underNop 0x39 2 4 0 0 3 1 3 7 0, .cvtf ⟨2, 4, false, 0, 3, true, 3, 7, false⟩),
   (underNop 0x3A 2 4 0 0 3 1 3 7 0, .packi ⟨2, 4, false, 0, 3, true, 3, 7, false⟩),
   (underNop 0x3B 2 4 0 0 4 1 3 13 0, .packf ⟨2, 4, false, 0, 4, true, 3, 13, false⟩),
   (underNop 0x3C 2 4 0 0 3 1 0 0 0, .widenI ⟨2, 4, false, 0, 3, true, 0, 0, false⟩),
   (underNop 0x3D 1 4 0 0 3 1 0 0 0, .widenF ⟨1, 4, false, 0, 3, true, 0, 0, false⟩),
   (underNop 0x40 2 4 0 0 3 1 0 2 1, .perm ⟨2, 4, false, 0, 3, true, 0, 2, true⟩),
   (underNop 0x41 2 4 0 0 3 1 1 2 1, .slup ⟨2, 4, false, 0, 3, true, 1, 2, true⟩),
   (underNop 0x42 2 4 0 0 3 1 1 2 1, .sldn ⟨2, 4, false, 0, 3, true, 1, 2, true⟩),
   (underNop 0x43 2 4 0 0 3 1 0 2 1, .zip ⟨2, 4, false, 0, 3, true, 0, 2, true⟩),
   (underNop 0x44 2 4 0 0 3 1 0 2 1, .unzip ⟨2, 4, false, 0, 3, true, 0, 2, true⟩),
   (underNop 0x45 2 4 0 0 3 1 1 2 1, .bcast ⟨2, 4, false, 0, 3, true, 1, 2, true⟩),
   (underNop 0x46 2 4 0 0 3 1 0 0 0, .comp ⟨2, 4, false, 0, 3, true, 0, 0, false⟩),
   (underNop 0x48 2 4 1 0 3 1 0 0 0, .rsumI ⟨2, 4, true, 0, 3, true, 0, 0, false⟩),
   (underNop 0x49 2 4 1 0 3 1 0 0 0, .rsumF ⟨2, 4, true, 0, 3, true, 0, 0, false⟩),
   (underNop 0x4A 2 4 1 0 3 1 0 0 0, .rmaxI ⟨2, 4, true, 0, 3, true, 0, 0, false⟩),
   (underNop 0x4B 2 4 1 0 3 1 0 0 0, .rmaxF ⟨2, 4, true, 0, 3, true, 0, 0, false⟩),
   (underNop 0x4C 2 4 1 0 3 1 0 0 0, .rminI ⟨2, 4, true, 0, 3, true, 0, 0, false⟩),
   (underNop 0x4D 2 4 1 0 3 1 0 0 0, .rminF ⟨2, 4, true, 0, 3, true, 0, 0, false⟩),
   (underNop 0x4E 2 4 0 0 3 1 0 0 0, .scanI ⟨2, 4, false, 0, 3, true, 0, 0, false⟩),
   (underNop 0x4F 2 4 0 0 3 1 0 0 0, .scanF ⟨2, 4, false, 0, 3, true, 0, 0, false⟩),
   (underNop 0x50 0 4 0 0 3 1 0 2 1, .dot4 ⟨0, 4, false, 0, 3, true, 0, 2, true⟩),
   (underNop 0x51 0 4 0 0 3 1 0 2 1, .tsel ⟨0, 4, false, 0, 3, true, 0, 2, true⟩),
   (underNop 0x52 2 4 0 0 3 1 0 2 1, .pmerge ⟨2, 4, false, 0, 3, true, 0, 2, true⟩),
   (underNop 0x53 6 4 0 1 3 0 2 2 0, .qrnd ⟨6, 4, false, 1, 3, false, 2, 2, false⟩)]

theorem test_arithWords3 : (arithWords3.all fun p => decodesTo p.1 ⟨.nop true, some p.2⟩) = true := by decide +kernel

/-! ## Ill-formed bundles (R146) -/

/-- A format-M field set of a lone bundle. -/
def m0 : MF := ⟨false, 2, 7, false, false, 0, 0, 0x40⟩
/-- Fields of an arithmetic word: add.i32 v4, v3, v2. -/
def a0 : Arith := ⟨2, 4, false, 0, 3, false, 0, 2, false⟩

theorem test_wf_plain : (Bundle.wf ⟨.lds m0, none⟩ && Bundle.wf ⟨.nop true, some (.addI a0)⟩) = true := by decide
theorem test_wf_pairing : (Bundle.wf ⟨.nop false, some (.addI a0)⟩ || Bundle.wf ⟨.nop true, none⟩ || Bundle.wf ⟨.span 3, some (.addI a0)⟩ ||
    Bundle.wf ⟨.xlit false 1, none⟩ || Bundle.wf ⟨.taskStart 0, none⟩ || Bundle.wf ⟨.nop true, some (.nop true)⟩) = false := by
  decide
/-- A pair of scalar registers starts at an even one (R161). -/
theorem test_wf_register : Bundle.legal ⟨.lds { m0 with x := 3, f3 := 7 }, none⟩ = false := by decide
/-- f64 is scalar only (R135). -/
theorem test_wf_type : Bundle.legal ⟨.nop true, some (.addF { a0 with ty := 3 })⟩ = false := by decide
/-- Two words that write one register (R133). -/
theorem test_wf_overlap :
    Bundle.disjoint ⟨.lds { m0 with p := true, x := 4, ext := 0 }, some (.addI { a0 with dk := true, ak := 1, bk := 1 })⟩ = false := by
  decide
/-- A unary instruction's B field is zero (R138). -/
theorem test_wf_reserved_arith : Bundle.reserved ⟨.nop true, some (.clz { a0 with b := 1 })⟩ = false := by decide
/-- The function value of SETM is zero (R139). -/
theorem test_wf_reserved_control : Bundle.reserved ⟨.setm ⟨false, 5, 0, 0, false, false, false, 1, 0⟩, none⟩ = false := by
  decide
/-- An `xlit` with F = 1 does not pair with class I, and the literal field that it replaces is zero (R137). -/
theorem test_wf_xlit : (Bundle.legal ⟨.xlit true 1, some (.addI { a0 with bk := 3, b := 0 })⟩ ||
    Bundle.reserved ⟨.xlit false 1, some (.addI { a0 with bk := 3, b := 1 })⟩) = false := by decide

/-! ## Refused values (R144-R146) -/

theorem test_refused_opcode : refusedWith (0#32 ++ 0#1 ++ 0x3F#6 ++ 0#25) 0x01 = true := by decide +kernel
theorem test_refused_function : refusedWith (0#32 ++ 0#1 ++ 0x06#6 ++ 0#18 ++ 3#7) 0x01 = true := by decide +kernel
theorem test_refused_arith_opcode : refusedWith (0x7F#7 ++ 0#25 ++ 1#1 ++ 0#6 ++ 0#25) 0x01 = true := by decide +kernel
theorem test_refused_pairing : refusedWith (0#32 ++ 1#1 ++ 0x0A#6 ++ 0#25) 0x03 = true := by decide +kernel
/-- The spec's own example of R137. -/
theorem test_refused_literal : refusedWith 0x008604C2840003E8 0x02 = true := by decide +kernel
/-- OFF10 of a lone load is zero (R139). -/
theorem test_refused_off10 : refusedWith (0#32 ++ 0#1 ++ 0x10#6 ++ 2#5 ++ 7#5 ++ 0#2 ++ 3#3 ++ 1#10) 0x02 = true := by decide +kernel

/-! ## The spec's worked encodings -/

theorem test_worked_xlit_add : decodesTo 0x008604C0840003E8 ⟨.xlit false 0x3E8, some (.addI ⟨2, 3, false, 0, 2, false, 3, 0, false⟩)⟩ =
    true := by decide +kernel
theorem test_worked_ldx : decodesTo 0x0000002430718800 ⟨.ldx ⟨false, 7, 3, false, false, 2, 0, 0x24⟩, none⟩ = true := by decide +kernel
theorem test_worked_bs : decodesTo 0xFFFFFFFB14448400 ⟨.bs ⟨4, 9, false, false, 2, 0, 0xFFFFFFFB⟩, none⟩ = true := by decide +kernel
/-- The host's words: one in the control half, one in the arithmetic half. -/
theorem test_tableWord : decodeTableWord 32 0x20238C00 = some (.lds ⟨false, 2, 7, false, false, 3, 0, 0⟩) ∧
    decodeTableWord 32 0x008604C0 = some (.addI ⟨2, 3, false, 0, 2, false, 3, 0, false⟩) := by decide +kernel

/-! ## Values that the rules and the spec's examples give -/

/-- The registers of a fresh start with some scalar registers set. -/
def scalars (l : List (Nat × Word64)) : Regs :=
  l.foldl (fun r p => { r with s := r.s.setIfInBounds p.1 p.2 }) Regs.reset

/-- One instruction on a core with some scalar registers: a scalar register afterwards. -/
def after (i : Instr) (l : List (Nat × Word64)) (d : Nat) : Option Word64 :=
  match exec i (userWith (scalars l)) with
  | .next t => if t.me.phase = .ok then t.regs.s[d]? else none
  | _ => none

/-- What FSTAT holds afterwards. -/
def fstatAfter (i : Instr) (l : List (Nat × Word64)) : Option Word64 :=
  match exec i (userWith (scalars l)) with
  | .next t => some t.regs.fstat
  | _ => none

/-- The code of the fault that waits for its delivery. -/
def faultAfter (i : Instr) (r : Regs) : Option Code :=
  match exec i (userWith r) with
  | .next t => t.me.fault.map (·.code)
  | _ => none

/-- s1 = s2 op s3 of a type. -/
def sss (ty : BitVec 3) : Arith := ⟨ty, 1, true, 1, 2, false, 1, 3, false⟩

/-- i32 wraps and fills with its sign (R120, R191). -/
theorem test_add_wraps : after (.addI (sss 2)) [(2, 0x7FFFFFFF), (3, 1)] 1 = some 0xFFFFFFFF80000000 := by decide +kernel
/-- n8 saturates (R191). -/
theorem test_adds_saturates : after (.adds (sss 4)) [(2, 200), (3, 100)] 1 = some 255 := by decide +kernel
/-- Division by zero gives Min for a negative dividend, and DZ (R192). -/
theorem test_div_by_zero : after (.div (sss 0)) [(2, 0xFB), (3, 0)] 1 = some 0xFFFFFFFFFFFFFF80 ∧
    fstatAfter (.div (sss 0)) [(2, 0xFB), (3, 0)] = some (BitVec.ofNat 64 (flDZ.toNat)) := by decide +kernel
/-- The remainder has the dividend's sign (R192). -/
theorem test_rem_sign : after (.rem (sss 3)) [(2, -7), (3, 2)] 1 = some (-1) := by decide +kernel
/-- A shift count is taken modulo the width (R191). -/
theorem test_shl_count : after (.shl (sss 6)) [(2, 3), (3, 33)] 1 = some 6 := by decide +kernel
/-- A source that is also the destination is read first (R133). -/
theorem test_sub_alias : after (.subI ⟨3, 2, true, 1, 2, false, 1, 2, false⟩) [(2, 9)] 2 = some 0 := by decide +kernel
/-- A comparison writes 1 or 0, by the signedness of TYPE (R194). -/
theorem test_clt_signed : after (.cltI (sss 2)) [(2, 0xFFFFFFFF), (3, 0)] 1 = some 1 ∧
    after (.cltI (sss 6)) [(2, 0xFFFFFFFF), (3, 0)] 1 = some 0 := by decide +kernel
/-- 1.5 + 2.25 = 3.75 in f32 (R198). -/
theorem test_addF : after (.addF (sss 2)) [(2, 0x3FC00000), (3, 0x40100000)] 1 = some 0x40700000 := by decide +kernel
/-- An ordered comparison with a NaN is false and sets NV (R195). -/
theorem test_cltF_nan : after (.cltF (sss 2)) [(2, 0x7FC00000), (3, 0)] 1 = some 0 ∧
    fstatAfter (.cltF (sss 2)) [(2, 0x7FC00000), (3, 0)] = some (BitVec.ofNat 64 (flNV.toNat)) := by decide +kernel

/-- The spec's example of the rounding modes: 2.375 to E4M3. -/
theorem test_rounding_modes :
    ([0, 1, 4, 7].map fun m => encodeFmt 13 (roundV 13 m 0 (decV 17 0x40180000)).q) = [0x42, 0x41, 0x42, 0x41] := by decide +kernel
/-- Its stochastic mode: 2.5 where the draw lies below one half, else 2.25. -/
theorem test_rounding_draw :
    ([0x7FFFFFFF, 0x80000000].map fun r => encodeFmt 13 (roundV 13 5 r (decV 17 0x40180000)).q) = [0x42, 0x41] := by decide +kernel
/-- The spec's example of `pmerge`: (3, 1.5) and (5, 0.5) give (5, 0.875). -/
theorem test_pmerge : (let r := mergePair (decV 17 0x40400000) (decV 17 0x3FC00000) (decV 17 0x40A00000) (decV 17 0x3F000000)
    (encodeFmt 17 r.1, encodeFmt 17 r.2.1)) = (0x40A00000, 0x3F600000) := by decide +kernel
/-- The spec's example of the block digest: its six tokens fold to 0x5355. -/
theorem test_digest : gAcc (foldTokens (BitVec.ofNat 64 (2 ^ 44)) [0x022, 0x123, 0x021, 0x085, 0x026, 0x126]) = 0x5355 := by
  decide +kernel
/-- The spec's example of COREID: core 20,697 of package 5. -/
theorem test_coreid : ({ State.reset with domain := true, svc := { Service.reset with pkgnum := 5 } } : State).readCreg 20697 0 = some 0x568D9 := by
  decide +kernel

/-- A branch that is taken goes OFF bundles on (R274). -/
theorem test_bs_taken : (match exec (.bs ⟨4, 9, false, false, 2, 0, 0xFFFFFFFB⟩) (userWith (scalars [(4, -1), (9, 0)])) with
    | .next t => decide (t.me.next = .jump (-40))
    | _ => false) = true := by decide +kernel
/-- A store and a load of one chunk: the load sees the store (R155), and memory does not yet (R235). -/
theorem test_store_then_load : (match exec (.sts ⟨false, 2, 3, false, false, 2, 0, 0x40⟩) (userWith (scalars [(2, 0x11223344), (3, 0x2000)])) with
    | .next t => decide (t.mem = []) && (match chunkRead 0x2041 2 t with
      | .ok (b, _) => decide (b = [0x33, 0x22])
      | .error _ => false)
    | _ => false) = true := by decide +kernel
/-- The low bit of an address that must be a multiple of 8 is fault 0x13 (R172). -/
theorem test_ldh_misaligned : faultAfter (.ldh ⟨false, 2, 3, false, false, 0, 0, 1⟩) Regs.reset = some 0x13 := by decide +kernel
/-- A write of a page that does not admit it is fault 0x15 (R24). -/
theorem test_sts_unmapped : faultAfter (.sts ⟨false, 2, 3, false, false, 0, 0, 0⟩) (scalars [(3, 0xFFC0000000000000)]) ≠ none := by
  decide +kernel
/-- A task may not name a supervisor register (R299) nor ask for a `sys` function (R320). -/
theorem test_privileged : faultAfter (.cregRd ⟨false, 2, 0, 0, false, false, false, 48, 0⟩) Regs.reset = some 0x04 ∧
    faultAfter (.seal ⟨false, 2, 0, 20, true, false, true, 0, 0⟩) Regs.reset = some 0x04 := by decide +kernel
/-- A far atomic compares and swaps only where the word equals the first operand (R310). -/
theorem test_cas : (atomicNew 4 7 7 9, atomicNew 4 8 7 9) = (9, 8) := by decide +kernel
/-- A cut inside a span is fault 0x39 (R249). -/
theorem test_cut_in_span : (match exec (.span 4) user with
    | .next t => (match exec (.cut false) t with
      | .next u => u.me.fault.map (·.code)
      | _ => none)
    | _ => none) = some 0x39 := by decide +kernel
/-- `slup` by 1 moves element 0 into element 1 and clears element 0 (R205). -/
theorem test_slup : (match exec (.slup ⟨6, 4, false, 0, 3, false, 3, 1, false⟩)
      (userWith { Regs.reset with v := Regs.reset.v.setIfInBounds 3 5 }) with
    | .next t => t.regs.vq.map (·.writes)
    | _ => []) = [[.v 4 (BitVec.ofNat 4096 (5 * 2 ^ 32))]] := by decide +kernel
/-- Integer `rsum` sums exactly (R206): 512 elements of −1 in i8. -/
theorem test_rsum : (match exec (.rsumI ⟨0, 2, true, 0, 3, false, 0, 0, false⟩)
      (userWith { Regs.reset with v := Regs.reset.v.setIfInBounds 3 (BitVec.allOnes 4096) }) with
    | .next t => t.regs.vq.map (·.writes)
    | _ => []) = [[.s 2 (-512)]] := by decide +kernel
/-- Messages: `recv.poll` of an empty queue gives zeros (R309). -/
theorem test_recv_poll_empty : (match exec (.recvPoll ⟨false, 4, 0, 0, false, false, false, 1, 0⟩)
      (userWith { Regs.reset with v := Regs.reset.v.setIfInBounds 4 7 }) with
    | .next t => t.regs.v[4]?
    | _ => none) = some 0 := by decide +kernel

/-! ## States and operands that meet the premises of the statements -/

theorem settled_of {s : State} (h1 : s.src.flights = []) (h2 : s.src.vq = []) (h3 : s.src.mq = []) : Settled s := by
  intro n; simp [Regs.pendingOn, h1, h2, h3]

theorem unbound_of {s : State} (h : s.src.q = Vector.replicate 8 none) : Unbound s := by
  intro i; simp only [Regs.stream, h]; split <;> simp

theorem ok_of {α : Type} {x : Except Stop α} (h : good x = true) : ∃ a, x = .ok a := good_iff x h

theorem user_runs (r : Regs) : Runs (userWith r) := rfl

/-- The task's core at a fresh start is ready; every statement about a core that runs, is settled, full or ready is met. -/
theorem user_ready : Ready user := ⟨rfl, settled_of rfl rfl rfl, ⟨rfl, rfl⟩, unbound_of (by decide +kernel)⟩

/-- So is the supervisor's. -/
theorem sup_ready : Ready sup ∧ sup.supervisor = true :=
  ⟨⟨rfl, settled_of (by decide +kernel) (by decide +kernel) (by decide +kernel), ⟨by decide +kernel, by decide +kernel⟩,
    unbound_of (by decide +kernel)⟩, by decide +kernel⟩

/-- A task's core whose registers have been changed. -/
def userBy (f : Regs → Regs) : State := userWith (f Regs.reset)

/-- A format T word without operands but its field of seven bits. -/
def tf (f7 : BitVec 7) : TF := ⟨false, 0, 0, 0, false, false, false, f7, 0⟩

/-- A format M word of an address that word 1 gives. -/
def mf (f3 : BitVec 3) (ext : BitVec 32) : MF := ⟨false, 0, 0, false, false, f3, 0, ext⟩

/-- A format J word. -/
def jf (c : BitVec 4) (off : BitVec 32) : JF := ⟨0, 0, false, false, c, 0, off⟩

/-- The chunk after one instruction of it. -/
def ran (i : Instr) (s : State) : State :=
  match exec i s with
  | .next t => t
  | _ => s

/-- Spans of 1 and of 256 bundles open; loops of 1 and of 256 bundles, skipped and taken, are not bad, and each of the loops
that R279 names is: of 0 and of 257 bundles, a fourth level, a loop register in use, an end outside the level around it. -/
theorem witness_ChunkAndLoopWords :
    (openChunk user).chunk.span = none ∧ 64 ≤ (openChunk user).freeLines ∧ (openChunk user).chunk.n = 0 ∧
    loopBad user.src.levels 0 (jTarget user.src.pc 2) 2 = false ∧ loopBad user.src.levels 2 (jTarget user.src.pc 257) 257 = false ∧
    user.src.getLc 0 = 0 ∧ (userBy fun r => r.setLc 0 5).src.getLc 0 ≠ 0 ∧
    (let l : LoopLevel := ⟨0, 1, 10⟩
     loopBad [] 0 (jTarget 0 1) 1 = true ∧ loopBad [] 0 (jTarget 0 258) 258 = true ∧
     loopBad [l, l, l] 0 (jTarget 0 2) 2 = true ∧ loopBad [l] 1 (jTarget 0 2) 2 = true ∧
     8 * l.len < (jTarget 0 11 - l.start).toNat) := by decide +kernel

/-- Bundles that end: in no loop, in one whose end they are not, whose end they are with passes left and on its last pass; in no
span, in the last bundle of one and before it; in no block, in one, and a `done` in one whose digest is not the expected one. -/
theorem witness_BundleEnd :
    let b : Bundle := ⟨.nop false, none⟩
    let l : LoopLevel := ⟨0, 1, 10⟩
    let e : LoopLevel := ⟨0, 1, 1⟩
    let at_ (f : Regs → Regs) : State := openChunk (userBy f)
    let g : Word64 := BitVec.ofNat 64 (2 ^ 44 + 7 * 2 ^ 28)
    user.me.saveWhy = none ∧ isBlk b.ctl = false ∧ (openChunk user).me.cutAfter = none ∧ (openChunk user).me.next = .seq ∧
    (openChunk user).me.run.isSome = true ∧ gOpen user.regs.g = false ∧ gOpen g = true ∧
    endsBlock (.done false) = true ∧ gAcc (foldTokens g (bundleTokens ⟨.done false, none⟩)) ≠ gExp g ∧
    (openChunk user).regs.levels = [] ∧ l.stop ≠ user.regs.pc + 8 ∧ e.stop = (at_ fun r => { r with pc := e.stop - 8 }).regs.pc + 8 ∧
    2 ≤ ((userBy fun r => r.setLc 1 2).regs.getLc 1).toNat ∧ ((userBy fun r => r.setLc 1 1).regs.getLc 1).toNat ≤ 1 ∧
    (openChunk user).chunk.span = none ∧ ((openChunk user).modChunk fun k => { k with span := some 1 }).chunk.span = some 1 ∧
    ((openChunk user).modChunk fun k => { k with span := some 2 }).chunk.span = some (0 + 2) := by
  decide +kernel

/-- A table jump past its table, and one whose entry can be read; a `blk` that matches and one that does not. -/
theorem witness_TableJumpAndBlockWords :
    ((4 : BitVec 9).toNat + 1 ≤ ((userWith (scalars [(0, 5)])).src.s.get 0).toNat) ∧
    ¬ (4 : BitVec 9).toNat + 1 ≤ (sup.src.s.get 0).toNat ∧ (sup.src.s.get 0).toNat % 8 = 0 ∧
    (∃ x, chunkRead (sup.src.s.get 0 + 8 * sup.src.s.get 0) 8 (openChunk sup) = .ok x) ∧
    blkMismatch user.regs.g ⟨true, 0, 0, 7⟩ = false ∧ blkMismatch (BitVec.ofNat 64 (2 ^ 44 + 7 * 2 ^ 28)) ⟨true, 0, 0, 7⟩ = true :=
  ⟨by decide +kernel, by decide +kernel, by decide +kernel, ok_of (by decide +kernel), by decide +kernel, by decide +kernel⟩

/-- A word on scalar registers of i64. -/
theorem witness_MaskAndScalarWords : (sss 3).dk = true ∧ (sss 3).ak = 1 ∧ (sss 3).bk = 1 ∧ (sss 3).ty = 3 ∧ (sss 7).ty = 7 := by decide

/-- Values round in each kind of mode; mode 0b101 with a table that the supervisor can read and whose window is held. -/
def weaving : State :=
  let s := sup.modMe fun c => { c with
    src := { c.src with wtab := BitVec.ofNat 64 (64 * 2 ^ 51) }
    regs := { c.regs with wtab := BitVec.ofNat 64 (64 * 2 ^ 51) } }
  ran (.weaveWindowLoad firstSup) ((openChunk s).modMe fun c => { c with need := .weave 3 })

theorem witness_RoundingModes :
    fld (4 : Word64) 2 0 ≠ 5 ∧ fld (6 : Word64) 2 0 = 6 ∧ user.regs.mq = [] ∧ fld (0x00030005 : Word64) 2 0 = 5 ∧
    (∃ x, weaveRow (fld (0x00030005 : Word64) 27 16) weaving = .ok x) :=
  ⟨by decide, by decide, by decide +kernel, by decide, ok_of (by decide +kernel)⟩

/-- Roundings that can be made (mode nearest even), for the float words and the conversions. -/
theorem witness_FloatRounded : ∃ x, roundActive [true, false] user.src.frm false 17 [.zero, .zero] (openChunk user) = .ok x :=
  ok_of (by decide +kernel)

theorem witness_Conversions :
    (∃ x, roundActive (active user 128) user.src.frm false (intFmt 2) (List.replicate 128 .zero) (openChunk user) = .ok x) ∧
    (∃ x, convertElems (active user 128) user.src.frm 17 19 (List.replicate 128 0) (openChunk user) = .ok x) ∧
    (∃ x, roundAll user.src.frm false 19 [(.zero, 0)] (openChunk user) = .ok x) ∧ (28 : BitVec 5).toNat + 4 ≤ 32 ∧
    (4 : BitVec 5) ≠ 0 ∧ packRatio 32 13 = 4 ∧ packRatio 32 17 = 1 :=
  ⟨ok_of (by decide +kernel), ok_of (by decide +kernel), ok_of (by decide +kernel), by decide, by decide, by decide, by decide⟩

/-- A pair of registers that a widening writes. -/
theorem witness_WideningAndPermutes : (30 : BitVec 5).toNat % 2 = 0 := by decide

/-- A point of a dimension of the table that can be drawn. -/
theorem witness_DotProductsAndPoints :
    fld weaving.src.wtab 63 51 ≤ 4096 ∧ (∀ p ∈ [((63, 5), true), ((64, 5), false)], p.2 = true → p.1.1 < fld weaving.src.wtab 63 51) ∧
    (∃ x, qrndPoints (weaving.src.wseed.extractLsb' 0 32) [((63, 5), true), ((64, 5), false)] [] weaving = .ok x) :=
  ⟨by decide +kernel, by decide +kernel, ok_of (by decide +kernel)⟩

/-- A stream of 300 elements of four bytes. -/
def stream1 (write : Bool) (pos ahead : Nat) : Stream := ⟨0, 0x2000, 1, 0, 0, 300, 1, 1, 2, 0, write, pos, ahead, 0⟩

/-- A core with a stream bound to v24. -/
def bound (st : Stream) : State := userBy fun r => r.setStream 24 (some st)

/-- Read streams with data ahead, without, and at their end; write streams with room, without, and at their end; a source register
that is empty. -/
theorem witness_SourceRegisters :
    let o := fun (st : Stream) => openChunk (bound st)
    let b := fun (st : Stream) => (o st).bound 24 = some st
    let w := stream1 true 256 0
    b (stream1 false 256 1) ∧ b (stream1 false 299 0) ∧ b (stream1 false 300 0) ∧ b w ∧ b { w with buf := 4 } ∧ b (stream1 true 300 0) ∧
    w.total = 300 ∧ (stream1 false 0 0).total = 300 ∧
    good ((stream1 false 256 1).read user.src.frm ((o (stream1 false 256 1)).perReg (stream1 false 256 1)) (o (stream1 false 256 1))) = true ∧
    good (((List.range (w.total - w.pos)).forM fun j =>
      if elemN 32 (2 ^ 64 - 1) j != 0 then chunkWriteBits (w.addr (w.pos + j)) (List.zip (bytesOf 4 (elemN 32 (2 ^ 64 - 1) j)) (bytesOf 4 7))
      else pure ()) (o w)) = true ∧ (o w).perReg w = 128 ∧
    (userBy fun r => { r with sFull := 0 }).src.sFull.getLsbD 31 = false ∧
    (userBy fun r => { r with vFull := 0x7FFFFFFF }).src.vFull.getLsbD 31 = false ∧
    (userBy fun r => { r with vFull := 0x7FFFFFFF }).src.vFull.getLsbD 30 = true ∧
    (userBy fun r => { r with vFull := 0x7FFFFFFF }).bound 31 = none := by
  decide +kernel

/-- Cores with an empty register that nothing is still to write and that no stream is bound to. -/
theorem witness_EmptySources :
    (let s := userBy fun r => { r with sFull := 0 }
     Runs s ∧ Settled s ∧ Unbound s) ∧
    (let s := userBy fun r => { r with vFull := 0x7FFFFFFF }
     Runs s ∧ Settled s ∧ Unbound s) :=
  ⟨⟨rfl, settled_of rfl rfl rfl, unbound_of (by decide +kernel)⟩, rfl, settled_of rfl rfl rfl, unbound_of (by decide +kernel)⟩

/-- A descriptor that can be read and is well formed. -/
theorem witness_StreamWords : (addrOf (mf 0 0x2000) 32 sup).toNat % 32 = 0 ∧
    (match chunkRead (addrOf (mf 0 0x2000) 32 sup) 32 (openChunk sup) with
      | .ok (bs, t) => (t.bindStream bs).isSome
      | .error _ => false) = true := by decide +kernel

/-- One line of this package, whole bytes at its very end. -/
theorem witness_ChunkReadOneLine : locate (openChunk sup) ((openChunk sup).ctx sup.cur) .read 0x207C 4 = .ok [(0x207C, 4)] ∧
    isRemote (0x207C / 128) = false ∧ (openChunk sup).claimed (0x207C / 128) = false ∧
    (openChunk sup).inTransit (0x207C / 128) = false ∧ (openChunk sup).chunk.span = none ∧
    ((openChunk sup).cellRead ((openChunk sup).ctx sup.cur).kid (openChunk sup).cur 0x207C 4).2.2 = false := by
  refine ⟨by rfl, ?_⟩
  decide +kernel

theorem witness_ChunkWriteOneLine : locate (openChunk user) ((openChunk user).ctx user.cur) .write 0x207C 4 = .ok [(0x207C, 4)] ∧
    (openChunk user).claimed (0x207C / 128) = false ∧ (openChunk user).inTransit (0x207C / 128) = false ∧
    (openChunk user).chunk.span = none ∧ ((openChunk user).placeLine user.cur (0x207C / 128)).isSome = true ∧
    [1, 2, 3, (4 : Byte)][3]? = some 4 := by
  refine ⟨by rfl, ?_⟩
  decide +kernel

/-- A register that names no held command. -/
def notHeld : HState → Bool
  | .held _ => false
  | _ => true

set_option maxRecDepth 100000 in
/-- Addresses that the plain loads can read and the plain stores can write: of one access, of a vector register, gathered
and scattered. -/
theorem witness_PlainLoads :
    (∃ x, chunkRead 0x2000 8 (openChunk user) = .ok x) ∧ (addrOf (mf 0 0x2008) 8 user).toNat % 8 = 0 ∧
    oneAccess 0x2000 (activeRuns 32 user) (openChunk user) = .ok ((), openChunk user) ∧
    (match locateRuns .read 0x2000 (activeRuns 32 user) (openChunk user) with
      | .ok (ps, _) => good (readRuns 0x2000 (activeRuns 32 user) ps (openChunk user))
      | .error _ => false) = true ∧
    (∃ x, ((keepActive [true, false] [(0x2000 : Word64), 0]).mapM fun (p : Word64 × Nat) => do
        let b ← chunkRead p.1 4
        pure (ofBytes b)) (openChunk user) = .ok x) :=
  ⟨ok_of (by decide +kernel), by decide +kernel, by rfl, by decide +kernel, ok_of (by decide +kernel)⟩

theorem witness_PlainStores :
    (∃ x, chunkWrite 0x2000 (bytesOf 8 5) (openChunk user) = .ok x) ∧
    (match locateRuns .write 0x2000 (activeRuns 32 user) (openChunk user) with
      | .ok (ps, _) => good (writeRuns 0x2000 5 (activeRuns 32 user) ps (openChunk user))
      | .error _ => false) = true ∧
    (∃ x, ((keepActive [true, false] [((0x2000 : Word64), (5 : Nat)), (0, 5)]).forM fun p =>
        chunkWrite p.1.1 (bytesOf 4 p.1.2)) (openChunk user) = .ok x) ∧
    (match readH 0 (openChunk user) with
      | .ok ((v, st), u) => notHeld st && good (chunkWrite 0x2008 (bytesOf 8 v.toNat) u)
      | .error _ => false) = true :=
  ⟨ok_of (by decide +kernel), by decide +kernel, ok_of (by decide +kernel), by decide +kernel⟩

/-- A core whose job has eight event counters, whose cell has a quad of operand memory, and whose m1 makes element 0 alone
active; s0 holds an own-cell address of pane 1, s3 an event counter's, s4 a message destination, s5 the reference of slot 5. -/
def rich : State :=
  let r := scalars [(0, 0xFFF0000000040000), (3, 0xFFD0000000000038), (4, 0x80), (5, 5), (6, 15), (7, 16)]
  { userWith { r with msel := 1, m := r.m.setIfInBounds 1 1, pane := r.pane.setIfInBounds 0 0xA011 } with
    cells := [(0, { Cell.reset with roles := 0x5554 })]
    jobs := [(1, { Job.reset with trans1 := 0x8000000, ranges := [(15, ⟨0, 100, 4, 1⟩)] })] }

/-- A message in the queue of the core's cell. -/
def mailed : State :=
  { user with cells := [(0, { Cell.reset with recvQ := [⟨3, ⟨0, 5, 1, 0, 9⟩, 0, false⟩] })] }

/-- A gang of one whose shutter has closed around its routine. -/
def shutting : State :=
  { user with gangs := [(7, ⟨[(1, 0)], 1, true, 0, 0, 0, [], none, 0, 0, [], false, []⟩)]
              cores := [(0, { (user.core 0) with task := some { task1 with gang := some 7 } })] }

theorem rich_ready : Ready rich :=
  ⟨rfl, settled_of (by decide +kernel) (by decide +kernel) (by decide +kernel), ⟨by decide +kernel, by decide +kernel⟩,
    unbound_of (by decide +kernel)⟩

/-- A page of package 1, beside the local one. -/
def page2 : TlbEntry := { page1 with va := 2 ^ 21, tgt := 2, owner := 1 }

def far : State := user.setCluster 0 { user.cluster 0 with tlb := [page1, page2] }

theorem far_ready : Ready far := ⟨rfl, settled_of rfl rfl rfl, ⟨rfl, rfl⟩, unbound_of (by decide +kernel)⟩

/-- A pane that can be used and read and written at element 0; sectors that can be read. -/
theorem witness_PaneEscapeAndSplitWords :
    (match paneAt (addrOf (mf 0 0) 32 rich) (openChunk rich) with
      | .ok (p, _) => good (p.load rich.src.frm ((keepActive (active rich p.count) ((List.range p.count).map (0 + ·))).map (·.1)) (openChunk rich))
        && good (p.store rich.src.frm (List.zipWith (fun (k : Nat × Nat) c => ((0 + k.1, k.1 % 128, k.2), c))
          (List.zip (List.range p.count) (elemsN 32 p.count (rich.src.v.get 0).toNat)) (active rich p.count)) (openChunk rich))
      | .error _ => false) = true ∧
    paneAt (addrOf (mf 0 0) 32 rich) (openChunk rich) = .ok (⟨17, 0, 0, 0, 17, 0, 0xFFF0000000040000⟩, openChunk rich) ∧
    rich.svc.logMode ≠ 2 ∧
    (match locate (openChunk user) ((openChunk user).ctx user.cur) .read 0x2000 8 with
      | .ok ps => ps.all (fun p => !isRemote (p.1 / 128)) && good (readPiecesPo true 0x2000 ps (openChunk user))
      | .error _ => false) = true ∧
    locate (openChunk far) ((openChunk far).ctx far.cur) .read 0x200008 8 = .ok [(remoteKey 1 8, 8)] ∧ isRemote (remoteKey 1 8 / 128) = true ∧
    (openChunk far).chunk.remote.find (remoteKey 1 8 / 128) = none ∧ (openChunk far).chunk.span = none :=
  ⟨by decide +kernel, by rfl, by decide +kernel, by decide +kernel, by rfl, by decide +kernel, by decide +kernel, by decide +kernel⟩

/-- A copy command that the chunk has room for, in mode 0b101 too, and tiles of each outcome. -/
theorem witness_EngineCommandWords :
    (addrOf (mf 0 0x2000) 64 sup).toNat % 64 = 0 ∧ fld sup.src.frm 2 0 ≠ 5 ∧ fld (5 : Word64) 2 0 = 5 ∧
    (∃ x, chunkRead (0x2000 + 16) 8 (openChunk sup) = .ok x) ∧
    (openChunk sup).chunk.commands < 16 ∧ (openChunk sup).chunk.span = none ∧
    (0x2010 : Word64).toNat % 32 ≠ 0 ∧ (0xFFC0000000000000 : Word64).toNat % 32 = 0 ∧
    0xFFC ≤ apertureOf 0xFFC0000000000000 ∧ ¬ 0xFFC ≤ apertureOf 0x2000 ∧
    (match tileRows 0x2000 32 (List.range 16) (openChunk sup) with
      | .ok ((bs, ls, code), t) => decide (bs.length = 512) && decide (code = 0) &&
          good (pinLines 0 ls.eraseDups t)
      | .error _ => false) = true :=
  ⟨by decide +kernel, by decide +kernel, by decide, ok_of (by decide +kernel), by decide +kernel, by decide +kernel,
    by decide, by decide, by decide, by decide, by decide +kernel⟩

/-- A core with an h register in a state. -/
def handled (v : Word64) (st : HState) : State := userBy fun r => { r with h := r.h.setIfInBounds 0 v, hst := r.hst.setIfInBounds 0 st }

/-- A copy that its cluster has not finished. -/
def copying : CopyCmd :=
  { seq := 5, kid := 1, csn := 1, ord := 1, desc := 0, bad := 0, core := 0, stkBase := 0, stkLim := 0, cell := 0, frm := 0, sidx := 0,
    claims := [], running := false, gang := none, wseed := 0, wtab := 0, srcs := [], snap := [], remote := [] }

/-- A core with the handle of that copy, and one with the handle of a tile fetch that has not ended. -/
def copies : State :=
  let s := handled (mkHandle 0 0 0 0 0 0 0 5) .pending
  s.setCluster 0 { s.cluster 0 with copyQ := [copying] }

def fetches : State := userBy fun r =>
  { r with h := r.h.setIfInBounds 0 (mkHandle 0 1 0 0 0 0 0 5), hst := r.hst.setIfInBounds 0 .pending,
           slots := r.slots.setIfInBounds 0 ⟨.fetching, 5, none, 0, [], 0⟩ }

/-- The state of an h register as an instruction finds it. -/
def foundAt (s : State) : HState := ((openChunk s).freshH s.cur (openChunk s).regs (hIdx 0)).hst.get (hIdx 0)

theorem witness_HandleWords :
    foundAt user = .settled ∧ foundAt (handled 0 .stale) = .stale ∧ foundAt (handled 0 .atomic) = .atomic ∧
    foundAt copies = .pending ∧ hKind (mkHandle 0 0 0 0 0 0 0 5) = 0 ∧ foundAt fetches = .pending ∧
    hKind (mkHandle 0 1 0 0 0 0 0 5) ≠ 0 ∧ Runs copies ∧ (openChunk user).chunk.commands < 16 ∧
    foundAt (handled 0 (.held 5)) = .held 5 ∧ (openChunk (handled 0 (.held 5))).chunk.holdsCopy 5 = false ∧
    (let s := (openChunk (handled 0 (.held 5))).modChunk fun k => { k with held := [.copy 5 0 0 0 0 0 0] }
     foundAt s = .held 5 ∧ (openChunk s).chunk.holdsCopy 5 = true) := by
  simp only [Runs]
  decide +kernel

/-- Fold steps, dense and sparse, of registers; step words and sparse metadata that are bad; a full queue. -/
theorem witness_MatrixWords :
    (openChunk user).regs.mq.length < 8 ∧ stepBad false 7 = false ∧ stepBad true 7 = false ∧ fld (7 : Word64) 4 0 < 15 ∧
    bNaming false (fld (7 : Word64) 4 0) 0 8 = false ∧ bNaming true (fld (7 : Word64) 4 0) 0 8 = false ∧
    (metaWords (BitVec.ofNat 4096 0) 0).all (metaOk (keptOf 7)) = true ∧
    (metaWords (BitVec.ofNat 4096 (2 ^ 2112 - 2 ^ 2048)) (groups24 7)).all (metaOk (keptOf 7)) = false ∧
    (∀ sparse : Bool, (match readVs (operandRegs 0 4 false 512) [(20, 7)] (openChunk user) with
      | .ok (ra, t) => good (readOperand 0 4 false 512 ra t) &&
          (match readVs (operandRegs 0 8 false (bBytes sparse (fld (7 : Word64) 4 0))) ra t with
            | .ok (rb, u) => good (readOperand 0 8 false (bBytes sparse (fld (7 : Word64) 4 0)) rb u) && decide (u.regs.mq.length < 8)
            | .error _ => false)
      | .error _ => false) = true) ∧
    8 ≤ (openChunk (userBy fun r => { r with mq := List.replicate 8 ⟨1, 0, 0, 0, [], .zero, 0⟩ })).regs.mq.length ∧
    stepBad false 31 = true ∧ stepBad true 8 = true ∧ bNaming false 15 0 8 = false ∧ bNaming false 15 0 9 = true ∧
    bNaming true 7 1 1 = true := by decide +kernel

/-- Readouts in a mode other than 0b101 and in it; a save area that can be written and read. -/
theorem witness_AccumulatorWords :
    (openChunk weaving).regs.mq.length < 8 ∧ fld user.src.frm 2 0 ≠ 5 ∧ fld (0x00030005 : Word64) 2 0 = 5 ∧
    (match weaveRow (fld (0x00030005 : Word64) 27 16) (openChunk weaving) with
      | .ok (_, t) => decide (t.regs.mq.length < 8)
      | .error _ => false) = true ∧
    (addrOf (mf 0 0x2000) 128 user).toNat % 128 = 0 ∧
    ((openChunk user).regs.mq.any fun o => o.accs.contains ((3 : BitVec 5).extractLsb' 0 2)) = false ∧
    (∃ x, chunkWrite 0x2000 ((((openChunk user).regs.acc 3).1 ++ ((openChunk user).regs.acc 3).2).map (bytesOf 4)).flatten
      (openChunk user) = .ok x) ∧
    (∃ x, chunkRead 0x2000 2048 (openChunk user) = .ok x) :=
  ⟨by decide +kernel, by decide +kernel, by decide, by decide +kernel, by decide +kernel, by decide +kernel,
    ok_of (by decide +kernel), ok_of (by decide +kernel)⟩

theorem witness_WeaveWords : canonical 0x1000 = true ∧ apertureOf 0x1000 < 0xFFC ∧ (0x1000 : Word64).toNat % 4096 = 0 ∧
    (4096 : Word64).toNat ≤ 4096 := by decide

/-- Control registers of each kind, read and written by a task and by the supervisor; flags that a queued operation has still to set. -/
theorem witness_ControlRegisterWords :
    ((openChunk user).readCreg 0 2).isSome = true ∧ (openChunk user).quiet = true ∧ ((openChunk user).readCreg 0 4).isSome = true ∧
    ((openChunk user).readCreg 0 8).isSome = true ∧ user.supervisor = false ∧ user.svc.logMode ≠ 2 ∧
    (((openChunk sup).applySup []).readSup 48).isSome = true ∧ (user.regs.writeCreg 2 7).isSome = true ∧
    (user.regs.writeCreg 4 7).isSome = true ∧ (openChunk user).regs.flagsDue = false ∧
    (let s := userBy fun r => { r with vq := [⟨1, 0, 4, [], 1⟩] }
     (openChunk s).quiet = false ∧ (openChunk s).regs.flagsDue = true) ∧
    (sup.writeSup 48 0).isSome = true := by decide +kernel

/-- A task and the supervisor, at the boundary numbers: 17 and 18, 47 and 48, 62 and 63, and the registers that are not written. -/
theorem witness_PrivilegeFaults : user.supervisor = false ∧ sup.supervisor = true ∧ ¬ 48 ≤ (47 : BitVec 7).toNat % 64 ∧
    48 ≤ (48 : BitVec 7).toNat % 64 ∧ 48 ≤ (62 : BitVec 7).toNat % 64 ∧ (63 : BitVec 7).toNat % 64 = 63 ∧
    ¬ 18 ≤ (17 : BitVec 7).toNat % 64 ∧ 18 ≤ (18 : BitVec 7).toNat % 64 ∧ (18 : BitVec 7).toNat % 64 < 48 ∧ (47 : BitVec 7).toNat % 64 < 48 ∧
    (64 : BitVec 7).toNat % 64 = 0 ∧ (65 : BitVec 7).toNat % 64 = 1 ∧ (7 : BitVec 7).toNat % 64 = 7 ∧ (8 : BitVec 7).toNat % 64 = 8 ∧
    (55 : BitVec 7).toNat % 64 = 55 ∧ (61 : BitVec 7).toNat % 64 = 61 ∧
    ((openChunk user).readCreg 0 17).isSome = true ∧ ((openChunk user).readCreg 0 18).isSome = false ∧
    ((openChunk sup).readSup 48).isSome = true ∧ ((openChunk sup).readSup 62).isSome = true ∧ ((openChunk sup).readSup 63).isSome = false := by
  decide +kernel

/-- Operands of a `sys` function of the right formats and of wrong ones. -/
theorem witness_SystemFunctions : CounterOk (openChunk sup) 0 ∧ ¬ CounterOk (openChunk sup) 8 ∧ ppathBad 0 = false ∧
    ppathBad 0x8000 = true ∧ tlbargBad 0x400 = false ∧ tlbargBad 0 = true ∧ keyidBad 1023 = false ∧ keyidBad 1024 = true ∧
    (0x40 : Word64).toNat % 64 = 0 ∧ (0x41 : Word64).toNat % 64 ≠ 0 := by
  refine ⟨.inl rfl, ?_, ?_⟩
  · rintro (h | h)
    · exact absurd h (by decide)
    · exact absurd h.1 (by decide)
  · decide +kernel

/-- Records that the supervisor can name and read, outside a span and a shutter routine. -/
theorem witness_TaskWords : RecordAt (openChunk sup) 0x2000 ∧
    (openChunk sup).coreLines (openChunk sup).cur < (openChunk sup).capacity (openChunk sup).cur ∧
    (match chunkRead (0x2000 + 16) 8 (openChunk sup) with
      | .ok (b, t) => decide (ofBytes b = 0) && (match chunkWrite 0x6C00 (List.replicate 64 0) t with
        | .ok (_, v) => decide (v.coreLines v.cur < v.capacity v.cur)
        | .error _ => false)
      | .error _ => false) = true ∧
    (openChunk user).chunk.span = none ∧ user.shutGang user.cur = none :=
  ⟨⟨by decide, ok_of (by decide +kernel)⟩, by decide +kernel, by decide +kernel, by decide +kernel, by decide +kernel⟩

/-- Inside a span, inside a shutter routine, and addresses that are not aligned. -/
theorem witness_EndingAndAlignmentFaults : (openChunk (ran (.span 4) user)).chunk.span.isSome = true ∧
    Runs (ran (.span 4) user) ∧ (shutting.shutGang shutting.cur).isSome = true ∧ (openChunk shutting).chunk.span = none ∧
    user.shutGang user.cur = none ∧ (addrOf (mf 0 0x207F) 8 user).toNat % 8 ≠ 0 ∧ (addrOf (mf 0 0x207F) 128 user).toNat % 128 ≠ 0 ∧
    (let a := addrOf (mf 0 0x207F) 4096 user
     canonical a = true ∧ apertureOf a < 0xFFC ∧ a.toNat % 4096 ≠ 0) ∧
    (openChunk user).chunk.span = none ∧ (openChunk user).chunk.n = 0 ∧
    (let a := addrOf ⟨false, 0, 3, false, false, 0, 0, 1⟩ 8 rich
     apertureOf a = 0xFFD ∧ a.toNat % 8 ≠ 0) ∧
    (rich.src.s.get 6).toNat % 64 ≠ 0 := by
  refine ⟨by decide +kernel, rfl, ?_⟩
  decide +kernel

/-- Destinations that name a core and that do not, a message that waits and an empty queue. -/
theorem witness_MessageWords : fld (0x1780 : Word64) 63 26 = 0 ∧ fld (0x1780 : Word64) 12 7 < 48 ∧ fld (0x1800 : Word64) 12 7 = 48 ∧
    (openChunk user).coreLines user.cur < (openChunk user).capacity user.cur ∧
    ((openChunk mailed).nextMsg mailed.cur ((openChunk mailed).ctx mailed.cur).kid none).isSome = true ∧
    (openChunk user).nextMsg user.cur ((openChunk user).ctx user.cur).kid none = none ∧ Runs mailed ∧ mailed.svc.logMode ≠ 2 := by
  refine ⟨by decide, by decide, by decide, by decide +kernel, by decide +kernel, by decide +kernel, rfl, by decide +kernel⟩

/-- Words that the atomics may write: in memory and the last event counter; a range that exists and one that does not. -/
theorem witness_AtomicWords : (openChunk rich).chunk.span = none ∧ (openChunk rich).chunk.n = 0 ∧
    (0x2038 : Word64).toNat % 8 = 0 ∧ apertureOf 0x2038 < 0xFFC ∧
    (∃ ps, locate (openChunk rich) ((openChunk rich).ctx rich.cur) .write 0x2038 8 = .ok ps) ∧
    apertureOf (addrOf ⟨false, 0, 3, false, false, 0, 0, 0⟩ 8 rich) = 0xFFD ∧
    (∃ ps, locate (openChunk rich) ((openChunk rich).ctx rich.cur) .write 0xFFD0000000000038 8 = .ok ps) ∧
    apertureOf (addrOf (mf 0 0x2000) 8 user) ≠ 0xFFD ∧
    (rich.src.s.get 6).toNat < 16 ∧ (((openChunk rich).job ((openChunk rich).ctx rich.cur).kid).ranges.find 15).isSome = true ∧
    16 ≤ (rich.src.s.get 7).toNat ∧ ((openChunk rich).job ((openChunk rich).ctx rich.cur).kid).ranges.find 5 = none :=
  ⟨by decide +kernel, by decide +kernel, by decide, by decide, ok_of (by decide +kernel), by decide +kernel, ok_of (by decide +kernel),
    by decide +kernel, by decide +kernel, by decide +kernel, by decide +kernel, by decide +kernel⟩

theorem witness_HoopAndShutterWords : RecordAt (openChunk sup) 0x2040 ∧
    (openChunk user).chunk.span = none ∧ user.svc.logMode ≠ 2 ∧ (shutting.shutGang shutting.cur).isSome = true ∧ Runs shutting ∧
    Settled shutting ∧ Full shutting :=
  ⟨⟨by decide, ok_of (by decide +kernel)⟩, by decide +kernel, by decide +kernel, by decide +kernel,
    rfl, settled_of (by decide +kernel) (by decide +kernel) (by decide +kernel), by decide +kernel, by decide +kernel⟩

/-! ### Events -/

/-- The task's core, changed, and the supervisor's. -/
def at0 (f : Core → Core) : State := user.modCore 0 f
def atSup (f : Core → Core) : State := sup.modCore firstSup f

/-- A vector operation of no more beats, with another behind it; a matrix operation. -/
theorem witness_VectorAndMatrixEvents :
    let o : VOp := ⟨1, 0, 0, [], 0⟩
    let s := userBy fun r => { r with vq := [o, ⟨2, 0, 4, [], 0⟩], mq := [⟨1, 0, 0, 0, [], .zero, 0⟩] }
    s.paused = false ∧ (s.core (0 * 4 + 0)).regs.vHead.isSome = true ∧ (∀ k, k < 4 → k ≠ 0 → (s.core (0 * 4 + k)).regs.vHead = none) ∧
    (s.core 0).regs.vq = [o, ⟨2, 0, 4, [], 0⟩] ∧ o.beats = 0 ∧ (∀ x ∈ [(⟨2, 0, 4, [], 0⟩ : VOp)], x.id ≠ o.id) ∧
    ((List.range 4).map fun j => 0 * 4 + ((s.cell 0).mptr + j) % 4).find? (fun i => !(s.core i).regs.mq.isEmpty) = some 0 ∧
    (s.core 0).regs.mq = [⟨1, 0, 0, 0, [], .zero, 0⟩] := by decide +kernel

/-- A flight of a kind, with the poison that its reply carries, and a core that waits for it. -/
def flight (k : FlightKind) (p : Option Word64) : Flight := ⟨3, 0, k, [], 0, p, [], [], 0, 0, 0, [], 0, 0⟩
def flies (k : FlightKind) (p : Option Word64) : State := userBy fun r => { r with flights := [flight k p] }

/-- Levels of a job's tables: the leaf maps four gigabytes at address 0. -/
def tables (leaf : Nat) : State :=
  { State.reset with
    mem := memWriteN (memWriteN (memWriteN [] 0x10000 (bytesOf 8 0x11001)) 0x11000 (bytesOf 8 0x12001)) 0x12000 (bytesOf 8 leaf)
    jobs := [(0, { Job.reset with trans0 := 0x10000 })]
    clusters := [(0, { Cluster.reset with walks := [⟨4, 0, 5, .read, false, [], true⟩, ⟨5, 0, 6, .read, true, [], true⟩] })] }

/-- A core waits for a window of the table at an address. -/
def awaitsAt (s : State) (base : Nat) : State :=
  let w := BitVec.ofNat 64 (2 ^ 51 + base / 4096)
  (openChunk s).modMe fun c => { c with need := .weave 0, src := { c.src with wtab := w } }

/-- A task's core in a domain of two, whose tables map all of package 1's first four gigabytes. -/
def mapped : State :=
  let t := tables (11 * 2 ^ 6 + 7 + 2 ^ 53 + 2 ^ 54)
  { user with mem := t.mem, jobs := [(1, { Job.reset with trans0 := 0x10000 })], domain := true, npkg := 2
              lineKey := [(0x10000 / 128, 1), (0x11000 / 128, 1), (0x12000 / 128, 1)] }

/-- Whether the window that a core awaitsAt has lines still to come, and whether it can be read. -/
def windowOf (s : State) : List Nat × Bool :=
  let w := (s.core s.cur).src.wtab
  ((s.linesAt (s.ctx s.cur) (windowAddr w 0) windowBytes).filter fun l => isRemote l && (s.chunk.remote.find l).isNone,
    (s.readNowFrom s.chunk.remote (s.ctx s.cur) (windowAddr w 0) windowBytes).2.isOk)

/-- Flights of each kind, streams that fetch ahead and drain, and windows that are awaited: one that can be read and one that
cannot. -/
theorem witness_LoadAndStreamEvents :
    let x : Flight := { flight .ldx none with todo := [(0, 0x2000, 8)] }
    let s := userBy fun r => { r with flights := [x] }
    ((flies .load none).core 0).regs.flights.find? (fun x => x.id == 3) = some (flight .load none) ∧
    ((flies .ldx none).core 0).regs.flights.find? (fun x => x.id == 3) = some (flight .ldx none) ∧
    (s.core 0).regs.flights.find? (fun x => x.id == 3) = some x ∧
    (∀ q ∈ x.todo, (earlierSectors 3 (s.core 0).regs.flights).contains (q.2.1 / 32) = false ∧ s.claimed (q.2.1 / 128) = false ∧
      s.inTransit (q.2.1 / 128) = false) ∧
    ((flies .ldreq none).core 0).regs.flights.find? (fun x => x.id == 3 && x.kind == .ldreq) = some (flight .ldreq none) ∧
    ((flies .ldreq (some 0x2000)).core 0).regs.flights.find? (fun x => x.id == 3 && x.kind == .ldreq) =
      some (flight .ldreq (some 0x2000)) ∧
    ((openChunk (bound (stream1 false 0 1))).core 0).run.isSome = true ∧
    ((openChunk (bound (stream1 false 0 1))).core 0).regs.stream 24 = some (stream1 false 0 1) ∧
    0 + 1 * ({ openChunk (bound (stream1 false 0 1)) with cur := 0 } : State).perReg (stream1 false 0 1) < (stream1 false 0 1).total ∧
    ((bound { stream1 true 0 0 with buf := 1 }).core 0).regs.stream 24 = some { stream1 true 0 0 with buf := 1 } ∧
    ((awaitsAt sup 0).core firstSup).need = .weave 0 ∧ ((awaitsAt sup 0).core firstSup).run.isSome = true ∧
    windowOf (awaitsAt sup 0) = ([], true) ∧ windowOf (awaitsAt user 0x400000) = ([], false) := by
  decide +kernel

/-- A copy that waits, one that is ready, a tile fetch that has not ended, a far atomic whose reply is awaited. -/
theorem witness_EngineEvents :
    (copies.cluster 0).copyQ.find? (fun c => !c.running) = some copying ∧ ((copies.cluster 0).copyQ.filter (·.running)).length < 8 ∧
    (let t := copies.setCluster 0 { copies.cluster 0 with copyQ := [{ copying with running := true }] }
     (t.cluster 0).copyQ.find? (fun c => c.seq == 5) = some { copying with running := true } ∧
     t.copyReady { copying with running := true } = true) ∧
    copying.gang = none ∧ (copies.core 0).regs.hst.get 0 = .pending ∧
    setPhase ((copies.core 0).regs.h.get 0) 0 0 = setPhase (mkHandle 0 0 0 copies.pkg (dieOf copying.core) (cluField copying.core) 0 5) 0 0 ∧
    (let t := userBy fun r => { r with slots := r.slots.setIfInBounds 3 ⟨.fetching, 5, some 0, 0, [], 0⟩ }
     ((t.core 0).regs.slots.get (slotIdx 3)).st = .fetching ∧ ((t.core 0).regs.slots.get (slotIdx 3)).chunk.isSome = true) ∧
    ((at0 fun c => { c with atomicOut := some 2 }).core 0).atomicOut = some 2 ∧ (user.core unitCore).atomicOut = none := by decide +kernel

/-- A walk that ends, one that faults, one that an invalidation has covered; a job's TLB invalidation; lines that their owner has and
one that has moved away; a core that waits for a line. -/
theorem witness_TranslationEvents :
    let s := tables (11 * 2 ^ 6 + 7)
    (s.cluster 0).walks.find? (fun x => x.id == 4) = some ⟨4, 0, 5, .read, false, [], true⟩ ∧
    (s.cluster 0).walks.find? (fun x => x.id == 5) = some ⟨5, 0, 6, .read, true, [], true⟩ ∧
    (match (s.walkNow 0 0 (5 * 4096)).2 with
      | .ok e => decide (e.va ≤ 5 * 4096 ∧ 5 * 4096 < e.va + e.size)
      | .error _ => false) = true ∧
    ((tables 0).walkNow 0 0 (5 * 4096)).2.isOk = false ∧
    (let t : State := { s with sysJobs := [⟨9, 3, 0, 0, 0⟩] }
     t.sysJobs.find? (fun x => x.id == 9 && x.f == 3) = some ⟨9, 3, 0, 0, 0⟩) ∧
    s.movedPage 0 0x2000 = none ∧ 0x2000 < hbmSize ∧ s.claimed (0x2000 / 128) = false ∧ s.inTransit (0x2000 / 128) = false ∧
    s.itemsOf 0 = [] ∧ s.batchesHold = false ∧ combinedWell (FwdReq.read 1 0 0 (0x2000 / 128) 0) = true ∧
    (let t : State := { State.reset with moved := [⟨0x2000, 4096, 1, 0, 1⟩] }
     t.movedPage 1 0x2FFF = some ⟨0x2000, 4096, 1, 0, 1⟩) ∧
    ((at0 fun c => { c with need := .remote 7 4 }).core 0).need = .remote 7 4 ∧ 0 ≠ unitCore := by decide +kernel

/-- The pages of a job with one page of four kilobytes at address 0. -/
def smallPage : State :=
  let s := tables 0x13001
  { s with mem := memWriteN (memWriteN s.mem 0x13000 (bytesOf 8 0x14001)) 0x14000 (bytesOf 8 7) }

/-- A package of two that counts a page, with a request for it. -/
def counting2 : State :=
  { smallPage with domain := true, npkg := 2, cyc := 96000, mig := [⟨0, [(1, 256)]⟩], migQ := [(0, 1)], clusters := [] }

/-- Counts that have reached the threshold; a page that its owner may move and one that arrives; a retarget; a key that retires; a
granule that has been copied, of one row and of a pseudo-channel's copy. -/
theorem witness_PageEvents :
    counting2.paused = false ∧ counting2.lastMig + 96000 ≤ counting2.cyc ∧ fld counting2.svc.migthr 15 0 ≠ 0 ∧
    (⟨0, [(1, 256)]⟩ : MigEntry) ∈ counting2.mig ∧ fld counting2.svc.migthr 15 0 ≤ 256 ∧ counting2.domain = true ∧ counting2.pkg = 0 ∧
    1 < counting2.npkg ∧ (0 / 4096, 1) ∈ counting2.migQ ∧ counting2.pageInUse 0 (4096 / 128) = false ∧
    counting2.pageInUse (remoteKey 1 0 / 128) (4096 / 128) = false ∧ 0 % 4096 = 0 ∧
    4096 % 4096 = 0 ∧ 0 + 4096 ≤ hbmSize ∧ (List.replicate 4096 (0 : Byte)).length = 4096 ∧
    (({ counting2 with keys := [(7, (.retiring, 0))] } : State).keys.get 7 (.free, 0)).1 = .retiring ∧
    (∀ j ∈ counting2.sysJobs, j.x.toNat ≠ 7) ∧
    (∀ r, ({ counting2 with transit := [⟨0, 2048, r⟩] } : State).transit = [⟨0, 2048, r⟩]) ∧ counting2.pkg ≠ 1 := by
  refine ⟨rfl, by decide +kernel, by decide +kernel, List.mem_singleton.2 rfl, by decide +kernel, rfl, by decide +kernel, by decide +kernel,
    List.mem_singleton.2 rfl, by decide +kernel, by decide +kernel, by decide, by decide, by decide +kernel, by decide +kernel, by decide +kernel,
    by decide +kernel, fun _ => rfl, by decide +kernel⟩

/-- The page that `witness_PageEvents` speaks of, has its group in the job's tables. -/
theorem witness_group : counting2.group 0 0 0 0 4096 ≠ [] := by decide +kernel

/-- Lines that L2 holds, addresses inside the decoded window and outside it, cells with no change to decide and with one, quads that
are to change. -/
theorem witness_HostAndCacheEvents :
    let w : Way := ⟨hostKey 0 / 128, 0, none, [], true, true⟩
    let s : State := State.reset.l2Put w
    s.snooping (hostKey 0 / 128) = true ∧ s.afterPause = false ∧ s.inHdm 0 8 = true ∧ s.inHdm (hbmSize - 4) 8 = false ∧
    hbmSize - 4 + 8 ≤ 2 ^ 52 ∧ (linesOf 0 8).any s.snooping = false ∧ (linesOf 0 8).any s.claimed = false ∧
    (linesOf 0 8).any s.inTransit = false ∧
    (let t : State := { State.reset with cyc := 96000, cells := [(0, { Cell.reset with cfgJob := 1, change := [(3, 0), (5, 1)], roles := 0x5155 })] }
     (t.cell 0).cfgJob ≠ 0 ∧ cmFixed (t.cell 0).cmcfg = false ∧ (t.cell 0).lastCarve + 96000 ≤ t.cyc ∧ (t.cell 0).decide63 = none ∧
     t.svc.logMode = 0 ∧ (t.cell 0).change.find 3 = some 0 ∧ t.quadFree 0 = true ∧ (t.cell 0).change.find 5 = some 1 ∧ (t.cell 0).role 5 ≠ 1) ∧
    ({ Cell.reset with cntA := 256, cntG := 16, cmcfg := BitVec.ofNat 64 (8 * 2 ^ 9 + 2 ^ 6), roles := 0x5554 } : Cell).decide63.isSome = true ∧
    Cell.reset.change = [] := by decide +kernel

/-- The supervisor's core with a task to start, to save or to resume. -/
def starts : State := atSup fun c => { c with wait := .start }
def saves : State := atSup fun c => { c with saveWhy := some .slice }
def resumes : State := at0 fun c => { c with wait := .resume }

theorem saveReady_of {s : State} {i : Nat} {m : NMap (BitVec 8 × BitVec 8)} (h1 : s.clusters = []) (h2 : s.transit = [])
    (h3 : s.token = []) (h4 : s.svc.logMode = 0) (h5 : s.paused = false) (h6 : (s.cell (cellOf i)).inject = [])
    (h7 : s.batchesFirst = false) : s.saveReady i m = true := by
  simp [State.saveReady, State.sentAll, State.heldBack, State.claimed, State.inTransit, State.tokenBlocks, State.admits, State.logRoom,
    h1, h2, h3, h4, h5, h6, h7]

/-- A save that can be made gives the bytes that it holds. -/
theorem saveCells_of {s : State} {i : Nat} {a : Word64} {d : Bool} (h : (s.saveCells i a d).isOk = true) :
    ∃ m, s.saveCells i a d = .ok m := by
  cases hx : s.saveCells i a d with
  | ok m => exact ⟨m, rfl⟩
  | error e => rw [hx] at h; cases h

/-- Held bytes of lines of this package that L2 does not hold. -/
theorem plain_of {s : State} {kid : Nat} {m : NMap (BitVec 8 × BitVec 8)}
    (h : ∀ p ∈ groupLines m, isRemote p.1 = false ∧ s.writerOf p.1 kid = kid ∧ s.l2Way p.1 = none) : Plain s kid m := by
  intro p hp
  obtain ⟨a, b, c⟩ := h p hp
  exact ⟨a, b, fun w hw => by rw [c] at hw; cases hw⟩

/-- A task that starts, ones that are saved, that cannot be, or end instead, and one that is resumed. -/
theorem witness_TaskEvents :
    let t := (starts.core firstSup).task
    starts.paused = false ∧ t.isSome = true ∧ (∀ x, t = some x →
      starts.anyClaimed (starts.startLines (starts.mates firstSup x)) = false ∧
      starts.notHere (starts.startLines (starts.mates firstSup x)) = [] ∧
      (starts.readAll (starts.ctx firstSup) x.startReads).2.isOk = true ∧ x.gang = none ∧ x.handlerOf = none) ∧
    (let x : Task := { task1 with contSave := some 0x200000 }
     let s : State := { mapped with cores := (at0 fun c => { c with wait := .start, task := some x }).cores }
     (s.core 0).task = some x ∧ s.anyClaimed (s.startLines (s.mates 0 x)) = false ∧ s.notHere (s.startLines (s.mates 0 x)) ≠ [] ∧
       s.mayRead (s.notHere (s.startLines (s.mates 0 x))) = true) ∧
    (starts.core firstSup).wait = .start ∧
    (∀ why, let s := atSup fun c => { c with saveWhy := some why }
      (s.core firstSup).saveWhy = some why ∧ (s.core firstSup).atRest = true ∧ (s.core firstSup).fault = none ∧
      (s.core firstSup).wait = .none ∧ s.shutGang firstSup = none) ∧
    (let s := atSup fun c => { c with wait := .shutter }
     (s.core firstSup).atRest = true ∧ (s.core firstSup).wait = .shutter) ∧
    ((user.saveCells 0 0x10000 false).isOk = false ∧ (user.core 0).atRest = true) ∧
    (resumes.core 0).wait = .resume ∧ (resumes.core 0).task = some task1 ∧ resumes.sentAll 0 = true ∧
    resumes.anyClaimed (resumes.resumeLines (resumes.mates 0 task1)) = false ∧
    resumes.notHere (resumes.resumeLines (resumes.mates 0 task1)) = [] ∧
    (regsOf ((0x300 * (1 + 2 ^ 64 + 2 ^ 128)) <<< (8 * (0x6E80 + 8 * 4)))).isSome = true ∧
    (at0 id).registrations = [] ∧ (at0 id).svc.logMode = 0 ∧
    (let b := ((at0 id).saveWalk 0 0x10000).dirtyAt ((at0 id).ctx 0) 0x10000 saveSize
     b.svc.logMode = 0 ∧ b.registrations = [] ∧ Plain b 1 [(0x2000, (0xFF, 7))]) ∧
    task1.gang = none ∧ (∀ y ∈ ((at0 id).core 0).regs.slots.toList, y.st ≠ .fetching) := by
  refine ⟨rfl, rfl, fun x h => ?_, by decide +kernel, rfl, fun why => ⟨rfl, rfl, rfl, rfl, rfl⟩, ⟨by decide +kernel, rfl⟩, by decide +kernel, rfl,
    rfl, by decide +kernel, by decide +kernel, by decide +kernel, by decide +kernel, rfl, rfl,
    ⟨by decide +kernel, by decide +kernel, plain_of (by decide +kernel)⟩, rfl, by decide +kernel⟩
  cases h; decide +kernel

/-- A context that can be saved now. -/
theorem witness_save : ∃ m, saves.saveCells firstSup 0x10000 false = .ok m ∧ saves.saveReady firstSup m = true := by
  obtain ⟨m, h⟩ := saveCells_of (s := saves) (i := firstSup) (a := 0x10000) (d := false) (by decide +kernel)
  exact ⟨m, h, saveReady_of (by decide +kernel) (by decide +kernel) (by decide +kernel) (by decide +kernel) (by decide +kernel)
    (by decide +kernel) (by decide +kernel)⟩

/-- The replay of a log of one entry, which is given, on the task's core. -/
def replays (w : Nat) (f : Core → Core) : State :=
  { at0 f with svc := { Service.reset with logMode := 2, logctl := 2, logptr := BitVec.ofNat 64 (2 ^ 28 + 8 * 2 ^ 58) }
               mem := memWriteN [] 0 (bytesOf 8 w) }

/-- Chunks that have reached their target, their limit, their logged length, or request their commit; offers that wait. -/
theorem witness_ChunkEvents :
    let k := (openChunk user).chunk
    let s := at0 fun c => { c with run := some { k with n := 1024 } }
    (s.core 0).wait = .none ∧ k.span = none ∧ k.ended = none ∧ k.fault = none ∧ (s.core 0).pend = none ∧ (s.core 0).target ≤ 1024 ∧
    1024 < 4096 ∧ s.svc.logMode ≠ 2 ∧ (s.core 0).speculating = false ∧
    (replays (2 ^ 60 + 4 * 2 ^ 32) fun c => { c with run := some { k with n := 5 } }).atReplayLen 0 = true ∧
    k.first = true ∧ ({ k with first := false } : Chunk).first = false ∧
    (let p := { k with n := 4096, ended := some .plain }
     let t := at0 fun c => { c with pend := some p }
     (t.core 0).requested = false ∧ t.mayRequest 0 p = true ∧ p.atomic = none ∧ t.heldMissing 0 p = []) ∧
    (let p := { k with held := [.tspawn 0x200000] }
     mapped.heldMissing 0 p ≠ [] ∧ mapped.mayRead (mapped.heldMissing 0 p) = true) ∧
    (let t := at0 fun c => { c with pend := some k, requested := true }
     (t.cluster 0).offer = none ∧ roundRobin (coresOf 0) (t.cluster 0).ptr t.asksLatch = some 0 ∧
     (let u := t.setCluster 0 { t.cluster 0 with offer := some 0 }
      (u.die 0).offer = none ∧ roundRobin (clustersOf 0) (u.die 0).ptr (fun cl => (u.cluster cl).offer.isSome) = some 0)) := by
  decide +kernel

/-- A ready entry of one task. -/
def entry1 : Entry := ⟨3, [task1], 0, none⟩

/-- A chunk whose only bundle is a far atomic to package 1. -/
def farChunk : Chunk :=
  { (openChunk user).chunk with n := 1, ended := some .atomic, atomic := some (.fatom 0 1 0 2 (remoteKey 1 0x2000)) }
def farAtomic : State := at0 fun c => { c with run := none, pend := some farChunk }

/-- A log that replays: at its limit, and with an entry of no KIND. -/
def replaying (lim : Word64) : State :=
  { State.reset with svc := { Service.reset with logMode := 2, logctl := lim } }

/-- A chunk of one store that ends plainly, and the core where it is pending; another core runs a chunk that the store meets. -/
def storing : Chunk :=
  { (openChunk user).chunk with n := 1, ended := some .plain, stores := [(0x2000, (0xFF, 7))], wsig := sigAdd (openChunk user).chunk.wsig (0x2000 / 128) }
def commits : State :=
  (at0 fun c => { c with run := none, pend := some storing }).modCore 1 fun c => { c with run := some { storing with rsig := storing.wsig } }

/-- A chunk that can be granted, and what its signature meets. -/
theorem witness_GrantOfAChunk :
    commits.svc.logMode = 0 ∧ commits.registrations = [] ∧ (commits.core 0).pend = some storing ∧ (commits.core 0).run = none ∧
    storing.ended = some .plain ∧ storing.held = [] ∧ storing.afterError = false ∧
    (∀ x ∈ (commits.core 0).regs.slots.toList, x.chunk ≠ some storing.seq) ∧ groupLines storing.stores ≠ [] ∧
    Plain commits task1.kid storing.stores ∧
    (commits.core 1).pend = none ∧ meetsOpt storing.wsig (commits.core 1).run = true ∧
    meetsOpt storing.wsig (commits.core 2).run = false := by
  refine ⟨rfl, rfl, by decide +kernel, by decide +kernel, rfl, rfl, rfl, by decide +kernel, by decide +kernel, plain_of (by decide +kernel), ?_⟩
  decide +kernel

/-- A log at its limit, an entry of no assigned KIND, items that wait, and a far atomic to another package. -/
theorem witness_GrantEvents :
    (replaying 0).logOver = true ∧ (replaying 0).svc.logMode = 2 ∧ (replays 0 id).badEntry = true ∧ (replays 0 id).logOver = false ∧
    (let s : State := { State.reset with items := [.batch 1, .host [] none none], parts := [] }
     s.paused = false ∧ s.logOver = false ∧ s.badEntry = false ∧ s.picks ≠ []) ∧
    farAtomic.paused = false ∧ farAtomic.svc.logMode = 0 ∧ (farAtomic.core 0).task = some task1 ∧
    (farAtomic.core 0).pend = some farChunk ∧ isRemote (remoteKey 1 0x2000 / 128) = true ∧ farAtomic.mayRequest 0 farChunk = true ∧
    (farAtomic.core 0).lastPart = none ∧ farChunk.stores = [] ∧ farChunk.afterError = false ∧ (farAtomic.core 0).run = none ∧
    farAtomic.registrations = [] := by
  refine ⟨by decide +kernel, rfl, by decide +kernel, by decide +kernel, ⟨rfl, by decide +kernel, by decide +kernel, by decide +kernel⟩, ?_⟩
  decide +kernel

/-- A message on its way to core 5, and from core 5. -/
def msg1 : Msg := ⟨5, 0, 1, 0, 9⟩

/-- A slot descriptor: one member, map at 0x4000, a time of one microsecond. -/
def desc1 : BitVec 512 := BitVec.ofNat 512 (0x4000 + (5 + 2 ^ 12) * 2 ^ 64 + 2 ^ 12 * 2 ^ 128 + 2 ^ 32 * 2 ^ 192)

/-- A slot in use whose round runs out of time. -/
def hooped : State :=
  { State.reset with dt := 100, hoops := [(5, { newHoop 0 0x3000 desc1 with timer := some 100, voters := [(0, 5, 1)] })] }

/-- The supervisor's core as the one member of a shutter gang, whose list says one phase and one member; nothing transfers. -/
def gathered (phase : Nat) (out : Option (Bool × Bool)) : State :=
  let s := atSup fun c => { c with wait := .shutter, run := none, pend := none }
  { s with
    mem := memWriteN s.mem 0x20000 (bytesOf 8 1)
    gangs := [(7, ⟨[((sup.me.task.map (·.id)).getD 0, firstSup)], 1, true, 0x20000, phase, 0,
      [((sup.me.task.map (·.id)).getD 0, none)], out, 0, 0, [], false, []⟩)] }

/-- A slot in use of the job of the tables, with the first byte of its arrival map. -/
def voting (b : Byte) : State :=
  let s := tables (11 * 2 ^ 6 + 7)
  { s with mem := memWriteN s.mem 0x4000 [b], hoops := [(5, newHoop 0 0x3000 desc1)] }

/-- What a member's two bits are there: V and D. -/
def bitsAt (b : Byte) : Bool × Bool := ((voting b).mapBits (newHoop 0 0x3000 desc1) 0 true).2

/-- Messages that leave, arrive, find no core, no package, a sealed cell, a key that is gone; parts that go on, are for another
package, in time and late; a batch that is due; a hold of stage 0. -/
theorem witness_MessageHoopAndWindowEvents :
    ({ Cell.reset with inject := [.msg msg1 0] } : Cell).inject = [.msg msg1 0] ∧ State.reset.packageExists (msg1.dst.toNat / 2 ^ 16) = true ∧
    State.reset.packageExists ((3 * 2 ^ 16 : BitVec 26).toNat / 2 ^ 16) = false ∧
    State.reset.mayInject (.req (.vote 1 ⟨0, 0, 0, true, 0, 0, 0⟩) 0 0) = true ∧
    coreOfId ((0x1900 : BitVec 26).toNat % 2 ^ 16) = none ∧
    coreOfId (msg1.dst.toNat % 2 ^ 16) = some 5 ∧ msg1.dst.toNat / 2 ^ 16 = user.pkg ∧ user.keyGone msg1.kid = false ∧
    user.keyGone 2 = true ∧
    (user.cell (cellOf 5)).sealed_ = false ∧ (user.cell (cellOf 5)).hasEntry 5 = true ∧
    ((user.setCell 1 { user.cell 1 with sealed_ := true }).cell (cellOf 5)).sealed_ = true ∧
    (let s := at0 fun c => { c with wait := .window 0 }
     (s.core 0).wait = .window 0 ∧ 0 ≤ s.window) ∧
    (let p : Part := ⟨3, 1, 1, 1, 0, 0x2000, 0, 0⟩
     p.home = State.reset.pkg ∧ State.reset.movedPage p.kid p.addr = none ∧ State.reset.lastBatch = none ∧ (3 : Nat) ≠ State.reset.pkg ∧
     (({ State.reset with moved := [⟨0x2000, 4096, 1, 0, 1⟩] } : State).movedPage 1 p.addr).isSome = true ∧
     ({ State.reset with lastBatch := some 3 } : State).lastBatch = some p.win ∧
     (let s : State := { State.reset with parts := [p], dt := 100000 }
      s.batchDue 3 = true ∧ s.hasBatch 3 = false ∧ (∀ q ∈ s.parts, 3 ≤ q.win))) ∧
    (Out.vote 1 ⟨0, 0, 0, true, 0, 0, 0⟩).combines = true := by
  decide +kernel

/-- Joins of each kind, a slot that is free and one that is in use; votes and drops by their member's bits; a round that is over and
one that is not; queries and results that are awaited. -/
theorem witness_hoops :
    hoopBad desc1 = false ∧ hoopBad 0 = true ∧ fld (word512 desc1 1) 11 0 = 5 ∧
    ((tables (11 * 2 ^ 6 + 7)).mapOk 0 (word512 desc1 0) ((fld (word512 desc1 1) 37 12 + 255) / 256 * 64)).2 = true ∧
    ((tables 0).mapOk 0 (word512 desc1 0) ((fld (word512 desc1 1) 37 12 + 255) / 256 * 64)).2 = false ∧
    (tables (11 * 2 ^ 6 + 7)).hoops.find 5 = none ∧ ((voting 0).expireFirst 5).hoops.find 5 = some (newHoop 0 0x3000 desc1) ∧
    hrefSlot 5 = 5 ∧ hrefMidx 5 = 0 ∧ (newHoop 0 0x3000 desc1).nmem = 1 ∧ hrefMidx (5 + 2 ^ 12) = 1 ∧
    bitsAt 0 = (false, false) ∧ bitsAt 1 = (true, false) ∧ bitsAt 2 = (false, true) ∧
    (hooped.hoops.find 5).map (·.timer) = some (some 100) ∧ 100 ≤ hooped.dt ∧ ({ hooped with dt := 99 } : State).dt < 100 ∧
    ((flies .hoopq none).core 0).hoopqFlight = some (flight .hoopq none) ∧ user.slotHome (hrefSlot 5) = user.pkg ∧
    (user.core 0).spec = none ∧
    (let p : Spec := ⟨true, (0, [], Vector.replicate 3 0), 0, false, 0, 4⟩
     ((at0 fun c => { c with spec := some p }).core 0).spec = some p ∧ p.resolved = false) := by
  decide +kernel

/-- A shutter whose member has closed, one that opens its next phase, one that is to be saved, and one that ends. -/
theorem witness_Shutter :
    (∀ g, (gathered 0 none).gangs.find 7 = some g → g.members ≠ [] ∧ g.shut = true ∧ g.restart = false ∧
      (∀ x ∈ g.members, g.ended.any (·.1 == x.1) = true) ∧ (g.members.map (·.2)).Nodup ∧
      (let used := ((gathered 0 none).closureLines ((gathered 0 none).ctx firstSup) g).eraseDups
       (gathered 0 none).anyClaimed used = false ∧ (gathered 0 none).notHere used = []) ∧
      (∀ p ∈ (gathered 0 none).gangs, p.2.todo = []) ∧
      ((gathered 0 none).transferList ((gathered 0 none).ctx firstSup) g).2 = .ok []) ∧
    (∀ p, ∀ g, (gathered p (some (true, true))).gangs.find 7 = some g → g.out.isSome = true ∧ g.transfers = 0 ∧ g.phase = p) ∧
    (∀ g, (gathered 0 (some (true, true))).gangs.find 7 = some g →
      (gathered 0 (some (true, true))).allAtBarrier g = true ∧ (gathered 0 (some (true, true))).sentWithin g = true ∧
      (∀ x ∈ g.members, ((gathered 0 (some (true, true))).core x.2).saveWhy = none) ∧
      (let used := ((gathered 0 (some (true, true))).openingLines ((gathered 0 (some (true, true))).ctx firstSup) g).eraseDups
       (gathered 0 (some (true, true))).anyClaimed used = false ∧ (gathered 0 (some (true, true))).notHere used = []) ∧
      ((gathered 0 (some (true, true))).nextPhase ((gathered 0 (some (true, true))).ctx firstSup) g).2.isOk = true ∧
      ((gathered 0 (some (true, true))).routines ((gathered 0 (some (true, true))).ctx firstSup) g).2.isOk = true) ∧
    (let s := (gathered 0 (some (true, true))).modCore firstSup fun c => { c with saveWhy := some .slice }
     ∀ g, s.gangs.find 7 = some g → s.allAtBarrier g = true ∧ (∃ x ∈ g.members, (s.core x.2).saveWhy = some .slice)) := by
  refine ⟨fun g h => ?_, fun p g h => ?_, fun g h => ?_, fun g h => ?_⟩
  · cases h; decide +kernel
  · cases h; exact ⟨rfl, rfl, rfl⟩
  · cases h; decide +kernel
  · cases h; exact ⟨by decide +kernel, _, List.mem_singleton.2 rfl, by decide +kernel⟩

/-- The task's core as the one member of a shutter gang with its list at an address of package 1, and at one that no page maps. -/
def gatheredAt (s : State) (list : Word64) (out : Option (Bool × Bool)) : State :=
  let s := s.modCore 0 fun c => { c with wait := .shutter, run := none, pend := none }
  { s with gangs := [(7, ⟨[(1, 0)], 1, true, list, 0, 0, [(1, none)], out, 0, 0, [], false, []⟩)] }

/-- Lists of other packages, asked for at the closure and at the opening; a list whose word cannot be read, and one with no such
phase. -/
theorem witness_ShutterLists :
    (∀ g, (gatheredAt mapped 0x200000 none).gangs.find 7 = some g →
      let s := gatheredAt mapped 0x200000 none
      let used := (s.closureLines (s.ctx 0) g).eraseDups
      s.anyClaimed used = false ∧ s.notHere used ≠ [] ∧ s.mayRead (s.notHere used) = true) ∧
    (∀ g, (gatheredAt mapped 0x200000 (some (true, true))).gangs.find 7 = some g →
      let s := gatheredAt mapped 0x200000 (some (true, true))
      let used := (s.openingLines (s.ctx 0) g).eraseDups
      s.allAtBarrier g = true ∧ s.sentWithin g = true ∧ s.anyClaimed used = false ∧ s.notHere used ≠ [] ∧
        s.mayRead (s.notHere used) = true) ∧
    (∀ g, (gatheredAt user 0x400000 (some (true, true))).gangs.find 7 = some g →
      let s := gatheredAt user 0x400000 (some (true, true))
      s.allAtBarrier g = true ∧ s.sentWithin g = true ∧ s.notHere ((s.openingLines (s.ctx 0) g).eraseDups) = [] ∧
        (s.nextPhase (s.ctx 0) g).2.isOk = false) ∧
    (∀ g, (gathered 5 (some (false, true))).gangs.find 7 = some g →
      let s := gathered 5 (some (false, true))
      s.anyClaimed (s.openingLines (s.ctx firstSup) g).eraseDups = false ∧ s.notHere (s.openingLines (s.ctx firstSup) g).eraseDups = [] ∧
        (s.routines (s.ctx firstSup) g).2.isOk = false) := by
  refine ⟨fun g h => ?_, fun g h => ?_, fun g h => ?_, fun g h => ?_⟩ <;> (cases h; decide +kernel)

/-- A ring of the package once it is brought up, and the record at its head. -/
def ringed : State :=
  ({ State.reset with resets := 1, npkg := 1, svc := { Service.reset with pkgSet := true } } : State).setRing 15
    { Ring.reset with ctl := 0x86, examine := true, tail := 1 }
def headRec : LaunchRec := launchRec (BitVec.ofNat 512 (ofBytes (memReadN ringed.mem (ringed.hpaKey 0) 64)))

/-- Rings that may be enabled, rung, cleared and examined, with sizes that are legal and not. -/
theorem witness_RingEvents :
    (let word : Word64 := 0x80 + 16
     let r : Ring := { Ring.reset with ctl := 0x86 }
     15 < 16 ∧ (State.reset.ring 15).en = false ∧ bitAt word 7 = true ∧ 6 ≤ fld word 4 0 ∧ fld word 4 0 ≤ 16 ∧
     16 < fld (0x80 + 17 : Word64) 4 0 ∧ fld (0x80 + 5 : Word64) 4 0 < 6 ∧ bitAt (0x10 : Word64) 7 = false ∧
     ({ r with err := true } : Ring).err = true ∧ ({ r with ctl := 0x85 } : Ring).size < 6 ∧ r.en = true ∧ r.size = 6 ∧ r.err = false ∧
     2 ^ r.size < ((65 : BitVec 32) - r.head).toNat ∧ (State.reset.ring 15).err = false ∧ ((64 : BitVec 32) - r.head).toNat ≤ 2 ^ r.size) ∧
    (ringed.ring 15).en = true ∧ (ringed.ring 15).err = false ∧ (ringed.ring 15).examine = true ∧
    (ringed.ring 15).head ≠ (ringed.ring 15).tail ∧ ringed.broughtUp = true ∧ (ringed.ring 15).stopped = false ∧
    ringed.anyClaimed (ringed.launchLines headRec) = false ∧ ringed.launchMissing headRec = [] ∧
    ringed.mayRead (ringed.launchMissing headRec) = true ∧ ringed.poisoned (ringed.hpaKey 0 / 128) = false ∧
    ({ ringed with poison := [ringed.hpaKey 0 / 128] } : State).poisoned (ringed.hpaKey 0 / 128) = true := by
  decide +kernel

/-- A predecessor that is not known, one at work, and one that has failed; a job with no context. -/
theorem witness_Predecessors :
    (ringed.takeHead 15 { headRec with prev := 0 }).1.contextBad headRec.kid = true ∧
    ((ringed.ring 15).seqs.filter fun p => p.1 == 7).getLast? = none ∧
    (let p : Launch := { ring := 15, kid := 1, lseq := 7, crec := 0, live := 0, tasks := 0, level := 2, reason := 0, completed := true }
     let t : State := { ringed.setRing 15 { ringed.ring 15 with seqs := [(7, 9)] } with launches := [(9, p)] }
     ((t.ring 15).seqs.filter fun p => p.1 == 7).getLast? = some (7, 9) ∧ t.launches.find 9 = some p ∧ p.completed = true ∧ 2 ≤ p.level ∧
     ({ p with completed := false } : Launch).completed = false ∧ ({ headRec with proc := false, skip := true } : LaunchRec).skip = true ∧
     ({ headRec with proc := false, skip := false } : LaunchRec).proc = false) := by
  decide +kernel

/-- Entries that are placed, return, expire, are stolen and grow urgent; slices that end, of a task, of a handler and of a gang. -/
theorem witness_LaunchAndScheduleEvents :
    (let s : State := { user with clusters := [(0, { Cluster.reset with ready := [entry1] })], cyc := 12000000 }
     (s.schedule 0).isSome = true ∧ s.unrunEntry 0 = none ∧ (s.cluster 0).draining = false ∧ (s.joining 0).isNone = true ∧
     (s.urgentFirst 0).isNone = true ∧ s.toReserve 0 = none ∧ ((s.cluster 0).listed.filter fun e => (s.fit 0 e).isSome) = [entry1] ∧
     s.fit 0 entry1 = some [1] ∧ entry1.tasks = [task1] ∧ task1.gang = none ∧ entry1 ∈ (s.cluster 0).ready ∧
     entry1.urgent = none ∧ 12000000 ≤ s.cyc - entry1.since) ∧
    (let s := user.setCluster 3 { user.cluster 3 with spill := [entry1] }
     (s.cluster 3).spill = [entry1] ∧ (s.cluster 3).ready.length < 1024) ∧
    (let s := user.setCluster 3 { user.cluster 3 with resvs := [⟨3, [5], some 0, 0⟩] }
     s.expired 3 = some ⟨3, [5], some 0, 0⟩ ∧ (s.cluster 3).urgentHead.map (·.id) ≠ some 3) ∧
    (let s := user.setCluster 3 { user.cluster 3 with resvs := [⟨3, [5], some 0, 0⟩], ready := [{ entry1 with urgent := some 0 }] }
     s.expired 3 = some ⟨3, [5], some 0, 0⟩ ∧ (s.cluster 3).urgentHead.map (·.id) = some 3) ∧
    (let s : State := { user with clusters := [(1, { Cluster.reset with ready := [entry1] })], cyc := 256,
                                  cores := (List.range 128).map fun j => (128 + j, { Core.reset with task := some task1 }) }
     s.stealDue 0 = true ∧ s.stealFrom 0 = some (1, entry1) ∧ s.fit 0 entry1 = some [0]) ∧
    (let s : State := { user with cyc := 3000000, gangs := [(7, ⟨[(1, 0)], 2, false, 0, 0, 0, [], none, 0, 0, [], false, []⟩)] }
     (s.core 0).task = some task1 ∧ task1.firmware = false ∧ task1.handlerOf = none ∧ task1.gang = none ∧
     1500 * (s.job task1.kid).slice ≤ s.cyc - (s.core 0).sliceFrom ∧ (s.core 0).saveWhy = none ∧ (s.core 0).fault = none ∧
     (s.core 0).wait = .none ∧ ({ task1 with handlerOf := some 9 } : Task).handlerOf.isSome = true ∧
     (s.gangs.find 7).map (fun g => (g.size, g.shut)) = some (2, false)) := by
  decide +kernel

/-- A fault that waits for its delivery on a core at rest, a cell that is to be sealed, a swap under way. -/
def failing : State := atSup fun c => { c with fault := some ⟨0x12, 0, 0, 0, 0, 0⟩, wait := .deliver, run := none, pend := none }

/-- A task's core whose fault waits for its delivery, at rest. -/
def failed : State := at0 fun c => { c with fault := some ⟨0x12, 0, 0, 0, 0, 0⟩, wait := .deliver, run := none, pend := none }

/-- A job with a handler's template: its handler is made ready, urgent; one whose fault buffer others wait for is held. -/
theorem witness_Deliveries :
    let m : NMap (BitVec 8 × BitVec 8) := [(0x10000, (0xFF, 7))]
    let f : FaultRec := ⟨0x12, 0, 0, 0, 0, 0⟩
    (let u := ({ failed with mem := memWriteN failed.mem 0x100040 (bytesOf 8 0x1000),
                             svc := { Service.reset with trapbase := 0x100000 } } : State).deliverCore 0 task1 f m
     (u.parked.find 1).map (fun p => (p.hasEntry, p.fseq)) = some (true, 1) ∧
     (u.cluster 0).ready.map (fun e => (e.urgent.isSome, e.tasks.map fun h => (h.handlerOf, h.kid, h.started))) =
       [(true, [(some 1, 1, false)])]) ∧
    (let u := ({ failed with fbQueue := [9] } : State).deliverCore 0 task1 f m
     u.fbQueue = [9, 1] ∧ u.svc.ovf = true ∧ (u.core 0).wait = .held 96000 ∧ (u.core 0).fault = none) := by
  decide +kernel

/-- Faults of firmware and of a task whose save faults; a held task whose turn has come; a cell that is to be sealed, also in a pause; a
swap that can be copied and one that ends; counters that are due. -/
theorem witness_FaultAndRepairEvents :
    (∃ t, (failing.core firstSup).task = some t ∧ t.handlerOf = none ∧ t.firmware = true) ∧ (failing.core firstSup).wait = .deliver ∧
    (failed.core 0).task = some task1 ∧ task1.firmware = false ∧ task1.handlerOf = none ∧ (failed.core 0).wait = .deliver ∧
    (failed.core 0).pend = none ∧ (failed.core 0).run = none ∧
    (failed.core 0).regs.vq = [] ∧ (failed.core 0).regs.mq = [] ∧ (failed.core 0).regs.flights = [] ∧
    (failed.core 0).atomicOut = none ∧ failed.inTransit (failed.trapBase 1 / 128) = false ∧ (failed.saveCells 0 0x10000 true).isOk = false ∧
    (∃ m, failing.saveCells firstSup 0x10000 true = .ok m ∧ failing.saveReady firstSup m = true) ∧
    (let p : Parked := ⟨task1, ⟨0x12, 0, 0, 0, 0, 0⟩, 5, 0, 0, false⟩
     let s : State := { user with parked := [(1, p)], fbQueue := [1] }
     s.heldTurn = some p ∧ p.core = 5 ∧ (s.core 5).fault = none ∧ s.inTransit (s.trapBase 1 / 128) = false) ∧
    ((at0 fun c => { c with wait := .held 5 }).core 0).wait = .held 5 ∧
    (let s := user.setCell 33 { user.cell 33 with sealing := true }
     s.logicalOf 0 (64 + 1) = some 33 ∧ (s.cell 33).sealing = true ∧ s.paused = false ∧
     (∀ j, j < 4 → (s.core (33 * 4 + j)).run = none)) ∧
    (let s : State := { State.reset with swaps := [(0, 2, 48)] }
     s.swaps.find? (fun y => y.1 == 0) = some (0, 2, 48) ∧ s.drained 2 = true ∧ s.paused = false ∧
     (∀ p ∈ s.cores, p.2.inSpan = false) ∧ s.svc.logMode = 0 ∧
     (∃ k, ((openChunk user).core 0).run = some k ∧ k.ended = none ∧ k.fault = none ∧ ({ k with n := 1 } : Chunk).n = 1)) ∧
    reportLegal ⟨0, 7, 5, 0, 0⟩ = true ∧ reportLegal ⟨1, 0, 0, 0, 0⟩ = true ∧ reportLegal ⟨2, 1, 31, 0, 0⟩ = true ∧
    reportLegal ⟨3, 2, 16, 0, 0⟩ = true ∧ reportLegal ⟨4, 1, 0, 0, 0⟩ = true ∧ reportLegal ⟨5, 3, 0, 0, 0⟩ = true ∧
    reportLegal ⟨6, 5, 0, 0, 0⟩ = true ∧ reportLegal ⟨7, 1, 0, 0, 0⟩ = true ∧ reportLegal ⟨8, 2, 0, 0, 0⟩ = true ∧
    reportLegal ⟨8, 4, 0, 0, 0⟩ = true ∧ reportLegal ⟨8, 6, 17 * 16 + 8, 0, 0⟩ = true ∧ reportLegal ⟨8, 9, 8, 0, 0⟩ = true ∧
    State.reset.logicalOf 0 65 = some 33 ∧ (State.reset.core (33 * 4)).keepsHeld = false ∧
    ((((State.reset.die 0).sealPath 65).spares (65 / 64)).filter fun p => !State.reset.cellTested 0 (65 / 64 * 64 + p)) ≠ [] ∧
    (let d : Die := { (State.reset.die 0) with spareCells := [(1, [])] }
     ((d.sealPath 65).spares (65 / 64)) = []) ∧
    user.bufferUsed < 4096 ∧ user.fbQueue = [] ∧ ({ user with fbQueue := [9] } : State).fbQueue ≠ [] ∧
    (let s : State := { State.reset with paused := true, swaps := [(0, 2, 48)] }
     s.svc.pst ≠ .standby ∧ s.swaps = [(0, 2, 48)] ∧ s.sealsFirst 2 = false ∧ s.swaps.head?.map (·.2.1) = some (65 / 32)) ∧
    (let s : State := { State.reset with dt := 1000000000 }
     s.lastCheck + 1000000000 ≤ s.dt ∧ s.counters = [] ∧ s.cells = []) := by
  refine ⟨⟨_, rfl, rfl, rfl⟩, rfl, rfl, rfl, rfl, rfl, rfl, rfl, by decide +kernel, by decide +kernel, by decide +kernel, by decide +kernel,
    by decide +kernel, by decide +kernel, ?_, ?_⟩
  · obtain ⟨m, h⟩ := saveCells_of (s := failing) (i := firstSup) (a := 0x10000) (d := true) (by decide +kernel)
    exact ⟨m, h, saveReady_of (by decide +kernel) (by decide +kernel) (by decide +kernel) (by decide +kernel) (by decide +kernel)
      (by decide +kernel) (by decide +kernel)⟩
  · decide +kernel

set_option maxRecDepth 100000 in
/-- Good flits, of data and idle, and a damaged one; a flit that is kept, one under repair; timing messages by their offset; queue pairs
with work to do, stopped, with an entry under way, and with a receive buffer. -/
theorem witness_LinkEvents :
    let f := makeFlit 1 7 0 0 1 0 0 5
    (State.reset.port 17).retraining = false ∧ flitGood f = true ∧ flitType f = 1 ∧ flitGood (makeFlit 4 7 0 0 1 0 0 0) = true ∧
    flitType (makeFlit 4 7 0 0 1 0 0 0) ≠ 1 ∧ flitGood (f ^^^ 1) = false ∧
    (let s := State.reset.setPort 3 { Port.reset with sent := [f] }
     (s.port 3).sentFlit 7 = some f) ∧
    (let s := State.reset.setPort 3 { Port.reset with broken := [(7, ⟨f, 0, 0, [], 0, false⟩)] }
     (s.port 3).broken.find 7 = some ⟨f, 0, 0, [], 0, false⟩) ∧
    ((State.reset.setPort 3 { Port.reset with retraining := true }).port 3).retraining = true ∧
    (let s : State := { State.reset with lastTiming := some 0, domain := true, dt := 1000000 }
     s.lastTiming = some 0 ∧ s.domain = true ∧ 0 + 1000000 ≤ s.dt ∧ (((s.port 3).firstSeen.find? fun p => p.1 == 0).map (·.2)).getD s.dt = 1000000) ∧
    (let x : QueuePair := ⟨3, 0, 0, 4, 0x30000, 0, 1, 2, 0, 0, none, false, [0x5000], 0⟩
     let t := tables (11 * 2 ^ 6 + 7)
     let s : State := { t with mem := memWriteN t.mem 0 [1], qps := [(9, x)], jobs := [(0, { Job.reset with trans0 := 0x10000, trans1 := 0x8000000 })] }
     s.qps.find 9 = some x ∧ x.index < s.counter x.kid x.pc ∧ x.running = none ∧ x.stopped = false ∧ s.workMissing x x.index = [] ∧
     s.anyClaimed (s.entryLinesOf x x.index) = false ∧
     (match s.readWork x 0 with
       | (_, .ok w) => workBad w
       | _ => false) = true ∧
     (match s.locateW (s.qpCtx x) .write x.status 16 with
       | (_, .ok ps) => decide (ps = [(0, 16)])
       | _ => false) = true ∧
     workBad (BitVec.ofNat 512 128) = false ∧
     ({ x with running := some 0 } : QueuePair).running = some 0 ∧ ({ x with stopped := true } : QueuePair).stopped = true) := by
  decide +kernel

/-- A package that timing messages of another reach: its number is not the grandmaster's, whichever that is. -/
theorem witness_timing : ∃ n, let s : State := { State.reset with svc := { Service.reset with pkgSet := true, pkgnum := n }, npkg := 2 }
    s.svc.pkgSet = true ∧ 2 ≤ s.npkg ∧ s.master = false := by
  by_cases h : ((Config.grandmaster 0).filter (decide <| · < 2)).getD 0 = 0
  · refine ⟨1, rfl, by decide, ?_⟩
    simp only [State.master]
    rw [show State.reset.resets = 0 from rfl, h]
    decide
  · refine ⟨0, rfl, by decide, ?_⟩
    simp only [State.master]
    rw [show State.reset.resets = 0 from rfl]
    generalize ((Config.grandmaster 0).filter (decide <| · < 2)).getD 0 = x at h
    simpa using fun e => h e.symm

/-- Before and after bring-up; a self-test that may start, of a cell and of a slice, and those that end; a package that may stand by; a
power check that is due. -/
theorem witness_ServiceEvents :
    State.reset.svc.pkgSet = false ∧ State.reset.domain = false ∧ State.reset.nextTask = 1 ∧
    ({ State.reset with nextTask := 2 } : State).nextTask ≠ 1 ∧ fld (160 : Word64) 7 0 = 160 ∧ fld (161 : Word64) 7 0 = 161 ∧
    fld (4 : Word64) 7 0 = 4 ∧ fld (5 : Word64) 7 0 = 5 ∧ bitAt State.reset.svc.stctl 63 = false ∧
    (let s : State := { State.reset with svc := { Service.reset with stctl := 0x8000000000000000 } }
     bitAt s.svc.stctl 63 = true ∧ s.selfTest = none ∧ s.mayTest = true) ∧
    (let s : State := { State.reset with selfTest := some (2 ^ 15) }
     s.selfTest = some (2 ^ 15) ∧ (s.testedCell 0 32).isSome = false ∧ (s.testedCell 0 0).isSome = true ∧ s.paused = false ∧
     s.testRuns (2 ^ 15) = true ∧ s.cellUnderTest = none ∧ ({ s with selfTest := some 0 } : State).cellUnderTest.isSome = true) ∧
    (let s : State := { State.reset with svc := { Service.reset with pwrctl := 1 } }
     fld s.svc.pwrctl 1 0 = 1 ∧ s.anyLive = false ∧ s.svc.pst ≠ .standby ∧ s.paused = false ∧
     (∀ p ∈ s.rings, (p.2.en && p.2.examine) = false)) ∧
    (let s : State := { State.reset with dt := 1000000 }
     s.lastPower + 1000000 ≤ s.dt) := by
  decide +kernel

/-! ### The machine as a whole -/

/-- A core whose turn it is, that may run, and whose fetch gives the word, at an entry point too. -/
def fetches1 (w : Word64) (e : Bool) : Bool :=
  let s := (State.reset.placeWord w).modCore firstSup fun c => { c with regs := { c.regs with entry := e } }
  s.turn == some firstSup && ({ s with turn := none } : State).runnable firstSup &&
    match fetchAct (({ s with turn := none } : State).atFetch firstSup) with
    | .ok (x, t) => x == w && t.regs.entry == e
    | .error _ => false

/-- Bundles of one and of two words, a `blk` at an entry point, and values that do not decode. -/
theorem witness_StepRunsTheDecodedBundle :
    fetches1 0x0000000014448400 false = true ∧ fetches1 0x008604C0840003E8 true = true ∧ fetches1 0x0000535503001000 true = true ∧
    fetches1 0x000000007E000000 true = true ∧ looksMerge 0x000000007E000000 = false ∧ looksMerge 0x0000535503001000 = true ∧
    isMerge (.blk { mrg := true, sig := 0x001, dif := 0, dig := 0x5355 }) = true ∧ isMerge (.xlit false 0x3E8) = false ∧
    refusedWith 0x000000007E000000 0x01 = true := by
  decide +kernel

/-- A fault in a chunk, in a speculative one, and on a core of a supervisor cell, also with an older chunk pending. -/
theorem witness_FaultEntry :
    (openChunk user).me.run.isSome = true ∧ isSup user.cur = false ∧ user.me.speculating = false ∧
    (at0 fun c => { c with spec := some ⟨true, (0, [], Vector.replicate 3 0), 0, false, 0, 0⟩ }).me.speculating = true ∧
    (openChunk sup).me.run.isSome = true ∧ isSup sup.cur = true ∧ sup.me.speculating = false ∧ sup.me.pend = none ∧
    (atSup fun c => { c with pend := some (openChunk sup).chunk }).me.pend ≠ none := by
  decide +kernel

/-- An instruction that is no event and is done. -/
theorem witness_WordFrame : isEvent (.addI (sss 2)) = false ∧ user.svc.logMode ≠ 2 ∧
    (match exec (.addI (sss 2)) user with
      | .next t => decide (t.me.phase = .ok)
      | _ => false) = true := by decide +kernel

/-- The machine after reset, where no core has run, has its cores in order. -/
theorem witness_StepKeepsCoresOk : CoresOk State.reset := by
  intro i
  have h : State.reset.core i = Core.reset := rfl
  rw [h]
  refine ⟨⟨by decide, by decide⟩, fun k hk => ?_, fun k hk => ?_⟩ <;> cases hk

/-- Reset memory is in order, and so is a memory of one byte. -/
theorem witness_MemoryReadsBack : Memory.wf State.reset.mem = true ∧ Memory.wf (memWrite [] 5 7) = true ∧ MemoryOk State.reset := by
  refine ⟨by decide, by decide, ?_⟩
  unfold MemoryOk
  decide

end Sys2Proof.Tests
end

section
/-!
PROOFS. Element-by-element words and comparisons (R191, R192, R194, R195, R197): each runs one shared operation, and on a ready core
that operation ends in the state that its claim names.
-/
namespace Sys2Proof.Proofs
open Sys2Proof.Machine Sys2Proof.Claims

/-- A word that runs an element-by-element operation completes on a ready core. -/
theorem issue_elementOp {s : State} (h : Ready s) (op : Nat) (f : Arith) (g : Nat → Nat → Nat → Nat → Nat × Flags) :
    issue (elementOp op f g) s = .next (done (elementwise op f g (openChunk s))) :=
  elementOp_ok h op f g

/-- Settles O5: each of these words runs `elementOp`, with the function of its row of the table of R191. -/
theorem integerElementwise : Obligations.IntegerElementwise := by
  unfold Obligations.IntegerElementwise
  intro s f h
  and_intros <;> exact issue_elementOp h _ f _

/-- The effect of a comparison on a ready core whose chunk is open. -/
theorem compareAct_ok {s : State} (h : Ready s) (ho : Opened s) (op : Nat) (f : Arith) (g : Nat → Nat → Nat → Bool × Flags) :
    compareAct op f g s = .ok ((), comparison op f g s) := by
  have hs : Settled s := h.2.1
  unfold compareAct comparison
  split
  · simp [readElems_ok h, writeS_ok hs, scalarResult]
  · simp [readElems_ok h, waitOn_ok hs, enqueueV_ok ho]

/-- A word that runs a comparison completes on a ready core. -/
theorem issue_compareAct {s : State} (h : Ready s) (op : Nat) (f : Arith) (g : Nat → Nat → Nat → Bool × Flags) :
    issue (compareAct op f g) s = .next (done (comparison op f g (openChunk s))) :=
  issue_ok h.1 (compareAct_ok (openChunk_ready h) (openChunk_opened s) op f g)

/-- Settles O6: each of these words runs `compareAct`; what a NaN gives is in `floatCompare` (R195). -/
theorem comparisons : Obligations.Comparisons := by
  unfold Obligations.Comparisons
  intro s f h
  and_intros <;> exact issue_compareAct h _ f _

end Sys2Proof.Proofs
end

section
/-!
PROOFS. The mask words (R196) and the words on 64-bit scalar registers (R120, R191).
-/
namespace Sys2Proof.Proofs
open Sys2Proof.Machine Sys2Proof.Claims

/-! ## Mask words -/

theorem writeM_ok {s : State} (h : Settled s) (i : BitVec 5) (x : MReg) :
    writeM i x s = .ok ((), s.modRegs (·.putM (i.extractLsb' 0 3) x)) := by
  simp [writeM, waitOn_ok h]

/-- A mask does not change as the word opens its chunk. -/
@[simp] theorem maskVal_openChunk (s : State) (i : BitVec 3) : maskVal (openChunk s) i = maskVal s i := by
  simp [maskVal]

/-- A mask word of two sources on a ready core. -/
theorem issue_maskOp {s : State} (h : Ready s) (f : Arith) (g : MReg → MReg → MReg) :
    issue (maskOp f g) s = .next (done ((openChunk s).modRegs (·.putM (f.d.extractLsb' 0 3)
      (g (maskVal s (f.a.extractLsb' 0 3)) (maskVal s (f.b.extractLsb' 0 3)))))) := by
  obtain ⟨-, hs, -, -⟩ := openChunk_ready h
  exact issue_ok h.1 (by simp [maskOp, readM_ok hs, writeM_ok hs])

/-- MNOT on a ready core. -/
theorem execMnot_ok {s : State} (h : Ready s) (f : Arith) :
    execMnot f s = .next (done ((openChunk s).modRegs (·.putM (f.d.extractLsb' 0 3) (~~~maskVal s (f.a.extractLsb' 0 3))))) := by
  obtain ⟨-, hs, -, -⟩ := openChunk_ready h
  exact issue_ok h.1 (by simp [readM_ok hs, writeM_ok hs])

/-- A mask counted into a scalar register on a ready core. -/
theorem issue_maskCount {s : State} (h : Ready s) (op : Nat) (f : Arith) (g : Nat → Nat) :
    issue (maskCount op f g) s = .next (done (queued (beatsOf op f)
      [.s f.d (BitVec.ofNat 64 (g (maskVal s (f.a.extractLsb' 0 3)).toNat))] flNone (openChunk s))) := by
  obtain ⟨-, hs, -, -⟩ := openChunk_ready h
  exact issue_ok h.1 (by simp [maskCount, readM_ok hs, waitOn_ok hs, enqueueV_ok (openChunk_opened s)])

/-! ## Element values as bit vectors -/

theorem signedN_toNat {w : Nat} (x : BitVec w) : signedN w x.toNat = x.toInt := by
  have hx := x.isLt
  unfold signedN
  rw [Nat.mod_eq_of_lt hx, BitVec.toInt_eq_toNat_cond]
  cases w with
  | zero => simp [BitVec.toNat_of_zero_length]
  | succ n =>
    have hlt : x.toNat < 2 ^ n ↔ 2 * x.toNat < 2 ^ (n + 1) := by rw [pow_succ]; omega
    simp [hlt]

theorem wrapN_eq_toNat_ofInt (w : Nat) (x : Int) : wrapN w x = (BitVec.ofInt w x).toNat :=
  (BitVec.toNat_ofInt x).symm

/-- Whatever the signedness of TYPE, the value of a pattern wraps back to the pattern. -/
theorem ofInt_intVal {w : Nat} (ty : BitVec 3) (x : BitVec w) : BitVec.ofInt w (intVal ty w x.toNat) = x := by
  unfold intVal
  split
  · rw [signedN_toNat, BitVec.ofInt_toInt]
  · rw [Nat.mod_eq_of_lt x.isLt, BitVec.ofInt_natCast, BitVec.ofNat_toNat, BitVec.setWidth_eq]

/-! ## Words on 64-bit scalar registers -/

/-- A word of i64 or u64 whose destination and sources are scalar registers (R135, R136). -/
structure WideScalar (f : Arith) : Prop where
  dk : f.dk = true
  ak : f.ak = 1
  bk : f.bk = 1
  ty : f.ty = 3 ∨ f.ty = 7

theorem WideScalar.width {f : Arith} (h : WideScalar f) : tyWidth .i f.ty = 64 := by
  rcases h.ty with e | e <;> rw [e] <;> rfl

/-- A result of 64 bits fills its register (R120). -/
theorem WideScalar.fillS {f : Arith} (h : WideScalar f) (x : Word64) : fillS .i f.ty x.toNat = x := by
  simp only [Machine.fillS, h.width]
  split
  · rw [Nat.mod_eq_of_lt x.isLt, BitVec.ofNat_toNat, BitVec.setWidth_eq]
  · rw [signedN_toNat, BitVec.ofInt_toInt]

/-- Opcodes 0x00 to 0x11 are the class-I words of form E with two sources (R143). -/
theorem aInfo_of_le {op : Nat} (h : op ≤ 0x11) : aInfo op = ⟨.i, .e, false⟩ := by simp [aInfo, h]

/-- Its operands are the two registers, as one element. -/
theorem WideScalar.operands {f : Arith} (h : WideScalar f) {op : Nat} (ho : op ≤ 0x11) (s : State) :
    operands op f s =
      ⟨1, 64, [true], [(s.src.s.get f.a.toFin).toNat], [(s.src.s.get f.b.toFin).toNat], [0]⟩ := by
  have ha := Nat.mod_eq_of_lt (s.src.s.get f.a.toFin).isLt
  have hb := Nat.mod_eq_of_lt (s.src.s.get f.b.toFin).isLt
  simp [Claims.operands, source, aInfo_of_le ho, h.width, h.dk, h.ak, h.bk, ha, hb]

/-- The word leaves in its destination what its function gives of its two sources. -/
theorem WideScalar.gives {f : Arith} (hw : WideScalar f) {s : State} (h : Ready s) {op : Nat} (ho : op ≤ 0x11)
    {g : Nat → Nat → Nat → Nat → Nat × Flags} {x : Word64}
    (hg : (g 64 (s.src.s.get f.a.toFin).toNat (s.src.s.get f.b.toFin).toNat 0).1 = x.toNat) :
    ∃ t, issue (elementOp op f g) s = .next t ∧ t.me.phase = .ok ∧ t.regs.s.get f.d.toFin = x := by
  refine ⟨_, issue_elementOp h op f g, ?_, ?_⟩
  · simp [done]
  · simp [done, elementwise, elementResult, hw.operands ho, hw.dk, aInfo_of_le ho, mapActive, hg, scalarResult, hw.fillS]

/-- Settles O7: the mask words by their shared operations; a 64-bit sum, difference or product wraps as one of bit vectors does. -/
theorem maskAndScalarWords : Obligations.MaskAndScalarWords := by
  unfold Obligations.MaskAndScalarWords
  intro s f h
  refine ⟨fun hd ha hb hty => ?_, issue_maskOp h f _, issue_maskOp h f _, issue_maskOp h f _, execMnot_ok h f,
    issue_maskCount h _ f _, issue_maskCount h _ f _⟩
  have hw : WideScalar f := ⟨hd, ha, hb, hty⟩
  refine ⟨hw.gives h (op := 0x00) (by decide) ?_, hw.gives h (op := 0x01) (by decide) ?_, hw.gives h (op := 0x04) (by decide) ?_,
    hw.gives h (op := 0x08) (by decide) (BitVec.toNat_and ..).symm, hw.gives h (op := 0x09) (by decide) (BitVec.toNat_or ..).symm,
    hw.gives h (op := 0x0A) (by decide) (BitVec.toNat_xor ..).symm⟩
  · simp only [wrapped, wrapN_eq_toNat_ofInt, BitVec.ofInt_add, ofInt_intVal]
  · simp only [wrapped, wrapN_eq_toNat_ofInt, Int.sub_eq_add_neg, BitVec.ofInt_add, BitVec.ofInt_neg, ofInt_intVal, BitVec.sub_eq_add_neg]
  · simp only [wrapped, wrapN_eq_toNat_ofInt, BitVec.ofInt_mul, ofInt_intVal]

end Sys2Proof.Proofs
end

section
/-!
PROOFS. The words that set up the weave context (R228, R229): WLOAD, WSEED and WSEED_H.
-/
namespace Sys2Proof.Proofs
open Sys2Proof.Machine Sys2Proof.Claims

/-- A settled core still is as a word opens its chunk. -/
theorem openChunk_settled {s : State} (h : Settled s) : Settled (openChunk s) := fun n => by simpa using h n

/-- The registers of a core stay full as a word opens its chunk. -/
theorem openChunk_full {s : State} (h : Full s) : Full (openChunk s) := by simpa [Full] using h

/-- A scalar source, read as a word opens its chunk. -/
theorem readS_openChunk {s : State} (hs : Settled s) (hf : Full s) (i : BitVec 5) (w : Bool) :
    readS i w (openChunk s) = .ok (s.src.s.get i.toFin, openChunk s) := by
  rw [readS_ok (openChunk_settled hs) (openChunk_full hf), openChunk_src]

/-- The address of a format-M word, read as the word opens its chunk (R140). -/
theorem addrM_openChunk {s : State} (hs : Settled s) (hf : Full s) (f : MF) (scale : Nat) :
    addrM f scale (openChunk s) = .ok (addrOf f scale s, openChunk s) := by
  simp [addrM, readS_openChunk hs hf, addrOf, sext64]

/-- WLOAD of an aligned global address and at most 4,096 dimensions (R228): no check of it fails. -/
theorem execWload_ok {s : State} (hr : Runs s) (hs : Settled s) (hf : Full s) (f : MF)
    (hc : canonical (addrOf f 4096 s) = true) (hg : apertureOf (addrOf f 4096 s) < 0xFFC)
    (ha : (addrOf f 4096 s).toNat % 4096 = 0) (hn : (s.src.s.get f.x.toFin).toNat ≤ 4096) :
    execWload f s = .next (done ((openChunk s).modRegs fun r =>
      { r with wtab := BitVec.ofNat 64 ((s.src.s.get f.x.toFin).toNat % 2 ^ 13 * 2 ^ 51 + fld (addrOf f 4096 s) 56 12) })) :=
  issue_ok hr (by
    simp [wloadAct, addrM_openChunk hs hf, readS_openChunk hs hf, hc, Nat.not_le.mpr hg, ha, Nat.not_lt.mpr hn])

/-- The field that WSEED takes is the low half of its source (R229). -/
theorem ofNat_fld_31_0 (x : Word64) : BitVec.ofNat 64 (fld x 31 0) = (x.extractLsb' 0 32).setWidth 64 := by
  simp [fld, bitsN, ← BitVec.toNat_inj]

/-- WSEED (R229). -/
theorem execWseed_ok {s : State} (hr : Runs s) (hs : Settled s) (hf : Full s) (f : TF) :
    execWseed f s = .next (done ((openChunk s).modRegs fun r =>
      { r with wseed := ((s.src.s.get f.x.toFin).extractLsb' 0 32).setWidth 64 })) :=
  issue_ok hr (by simp only [Act.bind_apply, readS_openChunk hs hf, onRegs_apply, ofNat_fld_31_0])

/-- WSEED_H (R229): the first source is hashed with the second as the seed. -/
theorem execWseedH_ok {s : State} (hr : Runs s) (hs : Settled s) (hf : Full s) (f : TF) :
    execWseedH f s = .next (done ((openChunk s).modRegs fun r =>
      { r with wseed := (hash32 ((s.src.s.get f.x.toFin).extractLsb' 0 32) ((s.src.s.get f.y.toFin).extractLsb' 0 32)).setWidth 64 })) :=
  issue_ok hr (by simp only [Act.bind_apply, readS_openChunk hs hf, onRegs_apply])

/-- Settles O26: on a core that runs a task and whose operands can be read, each of the three words runs to its end. -/
theorem weaveWords : Obligations.WeaveWords := by
  unfold Obligations.WeaveWords
  intro s hr hs hf
  exact ⟨fun f hc hg ha hn => execWload_ok hr hs hf f hc hg ha hn, execWseed_ok hr hs hf, execWseedH_ok hr hs hf⟩

end Sys2Proof.Proofs
end

section
/-!
PROOFS. The control words whose one effect rests on no register (R271-R273, R277, R283, R284): NOP, XLIT, SETM, SETRM_MODE,
SETRM_IMM, SETLC_IMM and JMP. None of them reads an operand or makes a check, so each runs to its end on every core that runs a task.
-/
namespace Sys2Proof.Proofs
open Sys2Proof.Machine Sys2Proof.Claims

/-- A word that only changes its core completes with that change. -/
theorem issue_onMe {s : State} (hr : Runs s) (g : Core → Core) : issue (onMe g) s = .next (done ((openChunk s).modMe g)) :=
  issue_ok hr (onMe_apply g _)

/-- A word that only changes live registers completes with that change. -/
theorem issue_onRegs {s : State} (hr : Runs s) (g : Regs → Regs) :
    issue (onRegs g) s = .next (done ((openChunk s).modRegs g)) :=
  issue_ok hr (onRegs_apply g _)

/-- A word that only says where control goes completes with that. -/
theorem issue_setNext {s : State} (hr : Runs s) (n : NextPc) :
    issue (setNext n) s = .next (done ((openChunk s).modMe fun c => { c with next := n })) :=
  issue_ok hr (setNext_apply n _)

/-- NOP (R271): all that is left of it is the chunk it opened. -/
theorem execNop_ok {s : State} (hr : Runs s) (p : Bool) : execNop p s = .next (done (openChunk s)) :=
  issue_ok hr (Act.pure_apply () _)

/-- JMP (R273): the target is counted from the bundle's own address. -/
theorem execJmp_ok {s : State} (hr : Runs s) (f : JF) :
    execJmp f s = .next (done ((openChunk s).modMe fun c => { c with next := .jump (s.src.pc + 8 * f.off.signExtend 64) })) := by
  have ht : jTarget s.src.pc f.off = s.src.pc + 8 * f.off.signExtend 64 := rfl
  rw [execJmp, issue_setNext hr, ht]

/-- Settles O1: apart from NOP, each word is one change of the core, of its registers or of where control goes. -/
theorem plainControlWords : Obligations.PlainControlWords := by
  unfold Obligations.PlainControlWords
  intro s hr
  refine ⟨execNop_ok hr, ?xlit, ?setm, ?setrmMode, ?setrmImm, ?setlcImm, execJmp_ok hr⟩
  case xlit => exact fun f lit => issue_onMe hr _
  case setm => exact fun f => issue_onRegs hr _
  case setrmMode => exact fun f => issue_onRegs hr _
  case setrmImm => exact fun f => issue_onRegs hr _
  case setlcImm => exact fun f => issue_onRegs hr _

end Sys2Proof.Proofs
end
